-- ==== Sys2Proof/Word.lean ====
section
/-! DEFINITION. The widths of the AB4270: bytes on its links, its 32-bit clocks and numbers, and the index types of its
tables (spec 00_scope.md 4.3). -/

namespace Sys2Proof

/-- One byte on the trunk link, the street loop or the memory port. -/
abbrev Byte := BitVec 8

/-- The second count or uptime minutes: 32 bits, wrapping (R1, R2). -/
abbrev Clock := BitVec 32

/-- A container number or a card number (00_scope.md 4.3): 32 bits. -/
abbrev Number := BitVec 32

/-- A round number or a vehicle number on the links: 16 bits. -/
abbrev Short := BitVec 16

/-- A station serial: 48 bits (R13). -/
abbrev Serial := BitVec 48

/-- A station row: the row of loop address `a` (1..62) is held at index `a - 1` (R13). -/
abbrev Station := Fin 62

/-- A container row index, 0..191 (R80). -/
abbrev Row := Fin 192

/-- A bay of a station, 0..3. -/
abbrev Bay := Fin 4

/-- A record memory bucket, 0..4095 (R103). -/
abbrev Bucket := Fin 4096

/-- A wall-time stamp (day number, minute-of-week), or `none` for the time-invalid mark (R5). -/
abbrev Stamp := Option (Nat × Nat)

end Sys2Proof
end

