-- ==== Sys2Proof/Syntax.lean ====
section
/-! DEFINITION. The commands of the block: one constructor of `Instr` for each row of spec/opcode_table.json, in the table's
order. The table gives the rows no bits and no fields; the operands are those the rules name (log 32). -/

namespace Sys2Proof

/-- The outcome of a DEPOSIT_CLOSE (R140). -/
inductive CloseOutcome where
  | used | unused
deriving DecidableEq, Repr

/-- The cause carried by a JOIN_ANNOUNCE (R18). -/
inductive JoinCause where
  | powerOn | watchdog | brownout | soft
deriving DecidableEq, Repr

/-- The lock state carried by a LIFT_DONE (R154). -/
inductive LockState where
  | locked | unlocked
deriving DecidableEq, Repr

/-- How a read access of the record memory ended (R174). -/
inductive MemRead where
  /-- The device returned what the modelled device holds at the place. -/
  | asHeld
  /-- The device returned these bytes: its contents were changed outside the part, or it is another device (log 3). -/
  | other (bytes : List Byte)
  /-- The read failed. -/
  | failed
deriving DecidableEq, Repr

/-- What a failed or abandoned write has left (R174): the first `completed` units of the operation stand as they were to be
written, the next unit holds `left` laid over its former contents, and the units after it are untouched (log 29). -/
structure Residue where
  completed : Nat
  left : List Byte
deriving DecidableEq, Repr

/-- How the write and read-back accesses of an operation ended (R174). -/
inductive MemWrite where
  /-- Every read-back returned its unit as it was written. -/
  | done
  /-- What the read-back of each unit returned, in the order of the units: the part compares them (R210). A unit past the end of the
  list reads back as it was written. -/
  | readBack (returned : List (List Byte))
  /-- An access failed by itself, and this is what it left. -/
  | failed (r : Residue)
deriving DecidableEq, Repr

/-- The line-rate strap pins (LS1 LS0) and (TS1 TS0), spec 11.5. -/
structure Straps where
  loop : BitVec 2
  trunk : BitVec 2
deriving DecidableEq, Repr

/-- The commands. `tag` is a trunk frame's tag byte and `payload` its payload bytes (11.2); `arg` and `rest` are the payload
bytes after the QUERY subject or the RESET scope; `flags` is an upward frame's flag byte (11.3); `bytes` are bytes as
they arrived on a line. -/
inductive Instr where
  | coldReset (cut : Residue)
  | coldResetRelease (straps : Straps)
  | secondEvent
  | minuteEvent
  | refillTrigger
  | decisionLimitExpiry
  | closeLimitExpiry
  | serviceTimerExpiry
  | dozeWakeDue
  | staleWatch
  | stableClear
  | roundExpiry
  | summary
  | trunkGapTimeout (bytes : List Byte)
  | trunkCrcError (bytes : List Byte)
  | unknownKind (kind tag : Byte) (payload : List Byte)
  | timeSet (tag : Byte) (payload : List Byte)
  | paramPut (tag : Byte) (payload : List Byte)
  | profilePut (tag : Byte) (payload : List Byte)
  | containerPut (tag : Byte) (payload : List Byte)
  | containerDrop (tag : Byte) (payload : List Byte)
  | stationPut (tag : Byte) (payload : List Byte)
  | stationDrop (tag : Byte) (payload : List Byte)
  | stationClear (tag : Byte) (payload : List Byte)
  | windowPut (tag : Byte) (payload : List Byte)
  | classPut (tag : Byte) (payload : List Byte)
  | costPut (tag : Byte) (payload : List Byte)
  | accountPut (tag : Byte) (payload : List Byte)
  | cardPut (tag : Byte) (payload : List Byte)
  | cardDrop (tag : Byte) (payload : List Byte)
  | cacheFlush (tag : Byte) (payload : List Byte)
  | roundLoad (tag : Byte) (payload : List Byte)
  | roundCancel (tag : Byte) (payload : List Byte)
  | holdClear (tag : Byte) (payload : List Byte)
  | passDown (tag : Byte) (payload : List Byte)
  | queryStatus (tag : Byte) (arg : List Byte)
  | queryContainer (tag : Byte) (arg : List Byte)
  | queryStation (tag : Byte) (arg : List Byte)
  | queryAccount (tag : Byte) (arg : List Byte)
  | queryRound (tag : Byte) (arg : List Byte)
  | queryServiceQueue (tag : Byte) (arg : List Byte)
  | resetTraffic (tag : Byte) (rest : List Byte)
  | resetFull (tag : Byte) (rest : List Byte) (cut : Residue)
  | fullResetReplySent (straps : Straps)
  | upstreamFrameSent
  | portGrant
  | memoryAccessTimeout (read : MemRead) (left : Residue)
  | identificationReadComplete (answer : Option (List Byte))
  | headerReadComplete (read : MemRead)
  | restoreRecordReadComplete (read : MemRead)
  | bucketFetchComplete (read : MemRead)
  | missSlotPlacement
  | cardWriteComplete (read : MemRead) (write : MemWrite)
  | recordWriteComplete (write : MemWrite)
  | headerWriteComplete (write : MemWrite)
  | imageFormatComplete (write : MemWrite)
  | headerFormatRequeue
  | loopTurnStart
  | responseWindowExpiry
  | loopByteGapTimeout
  | pollAnswerGarbled (bytes : List Byte)
  | openSlotGarbled (bytes : List Byte)
  | attention (address : Byte)
  | joinAnnounce (serial : Serial) (cause : JoinCause)
  | answerNothing (flags : Byte)
  | dozeNotice (flags : Byte) (interval : Short)
  | depositRequest (flags bay : Byte) (card : Number) (tag : Byte)
  | depositClose (flags bay : Byte) (outcome : CloseOutcome)
  | levelSample (flags bay : Byte) (echo : BitVec 16) (temperature : BitVec 8) (lidOpen : Bool)
  | liftRequest (flags : Byte) (vehicle round : Short) (container : Number)
  | roundEnd (flags : Byte) (vehicle round : Short)
  | liftDone (flags : Byte) (vehicle : Short) (container : Number) (weight : Short) (lock : LockState)
  | passUp (flags : Byte) (bytes : List Byte)
  | trunkBadLength (bytes : List Byte)
  | openSlotSilentFrame (bytes : List Byte)
deriving DecidableEq, Repr

end Sys2Proof
end

