-- ==== Sys2Proof/Decode.lean ====
section
/-! DEFINITION. The table gives its rows no bits, so no word spells a command. A trunk frame's bytes are read by the receiver
(Machine/Trunk.lean), a loop frame's by `readUpward` (Machine/Frames.lean). -/

namespace Sys2Proof

/-- The command a word spells by the bits of spec/opcode_table.json: none, since no row has bits. -/
def decodeTableWord (_nbits _w : Nat) : Option Instr := none

end Sys2Proof
end

