-- ==== Sys2Proof/Config.lean ====
section
/-! DEFINITION. What the manual leaves open and the fixed sizes it gives. The open values are opaque: no proof can see them. -/

namespace Sys2Proof.Config

/-- FREE VALUE (log 16). The n-th byte drawn where the spec states a place in a frame but not what stands there. -/
opaque freeByte : Nat → Byte

/-- FREE VALUE (log 15). What a flag byte other than 00h and 01h is read as; 11.1 states only those two. -/
opaque flagOf : Byte → Bool

/-- Places of the upstream queue (R200). -/
def upstreamPlaces : Nat := 128

/-- Occupancy at and above which a report is dropped (R200). -/
def reportPlaces : Nat := 120

/-- Places of the write queue (R175). -/
def writePlaces : Nat := 8

/-- Commands a downstream queue holds (R48). -/
def downPlaces : Nat := 5

/-- Entries of the pending-request list (R121). -/
def requestPlaces : Nat := 16

/-- Entries of the miss list (R107). -/
def missPlaces : Nat := 8

/-- Wanted cards of a miss list entry (R108). -/
def wantedPlaces : Nat := 16

/-- Steps of a round (R149). -/
def stepPlaces : Nat := 48

/-- Image records of the configuration image (11.4). -/
def imageRecords : Nat := 303

end Sys2Proof.Config
end

