-- ==== Sys2Proof/Machine/Bytes.lean ====
section
/-! DEFINITION. Byte order, flag bytes, masks and the three checks of chapter 11: fields are sent and stored high byte first, and
signed fields in two's complement (11.1); the trunk CRC (R207), the loop CRC (R209) and the check byte (R210). -/

namespace Sys2Proof.Machine

/-- The number held by bytes, high byte first (11.1). -/
def natOf (bytes : List Byte) : Nat :=
  bytes.foldl (fun n b => n * 256 + b.toNat) 0

/-- A number in `size` bytes, high byte first (11.1). -/
def bytesOf : Nat → Nat → List Byte
  | 0, _ => []
  | size + 1, n => bytesOf size (n / 256) ++ [BitVec.ofNat 8 n]

/-- The number held by bytes in two's complement (11.1). -/
def intOf (bytes : List Byte) : Int :=
  (BitVec.ofNat (8 * bytes.length) (natOf bytes)).toInt

/-- A signed number in `size` bytes, in two's complement (11.1). -/
def bytesOfInt (size : Nat) (n : Int) : List Byte :=
  bytesOf size (BitVec.ofInt (8 * size) n).toNat

/-- A flag byte (11.1): 00h clear, 01h set. Any other byte is not stated: a free value (log 15). -/
def flagOf (b : Byte) : Bool :=
  if b = 0 then false else if b = 1 then true else Config.flagOf b

/-- The flag byte of a flag (11.1). -/
def flagByte (b : Bool) : Byte := if b then 1 else 0

/-- A mask byte holds `n` (11.1). -/
def inMask (mask : Byte) (n : Nat) : Bool := mask.getLsbD n

/-- `size` bytes of a list from a place. -/
def slice (bytes : List Byte) (start size : Nat) : List Byte :=
  (bytes.drop start).take size

/-- One byte of a list; a place past the end, which no layout reads, gives 00h. -/
def byteAt (bytes : List Byte) (i : Nat) : Byte := bytes.getD i 0

/-- The number in `size` bytes of a list from a place. -/
def fieldAt (bytes : List Byte) (start size : Nat) : Nat := natOf (slice bytes start size)

/-- One bit shifted out of a CRC register: most significant bit first, not reflected (R207, R209). -/
def crcShift (poly crc : BitVec 16) : BitVec 16 :=
  if crc.getLsbD 15 then (crc <<< 1) ^^^ poly else crc <<< 1

/-- One byte into a CRC register, most significant bit first (R207, R209). -/
def crcByte (poly crc : BitVec 16) (b : Byte) : BitVec 16 :=
  let x := crc ^^^ (b.setWidth 16 <<< 8)
  let step := crcShift poly
  step (step (step (step (step (step (step (step x)))))))

/-- The trunk CRC (R207): polynomial 1021h from FFFFh. -/
def trunkCrc (bytes : List Byte) : BitVec 16 := bytes.foldl (crcByte 0x1021) 0xFFFF

/-- The loop CRC (R209): polynomial 8005h from 0000h. -/
def loopCrc (bytes : List Byte) : BitVec 16 := bytes.foldl (crcByte 0x8005) 0x0000

/-- The two bytes of a CRC, high byte first (11.2, 11.3). -/
def crcBytes (crc : BitVec 16) : List Byte := bytesOf 2 crc.toNat

/-- The sum of a unit's bytes, modulo 256 (R210). -/
def unitSum (bytes : List Byte) : Byte := bytes.foldl (· + ·) 0

/-- A unit with its check byte, which makes the sum of all its bytes 5Ah (R210). -/
def withCheck (bytes : List Byte) : List Byte := bytes ++ [0x5A - unitSum bytes]

/-- A unit's check agrees (R210). -/
def checkAgrees (bytes : List Byte) : Bool := unitSum bytes == 0x5A

/-- Every byte of a unit holds FFh (R103, R210). -/
def isErased (bytes : List Byte) : Bool := bytes.all (· == 0xFF)

/-- A list of bytes brought to a length: cut, or filled with 00h. -/
def padTo (size : Nat) (bytes : List Byte) : List Byte :=
  bytes.take size ++ List.replicate (size - bytes.length) 0

end Sys2Proof.Machine
end

