-- ==== Sys2Proof/Machine/Table.lean ====
section
/-! DEFINITION. A table of a fixed number of rows: a list with its length. Every block's tables are held in it, and every read
and write of a row goes through `Table.get`, `Table.set` and `Table.update`. -/

namespace Sys2Proof.Machine

/-- `n` rows of the same kind. The length is carried with the data, so no row index can be out of range. -/
structure Table (α : Type) (n : Nat) where
  rows : List α
  size : rows.length = n
deriving DecidableEq, Repr

/-- The row at an index. -/
def Table.get {α : Type} {n : Nat} (t : Table α n) (i : Fin n) : α :=
  t.rows[i.val]'(by rw [t.size]; exact i.isLt)

/-- The table with one row replaced. -/
def Table.set {α : Type} {n : Nat} (t : Table α n) (i : Fin n) (x : α) : Table α n :=
  ⟨t.rows.set i.val x, by rw [List.length_set]; exact t.size⟩

/-- The table with one row changed by a function. -/
def Table.update {α : Type} {n : Nat} (t : Table α n) (i : Fin n) (f : α → α) : Table α n :=
  t.set i (f (t.get i))

/-- The table with every row changed by a function. -/
def Table.map {α : Type} {n : Nat} (t : Table α n) (f : α → α) : Table α n :=
  ⟨t.rows.map f, by rw [List.length_map]; exact t.size⟩

/-- Every row the same. -/
def Table.replicate {α : Type} (n : Nat) (x : α) : Table α n :=
  ⟨List.replicate n x, List.length_replicate⟩

/-- The indexes whose row passes a test, rising. -/
def Table.indexes {α : Type} {n : Nat} (t : Table α n) (p : α → Bool) : List (Fin n) :=
  (List.finRange n).filter fun i => p (t.get i)

/-- The lowest index whose row passes a test. -/
def Table.find {α : Type} {n : Nat} (t : Table α n) (p : α → Bool) : Option (Fin n) :=
  (List.finRange n).find? fun i => p (t.get i)

end Sys2Proof.Machine
end

