-- ==== Sys2Proof/Machine/State.lean ====
section
/-! DEFINITION. The state of the AB4270, block by block (spec 00_scope.md 2.2), as plain data, and its value right after a COLD
reset. Each field's docstring names the rule that gives it; INVENTORY.md lists them with their reset values. -/

namespace Sys2Proof.Machine

/-- Why a command can stop the part. Nothing can: the part answers, counts or reports every failure (INVENTORY.md, Faults), and
every address it forms lies inside the record memory. So the type has no constructor, which is safe. -/
inductive Fault : Type
deriving DecidableEq, Repr

/-- Why a command has no meaning. -/
inductive Refusal where
  /-- The command's arm of `exec` has no meaning yet; raised by `exec` alone. Safe: nothing is proved about it. -/
  | notModelled (mnemonic : String)
deriving DecidableEq, Repr

/-! ### Timekeeper -/

/-- Wall time (R3). While `valid` is false the other fields are held but not reported (R12). -/
structure WallTime where
  valid : Bool
  day : Nat
  minute : Nat
  second : Nat
deriving DecidableEq, Repr

/-- What each block has been told by a second or minute event and has not yet worked off (R1, R2; log 4). -/
structure Told where
  decision : Bool
  close : Bool
  service : Bool
  doze : Bool
  refill : Bool
  /-- Minute events that have occurred and not yet been taken by MINUTE_EVENT. -/
  minutes : Nat
  stale : Bool
  stableClear : Bool
  roundExpiry : Bool
  summary : Bool
deriving DecidableEq, Repr

/-- The Timekeeper's state (R1, R2, R3, R8). -/
structure Timekeeper where
  seconds : Clock
  subMinute : Nat
  uptime : Clock
  wall : WallTime
  lastRefill : Option Nat
  told : Told
deriving DecidableEq, Repr

/-! ### Street Loop Controller -/

/-- Station states, in the order of R13. -/
inductive StationState where
  | unbound | absent | joining | awake | dozing | silent | lost | barred
deriving DecidableEq, Repr

/-- How a completed join is classified (R21), in the order of R13. -/
inductive JoinKind where
  | first | comeback | restart
deriving DecidableEq, Repr

/-- Denial reasons, in the order of R130's table. -/
inductive DenyReason where
  | outOfUse | service | busyChute | full | tryAgain | unknownCard | memoryFault | cardBlocked | cardExpired | notYet | noRight
  | wrongPlace | closedHours | accountBlocked | accountUnknown | noBudget
deriving DecidableEq, Repr

/-- The container a DENY points to (R130). -/
structure Redirect where
  number : Number
  station : Station
  bay : Bay
deriving DecidableEq, Repr

/-- Reasons of a LIFT_REFUSE, in the order of R154. -/
inductive RefuseReason where
  | noRound | notOnRound | otherRound | held | otherVehicle
deriving DecidableEq, Repr

/-- Vehicle replies, in the order of R154. -/
inductive VehicleAnswer where
  | liftOk
  | liftWait
  | liftRefuse (reason : RefuseReason)
  | doneAck
  | roundClosed
deriving DecidableEq, Repr

/-- What a vehicle reply names: the container number of the message it answers, or the round number of a ROUND_END in the last
two of the four bytes (R154, 11.3). The two bytes before a round number are not stated and are drawn free (log 16). -/
inductive ReplySubject where
  | container (number : Number)
  | round (number : Short) (high1 high2 : Byte)
deriving DecidableEq, Repr

/-- A command for a station (11.3). -/
inductive DownCommand where
  | grant (bay : Bay) (tag : Byte)
  | deny (bay : Byte) (tag : Byte) (reason : DenyReason) (redirect : Option Redirect)
  | liftRelease (bay : Bay)
  | liftHold (bay : Bay)
  | reply (answer : VehicleAnswer) (vehicle : Short) (subject : ReplySubject)
  | passDown (bay : Bay) (bytes : List Byte)
deriving DecidableEq, Repr

/-- A command in a downstream queue with its sequence number (R39). -/
structure Queued where
  seq : Byte
  command : DownCommand
deriving DecidableEq, Repr

/-- One row of the station table (R13) with the loop state it holds (R39, R43, R45). Attention membership is computed (R44). -/
structure StationRow where
  serial : Option Serial
  pinned : Bool
  state : StationState
  awakeSince : Bool
  miss : Nat
  rejoin : Nat
  stableSince : Clock
  doze : Nat
  wake : Clock
  joinPrior : Option StationState
  joinCause : Option JoinCause
  lastJoin : Option JoinKind
  /-- The auto-bound serial of the current or last join was not written (R18, R33; log 31). -/
  joinUnwritten : Bool
  queue : List Queued
  nextSeq : Byte
  raised : Bool
  /-- A DOZING row that has become due stays so until it is polled (R43; log 14). -/
  due : Bool
deriving DecidableEq, Repr

/-- What a poll carries (R39). -/
inductive PollLoad where
  | accept (serial : Serial)
  | command (queued : Queued)
  | nothing
deriving DecidableEq, Repr

/-- A poll turn on the loop (R36, R38). -/
structure Poll where
  address : Station
  load : PollLoad
  /-- The carried command still stands at the head of the row's queue (R49). -/
  standing : Bool
  retries : Nat
deriving DecidableEq, Repr

/-- The turn on the loop (R36). -/
inductive Turn where
  | openSlot
  | poll (p : Poll)
deriving DecidableEq, Repr

/-- The Street Loop Controller's state (R13, R36, R40, R54). -/
structure StreetLoop where
  rows : Table StationRow 62
  turn : Option Turn
  sinceOpen : Nat
  contention : Bool
  streak : Nat
  lastAttention : Station
  lastRoutine : Station
  polls : Nat
  noAnswers : Nat
  collisions : Nat
  ignoredJoins : Nat
deriving DecidableEq, Repr

/-! ### Fill Tracker -/

/-- The configuration part of an occupied container row (R80). -/
structure ContainerConfig where
  number : Number
  station : Station
  bay : Bay
  fraction : Fin 8
  cluster : Fin 64
  profile : Fin 16
  empty : Nat
  full : Nat
  enabled : Bool
deriving DecidableEq, Repr

/-- Fill states, in rank order (R86). -/
inductive FillState where
  | low | nearFull | full | overflow
deriving DecidableEq, Repr

/-- Sensor health (R57). -/
inductive Health where
  | noData | good | suspect | fault
deriving DecidableEq, Repr

/-- The dynamic part of a container row (R57), without the service state, which the Round Manager owns. -/
structure Fill where
  lf : Nat
  i : Nat
  r : Nat
  ref : Option (Nat × Clock)
  ttf : Nat
  fill : FillState
  rise : Nat
  fall : Nat
  health : Health
  implausible : Nat
  lastPlausible : Clock
  fresh : Bool
  drop : Bool
deriving DecidableEq, Repr

/-- One row of the container table: `config` is `none` in an empty row (R80). -/
structure ContainerRow where
  config : Option ContainerConfig
  fill : Fill
deriving DecidableEq, Repr

/-- One entry of the profile table (R84): N, Fu, O, H, D, k and the increment per deposit. -/
structure Profile where
  n : Nat
  fu : Nat
  o : Nat
  h : Nat
  d : Nat
  k : Nat
  increment : Nat
deriving DecidableEq, Repr

/-- The Fill Tracker's state (R57, R80, R84, R94). -/
structure FillTracker where
  rows : Table ContainerRow 192
  profiles : Table Profile 16
  queue : List Row
deriving DecidableEq, Repr

/-! ### Card Lookup Unit -/

/-- Card status (R102). -/
inductive CardStatus where
  | active | suspended | lost
deriving DecidableEq, Repr

/-- A card record (R102). `rights` is a mask: fraction n in bit n (11.1). -/
structure CardRecord where
  number : Number
  status : CardStatus
  account : Fin 4096
  cls : Fin 8
  rights : Byte
  expiry : Option Nat
  start : Option Nat
  home : Option (Fin 64)
deriving DecidableEq, Repr

/-- A pending request waiting on the Card Lookup Unit. A container has at most one pending request (R122), so its row names it. -/
structure Waiter where
  row : Row
  card : Number
deriving DecidableEq, Repr

/-- One entry of the miss list (R107). -/
structure MissEntry where
  bucket : Bucket
  waiting : List Waiter
  wanted : List Number
  granted : Bool
  stale : Bool
deriving DecidableEq, Repr

/-- The Card Lookup Unit's state (R105, R107, R119). The miss list stands in the order the fetches were asked (R176). -/
structure CardLookup where
  entries : Table (Option CardRecord) 32
  recency : List (Fin 32)
  missList : List MissEntry
  slotWait : List Waiter
  hits : Nat
  misses : Nat
  memoryErrors : Nat
deriving DecidableEq, Repr

/-! ### Admission Unit -/

/-- The phase of a pending request (R121). -/
inductive Phase where
  | waitMissSlot | waitFetch
deriving DecidableEq, Repr

/-- One pending request (R121). -/
structure Request where
  row : Row
  station : Station
  bay : Bay
  tag : Byte
  card : Number
  arrival : Clock
  phase : Phase
deriving DecidableEq, Repr

/-- How a grant was made (R128). -/
inductive GrantKind where
  | charged | exempt | provisional
deriving DecidableEq, Repr

/-- One open deposit (R122). -/
structure OpenDeposit where
  card : Number
  account : Fin 4096
  cost : Nat
  kind : GrantKind
  tag : Byte
  delivered : Bool
  granted : Clock
deriving DecidableEq, Repr

/-- One account (R137). -/
structure Account where
  loaded : Bool
  blocked : Bool
  balance : Int
  held : Nat
  limit : Nat
  refill : Nat
  cap : Nat
deriving DecidableEq, Repr

/-- One card class (R134). -/
structure CardClass where
  exempt : Bool
  provisional : Bool
deriving DecidableEq, Repr

/-- One window (R132). Masks hold day, fraction or class n in bit n (11.1). -/
structure Window where
  enabled : Bool
  days : Byte
  start : Nat
  stop : Nat
  fractions : Byte
  classes : Byte
deriving DecidableEq, Repr

/-- The Admission Unit's state (R121, R122, R132, R134, R135, R137, R147). -/
structure AdmissionUnit where
  requests : List Request
  deposits : Table (Option OpenDeposit) 192
  accounts : Table Account 4096
  classes : Table CardClass 8
  costs : Table Nat 8
  windows : Table Window 16
  grants : Nat
  denials : Nat
  releases : Nat
  ignoredCloses : Nat
deriving DecidableEq, Repr

/-! ### Round Manager -/

/-- The states of a round slot that is not FREE (R149). -/
inductive RoundState where
  | loaded | running | closing
deriving DecidableEq, Repr

/-- Why a round ended (R149). -/
inductive EndCause where
  | vehicleEnd | expired | cancelled
deriving DecidableEq, Repr

/-- Where a step came from (R150). -/
inductive Origin where
  | planned | inserted | adhoc
deriving DecidableEq, Repr

/-- The state of a step (R150). -/
inductive StepState where
  | pending | lifting | done | missed
deriving DecidableEq, Repr

/-- One step of a round (R150). -/
structure Step where
  row : Row
  origin : Origin
  state : StepState
  timedOut : Bool
  before : Option Nat
  after : Option Nat
  weight : Short
  doneMinute : Option Stamp
  vehicle : Option Short
deriving DecidableEq, Repr

/-- A round slot that is not FREE (R149). -/
structure Round where
  state : RoundState
  number : Short
  vehicle : Short
  load : Clock
  duration : Nat
  allowance : Nat
  adHoc : Bool
  lastLift : Option (Clock × Fin 64)
  endCause : Option EndCause
  steps : List Step
deriving DecidableEq, Repr

/-- A slot and a step position in it, counted from 0. -/
structure StepRef where
  slot : Fin 4
  position : Nat
deriving DecidableEq, Repr

/-- Why a container is HELD (R151). -/
inductive HoldCause where
  | timedOut | unlocked
deriving DecidableEq, Repr

/-- A container's service record (R151): each state holds exactly the fields the rule says are present in it. -/
inductive Service where
  | inUse
  | serviceWait (step : StepRef) (relay : Station)
  | service (step : StepRef) (relay : Station) (start : Clock)
  | held (cause : HoldCause) (step : Option StepRef)
deriving DecidableEq, Repr

/-- The service states by name, in the order of R57. -/
inductive ServiceName where
  | inUse | serviceWait | service | held
deriving DecidableEq, Repr

/-- The Round Manager's state (R149, R151). A slot that is `none` is FREE. -/
structure RoundManager where
  slots : Table (Option Round) 4
  service : Table Service 192
deriving DecidableEq, Repr

/-! ### Parameters -/

/-- The fourteen parameters, in identifier order (R192, 11.2). -/
inductive ParamId where
  | refillMinute | openSlotSpacing | streakLimit | retryLimit | missLimit | rejoinLimit | stableClearTime | faultCount
  | staleWindow | horizon | decisionLimit | closeLimit | serviceLimit | summaryInterval
deriving DecidableEq, Repr

/-- A parameter set. -/
structure Params where
  refillMinute : Nat
  openSlotSpacing : Nat
  streakLimit : Nat
  retryLimit : Nat
  missLimit : Nat
  rejoinLimit : Nat
  stableClearTime : Nat
  faultCount : Nat
  staleWindow : Nat
  horizon : Nat
  decisionLimit : Nat
  closeLimit : Nat
  serviceLimit : Nat
  summaryInterval : Nat
deriving DecidableEq, Repr

/-! ### Record Memory Interface -/

/-- The records of the configuration image (R175, 11.4). -/
inductive RecordTarget where
  | parameter
  | profile (n : Fin 16)
  | container (row : Row)
  | station (address : Station)
  | window (n : Fin 16)
  | cls (n : Fin 8)
  | cost (n : Fin 8)
deriving DecidableEq, Repr

/-- The command a REPLY waits for: its kind and tag (R175, R191). -/
structure ReplyTo where
  kind : Byte
  tag : Byte
deriving DecidableEq, Repr

/-- What a write queue entry writes (R175). A RECORD entry holds the 32 bytes of the record as the table stood; `values` are the
parameter values a PARAM_PUT carried, which take effect when the entry ends (R192). -/
inductive WriteBody where
  | cardPut (record : CardRecord)
  | cardDrop (number : Number)
  | record (target : RecordTarget) (contents : List Byte) (values : List (ParamId × Nat))
  | header
  | format
deriving DecidableEq, Repr

/-- One write queue entry (R175). -/
structure WriteEntry where
  body : WriteBody
  reply : Option ReplyTo
  inProgress : Bool
deriving DecidableEq, Repr

/-- The operation on the memory port (R174). `write` is the write queue entry that is IN_PROGRESS. `discarded` marks a fetch that
was on the port when a TRAFFIC reset was taken (R120). -/
inductive PortOp where
  | identification
  | header
  | record
  | fetch (bucket : Bucket) (discarded : Bool)
  | write
deriving DecidableEq, Repr

/-- The condition of the image header (R182). -/
inductive HeaderCondition where
  | good | bad | foreign | blank
deriving DecidableEq, Repr

/-- Where the restore stands (R181 to R184). -/
inductive RestoreProgress where
  | identify (failures : Nat)
  | header
  | records (next : Nat)
  | ended
deriving DecidableEq, Repr

/-- The loaded, empty and bad counts of one record kind (R184). -/
structure RecordCounts where
  loaded : Nat
  empty : Nat
  bad : Nat
deriving DecidableEq, Repr

/-- What caused the last COLD reset (R185). -/
inductive ResetCause where
  | pinOrPower | trunkFull
deriving DecidableEq, Repr

/-- The two writes the part makes for itself (R182). -/
inductive OwnWrite where
  | header | format
deriving DecidableEq, Repr

/-- A HEADER or FORMAT entry owed since its operation failed with the queue full (R182; log 12). It is `due` once the next entry has
left the queue. -/
structure Remake where
  kind : OwnWrite
  due : Bool
deriving DecidableEq, Repr

/-- The Record Memory Interface's state (R174 to R187). -/
structure RecordMemory where
  restoring : Bool
  absent : Bool
  header : Option HeaderCondition
  progress : RestoreProgress
  counts : Table RecordCounts 7
  cause : ResetCause
  port : Option PortOp
  queue : List WriteEntry
  remake : Option Remake
  fetchRun : Nat
deriving DecidableEq, Repr

/-! ### Trunk Port -/

/-- REPLY statuses, in code order (R191, R207). -/
inductive Status where
  | ok | badLength | badField | unknownKind | notFound | noRoom | conflict | busy | refusedState | notReady | memoryFault
deriving DecidableEq, Repr

/-- The detail of a REPLY (R191). A QUERY's answer stands as the bytes of its layout (R208). -/
inductive Detail where
  | none
  | persisted (notPersisted : Bool)
  | roundLoad (slot position : Byte)
  | answer (bytes : List Byte)
deriving DecidableEq, Repr

/-- Causes of a CONTAINER_STATUS (R91). -/
inductive StatusCause where
  | sample | deposit | stale | service
deriving DecidableEq, Repr

/-- Outcomes of a commit (R141). -/
inductive CommitOutcome where
  | committed | unconfirmed | provisional
deriving DecidableEq, Repr

/-- Outcomes of a SERVICE_REPORT (R170). -/
inductive ServiceOutcome where
  | done | timedOut | late
deriving DecidableEq, Repr

/-- Events of a STATION_EVENT (R33). -/
inductive StationEventKind where
  | joined | resumed | lost | joinTimeout | unknownSerial
deriving DecidableEq, Repr

/-- Outcomes of a restore (R185). -/
inductive RestoreOutcome where
  | imageLoaded | imageBlank | memoryAbsent
deriving DecidableEq, Repr

/-- A CONTAINER_STATUS report (R92). -/
structure ContainerStatus where
  number : Number
  row : Row
  cause : StatusCause
  fill : FillState
  fillBefore : FillState
  health : Health
  healthBefore : Health
  service : ServiceName
  lf : Nat
  i : Nat
  ttf : Nat
  drop : Bool
  member : Bool
  stamp : Stamp
deriving DecidableEq, Repr

/-- A DEPOSIT_REPORT (R145). -/
structure DepositReport where
  account : Fin 4096
  number : Number
  row : Row
  outcome : CommitOutcome
  count : Nat
  cost : Nat
  first : Stamp
  last : Stamp
deriving DecidableEq, Repr

/-- A CARD_ALERT (R136). -/
structure CardAlert where
  card : Number
  account : Fin 4096
  cls : Fin 8
  number : Number
  row : Row
  station : Station
  bay : Bay
  stamp : Stamp
deriving DecidableEq, Repr

/-- A SERVICE_REPORT (R170). -/
structure ServiceReport where
  outcome : ServiceOutcome
  number : Number
  row : Row
  /-- The round number and the step position counted from 1. -/
  step : Option (Short × Nat)
  origin : Option Origin
  vehicle : Option Short
  before : Option Nat
  /-- Weight and lock state, for DONE and LATE. -/
  carried : Option (Short × LockState)
  service : ServiceName
  stamp : Stamp
deriving DecidableEq, Repr

/-- The counts of R168. -/
structure StepCounts where
  done : Nat
  missed : Nat
  timedOut : Nat
  inserted : Nat
  adHoc : Nat
  planned : Nat
deriving DecidableEq, Repr

/-- What a ROUND_EVENT says (R169). -/
inductive RoundNews where
  | ended (cause : Option EndCause) (counts : StepCounts)
  | inserted (number : Number) (row : Row) (position : Nat) (allowance : Nat)
deriving DecidableEq, Repr

/-- A ROUND_EVENT (R169). -/
structure RoundEvent where
  round : Short
  vehicle : Short
  slot : Fin 4
  news : RoundNews
  stamp : Stamp
deriving DecidableEq, Repr

/-- A STATION_EVENT (R33). -/
structure StationEvent where
  event : StationEventKind
  address : Option Station
  serial : Option Serial
  joinKind : Option JoinKind
  cause : Option JoinCause
  result : Option StationState
  rejoin : Option Nat
  notPersisted : Option Bool
  stamp : Stamp
deriving DecidableEq, Repr

/-- A PASS_UP report (R197). -/
structure PassUpReport where
  station : Station
  serial : Option Serial
  containers : List (Number × Bay)
  bytes : List Byte
  stamp : Stamp
deriving DecidableEq, Repr

/-- A RESTORE_REPORT (R185). -/
structure RestoreReport where
  outcome : RestoreOutcome
  header : Option HeaderCondition
  cause : ResetCause
  counts : Table RecordCounts 7
  stamp : Stamp
deriving DecidableEq, Repr

/-- A SUMMARY (R204). -/
structure SummaryReport where
  grants : Nat
  denials : Nat
  releases : Nat
  ignoredCloses : Nat
  polls : Nat
  noAnswers : Nat
  collisions : Nat
  ignoredJoins : Nat
  hits : Nat
  misses : Nat
  memoryErrors : Nat
  crcErrors : Nat
  droppedReports : Nat
  commandOverruns : Nat
  /-- The service queue head: container number, TTF and fill state of up to 4 entries (R98). -/
  head : List (Number × Nat × FillState)
  interval : Nat
  stamp : Stamp
deriving DecidableEq, Repr

/-- The reports (R207). -/
inductive Report where
  | containerStatus (r : ContainerStatus)
  | deposit (r : DepositReport)
  | cardAlert (r : CardAlert)
  | service (r : ServiceReport)
  | round (r : RoundEvent)
  | station (r : StationEvent)
  | passUp (r : PassUpReport)
  | restore (r : RestoreReport)
  | summary (r : SummaryReport)
deriving DecidableEq, Repr

/-- One entry of the upstream queue (R200): a REPLY with its command's tag and kind, or a report with its sequence number. -/
inductive UpEntry where
  | reply (kind tag : Byte) (status : Status) (detail : Detail)
  | report (seq : Byte) (r : Report)
deriving DecidableEq, Repr

/-- The trunk receiver (R189) with the bytes it has kept: in BODY the length byte and the bytes taken so far, in CHECK also the
first CRC byte once it has arrived. -/
inductive Receiver where
  | hunt
  | length
  | body (len : Byte) (got : List Byte)
  | check (len : Byte) (got : List Byte) (first : Option Byte)
deriving DecidableEq, Repr

/-- The Trunk Port's state (R189, R192, R200 to R205). `line` is the entry whose frame has begun on the line (R201). -/
structure TrunkPort where
  receiver : Receiver
  line : Option UpEntry
  waiting : List UpEntry
  reserved : Nat
  reportSeq : Byte
  sinceSummary : Nat
  crcErrors : Nat
  droppedReports : Nat
  commandOverruns : Nat
  effective : Params
  written : Params
deriving DecidableEq, Repr

/-! ### The part -/

/-- Whether the part is held in a COLD reset: by power or the reset pin (R12), or by a trunk RESET with scope FULL whose REPLY is
still to be sent (R199). -/
inductive Hold where
  | running | pin | trunkFull
deriving DecidableEq, Repr

/-- The contents of the record memory device: address and byte, addresses strictly rising, no byte FFh (`Memory.wf`). -/
abbrev Memory := List Host.Cell

/-- The state of the part. -/
structure State where
  tk : Timekeeper
  slc : StreetLoop
  ft : FillTracker
  clu : CardLookup
  au : AdmissionUnit
  rm : RoundManager
  rmi : RecordMemory
  tp : TrunkPort
  /-- The external record memory's contents (11.4); kept through every reset (R120). -/
  memory : Memory
  hold : Hold
  /-- The straps as read when COLD was last released (11.5). -/
  straps : Straps
  /-- The MODEL's own counter, from which free values are drawn (log 16). -/
  free : Nat
  /-- The commands that are waiting, first in, first out. -/
  pending : List Instr
deriving DecidableEq, Repr

/-! ### Reset values -/

/-- Nothing told (log 4). -/
def Told.none : Told :=
  { decision := false, close := false, service := false, doze := false, refill := false, minutes := 0, stale := false,
    stableClear := false, roundExpiry := false, summary := false }

/-- The Timekeeper after COLD (R12). -/
def Timekeeper.cold : Timekeeper :=
  { seconds := 0, subMinute := 0, uptime := 0, wall := { valid := false, day := 0, minute := 0, second := 0 },
    lastRefill := Option.none, told := Told.none }

/-- An unbound station row after COLD (R35, R56). -/
def StationRow.cold : StationRow :=
  { serial := none, pinned := false, state := .unbound, awakeSince := false, miss := 0, rejoin := 0, stableSince := 0, doze := 60,
    wake := 0, joinPrior := none, joinCause := none, lastJoin := none, joinUnwritten := false, queue := [], nextSeq := 0,
    raised := false, due := false }

/-- The Street Loop Controller after COLD (R35, R56): `sinceOpen` 32 makes the first turn an open slot (log 18). -/
def StreetLoop.cold : StreetLoop :=
  { rows := Table.replicate 62 StationRow.cold, turn := none, sinceOpen := 32, contention := false, streak := 0,
    lastAttention := 61, lastRoutine := 61, polls := 0, noAnswers := 0, collisions := 0, ignoredJoins := 0 }

/-- The dynamic part after COLD (R79). -/
def Fill.cold : Fill :=
  { lf := 0, i := 0, r := 0, ref := none, ttf := 10080, fill := .low, rise := 0, fall := 0, health := .noData, implausible := 0,
    lastPlausible := 0, fresh := true, drop := false }

/-- An empty container row (R80, R101). -/
def ContainerRow.cold : ContainerRow := { config := none, fill := Fill.cold }

/-- A profile that has never been put (R84). -/
def Profile.default : Profile := { n := 750, fu := 900, o := 1000, h := 50, d := 2, k := 4, increment := 5 }

/-- The Fill Tracker after COLD (R79, R101). -/
def FillTracker.cold : FillTracker :=
  { rows := Table.replicate 192 ContainerRow.cold, profiles := Table.replicate 16 Profile.default, queue := [] }

/-- The Card Lookup Unit after COLD (R120). -/
def CardLookup.cold : CardLookup :=
  { entries := Table.replicate 32 none, recency := [], missList := [], slotWait := [], hits := 0, misses := 0, memoryErrors := 0 }

/-- An unloaded account (R148). -/
def Account.cold : Account :=
  { loaded := false, blocked := false, balance := 0, held := 0, limit := 0, refill := 0, cap := 0 }

/-- A class that has never been put (R134). -/
def CardClass.default : CardClass := { exempt := false, provisional := false }

/-- A window that has never been put (R132). -/
def Window.default : Window := { enabled := false, days := 0, start := 0, stop := 0, fractions := 0, classes := 0 }

/-- The Admission Unit after COLD (R148). -/
def AdmissionUnit.cold : AdmissionUnit :=
  { requests := [], deposits := Table.replicate 192 none, accounts := Table.replicate 4096 Account.cold,
    classes := Table.replicate 8 CardClass.default, costs := Table.replicate 8 1, windows := Table.replicate 16 Window.default,
    grants := 0, denials := 0, releases := 0, ignoredCloses := 0 }

/-- The Round Manager after COLD (R173). -/
def RoundManager.cold : RoundManager :=
  { slots := Table.replicate 4 none, service := Table.replicate 192 .inUse }

/-- The parameters' defaults (R192). -/
def Params.default : Params :=
  { refillMinute := 0, openSlotSpacing := 8, streakLimit := 3, retryLimit := 1, missLimit := 4, rejoinLimit := 3,
    stableClearTime := 24, faultCount := 12, staleWindow := 240, horizon := 720, decisionLimit := 3, closeLimit := 120,
    serviceLimit := 900, summaryInterval := 60 }

/-- The Record Memory Interface after COLD (R187): RESTORING, with the identification read asked for (R181). -/
def RecordMemory.cold (cause : ResetCause) : RecordMemory :=
  { restoring := true, absent := false, header := none, progress := .identify 0, counts := Table.replicate 7 ⟨0, 0, 0⟩,
    cause := cause, port := none, queue := [], remake := none, fetchRun := 0 }

/-- The Trunk Port after COLD (R206). -/
def TrunkPort.cold : TrunkPort :=
  { receiver := .hunt, line := none, waiting := [], reserved := 0, reportSeq := 0, sinceSummary := 0, crcErrors := 0,
    droppedReports := 0, commandOverruns := 0, effective := Params.default, written := Params.default }

/-- Every block at its COLD values (R12, R35, R56, R79, R101, R120, R148, R173, R187, R206); the record memory is kept. -/
def State.cold (cause : ResetCause) (hold : Hold) (straps : Straps) (s : State) : State :=
  { s with
    tk := Timekeeper.cold
    slc := StreetLoop.cold
    ft := FillTracker.cold
    clu := CardLookup.cold
    au := AdmissionUnit.cold
    rm := RoundManager.cold
    rmi := RecordMemory.cold cause
    tp := TrunkPort.cold
    hold := hold
    straps := straps }

/-- The part right after the release of a power-on COLD reset (R12, R181; log 1, 2, 3): RESTORING, over a blank record memory,
no command waiting. -/
def State.reset : State :=
  { tk := Timekeeper.cold
    slc := StreetLoop.cold
    ft := FillTracker.cold
    clu := CardLookup.cold
    au := AdmissionUnit.cold
    rm := RoundManager.cold
    rmi := RecordMemory.cold .pinOrPower
    tp := TrunkPort.cold
    memory := []
    hold := .running
    straps := { loop := 0, trunk := 0 }
    free := 0
    pending := [] }

end Sys2Proof.Machine
end

