-- ==== Sys2Proof/Machine/Operands.lean ====
section
/-! DEFINITION. The operands of the commands: the fields of trunk payloads (11.2) and of the contents of records (11.4), read from
their bytes. A reader of a payload answers `none` when the payload length does not fit the kind (R190, R207); a reader of fields
answers `none` when a field lies outside its range. -/

namespace Sys2Proof.Machine

/-- A number as an index below `n`, if it is one. -/
def index? (n k : Nat) : Option (Fin n) := if h : k < n then some ⟨k, h⟩ else none

/-- A loop address 1..62 as its station row (R13). -/
def station? (k : Nat) : Option Station :=
  if h : 1 ≤ k ∧ k ≤ 62 then some ⟨k - 1, by omega⟩ else none

/-- The loop address of a station row. -/
def addressOf (a : Station) : Nat := a.val + 1

/-- Container and card numbers 0 and FFFFFFFFh are invalid (00_scope.md 4.3). -/
def validNumber (n : Number) : Bool := n != 0 && n != 0xFFFFFFFF

/-- The four bytes of a container or card number. -/
def numberAt (bytes : List Byte) (start : Nat) : Number := BitVec.ofNat 32 (fieldAt bytes start 4)

/-- A payload of a fixed length, read by `f` (R190). -/
def fixed {α : Type} (size : Nat) (f : List Byte → α) (payload : List Byte) : Option α :=
  if payload.length = size then some (f payload) else none

/-! ### Fields shared by commands and records -/

/-- The 11 profile bytes (11.4). -/
def profileFields (b : List Byte) : Profile :=
  { n := fieldAt b 0 2, fu := fieldAt b 2 2, o := fieldAt b 4 2, h := fieldAt b 6 2, d := fieldAt b 8 1, k := fieldAt b 9 1,
    increment := fieldAt b 10 1 }

/-- R85's field and threshold checks. -/
def profileValid (p : Profile) : Bool :=
  decide (1 ≤ p.d ∧ p.d ≤ 7) && decide (1 ≤ p.k ∧ p.k ≤ 8) && decide (p.increment ≤ 50) &&
    decide (0 < p.h ∧ p.h < p.n ∧ p.n < p.fu ∧ p.fu < p.o ∧ p.o ≤ 1200)

/-- The 14 container bytes (11.4) under the checks of R81 case 2. -/
def containerFields (b : List Byte) : Option ContainerConfig := do
  let station ← station? (fieldAt b 4 1)
  let bay ← index? 4 (fieldAt b 5 1)
  let fraction ← index? 8 (fieldAt b 6 1)
  let cluster ← index? 64 (fieldAt b 7 1)
  let profile ← index? 16 (fieldAt b 8 1)
  let empty := fieldAt b 9 2
  let full := fieldAt b 11 2
  if validNumber (numberAt b 0) ∧ 100 ≤ full ∧ empty ≤ 6000 ∧ full + 200 ≤ empty then
    some { number := numberAt b 0, station := station, bay := bay, fraction := fraction, cluster := cluster, profile := profile,
           empty := empty, full := full, enabled := flagOf (byteAt b 13) }
  else none

/-- The 8 station bytes (11.4): the serial or its absence, and the pinned flag. -/
def stationFields (b : List Byte) : Option Serial × Bool :=
  (if flagOf (byteAt b 0) then some (BitVec.ofNat 48 (fieldAt b 1 6)) else none, flagOf (byteAt b 7))

/-- The 8 window bytes (11.4). -/
def windowFields (b : List Byte) : Window :=
  { enabled := flagOf (byteAt b 0), days := byteAt b 1, start := fieldAt b 2 2, stop := fieldAt b 4 2, fractions := byteAt b 6,
    classes := byteAt b 7 }

/-- R132's range check. -/
def windowValid (w : Window) : Bool := decide (w.start ≤ 1439) && decide (w.stop ≤ 1439)

/-- The class flag byte (11.4): bit 0 exempt, bit 1 provisional. -/
def classFields (b : Byte) : CardClass := { exempt := b.getLsbD 0, provisional := b.getLsbD 1 }

/-- The status codes of a card slot (11.4). -/
def cardStatus? (b : Byte) : Option CardStatus :=
  if b = 1 then some .active else if b = 2 then some .suspended else if b = 3 then some .lost else none

/-- Card slot bytes 0 to 14 (11.4) under the ranges of R102: `none` when a field lies outside its range (R103, R115).
The bytes of an absent optional field are not judged (log 42). -/
def cardFields (b : List Byte) : Option CardRecord := do
  let status ← cardStatus? (byteAt b 4)
  let account ← index? 4096 (fieldAt b 5 2)
  let cls ← index? 8 (fieldAt b 7 1)
  let presence := byteAt b 9
  let home ← if presence.getLsbD 2 then (index? 64 (fieldAt b 14 1)).map some else some none
  if validNumber (numberAt b 0) then
    some { number := numberAt b 0, status := status, account := account, cls := cls, rights := byteAt b 8,
           expiry := if presence.getLsbD 0 then some (fieldAt b 10 2) else none,
           start := if presence.getLsbD 1 then some (fieldAt b 12 2) else none, home := home }
  else none

/-! ### Parameters -/

/-- The parameters in identifier order (R192, R207). -/
def ParamId.all : List ParamId :=
  [.refillMinute, .openSlotSpacing, .streakLimit, .retryLimit, .missLimit, .rejoinLimit, .stableClearTime, .faultCount,
   .staleWindow, .horizon, .decisionLimit, .closeLimit, .serviceLimit, .summaryInterval]

/-- The parameter an identifier byte names, 00h to 0Dh (R207). -/
def paramOf (b : Byte) : Option ParamId := ParamId.all[b.toNat]?

/-- A parameter's range (R192). -/
def ParamId.range : ParamId → Nat × Nat
  | .refillMinute => (0, 10079)
  | .openSlotSpacing => (4, 32)
  | .streakLimit => (1, 7)
  | .retryLimit => (0, 3)
  | .missLimit => (1, 15)
  | .rejoinLimit => (1, 15)
  | .stableClearTime => (0, 255)
  | .faultCount => (4, 30)
  | .staleWindow => (30, 1440)
  | .horizon => (0, 10080)
  | .decisionLimit => (1, 10)
  | .closeLimit => (30, 600)
  | .serviceLimit => (60, 3600)
  | .summaryInterval => (0, 1440)

/-- A value lies in its parameter's range (R192). -/
def ParamId.inRange (p : ParamId) (v : Nat) : Bool := decide (p.range.1 ≤ v) && decide (v ≤ p.range.2)

/-- One parameter of a set. -/
def Params.get (s : Params) : ParamId → Nat
  | .refillMinute => s.refillMinute
  | .openSlotSpacing => s.openSlotSpacing
  | .streakLimit => s.streakLimit
  | .retryLimit => s.retryLimit
  | .missLimit => s.missLimit
  | .rejoinLimit => s.rejoinLimit
  | .stableClearTime => s.stableClearTime
  | .faultCount => s.faultCount
  | .staleWindow => s.staleWindow
  | .horizon => s.horizon
  | .decisionLimit => s.decisionLimit
  | .closeLimit => s.closeLimit
  | .serviceLimit => s.serviceLimit
  | .summaryInterval => s.summaryInterval

/-- A set with one parameter replaced. -/
def Params.set (s : Params) (v : Nat) : ParamId → Params
  | .refillMinute => { s with refillMinute := v }
  | .openSlotSpacing => { s with openSlotSpacing := v }
  | .streakLimit => { s with streakLimit := v }
  | .retryLimit => { s with retryLimit := v }
  | .missLimit => { s with missLimit := v }
  | .rejoinLimit => { s with rejoinLimit := v }
  | .stableClearTime => { s with stableClearTime := v }
  | .faultCount => { s with faultCount := v }
  | .staleWindow => { s with staleWindow := v }
  | .horizon => { s with horizon := v }
  | .decisionLimit => { s with decisionLimit := v }
  | .closeLimit => { s with closeLimit := v }
  | .serviceLimit => { s with serviceLimit := v }
  | .summaryInterval => { s with summaryInterval := v }

/-- A set with the carried values entered (R192). -/
def Params.enter (s : Params) (values : List (ParamId × Nat)) : Params :=
  values.foldl (fun s v => s.set v.2 v.1) s

/-- The pairs of a PARAM_PUT as parameters and values: `none` when an identifier names no parameter or appears twice, or a value
lies outside its parameter's range (R192). -/
def paramPairs : List (Byte × Nat) → Option (List (ParamId × Nat))
  | [] => some []
  | (b, v) :: rest => do
    let p ← paramOf b
    let others ← paramPairs rest
    if p.inRange v && !(others.any fun o => o.1 == p) then some ((p, v) :: others) else none

/-! ### Payloads of the trunk commands -/

/-- TIME_SET's fields (R6). -/
structure TimeArgs where
  day : Nat
  minute : Nat
  second : Nat
deriving DecidableEq, Repr

/-- TIME_SET: day 2, minute-of-week 2, second 1. -/
def timeSetArgs : List Byte → Option TimeArgs :=
  fixed 5 fun b => { day := fieldAt b 0 2, minute := fieldAt b 2 2, second := fieldAt b 4 1 }

/-- The pairs of a PARAM_PUT's payload, three bytes each. -/
def pairsOf (b : List Byte) : Nat → List (Byte × Nat)
  | 0 => []
  | n + 1 => (byteAt b 0, fieldAt b 1 2) :: pairsOf (b.drop 3) n

/-- PARAM_PUT: count n in 1..14, then n pairs. -/
def paramPutArgs (b : List Byte) : Option (List (Byte × Nat)) :=
  let n := fieldAt b 0 1
  if 1 ≤ n ∧ n ≤ 14 ∧ b.length = 1 + 3 * n then some (pairsOf (b.drop 1) n) else none

/-- PROFILE_PUT: profile 1, then the 11 profile bytes. -/
def profilePutArgs : List Byte → Option (Nat × Profile) :=
  fixed 12 fun b => (fieldAt b 0 1, profileFields (b.drop 1))

/-- CONTAINER_PUT: row 1, then the 14 container bytes. The fields are `none` when R81 case 2 fails on one of them. -/
def containerPutArgs : List Byte → Option (Option (Row × ContainerConfig)) :=
  fixed 15 fun b => do
    let row ← index? 192 (fieldAt b 0 1)
    let c ← containerFields (b.drop 1)
    some (row, c)

/-- CONTAINER_DROP, HOLD_CLEAR, CARD_DROP and QUERY CONTAINER: a number of 4 bytes. -/
def numberArgs : List Byte → Option Number :=
  fixed 4 fun b => numberAt b 0

/-- STATION_PUT: address 1, then the 8 station bytes. -/
def stationPutArgs : List Byte → Option (Option Station × Option Serial × Bool) :=
  fixed 9 fun b => (station? (fieldAt b 0 1), stationFields (b.drop 1))

/-- STATION_DROP, STATION_CLEAR and QUERY STATION: an address of 1 byte. -/
def addressArgs : List Byte → Option (Option Station) :=
  fixed 1 fun b => station? (fieldAt b 0 1)

/-- WINDOW_PUT: entry 1, then the 8 window bytes. -/
def windowPutArgs : List Byte → Option (Nat × Window) :=
  fixed 9 fun b => (fieldAt b 0 1, windowFields (b.drop 1))

/-- CLASS_PUT: class and flag byte. -/
def classPutArgs : List Byte → Option (Nat × CardClass) :=
  fixed 2 fun b => (fieldAt b 0 1, classFields (byteAt b 1))

/-- COST_PUT: fraction and cost. -/
def costPutArgs : List Byte → Option (Nat × Nat) :=
  fixed 2 fun b => (fieldAt b 0 1, fieldAt b 1 1)

/-- ACCOUNT_PUT's fields (R138). -/
structure AccountArgs where
  account : Nat
  balance : Int
  limit : Nat
  refill : Nat
  cap : Nat
  blocked : Bool
deriving DecidableEq, Repr

/-- ACCOUNT_PUT: account 2, balance 2, limit 2, refill 2, cap 2, blocked 1. -/
def accountPutArgs : List Byte → Option AccountArgs :=
  fixed 11 fun b =>
    { account := fieldAt b 0 2, balance := intOf (slice b 2 2), limit := fieldAt b 4 2, refill := fieldAt b 6 2,
      cap := fieldAt b 8 2, blocked := flagOf (byteAt b 10) }

/-- CARD_PUT: card slot bytes 0 to 14. The fields are `none` when one lies outside its range (R115). -/
def cardPutArgs : List Byte → Option (Option CardRecord) :=
  fixed 15 cardFields

/-- A payload of no bytes (CACHE_FLUSH, QUERY STATUS, RESET after its scope). -/
def noArgs : List Byte → Option PUnit :=
  fixed 0 fun _ => PUnit.unit

/-- ROUND_LOAD's fields (R152). -/
structure RoundArgs where
  number : Short
  vehicle : Short
  duration : Nat
  allowance : Nat
  adHoc : Bool
  containers : List Number
deriving DecidableEq, Repr

/-- The container numbers of a ROUND_LOAD's payload, four bytes each. -/
def numbersOf (b : List Byte) : Nat → List Number
  | 0 => []
  | n + 1 => numberAt b 0 :: numbersOf (b.drop 4) n

/-- ROUND_LOAD: round 2, vehicle 2, duration 2, allowance 1, ad hoc 1, count n in 1..48, then n container numbers. -/
def roundLoadArgs (b : List Byte) : Option RoundArgs :=
  let n := fieldAt b 8 1
  if 1 ≤ n ∧ n ≤ 48 ∧ b.length = 9 + 4 * n then
    some { number := BitVec.ofNat 16 (fieldAt b 0 2), vehicle := BitVec.ofNat 16 (fieldAt b 2 2), duration := fieldAt b 4 2,
           allowance := fieldAt b 6 1, adHoc := flagOf (byteAt b 7), containers := numbersOf (b.drop 9) n }
  else none

/-- ROUND_CANCEL: round number 2. -/
def roundArgs : List Byte → Option Short :=
  fixed 2 fun b => BitVec.ofNat 16 (fieldAt b 0 2)

/-- PASS_DOWN: container number 4, count n in 1..32, then n bytes. -/
def passDownArgs (b : List Byte) : Option (Number × List Byte) :=
  let n := fieldAt b 4 1
  if 1 ≤ n ∧ n ≤ 32 ∧ b.length = 5 + n then some (numberAt b 0, b.drop 5) else none

/-- QUERY ACCOUNT: account 2. -/
def accountArgs : List Byte → Option Nat :=
  fixed 2 fun b => fieldAt b 0 2

/-- QUERY ROUND: round 2, offset 1. -/
def queryRoundArgs : List Byte → Option (Short × Nat) :=
  fixed 3 fun b => (BitVec.ofNat 16 (fieldAt b 0 2), fieldAt b 2 1)

/-- QUERY SERVICE_QUEUE: count 1. -/
def countArgs : List Byte → Option Nat :=
  fixed 1 fun b => fieldAt b 0 1

end Sys2Proof.Machine
end

