-- ==== Sys2Proof/Machine/Flags.lean ====
section
/-! DEFINITION. Conditions and marks computed from state: elapsed time, wall-time comparisons, attention membership, due rows,
fill targets, window coverage, service names. Nothing here changes state. -/

namespace Sys2Proof.Machine

/-! ### Time -/

/-- What has elapsed on a 32-bit clock, modulo 2^32 (R4). -/
def elapsed (now start : Clock) : Nat := (now - start).toNat

/-- The minute-of-day (R3). -/
def minuteOfDay (minute : Nat) : Nat := minute % 1440

/-- The day of the week, 0 for Monday (R3). -/
def dayOfWeek (minute : Nat) : Nat := minute / 1440

/-- A second event's effect on wall time (R3). When day 65535 would be passed the time becomes INVALID with day and
minute-of-week as they were; its second, which is not reported, has become 0 (log 13). -/
def WallTime.tick (w : WallTime) : WallTime :=
  if !w.valid then w
  else if w.second + 1 < 60 then { w with second := w.second + 1 }
  else
    let minute := if w.minute + 1 < 10080 then w.minute + 1 else 0
    if minute % 1440 ≠ 0 then { w with minute := minute, second := 0 }
    else if w.day = 65535 then { w with valid := false, second := 0 }
    else { w with day := w.day + 1, minute := minute, second := 0 }

/-- A jump from one wall time to another is forward (R7): day number first, then minute-of-day, then second. -/
def forwardJump (old new : WallTime) : Bool :=
  if old.day ≠ new.day then decide (old.day < new.day)
  else if minuteOfDay old.minute ≠ minuteOfDay new.minute then decide (minuteOfDay old.minute < minuteOfDay new.minute)
  else decide (old.second < new.second)

/-- A minute-of-week lies in the range that starts just after `old` and runs forward, over 10079 to 0, to `new` (R9). -/
def minutePassed (old new minute : Nat) : Bool :=
  let reach := (new + 10080 - old) % 10080
  let place := (minute + 10080 - old) % 10080
  decide (1 ≤ place) && decide (place ≤ reach)

/-- A forward jump passed the refill minute (R9). -/
def jumpPassed (old new : WallTime) (refillMinute : Nat) : Bool :=
  decide (old.day + 7 ≤ new.day) || minutePassed old.minute new.minute refillMinute

/-- The six-day condition of R8. -/
def refillDue (last : Option Nat) (day : Nat) : Bool :=
  match last with
  | none => true
  | some d => decide (d + 6 ≤ day)

/-! ### Stations -/

/-- A queued command is a PASS_DOWN. -/
def DownCommand.isPassDown : DownCommand → Bool
  | .passDown _ _ => true
  | _ => false

/-- Attention membership (R44). -/
def StationRow.member (r : StationRow) : Bool :=
  match r.state with
  | .joining => true
  | .awake | .silent | .absent => r.raised || !r.queue.isEmpty
  | .dozing => r.raised || r.queue.any fun q => !q.command.isPassDown
  | .unbound | .lost | .barred => false

/-- The second count has reached a DOZING row's next wake second (R43). -/
def StationRow.wakeReached (r : StationRow) (now : Clock) : Bool :=
  decide (elapsed now r.wake < 2 ^ 31)

/-- A DOZING row is due (R43); a row that has become due stays so until it is polled. -/
def StationRow.isDue (r : StationRow) (now : Clock) : Bool :=
  r.state == .dozing && (r.due || r.wakeReached now)

/-- A row stands in the routine ring (R42). -/
def StationRow.inRing (r : StationRow) : Bool :=
  match r.state with
  | .awake | .silent | .absent => true
  | _ => false

/-- A state in which a station answers or may answer its polls: PASS_DOWN and redirects ask for it (R99, R196). -/
def StationState.live : StationState → Bool
  | .awake | .dozing | .silent => true
  | _ => false

/-- A row whose answers and misses are taken when its poll turn ends. An UNBOUND row's are not (R53); a LOST or BARRED row is
never on the loop (log 33). -/
def StationState.polled : StationState → Bool
  | .absent | .joining | .awake | .dozing | .silent => true
  | _ => false

/-- The more-pending flag of an upward frame: bit 0 of its flag byte (11.3). -/
def morePending (flags : Byte) : Bool := flags.getLsbD 0

/-! ### Fill states -/

/-- The rank of a fill state (R86). -/
def FillState.rank : FillState → Nat
  | .low => 0
  | .nearFull => 1
  | .full => 2
  | .overflow => 3

/-- The rising target of a level (R86). -/
def risingTarget (p : Profile) (x : Nat) : FillState :=
  if p.o ≤ x then .overflow else if p.fu ≤ x then .full else if p.n ≤ x then .nearFull else .low

/-- The falling target of a level (R86): each falling threshold lies H below its rising threshold. -/
def fallingTarget (p : Profile) (x : Nat) : FillState :=
  if p.o - p.h ≤ x then .overflow else if p.fu - p.h ≤ x then .full else if p.n - p.h ≤ x then .nearFull else .low

/-- FULL and OVERFLOW close the chute and put the container in the service queue (R94, R123). -/
def FillState.closed : FillState → Bool
  | .full | .overflow => true
  | _ => false

/-! ### Service -/

/-- The service state of a service record (R151). -/
def Service.name : Service → ServiceName
  | .inUse => .inUse
  | .serviceWait _ _ => .serviceWait
  | .service _ _ _ => .service
  | .held _ _ => .held

/-- A step that waits or is being lifted (R94, R151). -/
def Step.open (st : Step) : Bool :=
  match st.state with
  | .pending | .lifting => true
  | _ => false

/-! ### Windows -/

/-- A window's days and span cover a minute-of-day on a day of the week (R133). -/
def Window.coversTime (w : Window) (day m : Nat) : Bool :=
  if w.start < w.stop then decide (w.start ≤ m ∧ m < w.stop) && inMask w.days day
  else if w.stop < w.start then
    (decide (w.start ≤ m) && inMask w.days day) || (decide (m < w.stop) && inMask w.days ((day + 6) % 7))
  else inMask w.days day

/-- Windows are enforced (R133). -/
def windowsEnforced (s : State) : Bool :=
  s.tk.wall.valid && s.au.windows.rows.any (·.enabled)

/-- A deposit of a fraction by a card class is covered now (R133). -/
def windowCovers (s : State) (fraction : Fin 8) (cls : Fin 8) : Bool :=
  s.au.windows.rows.any fun w =>
    w.enabled && inMask w.fractions fraction.val && inMask w.classes cls.val &&
      w.coversTime (dayOfWeek s.tk.wall.minute) (minuteOfDay s.tk.wall.minute)

end Sys2Proof.Machine
end

