-- ==== Sys2Proof/Machine/Memory.lean ====
section
/-! DEFINITION. The record memory device's contents (11.4): one canonical list of (address, byte), read and written in one place. -/

namespace Sys2Proof.Machine

/-- What a byte that nothing has written reads as: FFh, the state of a never-written device (R103; log 3). -/
def Memory.blank : Byte := 0xFF

/-- One byte of the device. -/
def Memory.read : Memory → Nat → Byte
  | [], _ => Memory.blank
  | (x, b) :: rest, a => if a = x then b else Memory.read rest a

/-- One byte written, keeping the canonical form: addresses strictly rising, no byte equal to `Memory.blank`. -/
def Memory.write : Memory → Nat → Byte → Memory
  | [], a, b => if b = Memory.blank then [] else [(a, b)]
  | (x, c) :: rest, a, b =>
    if a < x then
      if b = Memory.blank then (x, c) :: rest else (a, b) :: (x, c) :: rest
    else if a = x then
      if b = Memory.blank then rest else (a, b) :: rest
    else (x, c) :: Memory.write rest a b

/-- Addresses strictly rising from a bound, and no listed byte that reads as an unlisted one. -/
def Memory.wfFrom : Nat → Memory → Bool
  | _, [] => true
  | bound, (x, b) :: rest => decide (bound ≤ x) && decide (b ≠ Memory.blank) && Memory.wfFrom (x + 1) rest

/-- The canonical form. -/
def Memory.wf (m : Memory) : Bool := Memory.wfFrom 0 m

/-- `size` bytes from an address. -/
def Memory.readBytes (m : Memory) (a : Nat) : Nat → List Byte
  | 0 => []
  | size + 1 => m.read a :: Memory.readBytes m (a + 1) size

/-- Bytes written from an address on. -/
def Memory.writeBytes (m : Memory) (a : Nat) : List Byte → Memory
  | [] => m
  | b :: rest => Memory.writeBytes (m.write a b) (a + 1) rest

/-- A unit of the device that a write operation writes: where it lies and its bytes. -/
structure MemUnit where
  address : Nat
  bytes : List Byte
deriving DecidableEq, Repr

/-- The units of a write operation, all written (R174). -/
def Memory.writeUnits (m : Memory) (units : List MemUnit) : Memory :=
  units.foldl (fun m u => m.writeBytes u.address u.bytes) m

/-- The read-back of a unit agrees with what was written: every byte is compared, check byte included (R210). -/
def MemUnit.agrees (u : MemUnit) (returned : List Byte) : Bool := padTo u.bytes.length returned == u.bytes

/-- Units written one after another, each compared with its read-back before the next is written (R174, R210; log 29): the device's
contents, and whether every comparison agreed. Where one differs, the device holds what it returned (log 3), and the accesses after it
are not made. -/
def Memory.writeCompared (m : Memory) : List MemUnit → List (List Byte) → Memory × Bool
  | u :: units, b :: returned =>
    if u.agrees b then (m.writeBytes u.address u.bytes).writeCompared units returned
    else (m.writeBytes u.address (padTo u.bytes.length b), false)
  | units, _ => (m.writeUnits units, true)

/-- What a failed or abandoned write operation leaves (R174; log 29): `completed` units written, the next holding the residue's
bytes as far as they go, the rest untouched. -/
def Memory.writeCut (m : Memory) (units : List MemUnit) (r : Residue) : Memory :=
  let m := m.writeUnits (units.take r.completed)
  match units.drop r.completed with
  | [] => m
  | u :: _ => m.writeBytes u.address (r.left.take u.bytes.length)

/-- The image header's address and the sizes of the device's units (11.4). -/
def headerAddress : Nat := 0x000000

/-- The bytes of the header and of an image record (11.4). -/
def recordSize : Nat := 32

/-- The bytes of a card slot (R103). -/
def slotSize : Nat := 16

/-- Where image record `i` lies (11.4). -/
def recordAddress (i : Nat) : Nat := 0x000020 + recordSize * i

/-- Where bucket `b` lies (R103, 11.4). -/
def bucketAddress (b : Bucket) : Nat := 0x010000 + b.val * 64

/-- Where slot `i` of a bucket lies (R103). -/
def slotAddress (b : Bucket) (i : Nat) : Nat := bucketAddress b + slotSize * i

/-- What a read of `size` bytes at `a` returns, and the device's contents after it: a device that returns other bytes than the
modelled ones holds them (log 3). `none` is a failed read. -/
def Memory.access (m : Memory) (a size : Nat) : MemRead → Memory × Option (List Byte)
  | .asHeld => (m, some (m.readBytes a size))
  | .other bytes =>
    let m := m.writeBytes a (padTo size bytes)
    (m, some (m.readBytes a size))
  | .failed => (m, none)

end Sys2Proof.Machine
end

