-- ==== Sys2Proof/Machine/Records.lean ====
section
/-! DEFINITION. The records of the record memory (11.4): their places, their bytes, and how a unit that was read is classed
(R103, R104, R182, R183, R210). -/

namespace Sys2Proof.Machine

/-! ### Image records -/

/-- The kinds of image record, 0..6 in restore order (R183). -/
def RecordTarget.kind : RecordTarget → Fin 7
  | .parameter => 0
  | .profile _ => 1
  | .container _ => 2
  | .station _ => 3
  | .window _ => 4
  | .cls _ => 5
  | .cost _ => 6

/-- The kind code byte of a record (11.4). -/
def RecordTarget.kindCode (t : RecordTarget) : Byte := BitVec.ofNat 8 (t.kind.val + 1)

/-- The position of a target within its kind, as R175 numbers it (stations by address). R175 gives the one parameter record no position;
that it is 0 is a DESIGN CHOICE (log 48). -/
def RecordTarget.position : RecordTarget → Nat
  | .parameter => 0
  | .profile n => n.val
  | .container r => r.val
  | .station a => addressOf a
  | .window n => n.val
  | .cls n => n.val
  | .cost n => n.val

/-- Where a record stands in the image, 0..302 (11.4). -/
def RecordTarget.imageIndex : RecordTarget → Nat
  | .parameter => 0
  | .profile n => 1 + n.val
  | .container r => 17 + r.val
  | .station a => 209 + a.val
  | .window n => 271 + n.val
  | .cls n => 287 + n.val
  | .cost n => 295 + n.val

/-- The record at an image index, the restore order of R183. -/
def targetAt (i : Nat) : Option RecordTarget :=
  if i = 0 then some .parameter
  else if i < 17 then (index? 16 (i - 1)).map .profile
  else if i < 209 then (index? 192 (i - 17)).map .container
  else if i < 271 then (index? 62 (i - 209)).map .station
  else if i < 287 then (index? 16 (i - 271)).map .window
  else if i < 295 then (index? 8 (i - 287)).map .cls
  else (index? 8 (i - 295)).map .cost

/-- How many records of each kind the image holds, by kind (11.4). -/
def recordsOfKind : List Nat := [1, 16, 192, 62, 16, 8, 8]

/-- The 32 bytes of a record: kind code, present mark, contents filled with zeros, check byte (11.4). -/
def recordUnit (t : RecordTarget) (present : Byte) (contents : List Byte) : List Byte :=
  withCheck ([t.kindCode, present] ++ padTo 29 contents)

/-- The empty form of a record (11.4). -/
def emptyRecord (t : RecordTarget) : List Byte := recordUnit t 0 []

/-- The parameter record's contents: 14 values of 2 bytes in identifier order. -/
def paramsBytes (p : Params) : List Byte := ParamId.all.flatMap fun i => bytesOf 2 (p.get i)

/-- The 11 profile bytes (11.4). -/
def profileBytes (p : Profile) : List Byte :=
  bytesOf 2 p.n ++ bytesOf 2 p.fu ++ bytesOf 2 p.o ++ bytesOf 2 p.h ++ bytesOf 1 p.d ++ bytesOf 1 p.k ++ bytesOf 1 p.increment

/-- The 14 container bytes (11.4). -/
def containerBytes (c : ContainerConfig) : List Byte :=
  bytesOf 4 c.number.toNat ++ bytesOf 1 (addressOf c.station) ++ bytesOf 1 c.bay.val ++ bytesOf 1 c.fraction.val ++
    bytesOf 1 c.cluster.val ++ bytesOf 1 c.profile.val ++ bytesOf 2 c.empty ++ bytesOf 2 c.full ++ [flagByte c.enabled]

/-- The 8 station bytes (11.4): an absent serial holds zeros (11.1). -/
def stationBytes (serial : Option Serial) (pinned : Bool) : List Byte :=
  [flagByte serial.isSome] ++ bytesOf 6 (serial.getD 0).toNat ++ [flagByte pinned]

/-- The 8 window bytes (11.4). -/
def windowBytes (w : Window) : List Byte :=
  [flagByte w.enabled, w.days] ++ bytesOf 2 w.start ++ bytesOf 2 w.stop ++ [w.fractions, w.classes]

/-- The class flag byte (11.4). -/
def classByte (c : CardClass) : Byte := flagByte c.exempt ||| (flagByte c.provisional <<< 1)

/-- The record of a target as the tables stand (R178): the written set for the parameter record (R192), the empty form for an
empty container row and for a station row with neither serial nor pin. -/
def recordOf (t : RecordTarget) (s : State) : List Byte :=
  match t with
  | .parameter => recordUnit t 1 (paramsBytes s.tp.written)
  | .profile n => recordUnit t 1 (profileBytes (s.ft.profiles.get n))
  | .container r =>
    match (s.ft.rows.get r).config with
    | some c => recordUnit t 1 (containerBytes c)
    | none => emptyRecord t
  | .station a =>
    let row := s.slc.rows.get a
    if row.serial.isNone && !row.pinned then emptyRecord t else recordUnit t 1 (stationBytes row.serial row.pinned)
  | .window n => recordUnit t 1 (windowBytes (s.au.windows.get n))
  | .cls n => recordUnit t 1 [classByte (s.au.classes.get n)]
  | .cost n => recordUnit t 1 (bytesOf 1 (s.au.costs.get n))

/-- A record as read, before its contents are judged (R183, R210). -/
inductive RecordReading where
  | empty
  | bad
  | contents (bytes : List Byte)
deriving DecidableEq, Repr

/-- A record read at a target's place, classed by R183 and R210; `none` is a failed read. -/
def readRecord (t : RecordTarget) : Option (List Byte) → RecordReading
  | none => .bad
  | some b =>
    if isErased b then .empty
    else if !checkAgrees b then .bad
    else if byteAt b 0 ≠ t.kindCode then .bad
    else if byteAt b 1 = 0 then .empty
    else if byteAt b 1 = 1 then .contents (slice b 2 29)
    else .bad

/-! ### The image header -/

/-- The image format mark (11.4). -/
def formatMark : List Byte := [0x4E, 0x4C, 0x41, 0x42, 0x01, 0x2F]

/-- The header as the part writes it (11.4). -/
def headerUnit : List Byte := withCheck (padTo 31 formatMark)

/-- The header as read, classed by R182 and R210; `none` is a failed read. -/
def readHeader : Option (List Byte) → HeaderCondition
  | none => .bad
  | some b =>
    if isErased b then .blank
    else if !checkAgrees b then .bad
    else if slice b 0 6 = formatMark then .good
    else .foreign

/-- The units an image format writes: the empty form of every record in image order, then the header (R174, R182). -/
def formatUnits : List MemUnit :=
  ((List.range Config.imageRecords).filterMap fun i =>
    (targetAt i).map fun t => { address := recordAddress i, bytes := emptyRecord t }) ++
  [{ address := headerAddress, bytes := headerUnit }]

/-! ### Card slots -/

/-- A card slot's 16 bytes (11.4); absent optional fields hold zeros. -/
def slotOf (r : CardRecord) : List Byte :=
  let presence := flagByte r.expiry.isSome ||| (flagByte r.start.isSome <<< 1) ||| (flagByte r.home.isSome <<< 2)
  let status : Byte := match r.status with
    | .active => 1
    | .suspended => 2
    | .lost => 3
  withCheck (bytesOf 4 r.number.toNat ++ [status] ++ bytesOf 2 r.account.val ++ bytesOf 1 r.cls.val ++ [r.rights, presence] ++
    bytesOf 2 (r.expiry.getD 0) ++ bytesOf 2 (r.start.getD 0) ++ bytesOf 1 ((r.home.map Fin.val).getD 0))

/-- A slot written free (R117): card number 0, all other fields zero, with its check byte. -/
def freeSlot : List Byte := withCheck (List.replicate 15 0)

/-- A slot as read (R103): an erased slot counts as free. -/
inductive SlotReading where
  | free
  | bad
  | card (r : CardRecord)
deriving DecidableEq, Repr

/-- One slot classed by R103 and R210. -/
def readSlot (b : List Byte) : SlotReading :=
  if isErased b then .free
  else if !checkAgrees b then .bad
  else if numberAt b 0 = 0 then .free
  else match cardFields b with
    | some r => .card r
    | none => .bad

/-- The four slots of a bucket as read; a bucket read that failed has every slot bad (R104). -/
def readBucket : Option (List Byte) → List SlotReading
  | none => List.replicate 4 .bad
  | some b => (List.range 4).map fun i => readSlot (slice b (slotSize * i) slotSize)

/-- The bad slots of a bucket (R104). -/
def badSlots (slots : List SlotReading) : Nat := slots.countP (· == .bad)

/-- The answer of the Card Lookup Unit (R104, R106). -/
inductive CardAnswer where
  | found (r : CardRecord)
  | unknown
  | memoryFault
deriving DecidableEq, Repr

/-- The first slot that holds a card number (R104). -/
def cardIn (slots : List SlotReading) (n : Number) : Option CardRecord :=
  slots.findSome? fun s => match s with
    | .card r => if r.number = n then some r else none
    | _ => none

/-- A bucket as read, searched for one card number (R104). -/
def searchBucket (slots : List SlotReading) (n : Number) : CardAnswer :=
  match cardIn slots n with
  | some r => .found r
  | none => if slots.any (· == .bad) then .memoryFault else .unknown

/-- A slot holds a card number. -/
def SlotReading.holds (n : Number) : SlotReading → Bool
  | .card r => r.number == n
  | _ => false

/-- A slot that can take a card whose number no good slot holds: free, erased or bad (R117). -/
def SlotReading.takes : SlotReading → Bool
  | .card _ => false
  | _ => true

/-- The slots of a bucket that hold a card number. -/
def slotsHolding (slots : List SlotReading) (n : Number) : List Nat :=
  (List.range 4).filter fun i => (slots.getD i .bad).holds n

/-- CARD_PUT's read-modify-write (R117): its status and the slots it writes, in order. -/
def putCard (slots : List SlotReading) (r : CardRecord) : Status × List (Nat × List Byte) :=
  match slotsHolding slots r.number with
  | first :: later => (.ok, (first, slotOf r) :: later.map fun i => (i, freeSlot))
  | [] =>
    match (List.range 4).find? fun i => (slots.getD i .bad).takes with
    | some i => (.ok, [(i, slotOf r)])
    | none => (.noRoom, [])

/-- CARD_DROP's read-modify-write (R117). -/
def dropCard (slots : List SlotReading) (n : Number) : Status × List (Nat × List Byte) :=
  match slotsHolding slots n with
  | [] => (if slots.any (· == .bad) then .memoryFault else .notFound, [])
  | held => (.ok, held.map fun i => (i, freeSlot))

/-- A card's bucket: its number modulo 4096 (R103). -/
def bucketOf (n : Number) : Bucket := ⟨n.toNat % 4096, Nat.mod_lt _ (by decide)⟩

/-- The units of a card write: the slots it writes, at their places. -/
def slotUnits (b : Bucket) (writes : List (Nat × List Byte)) : List MemUnit :=
  writes.map fun w => { address := slotAddress b w.1, bytes := w.2 }

end Sys2Proof.Machine
end

