-- ==== Sys2Proof/Machine/Ops.lean ====
section
/-! DEFINITION. The shared operations of the blocks: saturating counts, wall-time stamps, the upstream queue and its reports
(R200 to R203), the taking and answering of trunk commands (R190, R191), the downstream queues (R32, R48), container lookup,
the service queue (R94, R95), CONTAINER_STATUS (R91) and the write queue (R175, R178). -/

namespace Sys2Proof.Machine

/-- A count that stays at 65535 once it gets there (R54, R119, R147, R205). -/
def bump (n : Nat) (k : Nat := 1) : Nat := min 65535 (n + k)

/-- The stamp of an event: wall time, or the time-invalid mark (R5). -/
def State.stamp (s : State) : Stamp :=
  if s.tk.wall.valid then some (s.tk.wall.day, s.tk.wall.minute) else none

/-- A byte the spec leaves open, drawn fresh (log 16). -/
def drawByte (s : State) : Byte × State :=
  (Config.freeByte s.free, { s with free := s.free + 1 })

/-- The part takes events: it is not held in a COLD reset (R12, R199). -/
def whenRunning (f : State → State) (s : State) : Host.Outcome State Fault Refusal :=
  .next (if s.hold = .running then f s else s)

/-! ### The upstream queue -/

/-- The upstream queue's occupancy (R200): its entries and the outstanding reply reservations. -/
def TrunkPort.occupancy (t : TrunkPort) : Nat :=
  (if t.line.isSome then 1 else 0) + t.waiting.length + t.reserved

/-- An entry at the tail. The transmitter is idle only when the queue is empty, so an entry that finds it idle begins at once
(R201; log 9). -/
def TrunkPort.enqueue (t : TrunkPort) (e : UpEntry) : TrunkPort :=
  if t.line.isNone then { t with line := some e } else { t with waiting := t.waiting ++ [e] }

/-- A new DEPOSIT_REPORT fits a waiting one: same account, container and outcome, count below 255 (R203). -/
def DepositReport.absorbs (old new : DepositReport) : Bool :=
  old.account == new.account && old.number == new.number && old.outcome == new.outcome && decide (old.count < 255)

/-- A report absorbed into a waiting entry (R203); `none` when no entry qualifies. -/
def absorb (new : DepositReport) : List UpEntry → Option (List UpEntry)
  | [] => none
  | .report seq (.deposit old) :: rest =>
    if old.absorbs new then
      some (.report seq (.deposit { old with count := old.count + 1, cost := old.cost + new.cost, last := new.last }) :: rest)
    else (absorb new rest).map (.report seq (.deposit old) :: ·)
  | e :: rest => (absorb new rest).map (e :: ·)

/-- A report as a new entry: it takes the next report sequence number, and is dropped and counted when the occupancy is 120 or
more (R200, R202). -/
def placeReport (r : Report) (s : State) : State :=
  let t := { s.tp with reportSeq := s.tp.reportSeq + 1 }
  if s.tp.occupancy < Config.reportPlaces then { s with tp := t.enqueue (.report s.tp.reportSeq r) }
  else { s with tp := { t with droppedReports := bump t.droppedReports } }

/-- A report posted: a DEPOSIT_REPORT is first offered to the waiting entries (R200, R203). -/
def postReport (r : Report) (s : State) : State :=
  match r with
  | .deposit d =>
    match absorb d s.tp.waiting with
    | some waiting => { s with tp.waiting := waiting }
    | none => placeReport r s
  | _ => placeReport r s

/-- A REPLY queued in the place reserved for it (R191, R200). -/
def queueReply (kind tag : Byte) (status : Status) (detail : Detail) (s : State) : State :=
  { s with tp := { s.tp with reserved := s.tp.reserved - 1 }.enqueue (.reply kind tag status detail) }

/-! ### Trunk commands -/

/-- The command kinds (R207). -/
inductive CommandKind where
  | timeSet | paramPut | profilePut | containerPut | containerDrop | stationPut | stationDrop | stationClear | windowPut | classPut
  | costPut | cardPut | cardDrop | accountPut | roundLoad | roundCancel | holdClear | cacheFlush | passDown | query | reset
deriving DecidableEq, Repr

/-- A command kind's code (R207). -/
def CommandKind.code : CommandKind → Byte
  | .timeSet => 0x01
  | .paramPut => 0x02
  | .profilePut => 0x03
  | .containerPut => 0x04
  | .containerDrop => 0x05
  | .stationPut => 0x06
  | .stationDrop => 0x07
  | .stationClear => 0x08
  | .windowPut => 0x09
  | .classPut => 0x0A
  | .costPut => 0x0B
  | .cardPut => 0x0C
  | .cardDrop => 0x0D
  | .accountPut => 0x0E
  | .roundLoad => 0x0F
  | .roundCancel => 0x10
  | .holdClear => 0x11
  | .cacheFlush => 0x12
  | .passDown => 0x13
  | .query => 0x14
  | .reset => 0x15

/-- The commands that change a table of the configuration image (R178): their REPLY carries the not-persisted mark (11.2). -/
def CommandKind.configures : CommandKind → Bool
  | .paramPut | .profilePut | .containerPut | .containerDrop | .stationPut | .stationDrop | .windowPut | .classPut | .costPut => true
  | _ => false

/-- A command answered with no answer to carry: a configuration command's detail is its mark, clear (log 17). -/
def answer (kind : CommandKind) (tag : Byte) (status : Status) (s : State) : State :=
  queueReply kind.code tag status (if kind.configures then .persisted false else .none) s

/-- A ROUND_LOAD refused (R152): the list position, and a slot byte the spec leaves open (log 16, 17). -/
def refuseRound (tag : Byte) (status : Status) (position : Nat) (s : State) : State :=
  let (slot, s) := drawByte s
  queueReply CommandKind.roundLoad.code tag status (.roundLoad slot (BitVec.ofNat 8 position)) s

/-- A command refused by the checks of R190. -/
def refuse (kind : CommandKind) (tag : Byte) (status : Status) (s : State) : State :=
  match kind with
  | .roundLoad => refuseRound tag status 0 s
  | _ => answer kind tag status s

/-- The receiver in HUNT and a reply place reserved: the state in which a taken command's own rule begins (R189, R190). -/
def State.reserved (s : State) : State := { s with tp := { s.tp with receiver := .hunt, reserved := s.tp.reserved + 1 } }

/-- A good frame taken at its second CRC byte, which leaves the receiver in HUNT (R189, R190; log 32): a reply place is reserved, or
the command is not taken and the overrun is counted. -/
def reserveReply (body : State → State) (s : State) : State :=
  if s.tp.occupancy < Config.upstreamPlaces then body s.reserved
  else { s with tp := { s.tp with receiver := .hunt, commandOverruns := bump s.tp.commandOverruns } }

/-- A command of a known kind taken (R190): a reply place is reserved, then the payload length and, unless the command is served
while RESTORING, the part state are checked, and its own rule carries it out. -/
def takeCommand {α : Type} (kind : CommandKind) (tag : Byte) (args : Option α) (whileRestoring : Bool) (body : α → State → State) :
    State → State :=
  reserveReply fun s =>
    match args with
    | none => refuse kind tag .badLength s
    | some a => if s.rmi.restoring && !whileRestoring then refuse kind tag .notReady s else body a s

/-! ### Stations and their downstream queues -/

/-- One station row changed. -/
def setStation (a : Station) (f : StationRow → StationRow) (s : State) : State :=
  { s with slc.rows := s.slc.rows.update a f }

/-- What became of a posted command (R32, R48). -/
inductive Post where
  | queued | noRoom | discarded
deriving DecidableEq, Repr

/-- Whether a command is taken by a row (R32, R48). -/
def StationRow.accepts (r : StationRow) (c : DownCommand) : Post :=
  match r.state with
  | .awake | .dozing | .silent | .absent =>
    if decide (Config.downPlaces ≤ r.queue.length) || (c.isPassDown && r.queue.any fun q => q.command.isPassDown) then .noRoom
    else .queued
  | .joining | .lost | .barred | .unbound => .discarded

/-- A command at the tail of a row's queue with the row's next sequence number (R39, R48). -/
def StationRow.push (c : DownCommand) (r : StationRow) : StationRow :=
  { r with queue := r.queue ++ [{ seq := r.nextSeq, command := c }], nextSeq := r.nextSeq + 1 }

/-- A command posted to a station, with what became of it (R32, R48). -/
def postDown (a : Station) (c : DownCommand) (s : State) : Post × State :=
  match (s.slc.rows.get a).accepts c with
  | .queued => (.queued, setStation a (StationRow.push c) s)
  | p => (p, s)

/-- A command posted by a block that takes no further action when it is not queued (R32, R130, R154). -/
def sendDown (a : Station) (c : DownCommand) (s : State) : State := (postDown a c s).2

/-- The carried command of a poll on the loop no longer stands in its row's queue (R49). -/
def Turn.forget (a : Station) : Turn → Turn
  | .openSlot => .openSlot
  | .poll p => .poll (if p.address = a then { p with standing := false } else p)

/-- A row's downstream queue emptied, its commands discarded unsent (R49). -/
def emptyDown (a : Station) (s : State) : State :=
  let s := setStation a (fun r => { r with queue := [] }) s
  { s with slc.turn := s.slc.turn.map (Turn.forget a) }

/-! ### Containers -/

/-- The row of the container bound to an address and bay (R80). -/
def containerAt (s : State) (a : Station) (bay : Nat) : Option Row :=
  s.ft.rows.find fun r => r.config.any fun c => c.station == a && c.bay.val == bay

/-- The row of a container number (R80). -/
def containerOf (s : State) (n : Number) : Option Row :=
  s.ft.rows.find fun r => r.config.any fun c => c.number == n

/-- The configuration part of a row. -/
def configOf (s : State) (r : Row) : Option ContainerConfig := (s.ft.rows.get r).config

/-- The containers bound to an address (R13), in row index order (log 40). -/
def boundTo (s : State) (a : Station) : List Row :=
  s.ft.rows.indexes fun r => r.config.any fun c => c.station == a

/-- A row's dynamic part changed. -/
def setFill (r : Row) (f : Fill → Fill) (s : State) : State :=
  { s with ft.rows := s.ft.rows.update r fun row => { row with fill := f row.fill } }

/-- A row's dynamic part. -/
def fillOf (s : State) (r : Row) : Fill := (s.ft.rows.get r).fill

/-- The profile of a row, as it stands (R84); an empty row has none, and the defaults stand in. -/
def profileOf (s : State) (r : Row) : Profile :=
  match configOf s r with
  | some c => s.ft.profiles.get c.profile
  | none => Profile.default

/-- A row's service record. -/
def serviceOf (s : State) (r : Row) : Service := s.rm.service.get r

/-- A row's service record replaced. -/
def setService (r : Row) (v : Service) (s : State) : State :=
  { s with rm.service := s.rm.service.set r v }

/-- A row is bound (R13): it has a serial, or a container names its address. -/
def isBound (s : State) (a : Station) : Bool :=
  (s.slc.rows.get a).serial.isSome || !(boundTo s a).isEmpty

/-! ### The service queue -/

/-- A container is a PENDING or LIFTING step of a round. -/
def Round.holdsOpen (rd : Round) (r : Row) : Bool := rd.steps.any fun st => st.row == r && st.open

/-- A container is a PENDING or LIFTING step of an active round (R94). -/
def onActiveRound (s : State) (r : Row) : Bool :=
  s.rm.slots.rows.any fun slot => slot.any fun rd => rd.holdsOpen r

/-- A container qualifies for the service queue (R94). -/
def qualifies (s : State) (r : Row) : Bool :=
  match configOf s r with
  | none => false
  | some c =>
    c.enabled && !onActiveRound s r &&
      ((fillOf s r).fill.closed || decide ((fillOf s r).ttf ≤ s.tp.effective.horizon))

/-- The queue's order: ascending TTF, then ascending row index (R94). -/
def queueBefore (s : State) (a b : Row) : Bool :=
  decide ((fillOf s a).ttf < (fillOf s b).ttf) || ((fillOf s a).ttf == (fillOf s b).ttf && decide (a < b))

/-- A container inserted at the place its TTF and index give (R95). -/
def queueInsert (s : State) (r : Row) : List Row → List Row
  | [] => [r]
  | x :: rest => if queueBefore s r x then r :: x :: rest else x :: queueInsert s r rest

/-- A container's membership re-evaluated (R95). -/
def reevaluate (r : Row) (s : State) : State :=
  let others := s.ft.queue.filter (· != r)
  { s with ft.queue := if qualifies s r then queueInsert s r others else others }

/-- Every container's membership re-evaluated (R96, R97): the qualifying containers sorted afresh. -/
def rebuildQueue (s : State) : State :=
  { s with ft.queue := ((List.finRange 192).filter (qualifies s)).foldl (fun q r => queueInsert s r q) [] }

/-! ### CONTAINER_STATUS -/

/-- The CONTAINER_STATUS of a container as it stands, with its fill state and health before the event (R92). -/
def containerStatus (r : Row) (c : ContainerConfig) (cause : StatusCause) (before s : State) : ContainerStatus :=
  { number := c.number, row := r, cause := cause, fill := (fillOf s r).fill, fillBefore := (fillOf before r).fill,
    health := (fillOf s r).health, healthBefore := (fillOf before r).health, service := (serviceOf s r).name,
    lf := (fillOf s r).lf, i := (fillOf s r).i, ttf := (fillOf s r).ttf, drop := (fillOf s r).drop,
    member := s.ft.queue.contains r, stamp := s.stamp }

/-- An event has left a container's fill state, health or service state different (R91). -/
def statusChanged (r : Row) (before s : State) : Bool :=
  (fillOf s r).fill != (fillOf before r).fill || (fillOf s r).health != (fillOf before r).health ||
    (serviceOf s r).name != (serviceOf before r).name

/-- The end of an event at a container: one CONTAINER_STATUS when the event has changed its fill state, health or service state
(R91). `before` is the state in which the event began. -/
def reportChange (r : Row) (cause : StatusCause) (before s : State) : State :=
  match configOf s r with
  | none => s
  | some c =>
    if statusChanged r before s then postReport (.containerStatus (containerStatus r c cause before s)) s else s

/-! ### Card Lookup Unit: requests leaving -/

/-- A request taken out of the pending-request list, and out of the miss list entry or slot-wait order it waits in (R114, R121). -/
def dropRequest (r : Row) (s : State) : State :=
  { s with
    au.requests := s.au.requests.filter (·.row != r)
    clu := { s.clu with
      missList := s.clu.missList.map fun e => { e with waiting := e.waiting.filter (·.row != r) }
      slotWait := s.clu.slotWait.filter (·.row != r) } }

/-! ### The write queue -/

/-- The write queue holds 8 entries (R175). With the record memory absent no entry is made, so the queue is never full (R186). -/
def writesFull (s : State) : Bool := !s.rmi.absent && decide (Config.writePlaces ≤ s.rmi.queue.length)

/-- An entry at the end of the write queue (R175). -/
def queueWrite (body : WriteBody) (reply : Option ReplyTo) (s : State) : State :=
  { s with rmi.queue := s.rmi.queue ++ [{ body := body, reply := reply, inProgress := false }] }

/-- The write-through of a configuration command (R178): a RECORD entry whose end queues the REPLY, or, with the record memory
absent, the REPLY with OK and the not-persisted mark at once (R186). -/
def writeThrough (kind : CommandKind) (tag : Byte) (target : RecordTarget) (s : State) : State :=
  if s.rmi.absent then queueReply kind.code tag .ok (.persisted true) s
  else queueWrite (.record target (recordOf target s) []) (some { kind := kind.code, tag := tag }) s

end Sys2Proof.Machine
end

