-- ==== Sys2Proof/Machine/Frames.lean ====
section
/-! DEFINITION. The frames of chapter 11: what the transmitter sends for an upstream entry (R207, R208), what a loop turn sends, and
how an upward frame is read (R209). -/

namespace Sys2Proof.Machine

/-! ### Fields (R208) -/

/-- An optional field or group of fields: its presence flag, then its bytes, zeros when absent (11.1; log 39). -/
def optBytes (size : Nat) : Option (List Byte) → List Byte
  | none => 0 :: List.replicate size 0
  | some b => 1 :: b

/-- A list of items after its one-byte count. -/
def listBytes (items : List (List Byte)) : List Byte := bytesOf 1 items.length ++ items.flatten

/-- A stamp or the time-invalid mark (11.1). -/
def stampBytes : Stamp → List Byte
  | none => [0xFF, 0xFF, 0xFF, 0xFF]
  | some (day, minute) => bytesOf 2 day ++ bytesOf 2 minute

/-- A container or card number. -/
def numberBytes (n : Number) : List Byte := bytesOf 4 n.toNat

/-- A round or vehicle number. -/
def shortBytes (n : Short) : List Byte := bytesOf 2 n.toNat

/-- A serial. -/
def serialBytes (n : Serial) : List Byte := bytesOf 6 n.toNat

/-! ### Names, coded in the order their rules list them (R208) -/

/-- Fill states (R86). -/
def FillState.code (f : FillState) : Byte := BitVec.ofNat 8 f.rank

/-- Sensor health (R57). -/
def Health.code : Health → Byte
  | .noData => 0
  | .good => 1
  | .suspect => 2
  | .fault => 3

/-- Service states (R57). -/
def ServiceName.code : ServiceName → Byte
  | .inUse => 0
  | .serviceWait => 1
  | .service => 2
  | .held => 3

/-- Causes of a CONTAINER_STATUS (R92). -/
def StatusCause.code : StatusCause → Byte
  | .sample => 0
  | .deposit => 1
  | .stale => 2
  | .service => 3

/-- Outcomes of a commit (11.2). -/
def CommitOutcome.code : CommitOutcome → Byte
  | .committed => 0
  | .unconfirmed => 1
  | .provisional => 2

/-- Outcomes of a SERVICE_REPORT (R170). -/
def ServiceOutcome.code : ServiceOutcome → Byte
  | .done => 0
  | .timedOut => 1
  | .late => 2

/-- The resulting service state of a SERVICE_REPORT: R170 lists IN_USE and HELD. -/
def resultCode : ServiceName → Byte
  | .held => 1
  | _ => 0

/-- Origins of a step (R150). -/
def Origin.code : Origin → Byte
  | .planned => 0
  | .inserted => 1
  | .adhoc => 2

/-- Lock states (11.3). -/
def lockCode : LockState → Byte
  | .locked => 0
  | .unlocked => 1

/-- End causes (R149). -/
def EndCause.code : EndCause → Byte
  | .vehicleEnd => 0
  | .expired => 1
  | .cancelled => 2

/-- Events of a STATION_EVENT (R33). -/
def StationEventKind.code : StationEventKind → Byte
  | .joined => 0
  | .resumed => 1
  | .lost => 2
  | .joinTimeout => 3
  | .unknownSerial => 4

/-- Join kinds (R13). -/
def JoinKind.code : JoinKind → Byte
  | .first => 0
  | .comeback => 1
  | .restart => 2

/-- Join causes (11.3). -/
def joinCauseCode : JoinCause → Byte
  | .powerOn => 0
  | .watchdog => 1
  | .brownout => 2
  | .soft => 3

/-- Station states (R13). -/
def StationState.code : StationState → Byte
  | .unbound => 0
  | .absent => 1
  | .joining => 2
  | .awake => 3
  | .dozing => 4
  | .silent => 5
  | .lost => 6
  | .barred => 7

/-- The resulting state of a STATION_EVENT: R33 lists AWAKE, BARRED, LOST and ABSENT. -/
def eventStateCode : StationState → Byte
  | .barred => 1
  | .lost => 2
  | .absent => 3
  | _ => 0

/-- Header conditions (R182). -/
def HeaderCondition.code : HeaderCondition → Byte
  | .good => 0
  | .bad => 1
  | .foreign => 2
  | .blank => 3

/-- Reset causes (R185). -/
def ResetCause.code : ResetCause → Byte
  | .pinOrPower => 0
  | .trunkFull => 1

/-- Outcomes of a restore (R185). -/
def RestoreOutcome.code : RestoreOutcome → Byte
  | .imageLoaded => 0
  | .imageBlank => 1
  | .memoryAbsent => 2

/-- REPLY statuses (11.2). -/
def Status.code : Status → Byte
  | .ok => 0x00
  | .badLength => 0x01
  | .badField => 0x02
  | .unknownKind => 0x03
  | .notFound => 0x04
  | .noRoom => 0x05
  | .conflict => 0x06
  | .busy => 0x07
  | .refusedState => 0x08
  | .notReady => 0x09
  | .memoryFault => 0x0A

/-- Denial reasons, in the order of R130's table (11.3). -/
def DenyReason.code : DenyReason → Byte
  | .outOfUse => 0x00
  | .service => 0x01
  | .busyChute => 0x02
  | .full => 0x03
  | .tryAgain => 0x04
  | .unknownCard => 0x05
  | .memoryFault => 0x06
  | .cardBlocked => 0x07
  | .cardExpired => 0x08
  | .notYet => 0x09
  | .noRight => 0x0A
  | .wrongPlace => 0x0B
  | .closedHours => 0x0C
  | .accountBlocked => 0x0D
  | .accountUnknown => 0x0E
  | .noBudget => 0x0F

/-- Reasons of a LIFT_REFUSE (11.3). -/
def RefuseReason.code : RefuseReason → Byte
  | .noRound => 0
  | .notOnRound => 1
  | .otherRound => 2
  | .held => 3
  | .otherVehicle => 4

/-! ### Report payloads (R207, R208) -/

/-- CONTAINER_STATUS (R92). -/
def ContainerStatus.payload (r : ContainerStatus) : List Byte :=
  numberBytes r.number ++ bytesOf 1 r.row.val ++ [r.cause.code, r.fill.code, r.fillBefore.code, r.health.code,
    r.healthBefore.code, r.service.code] ++ bytesOf 2 r.lf ++ bytesOf 2 r.i ++ bytesOf 2 r.ttf ++
    [flagByte r.drop, flagByte r.member] ++ stampBytes r.stamp

/-- DEPOSIT_REPORT (11.2): 19 bytes. -/
def DepositReport.payload (r : DepositReport) : List Byte :=
  bytesOf 2 r.account.val ++ numberBytes r.number ++ bytesOf 1 r.row.val ++ [r.outcome.code] ++ bytesOf 1 r.count ++
    bytesOf 2 r.cost ++ stampBytes r.first ++ stampBytes r.last

/-- CARD_ALERT (R136). -/
def CardAlert.payload (r : CardAlert) : List Byte :=
  numberBytes r.card ++ bytesOf 2 r.account.val ++ bytesOf 1 r.cls.val ++ numberBytes r.number ++ bytesOf 1 r.row.val ++
    bytesOf 1 (addressOf r.station) ++ bytesOf 1 r.bay.val ++ stampBytes r.stamp

/-- SERVICE_REPORT (R170; log 39). -/
def ServiceReport.payload (r : ServiceReport) : List Byte :=
  [r.outcome.code] ++ numberBytes r.number ++ bytesOf 1 r.row.val ++
    optBytes 3 (r.step.map fun p => shortBytes p.1 ++ bytesOf 1 p.2) ++ optBytes 1 (r.origin.map fun o => [o.code]) ++
    shortBytes (r.vehicle.getD 0) ++ optBytes 2 (r.before.map (bytesOf 2)) ++
    optBytes 3 (r.carried.map fun c => shortBytes c.1 ++ [lockCode c.2]) ++ [resultCode r.service] ++ stampBytes r.stamp

/-- The counts of R168. -/
def StepCounts.bytes (c : StepCounts) : List Byte :=
  bytesOf 1 c.done ++ bytesOf 1 c.missed ++ bytesOf 1 c.timedOut ++ bytesOf 1 c.inserted ++ bytesOf 1 c.adHoc ++
    bytesOf 1 c.planned

/-- The fields of a ROUND_EVENT that depend on its event (R169; log 39). -/
def RoundNews.bytes : RoundNews → List Byte
  | .ended cause counts =>
    optBytes 1 (cause.map fun c => [c.code]) ++ optBytes 6 (some counts.bytes) ++ optBytes 5 none ++ optBytes 1 none ++
      optBytes 1 none
  | .inserted number row position allowance =>
    optBytes 1 none ++ optBytes 6 none ++ optBytes 5 (some (numberBytes number ++ bytesOf 1 row.val)) ++
      optBytes 1 (some (bytesOf 1 position)) ++ optBytes 1 (some (bytesOf 1 allowance))

/-- The event of a ROUND_EVENT (R169). -/
def RoundNews.code : RoundNews → Byte
  | .ended _ _ => 0
  | .inserted _ _ _ _ => 1

/-- ROUND_EVENT (R169). -/
def RoundEvent.payload (r : RoundEvent) : List Byte :=
  [r.news.code] ++ shortBytes r.round ++ shortBytes r.vehicle ++ bytesOf 1 r.slot.val ++ r.news.bytes ++ stampBytes r.stamp

/-- STATION_EVENT (R33). -/
def StationEvent.payload (r : StationEvent) : List Byte :=
  [r.event.code] ++ optBytes 1 (r.address.map fun a => bytesOf 1 (addressOf a)) ++ optBytes 6 (r.serial.map serialBytes) ++
    optBytes 1 (r.joinKind.map fun k => [k.code]) ++ optBytes 1 (r.cause.map fun c => [joinCauseCode c]) ++
    optBytes 1 (r.result.map fun c => [eventStateCode c]) ++ optBytes 1 (r.rejoin.map (bytesOf 1)) ++
    optBytes 1 (r.notPersisted.map fun f => [flagByte f]) ++ stampBytes r.stamp

/-- Bound containers with their bays, as a list. -/
def boundBytes (containers : List (Number × Bay)) : List Byte :=
  listBytes (containers.map fun c => numberBytes c.1 ++ bytesOf 1 c.2.val)

/-- PASS_UP (R197). -/
def PassUpReport.payload (r : PassUpReport) : List Byte :=
  bytesOf 1 (addressOf r.station) ++ optBytes 6 (r.serial.map serialBytes) ++ boundBytes r.containers ++
    listBytes (r.bytes.map fun b => [b]) ++ stampBytes r.stamp

/-- The counts of one record kind (R184). -/
def RecordCounts.bytes (c : RecordCounts) : List Byte := bytesOf 1 c.loaded ++ bytesOf 1 c.empty ++ bytesOf 1 c.bad

/-- The totals over the kinds (R185). -/
def totalBytes (counts : Table RecordCounts 7) : List Byte :=
  bytesOf 2 (counts.rows.map (·.loaded)).sum ++ bytesOf 2 (counts.rows.map (·.empty)).sum ++
    bytesOf 2 (counts.rows.map (·.bad)).sum

/-- RESTORE_REPORT (R185). -/
def RestoreReport.payload (r : RestoreReport) : List Byte :=
  [r.outcome.code] ++ optBytes 1 (r.header.map fun h => [h.code]) ++ [r.cause.code] ++ r.counts.rows.flatMap RecordCounts.bytes ++
    totalBytes r.counts ++ stampBytes r.stamp

/-- SUMMARY (R204). -/
def SummaryReport.payload (r : SummaryReport) : List Byte :=
  ([r.grants, r.denials, r.releases, r.ignoredCloses, r.polls, r.noAnswers, r.collisions, r.ignoredJoins, r.hits, r.misses,
    r.memoryErrors, r.crcErrors, r.droppedReports, r.commandOverruns].flatMap (bytesOf 2)) ++
    listBytes (r.head.map fun e => numberBytes e.1 ++ bytesOf 2 e.2.1 ++ [e.2.2.code]) ++ bytesOf 2 r.interval ++
    stampBytes r.stamp

/-- A report's kind and payload (11.2). -/
def Report.frame : Report → Byte × List Byte
  | .containerStatus r => (0x81, r.payload)
  | .deposit r => (0x82, r.payload)
  | .cardAlert r => (0x83, r.payload)
  | .service r => (0x84, r.payload)
  | .round r => (0x85, r.payload)
  | .station r => (0x86, r.payload)
  | .passUp r => (0x87, r.payload)
  | .restore r => (0x88, r.payload)
  | .summary r => (0x89, r.payload)

/-- The detail of a REPLY (11.2, R208). -/
def Detail.bytes : Detail → List Byte
  | .none => []
  | .persisted mark => [flagByte mark]
  | .roundLoad slot position => [slot, position]
  | .answer bytes => bytes

/-- A trunk frame (11.2, R207). -/
def trunkFrameBytes (kind tag : Byte) (payload : List Byte) : List Byte :=
  let body := bytesOf 1 (payload.length + 2) ++ [kind, tag] ++ payload
  [0xC3] ++ body ++ crcBytes (trunkCrc body)

/-- The frame an upstream entry is sent as (R201, R207). -/
def UpEntry.frame : UpEntry → List Byte
  | .reply kind tag status detail => trunkFrameBytes 0x80 tag ([kind, status.code] ++ detail.bytes)
  | .report seq r => trunkFrameBytes r.frame.1 seq r.frame.2

/-! ### Downward frames (11.3) -/

/-- A redirect, or zeros after a clear presence flag (11.3). -/
def redirectBytes (r : Option Redirect) : List Byte :=
  optBytes 6 (r.map fun r => numberBytes r.number ++ bytesOf 1 (addressOf r.station) ++ bytesOf 1 r.bay.val)

/-- A vehicle reply's code and reason (11.3). -/
def VehicleAnswer.bytes : VehicleAnswer → List Byte
  | .liftOk => [0, 0]
  | .liftWait => [1, 0]
  | .liftRefuse reason => [2, reason.code]
  | .doneAck => [3, 0]
  | .roundClosed => [4, 0]

/-- The last four bytes of a vehicle reply (11.3). -/
def ReplySubject.bytes : ReplySubject → List Byte
  | .container number => numberBytes number
  | .round number high1 high2 => [high1, high2] ++ shortBytes number

/-- A downward command (11.3). -/
def DownCommand.bytes : DownCommand → List Byte
  | .grant bay tag => [0x01] ++ bytesOf 1 bay.val ++ [tag]
  | .deny bay tag reason redirect => [0x02, bay, tag, reason.code] ++ redirectBytes redirect
  | .liftRelease bay => [0x03] ++ bytesOf 1 bay.val
  | .liftHold bay => [0x04] ++ bytesOf 1 bay.val
  | .reply answer vehicle subject => [0x05] ++ answer.bytes ++ shortBytes vehicle ++ subject.bytes
  | .passDown bay bytes => [0x06] ++ bytesOf 1 bay.val ++ listBytes (bytes.map fun b => [b])

/-- A downward frame (11.3, R209). -/
def downFrameBytes (address type seq : Byte) (contents : List Byte) : List Byte :=
  let body := [address, type, seq] ++ bytesOf 1 contents.length ++ contents
  [0x96] ++ body ++ crcBytes (loopCrc body)

/-- The frame a turn sends (11.3, R209). -/
def Turn.frame : Turn → List Byte
  | .openSlot => downFrameBytes 0x00 0x03 0x00 []
  | .poll p =>
    let address := BitVec.ofNat 8 (addressOf p.address)
    match p.load with
    | .accept serial => downFrameBytes address 0x02 0x00 (serialBytes serial)
    | .command q => downFrameBytes address 0x01 q.seq q.command.bytes
    | .nothing => downFrameBytes address 0x01 0x00 []

/-! ### Upward frames (R209) -/

/-- The item of an upward frame (11.3). -/
inductive UpItem where
  | nothing
  | depositRequest (bay : Byte) (card : Number) (tag : Byte)
  | depositClose (bay : Byte) (outcome : CloseOutcome)
  | levelSample (bay : Byte) (echo : BitVec 16) (temperature : BitVec 8) (lidOpen : Bool)
  | liftRequest (vehicle round : Short) (container : Number)
  | liftDone (vehicle : Short) (container : Number) (weight : Short) (lock : LockState)
  | dozeNotice (interval : Short)
  | passUp (bytes : List Byte)
  | attention
  | joinAnnounce (serial : Serial) (cause : JoinCause)
deriving DecidableEq, Repr

/-- An upward frame: its address, flags and item. -/
structure UpFrame where
  address : Byte
  flags : Byte
  item : UpItem
deriving DecidableEq, Repr

/-- Bytes that arrived on the loop, read as an upward frame (R209). -/
inductive UpReading where
  /-- Every condition of R209 on the frame itself holds. -/
  | frame (f : UpFrame)
  /-- Start byte, CRC and length are good, but the kind names no item or a code byte no code. -/
  | unknown
  | garbled
deriving DecidableEq, Repr

/-- The code bytes of a two-valued field (11.3). -/
def bitCode? (b : Byte) : Option Bool := if b = 0 then some false else if b = 1 then some true else none

/-- A JOIN_ANNOUNCE cause (11.3). -/
def joinCause? (b : Byte) : Option JoinCause :=
  if b = 0 then some .powerOn else if b = 1 then some .watchdog else if b = 2 then some .brownout
  else if b = 3 then some .soft else none

/-- A VEHICLE item (11.3): a LIFT_REQUEST ignores weight and lock, a LIFT_DONE the round number. -/
def vehicleItem (b : List Byte) : Option UpItem := do
  let done ← bitCode? (byteAt b 0)
  let vehicle : Short := BitVec.ofNat 16 (fieldAt b 1 2)
  let container := numberAt b 5
  if done then
    let unlocked ← bitCode? (byteAt b 11)
    some (.liftDone vehicle container (BitVec.ofNat 16 (fieldAt b 9 2)) (if unlocked then .unlocked else .locked))
  else some (.liftRequest vehicle (BitVec.ofNat 16 (fieldAt b 3 2)) container)

/-- The length an item kind requires (11.3, R209); `none` for a kind that names no item. -/
def itemLengthFits (kind : Byte) (n : Nat) : Option Bool :=
  match kind.toNat with
  | 0 => some (n == 0)
  | 1 => some (n == 6)
  | 2 => some (n == 2)
  | 3 => some (n == 5)
  | 4 => some (n == 12)
  | 5 => some (n == 2)
  | 6 => some (decide (1 ≤ n ∧ n ≤ 32))
  | 7 => some (n == 0)
  | 8 => some (n == 7)
  | _ => none

/-- An item's fields (11.3); `none` when a code byte names no code. -/
def itemOf (kind : Byte) (b : List Byte) : Option UpItem :=
  match kind.toNat with
  | 0 => some .nothing
  | 1 => some (.depositRequest (byteAt b 0) (numberAt b 1) (byteAt b 5))
  | 2 => (bitCode? (byteAt b 1)).map fun unused => .depositClose (byteAt b 0) (if unused then .unused else .used)
  | 3 => (bitCode? (byteAt b 4)).map fun lid => .levelSample (byteAt b 0) (BitVec.ofNat 16 (fieldAt b 1 2)) (byteAt b 3) lid
  | 4 => vehicleItem b
  | 5 => some (.dozeNotice (BitVec.ofNat 16 (fieldAt b 0 2)))
  | 6 => some (.passUp b)
  | 7 => some .attention
  | 8 => (joinCause? (byteAt b 6)).map fun cause => .joinAnnounce (BitVec.ofNat 48 (fieldAt b 0 6)) cause
  | _ => none

/-- The bytes of an upward frame that its CRC covers, and the CRC: start byte and length byte agree with what arrived. -/
def upBody (bytes : List Byte) : Option (List Byte) :=
  let n := fieldAt bytes 4 1
  let body := slice bytes 1 (n + 4)
  if byteAt bytes 0 = 0x69 ∧ n ≤ 40 ∧ bytes.length = n + 7 ∧ slice bytes (n + 5) 2 = crcBytes (loopCrc body) then some body
  else none

/-- Bytes of the loop as an upward frame (R209). A kind that names no item requires no length: any of 0..40 is good (log 43). -/
def readUpward (bytes : List Byte) : UpReading :=
  match upBody bytes with
  | none => .garbled
  | some body =>
    let kind := byteAt body 2
    match itemLengthFits kind (body.length - 4) with
    | some false => .garbled
    | none => .unknown
    | some true =>
      match itemOf kind (body.drop 4) with
      | some item => .frame { address := byteAt body 0, flags := byteAt body 1, item := item }
      | none => .unknown

end Sys2Proof.Machine
end

