-- ==== Sys2Proof/Machine/Fill.lean ====
section
/-! DEFINITION. The Fill Tracker: level arithmetic (chapter 4), fill states, credits and redirects (chapter 5), with the overflow
insertion it asks of the Round Manager (R167), and the commands MINUTE_EVENT's fill part and STALE_WATCH. -/

namespace Sys2Proof.Machine

/-! ### Stages 2 to 10 of a sample (R61 to R69) -/

/-- The speed of sound in tenths of m/s, from the temperature clamped to -40..85 (R61). -/
def speedOfSound (temperature : Int) : Nat := (3313 + 6 * max (-40) (min 85 temperature)).toNat

/-- The distance in mm from an echo time in µs (R61). -/
def distanceOf (echo : Nat) (temperature : Int) : Nat := echo * speedOfSound temperature / 20000

/-- A sample is implausible (R62). -/
def isImplausible (c : ContainerConfig) (echo d : Nat) : Bool :=
  decide (echo = 0) || decide (echo = 65535) || decide (d < 100) || decide (c.empty + 150 < d)

/-- The effects of an implausible sample (R62). -/
def Fill.failSample (faultCount : Nat) (f : Fill) : Fill :=
  let count := min 255 (f.implausible + 1)
  let health := if 3 ≤ count ∧ (f.health = .noData ∨ f.health = .good) then .suspect else f.health
  { f with implausible := count, health := if faultCount ≤ count then .fault else health }

/-- The effects of a plausible sample at stage 5 (R63). -/
def Fill.passSample (now : Clock) (f : Fill) : Fill :=
  let g := { f with implausible := 0, lastPlausible := now, health := .good }
  if f.health = .fault then { g with fresh := true, ref := none } else g

/-- The level in ‰ of a distance (R64). -/
def levelOf (c : ContainerConfig) (d : Nat) : Nat :=
  if c.empty ≤ d then 0 else min 1200 ((c.empty - d) * 1000 / (c.empty - c.full))

/-- The filter's step from `lf` toward `l` with weight `k` (R65): truncated, and at least one when they differ. -/
def filterStep (l lf k : Nat) : Int :=
  let q := (((l : Int) - lf) * k).tdiv 8
  if q = 0 ∧ lf < l then 1 else if q = 0 ∧ l < lf then -1 else q

/-- Stage 7, the filter and the unexpected-drop flag (R65, R66). -/
def Fill.filter (l k : Nat) (f : Fill) : Fill :=
  if f.fresh then { f with lf := l, fresh := false, drop := false }
  else
    let lf := ((f.lf : Int) + filterStep l f.lf k).toNat
    { f with lf := lf, drop := f.drop || decide (lf + 300 < f.lf) }

/-- Stage 8, the interim level (R67). -/
def Fill.settleInterim (f : Fill) : Fill := { f with i := f.lf }

/-- A measurement of the rate over `dt` minutes, clamped to 0..20000 (R68). -/
def instantRate (lf lref dt : Nat) : Int := max 0 (min 20000 ((((lf : Int) - lref) * 600).tdiv dt))

/-- Stage 9, the rate and its reference (R68). -/
def Fill.rate (now : Clock) (f : Fill) : Fill :=
  match f.ref with
  | none => { f with ref := some (f.lf, now) }
  | some (lref, tref) =>
    let dt := elapsed now tref
    if dt < 10 then f
    else { f with r := ((f.r : Int) + (instantRate f.lf lref dt - f.r).tdiv 4).toNat, ref := some (f.lf, now) }

/-- The time to full of an interim level at a rate (R69). -/
def timeToFull (fu i r : Nat) : Nat :=
  if fu ≤ i then 0 else if r = 0 then 10080 else min 10080 ((fu - i) * 600 / r)

/-- TTF recomputed (R69). -/
def Fill.recompute (p : Profile) (f : Fill) : Fill := { f with ttf := timeToFull p.fu f.i f.r }

/-- Stage 11 of a sample, the debounced rise or fall (R87, R88). -/
def Fill.evaluate (p : Profile) (f : Fill) : Fill :=
  let up := risingTarget p f.lf
  let down := fallingTarget p f.lf
  if f.fill.rank < up.rank then
    if f.rise + 1 = p.d then { f with fill := up, rise := 0, fall := 0 } else { f with rise := f.rise + 1, fall := 0 }
  else if down.rank < f.fill.rank then
    if f.fall + 1 = p.d then { f with fill := down, rise := 0, fall := 0 } else { f with rise := 0, fall := f.fall + 1 }
  else { f with rise := 0, fall := 0 }

/-- Stages 5 to 11 of a plausible sample (R63 to R69, R87, R88). -/
def Fill.takeSample (c : ContainerConfig) (p : Profile) (now : Clock) (d : Nat) (f : Fill) : Fill :=
  ((((f.passSample now).filter (levelOf c d) p.k).settleInterim.rate now).recompute p).evaluate p

/-! ### Overflow insertion (R167) -/

/-- A slot can take an inserted step for a cluster (R167). -/
def Round.takesInsertion (rd : Round) (cluster : Fin 64) : Bool :=
  rd.state == .running && decide (0 < rd.allowance) && decide (rd.steps.length < Config.stepPlaces) &&
    rd.lastLift.any fun l => l.2 == cluster

/-- How long ago a round last completed a lift; the candidates have one. -/
def Round.liftAge (rd : Round) (now : Clock) : Nat :=
  match rd.lastLift with
  | some l => elapsed now l.1
  | none => 2 ^ 32

/-- The winning slot among the candidates (R167): the most recent last lift, the lowest slot among equals. -/
def insertionSlot (s : State) (cluster : Fin 64) : Option (Fin 4 × Round) :=
  (List.finRange 4).foldl (init := none) fun best i =>
    match s.rm.slots.get i with
    | none => best
    | some rd =>
      if rd.takesInsertion cluster then
        match best with
        | some (_, other) => if rd.liftAge s.tk.uptime < other.liftAge s.tk.uptime then some (i, rd) else best
        | none => some (i, rd)
      else best

/-- A step made PENDING (R150, R153). -/
def Step.fresh (r : Row) (origin : Origin) : Step :=
  { row := r, origin := origin, state := .pending, timedOut := false, before := none, after := none, weight := 0,
    doneMinute := none, vehicle := none }

/-- A round slot replaced. -/
def setSlot (i : Fin 4) (rd : Option Round) (s : State) : State :=
  { s with rm.slots := s.rm.slots.set i rd }

/-- An OVERFLOW transition handed to the Round Manager (R90, R167). -/
def insertOverflow (r : Row) (s : State) : State :=
  match configOf s r with
  | none => s
  | some c =>
    if (serviceOf s r).name ≠ .inUse ∨ onActiveRound s r then s
    else match insertionSlot s c.cluster with
      | none => s
      | some (i, rd) =>
        let rd := { rd with steps := rd.steps ++ [Step.fresh r .inserted], allowance := rd.allowance - 1 }
        let s := setSlot i (some rd) s
        let news := RoundNews.inserted c.number r rd.steps.length rd.allowance
        postReport (.round { round := rd.number, vehicle := rd.vehicle, slot := i, news := news, stamp := s.stamp }) s

/-- A row's dynamic part has been changed to `f` within an event: the OVERFLOW request, when the change entered OVERFLOW, and then
the membership (R90, R95). -/
def changeFill (r : Row) (f : Fill) (s : State) : State :=
  let was := (fillOf s r).fill
  let s := setFill r (fun _ => f) s
  reevaluate r (if f.fill = .overflow ∧ was ≠ .overflow then insertOverflow r s else s)

/-! ### Events at a container -/

/-- A LEVEL_SAMPLE handed to the Fill Tracker (R59, R60, R70). -/
def sampleEvent (r : Row) (echo : Nat) (temperature : Int) (lidOpen : Bool) (s : State) : State :=
  match configOf s r with
  | none => s
  | some c =>
    if (serviceOf s r).name = .service ∨ lidOpen then s
    else
      let d := distanceOf echo temperature
      let after :=
        if isImplausible c echo d then setFill r (Fill.failSample s.tp.effective.faultCount) s
        else changeFill r ((fillOf s r).takeSample c (s.ft.profiles.get c.profile) s.tk.uptime d) s
      reportChange r .sample s after

/-- The interim level and the deposit-driven fill check of a credit (R71, R89). -/
def Fill.credit (p : Profile) (f : Fill) : Fill :=
  let f := { f with i := min 1200 (f.i + p.increment) }.recompute p
  let up := risingTarget p f.i
  if f.fill.rank < up.rank then { f with fill := up, rise := 0, fall := 0 } else f

/-- A deposit credit (R71), without its report, which the commit's event posts at its end (R91). -/
def creditDeposit (r : Row) (s : State) : State :=
  changeFill r ((fillOf s r).credit (profileOf s r)) s

/-- The fields a service completion sets (R75). -/
def Fill.complete (p : Profile) (f : Fill) : Fill :=
  { f with lf := 0, i := 0, fill := .low, rise := 0, fall := 0, ref := none, fresh := true }.recompute p

/-- A service completion (R75); the Round Manager's event re-evaluates and reports. -/
def completeService (r : Row) (s : State) : State :=
  setFill r (Fill.complete (profileOf s r)) s

/-- The TTF of every row that holds a container counted down, and the queue re-evaluated (R72, R96). Not done on the container
rows until READY (R180). -/
def countDown (s : State) : State :=
  if s.rmi.restoring then s
  else rebuildQueue { s with ft.rows := s.ft.rows.map fun row =>
    if row.config.isSome then { row with fill := { row.fill with ttf := row.fill.ttf - 1 } } else row }

/-- The stale watch at one container (R73). -/
def watchStale (r : Row) (s : State) : State :=
  let f := fillOf s r
  if (configOf s r).isSome ∧ f.health = .good ∧ s.tp.effective.staleWindow ≤ elapsed s.tk.uptime f.lastPlausible then
    reportChange r .stale s (setFill r (fun f => { f with health := .suspect }) s)
  else s

/-! ### Redirection -/

/-- A container row is a redirect candidate (R99). -/
def isCandidate (s : State) (denied : Row) (cluster : Fin 64) (r : Row) : Bool :=
  match configOf s denied, configOf s r with
  | some d, some c =>
    r != denied && c.cluster == cluster && c.fraction == d.fraction && c.enabled && (serviceOf s r).name == .inUse &&
      (s.slc.rows.get c.station).state.live && !(fillOf s r).fill.closed &&
      decide ((fillOf s r).i < (s.ft.profiles.get c.profile).fu) && (fillOf s r).health != .fault
  | _, _ => false

/-- The better of two candidates (R99): the lower interim level; the earlier, lower index among equals. -/
def betterRedirect (s : State) (best : Option Row) (r : Row) : Option Row :=
  match best with
  | none => some r
  | some b => if (fillOf s r).i < (fillOf s b).i then some r else some b

/-- The redirect for a denied container in a cluster (R99). -/
def redirectRow (s : State) (denied : Row) (cluster : Fin 64) : Option Row :=
  ((List.finRange 192).filter (isCandidate s denied cluster)).foldl (betterRedirect s) none

/-- The redirect as a DENY carries it (R130). -/
def redirectFor (s : State) (denied : Row) (cluster : Fin 64) : Option Redirect :=
  (redirectRow s denied cluster).bind fun r =>
    (configOf s r).map fun c => { number := c.number, station := c.station, bay := c.bay }

/-! ### Commands -/

/-- STALE_WATCH (R73): the stale watch of a minute event, over every container, tested and reported in row index order (log 40). -/
def execStaleWatch (s : State) : Host.Outcome State Fault Refusal :=
  whenRunning (fun s =>
    if !s.tk.told.stale then s
    else
      let s := { s with tk.told.stale := false }
      if s.rmi.restoring then s else (List.finRange 192).foldl (fun s r => watchStale r s) s) s

end Sys2Proof.Machine
end

