-- ==== Sys2Proof/Machine/Deposit.lean ====
section
/-! DEFINITION. The Admission Unit's settling of requests and deposits (chapter 7): container, card and account checks, grants and
denials, commits and releases, with the Round Manager's notice of an ended deposit (R158). -/

namespace Sys2Proof.Machine

/-! ### Denials (R130) -/

/-- A DENY decided: offered to the station's queue and counted, whether the queue takes it or not (R130). -/
def sendDeny (a : Station) (bay : Byte) (tag : Byte) (reason : DenyReason) (redirect : Option Redirect) (s : State) : State :=
  let s := sendDown a (.deny bay tag reason redirect) s
  { s with au.denials := bump s.au.denials }

/-- A pending request denied: the DENY is posted and the request leaves the list (R125, R126, R131). -/
def denyRequest (q : Request) (reason : DenyReason) (redirect : Option Redirect) (s : State) : State :=
  dropRequest q.row (sendDeny q.station (BitVec.ofNat 8 q.bay.val) q.tag reason redirect s)

/-! ### Checks -/

/-- Container checks a and b (R123). -/
def standingDenial (s : State) (r : Row) (c : ContainerConfig) : Option DenyReason :=
  if !c.enabled then some .outOfUse
  else if (serviceOf s r).name ≠ .inUse then some .service
  else none

/-- Container check c (R123): a pending request or an open deposit. -/
def chuteBusy (s : State) (r : Row) : Bool :=
  s.au.requests.any (·.row == r) || (s.au.deposits.get r).isSome

/-- Container check d (R123). -/
def chuteFull (s : State) (r : Row) (c : ContainerConfig) : Bool :=
  (fillOf s r).fill.closed || decide ((s.ft.profiles.get c.profile).fu ≤ (fillOf s r).i)

/-- Container checks a, b and d made again (R126). -/
def lateDenial (s : State) (r : Row) (c : ContainerConfig) : Option DenyReason :=
  match standingDenial s r c with
  | some reason => some reason
  | none => if chuteFull s r c then some .full else none

/-- The card checks (R127): the reason, with the cluster in which a redirect is selected. -/
def cardDenial (s : State) (c : ContainerConfig) (card : CardRecord) : Option (DenyReason × Option (Fin 64)) :=
  let wall := s.tk.wall
  if card.status ≠ .active then some (.cardBlocked, none)
  else if wall.valid && card.expiry.any fun d => decide (d < wall.day) then some (.cardExpired, none)
  else if wall.valid && card.start.any fun d => decide (wall.day < d) then some (.notYet, none)
  else if !inMask card.rights c.fraction.val then some (.noRight, none)
  else if card.home.any fun h => h != c.cluster then some (.wrongPlace, card.home)
  else if windowsEnforced s && !windowCovers s c.fraction card.cls then some (.closedHours, none)
  else none

/-- The account checks (R128): a reason, or the kind and charged cost of the grant. -/
def accountVerdict (s : State) (c : ContainerConfig) (card : CardRecord) : Except DenyReason (GrantKind × Nat) :=
  let account := s.au.accounts.get card.account
  let cls := s.au.classes.get card.cls
  let cost := s.au.costs.get c.fraction
  if account.loaded ∧ account.blocked then .error .accountBlocked
  else if !account.loaded then (if cls.provisional then .ok (.provisional, 0) else .error .accountUnknown)
  else if cls.exempt then .ok (.exempt, 0)
  else if account.balance - account.held - cost < -(account.limit : Int) then .error .noBudget
  else .ok (.charged, cost)

/-! ### Decisions -/

/-- An account changed. -/
def setAccount (n : Fin 4096) (f : Account → Account) (s : State) : State :=
  { s with au.accounts := s.au.accounts.update n f }

/-- A container's open-deposit slot filled or emptied. -/
def setDeposit (r : Row) (d : Option OpenDeposit) (s : State) : State :=
  { s with au.deposits := s.au.deposits.set r d }

/-- A grant (R129): the hold, the open deposit, the request leaving, the GRANT. A GRANT refused for room is withdrawn and counted
among the denials; a GRANT discarded for the row's state takes no further action (R32). -/
def grantRequest (q : Request) (card : CardRecord) (kind : GrantKind) (cost : Nat) (s : State) : State :=
  let account := s.au.accounts.get card.account
  let deposit : OpenDeposit :=
    { card := card.number, account := card.account, cost := cost, kind := kind, tag := q.tag, delivered := false,
      granted := s.tk.seconds }
  let s := setAccount card.account (fun a => { a with held := a.held + cost }) s
  let s := dropRequest q.row (setDeposit q.row (some deposit) s)
  match postDown q.station (.grant q.bay q.tag) s with
  | (.queued, s) => { s with au.grants := bump s.au.grants }
  | (.noRoom, s) =>
    let s := setAccount card.account (fun _ => account) (setDeposit q.row none s)
    { s with au.denials := bump s.au.denials }
  | (.discarded, s) => s

/-- A CARD_ALERT for a refused LOST card (R136). -/
def alertCard (q : Request) (c : ContainerConfig) (card : CardRecord) (s : State) : State :=
  if card.status = .lost then
    postReport (.cardAlert { card := card.number, account := card.account, cls := card.cls, number := c.number, row := q.row,
                             station := q.station, bay := q.bay, stamp := s.stamp }) s
  else s

/-- A found card checked and its request decided (R127, R128). -/
def decideFound (q : Request) (c : ContainerConfig) (card : CardRecord) (s : State) : State :=
  match cardDenial s c card with
  | some (reason, cluster) =>
    let s := denyRequest q reason (cluster.bind (redirectFor s q.row)) s
    if reason = .cardBlocked then alertCard q c card s else s
  | none =>
    match accountVerdict s c card with
    | .error reason => denyRequest q reason none s
    | .ok (kind, cost) => grantRequest q card kind cost s

/-- A pending request decided when its card has become known (R126). `late` says that the answer came in a later event than the
request's, so that container checks a, b and d are made again. -/
def decideRequest (q : Request) (ans : CardAnswer) (late : Bool) (s : State) : State :=
  match configOf s q.row with
  | none => denyRequest q .outOfUse none s
  | some c =>
    match (if late then lateDenial s q.row c else none) with
    | some reason => denyRequest q reason (redirectFor s q.row c.cluster) s
    | none =>
      match ans with
      | .unknown => denyRequest q .unknownCard none s
      | .memoryFault => denyRequest q .memoryFault none s
      | .found card => decideFound q c card s

/-! ### The Round Manager's notice (R158) -/

/-- The step a reference names. -/
def stepAt (s : State) (ref : StepRef) : Option Step :=
  (s.rm.slots.get ref.slot).bind fun rd => rd.steps[ref.position]?

/-- LIFT_RELEASE to a container's station (R154). -/
def sendRelease (c : ContainerConfig) (s : State) : State := sendDown c.station (.liftRelease c.bay) s

/-- A vehicle reply that names a container (R154). -/
def sendReply (relay : Station) (ans : VehicleAnswer) (vehicle : Short) (n : Number) (s : State) : State :=
  sendDown relay (.reply ans vehicle (.container n)) s

/-- A container's open deposit has ended (R158): a container in SERVICE_WAIT moves on to SERVICE, with LIFT_RELEASE to its station
and LIFT_OK to the relay station. The commit's event posts the report. -/
def depositEnded (r : Row) (s : State) : State :=
  match serviceOf s r, configOf s r with
  | .serviceWait step relay, some c =>
    let s := sendRelease c (setService r (.service step relay s.tk.seconds) s)
    match (stepAt s step).bind (·.vehicle) with
    | some v => sendReply relay .liftOk v c.number s
    | none => s
  | _, _ => s

/-! ### Commits and releases -/

/-- The outcome of a commit (R141). -/
def commitOutcome (kind : GrantKind) (confirmed : Bool) : CommitOutcome :=
  match kind with
  | .provisional => .provisional
  | _ => if confirmed then .committed else .unconfirmed

/-- The charge of a commit (R141): the balance saturates at -32768. -/
def Account.charge (cost : Nat) (a : Account) : Account :=
  { a with balance := max (-32768) (a.balance - cost), held := a.held - cost }

/-- The hold let go by a release (R144). -/
def Account.letGo (cost : Nat) (a : Account) : Account := { a with held := a.held - cost }

/-- The report of a commit (R145). -/
def depositReport (r : Row) (c : ContainerConfig) (d : OpenDeposit) (outcome : CommitOutcome) (s : State) : DepositReport :=
  { account := d.account, number := c.number, row := r, outcome := outcome, count := 1, cost := d.cost, first := s.stamp,
    last := s.stamp }

/-- The one CONTAINER_STATUS of an ended deposit: cause SERVICE when the notice has changed the service state, DEPOSIT when only
the credit has changed the fill state (R91, R158). -/
def reportEnding (r : Row) (before s : State) : State :=
  reportChange r (if (serviceOf s r).name = (serviceOf before r).name then .deposit else .service) before s

/-- A commit of an open deposit (R141); `confirmed` when its DEPOSIT_CLOSE reported USED. -/
def commitDeposit (confirmed : Bool) (r : Row) (s : State) : State :=
  match s.au.deposits.get r, configOf s r with
  | some d, some c =>
    let t := if d.kind = .charged then setAccount d.account (Account.charge d.cost) s else s
    let t := setDeposit r none t
    let t := postReport (.deposit (depositReport r c d (commitOutcome d.kind confirmed) t)) t
    let t := depositEnded r (creditDeposit r t)
    reportEnding r s t
  | _, _ => s

/-- A release of an open deposit (R144). -/
def releaseDeposit (r : Row) (s : State) : State :=
  match s.au.deposits.get r with
  | some d =>
    let t := if d.kind = .charged then setAccount d.account (Account.letGo d.cost) s else s
    let t := setDeposit r none t
    let t := depositEnded r { t with au.releases := bump t.au.releases }
    reportEnding r s t
  | none => s

/-- The settling of one container when its station restarts or is lost (R20, R29, R143): a pending request is removed without a
decision; an open deposit is committed when the station restarted or its grant was delivered, and released otherwise. -/
def settleRow (restarted : Bool) (r : Row) (s : State) : State :=
  let s := dropRequest r s
  match s.au.deposits.get r with
  | some d => if restarted || d.delivered then commitDeposit false r s else releaseDeposit r s
  | none => s

/-- The settling of a station's containers, in row index order (R143). -/
def settleStation (restarted : Bool) (a : Station) (s : State) : State :=
  (boundTo s a).foldl (fun s r => settleRow restarted r s) s

/-- Every open deposit at or beyond the close limit committed, in row index order (R142). -/
def expireDeposits (s : State) : State :=
  (List.finRange 192).foldl (fun s r =>
    match s.au.deposits.get r with
    | some d => if s.tp.effective.closeLimit ≤ elapsed s.tk.seconds d.granted then commitDeposit false r s else s
    | none => s) s

/-- Every pending request at or beyond the decision limit answered TRY_AGAIN, in list order (R125). -/
def expireRequests (s : State) : State :=
  (s.au.requests.filter fun q => decide (s.tp.effective.decisionLimit ≤ elapsed s.tk.seconds q.arrival)).foldl
    (fun s q => denyRequest q .tryAgain none s) s

/-- A delivered GRANT's notice (R139). -/
def grantDelivered (a : Station) (bay : Bay) (tag : Byte) (s : State) : State :=
  match containerAt s a bay.val with
  | none => s
  | some r =>
    match s.au.deposits.get r with
    | some d => if d.tag = tag then setDeposit r (some { d with delivered := true }) s else s
    | none => s

/-! ### Commands -/

/-- DECISION_LIMIT_EXPIRY (R125), the Admission Unit's work of a second event. -/
def execDecisionLimitExpiry (s : State) : Host.Outcome State Fault Refusal :=
  whenRunning (fun s => if s.tk.told.decision then expireRequests { s with tk.told.decision := false } else s) s

/-- CLOSE_LIMIT_EXPIRY (R142), the Admission Unit's work of a second event. -/
def execCloseLimitExpiry (s : State) : Host.Outcome State Fault Refusal :=
  whenRunning (fun s => if s.tk.told.close then expireDeposits { s with tk.told.close := false } else s) s

end Sys2Proof.Machine
end

