-- ==== Sys2Proof/Machine/Cards.lean ====
section
/-! DEFINITION. The Card Lookup Unit (chapter 6): the card cache, the miss list and its fetches, and the commands CARD_PUT,
CARD_DROP, CACHE_FLUSH and MISS_SLOT_PLACEMENT. -/

namespace Sys2Proof.Machine

/-! ### The card cache (R105, R112) -/

/-- The valid entry that holds a card number (R105). -/
def cacheFind (u : CardLookup) (n : Number) : Option (Fin 32) :=
  u.entries.find fun e => e.any fun r => r.number == n

/-- An entry made the most recently used (R105). -/
def CardLookup.touch (i : Fin 32) (u : CardLookup) : CardLookup :=
  { u with recency := i :: u.recency.filter (· != i) }

/-- The entry an installed card takes (R112): its own, the lowest invalid one, or the least recently used. -/
def installPlace (u : CardLookup) (n : Number) : Option (Fin 32) :=
  match cacheFind u n with
  | some i => some i
  | none =>
    match u.entries.find fun e => e.isNone with
    | some i => some i
    | none => u.recency.getLast?

/-- A card installed as the most recently used (R112). -/
def CardLookup.install (r : CardRecord) (u : CardLookup) : CardLookup :=
  match installPlace u r.number with
  | some i => { u with entries := u.entries.set i (some r) }.touch i
  | none => u

/-- A card number's entry invalidated (R115, R116). -/
def CardLookup.invalidate (n : Number) (u : CardLookup) : CardLookup :=
  match cacheFind u n with
  | some i => { u with entries := u.entries.set i none, recency := u.recency.filter (· != i) }
  | none => u

/-- Every entry invalid (R118, R120). -/
def CardLookup.flush (u : CardLookup) : CardLookup :=
  { u with entries := Table.replicate 32 none, recency := [] }

/-- The GRANTED entries that pass a test take their stale mark (R110). -/
def CardLookup.markStale (p : Bucket → Bool) (u : CardLookup) : CardLookup :=
  { u with missList := u.missList.map fun e => if e.granted && p e.bucket then { e with stale := true } else e }

/-! ### The miss list (R107, R108) -/

/-- The wanted cards with a number added: at 16, the oldest number for which no request waits leaves first (R108). `waiting` holds
the joining request too. -/
def addWanted (wanted : List Number) (waiting : List Waiter) (n : Number) : List Number :=
  if wanted.contains n then wanted
  else if wanted.length < Config.wantedPlaces then wanted ++ [n]
  else wanted.eraseP (fun m => !waiting.any fun w => w.card == m) ++ [n]

/-- A request joins an entry (R107). -/
def MissEntry.join (w : Waiter) (e : MissEntry) : MissEntry :=
  let waiting := e.waiting ++ [w]
  { e with waiting := waiting, wanted := addWanted e.wanted waiting w.card }

/-- An entry made for a bucket with its requests in order: its fetch is asked, QUEUED and not stale (R107, R113). -/
def newEntry (b : Bucket) (waiters : List Waiter) : MissEntry :=
  waiters.foldl (fun e w => e.join w) { bucket := b, waiting := [], wanted := [], granted := false, stale := false }

/-- The phase of a container's pending request (R107). -/
def setPhase (r : Row) (p : Phase) (s : State) : State :=
  { s with au.requests := s.au.requests.map fun q => if q.row = r then { q with phase := p } else q }

/-- A request that misses is placed (R107). -/
def placeMiss (w : Waiter) (s : State) : State :=
  let b := bucketOf w.card
  if s.clu.missList.any (·.bucket == b) then
    setPhase w.row .waitFetch
      { s with clu.missList := s.clu.missList.map fun e => if e.bucket = b then e.join w else e }
  else if s.clu.missList.length < Config.missPlaces then
    setPhase w.row .waitFetch { s with clu.missList := s.clu.missList ++ [newEntry b [w]] }
  else
    setPhase w.row .waitMissSlot { s with clu.slotWait := s.clu.slotWait ++ [w] }

/-- A lookup asked on behalf of a pending request (R106): answered at once, with the decision of R126, or placed as a miss. -/
def lookupCard (q : Request) (s : State) : State :=
  if !validNumber q.card then decideRequest q .unknown false s
  else if s.rmi.absent then decideRequest q .memoryFault false { s with clu.misses := bump s.clu.misses }
  else
    match cacheFind s.clu q.card with
    | some i =>
      let s := { s with clu := (s.clu.touch i) }
      let s := { s with clu.hits := bump s.clu.hits }
      match s.clu.entries.get i with
      | some r => decideRequest q (.found r) false s
      | none => s
    | none => placeMiss { row := q.row, card := q.card } { s with clu.misses := bump s.clu.misses }

/-- A waiting request answered in an event later than its own (R111, R113, R126). -/
def answerWaiter (ans : Number → CardAnswer) (w : Waiter) (s : State) : State :=
  match s.au.requests.find? (·.row == w.row) with
  | some q => decideRequest q (ans w.card) true s
  | none => s

/-- The requests of the slot-wait order that a new entry for the oldest one's bucket takes with it (R113). -/
def slotGroup (w : Waiter) (rest : List Waiter) : List Waiter :=
  w :: rest.filter fun v => bucketOf v.card == bucketOf w.card

/-- A freed miss list place given to the slot-wait order (R113): requests whose card has been installed meanwhile are answered from
the cache until one is placed in a new entry or the order is empty. `fuel` bounds the requests taken. -/
def placeSlotWaiting : Nat → State → State
  | 0, s => s
  | fuel + 1, s =>
    match s.clu.slotWait with
    | [] => s
    | w :: rest =>
      if Config.missPlaces ≤ s.clu.missList.length then s
      else
        match (cacheFind s.clu w.card).bind fun i => (s.clu.entries.get i).map fun r => (i, r) with
        | some (i, r) =>
          let s := { s with clu := { s.clu with slotWait := rest }.touch i }
          placeSlotWaiting fuel (answerWaiter (fun _ => .found r) w s)
        | none =>
          let group := slotGroup w rest
          let s := { s with
            clu.slotWait := rest.filter fun v => bucketOf v.card != bucketOf w.card
            clu.missList := s.clu.missList ++ [newEntry (bucketOf w.card) group] }
          group.foldl (fun s v => setPhase v.row .waitFetch s) s

/-- The slot-wait order served while a place is free (R113). -/
def serveSlotWait (s : State) : State := placeSlotWaiting s.clu.slotWait.length s

/-- The wanted cards found in a bucket as read installed, in wanted order (R111, R112). -/
def installWanted (slots : List SlotReading) (wanted : List Number) (u : CardLookup) : CardLookup :=
  wanted.foldl (fun u n => match cardIn slots n with
    | some r => u.install r
    | none => u) u

/-- A bucket fetch completed (R111). `read` is the bucket as read, `none` when the read failed as a whole (R104, R177). -/
def completeFetch (b : Bucket) (read : Option (List Byte)) (s : State) : State :=
  match s.clu.missList.find? fun e => e.bucket == b && e.granted with
  | none => s
  | some e =>
    let slots := readBucket read
    let errors := if read.isNone then 1 else badSlots slots
    let s := { s with clu.memoryErrors := bump s.clu.memoryErrors errors }
    let s := if e.stale then s else { s with clu := installWanted slots e.wanted s.clu }
    let s := e.waiting.foldl (fun s w => answerWaiter (searchBucket slots) w s) s
    serveSlotWait { s with clu.missList := s.clu.missList.filter (·.bucket != b) }

/-! ### Card writes (R115, R116) -/

/-- A card write accepted: the cache entry invalidated, the GRANTED fetches of the bucket marked stale, the write queued. -/
def acceptCardWrite (n : Number) (body : WriteBody) (kind : CommandKind) (tag : Byte) (s : State) : State :=
  let u := (s.clu.invalidate n).markStale fun b => b == bucketOf n
  queueWrite body (some { kind := kind.code, tag := tag }) { s with clu := u }

/-- A card write judged after its fields (R115, R116). -/
def judgeCardWrite (n : Number) (body : WriteBody) (kind : CommandKind) (tag : Byte) (s : State) : State :=
  if s.rmi.absent then answer kind tag .memoryFault s
  else if writesFull s then answer kind tag .busy s
  else acceptCardWrite n body kind tag s

/-- CARD_PUT (R115). -/
def cardPutCommand (tag : Byte) (payload : List Byte) : State → State :=
  takeCommand .cardPut tag (cardPutArgs payload) false fun card s =>
    match card with
    | none => answer .cardPut tag .badField s
    | some card => judgeCardWrite card.number (.cardPut card) .cardPut tag s

/-- CARD_DROP (R116). -/
def cardDropCommand (tag : Byte) (payload : List Byte) : State → State :=
  takeCommand .cardDrop tag (numberArgs payload) false fun n s =>
    if !validNumber n then answer .cardDrop tag .badField s
    else judgeCardWrite n (.cardDrop n) .cardDrop tag s

/-- CACHE_FLUSH (R118). -/
def cacheFlushCommand (tag : Byte) (payload : List Byte) : State → State :=
  takeCommand .cacheFlush tag (noArgs payload) false fun _ s =>
    answer .cacheFlush tag .ok { s with clu := s.clu.flush.markStale fun _ => true }

/-- CARD_PUT (R115). -/
def execCardPut (tag : Byte) (payload : List Byte) (s : State) : Host.Outcome State Fault Refusal :=
  whenRunning (cardPutCommand tag payload) s

/-- CARD_DROP (R116). -/
def execCardDrop (tag : Byte) (payload : List Byte) (s : State) : Host.Outcome State Fault Refusal :=
  whenRunning (cardDropCommand tag payload) s

/-- CACHE_FLUSH (R118). -/
def execCacheFlush (tag : Byte) (payload : List Byte) (s : State) : Host.Outcome State Fault Refusal :=
  whenRunning (cacheFlushCommand tag payload) s

/-- MISS_SLOT_PLACEMENT (R113): a free place of the miss list given to the slot-wait order (log 11). -/
def execMissSlotPlacement (s : State) : Host.Outcome State Fault Refusal :=
  whenRunning serveSlotWait s

end Sys2Proof.Machine
end

