-- ==== Sys2Proof/Machine/Admission.lean ====
section
/-! DEFINITION. The Admission Unit's messages and tables (chapter 7): a DEPOSIT_REQUEST and a DEPOSIT_CLOSE as they reach the unit,
and the commands WINDOW_PUT, CLASS_PUT, COST_PUT and ACCOUNT_PUT. -/

namespace Sys2Proof.Machine

/-! ### Messages of the stations -/

/-- A DEPOSIT_REQUEST passes to the room check (R124). -/
def admitRequest (a : Station) (bay : Bay) (r : Row) (card : Number) (tag : Byte) (s : State) : State :=
  if Config.requestPlaces ≤ s.au.requests.length then sendDeny a (BitVec.ofNat 8 bay.val) tag .tryAgain none s
  else
    let q : Request :=
      { row := r, station := a, bay := bay, tag := tag, card := card, arrival := s.tk.seconds, phase := .waitFetch }
    lookupCard q { s with au.requests := s.au.requests ++ [q] }

/-- A DEPOSIT_REQUEST at the Admission Unit (R123): the container checks in their order. -/
def depositRequest (a : Station) (bay : Byte) (card : Number) (tag : Byte) (s : State) : State :=
  match containerAt s a bay.toNat with
  | none => sendDeny a bay tag .outOfUse none s
  | some r =>
    match configOf s r with
    | none => s
    | some c =>
      match standingDenial s r c with
      | some reason => sendDeny a bay tag reason (redirectFor s r c.cluster) s
      | none =>
        if chuteBusy s r then sendDeny a bay tag .busyChute none s
        else if chuteFull s r c then sendDeny a bay tag .full (redirectFor s r c.cluster) s
        else admitRequest a c.bay r card tag s

/-- A DEPOSIT_CLOSE at the Admission Unit (R140). -/
def depositClose (a : Station) (bay : Byte) (outcome : CloseOutcome) (s : State) : State :=
  let open? := (containerAt s a bay.toNat).filter fun r => (s.au.deposits.get r).isSome
  match open? with
  | none => { s with au.ignoredCloses := bump s.au.ignoredCloses }
  | some r =>
    match outcome with
    | .used => commitDeposit true r s
    | .unused => releaseDeposit r s

/-! ### Tables -/

/-- A configuration command judged after its fields (R132, R134, R135): BUSY while the write queue is full, else the change and
its write-through. -/
def changeTable (kind : CommandKind) (tag : Byte) (target : RecordTarget) (change : State → State) (s : State) : State :=
  if writesFull s then answer kind tag .busy s else writeThrough kind tag target (change s)

/-- WINDOW_PUT (R132). -/
def windowPutCommand (tag : Byte) (payload : List Byte) : State → State :=
  takeCommand .windowPut tag (windowPutArgs payload) false fun args s =>
    match index? 16 args.1, windowValid args.2 with
    | some n, true => changeTable .windowPut tag (.window n) (fun s => { s with au.windows := s.au.windows.set n args.2 }) s
    | _, _ => answer .windowPut tag .badField s

/-- CLASS_PUT (R134). -/
def classPutCommand (tag : Byte) (payload : List Byte) : State → State :=
  takeCommand .classPut tag (classPutArgs payload) false fun args s =>
    match index? 8 args.1 with
    | some n => changeTable .classPut tag (.cls n) (fun s => { s with au.classes := s.au.classes.set n args.2 }) s
    | none => answer .classPut tag .badField s

/-- COST_PUT (R135). The cost is one byte, so it never lies above 255. -/
def costPutCommand (tag : Byte) (payload : List Byte) : State → State :=
  takeCommand .costPut tag (costPutArgs payload) false fun args s =>
    match index? 8 args.1 with
    | some n => changeTable .costPut tag (.cost n) (fun s => { s with au.costs := s.au.costs.set n args.2 }) s
    | none => answer .costPut tag .badField s

/-- The fields an ACCOUNT_PUT enters (R138); held is kept. -/
def Account.put (args : AccountArgs) (a : Account) : Account :=
  { a with loaded := true, blocked := args.blocked, balance := args.balance, limit := args.limit, refill := args.refill,
           cap := args.cap }

/-- R138's range check beyond the account number. -/
def AccountArgs.inRange (args : AccountArgs) : Bool :=
  decide (args.limit ≤ 32767) && decide (args.refill ≤ 32767) && decide (args.cap ≤ 32767)

/-- ACCOUNT_PUT (R138). -/
def accountPutCommand (tag : Byte) (payload : List Byte) : State → State :=
  takeCommand .accountPut tag (accountPutArgs payload) false fun args s =>
    match index? 4096 args.account, args.inRange with
    | some n, true => answer .accountPut tag .ok (setAccount n (Account.put args) s)
    | _, _ => answer .accountPut tag .badField s

/-! ### Commands -/

/-- WINDOW_PUT (R132). -/
def execWindowPut (tag : Byte) (payload : List Byte) (s : State) : Host.Outcome State Fault Refusal :=
  whenRunning (windowPutCommand tag payload) s

/-- CLASS_PUT (R134). -/
def execClassPut (tag : Byte) (payload : List Byte) (s : State) : Host.Outcome State Fault Refusal :=
  whenRunning (classPutCommand tag payload) s

/-- COST_PUT (R135). -/
def execCostPut (tag : Byte) (payload : List Byte) (s : State) : Host.Outcome State Fault Refusal :=
  whenRunning (costPutCommand tag payload) s

/-- ACCOUNT_PUT (R138). -/
def execAccountPut (tag : Byte) (payload : List Byte) (s : State) : Host.Outcome State Fault Refusal :=
  whenRunning (accountPutCommand tag payload) s

/-- Every loaded account below its cap refilled up to it (R146). -/
def Account.topUp (a : Account) : Account :=
  if a.loaded ∧ a.balance < a.cap then { a with balance := min (a.balance + a.refill) a.cap } else a

/-- The weekly refill (R146). -/
def refillAccounts (s : State) : State := { s with au.accounts := s.au.accounts.map Account.topUp }

end Sys2Proof.Machine
end

