-- ==== Sys2Proof/Machine/Rounds.lean ====
section
/-! DEFINITION. The Round Manager (chapter 8): loading, lifting, completing and ending rounds, holds, the service timer, and the
commands ROUND_LOAD, ROUND_CANCEL, HOLD_CLEAR, SERVICE_TIMER_EXPIRY and ROUND_EXPIRY. -/

namespace Sys2Proof.Machine

/-! ### Slots and steps -/

/-- One step of a slot changed. -/
def setStep (ref : StepRef) (f : Step → Step) (s : State) : State :=
  match s.rm.slots.get ref.slot with
  | some rd => setSlot ref.slot (some { rd with steps := rd.steps.modify ref.position f }) s
  | none => s

/-- The first step of a slot that passes a test, with its position. -/
def Round.findStep (rd : Round) (p : Step → Bool) : Option Nat := rd.steps.findIdx? p

/-- The slot an active round with a property stands in. -/
def slotWhere (s : State) (p : Round → Bool) : Option (Fin 4 × Round) :=
  (s.rm.slots.find fun slot => slot.any p).bind fun i => (s.rm.slots.get i).map fun rd => (i, rd)

/-- LOADED or RUNNING (R155, R164). -/
def RoundState.takesLifts : RoundState → Bool
  | .loaded | .running => true
  | .closing => false

/-- A round has a LIFTING step. -/
def Round.lifting (rd : Round) : Bool := rd.steps.any fun st => st.state == .lifting

/-- The counts of R168. -/
def stepCounts (steps : List Step) : StepCounts :=
  { done := steps.countP (·.state == .done), missed := steps.countP (·.state == .missed), timedOut := steps.countP (·.timedOut),
    inserted := steps.countP (·.origin == .inserted), adHoc := steps.countP (·.origin == .adhoc),
    planned := steps.countP (·.origin == .planned) }

/-- The containers of a list of steps re-evaluated, in list order. -/
def reevaluateSteps (steps : List Step) (s : State) : State :=
  steps.foldl (fun s st => reevaluate st.row s) s

/-! ### Freeing and ending (R165, R166) -/

/-- A hold loses its held step when the step's slot is freed (R166). -/
def Service.loseStep (i : Fin 4) : Service → Service
  | .held cause (some step) => .held cause (if step.slot = i then none else some step)
  | v => v

/-- A slot freed (R166). -/
def freeSlotAt (i : Fin 4) (s : State) : State :=
  match s.rm.slots.get i with
  | none => s
  | some rd =>
    let news := RoundNews.ended rd.endCause (stepCounts rd.steps)
    let s := postReport (.round { round := rd.number, vehicle := rd.vehicle, slot := i, news := news, stamp := s.stamp }) s
    let s := { s with rm.service := s.rm.service.map (Service.loseStep i) }
    reevaluateSteps rd.steps (setSlot i none s)

/-- A CLOSING slot that holds no LIFTING step is freed (R159, R161, R166). -/
def freeIfClosed (i : Fin 4) (s : State) : State :=
  match s.rm.slots.get i with
  | some rd => if rd.state = .closing ∧ !rd.lifting then freeSlotAt i s else s
  | none => s

/-- A PENDING step missed by the end of its round (R165). -/
def Step.miss (st : Step) : Step :=
  match st.state with
  | .pending => { st with state := .missed, timedOut := false }
  | _ => st

/-- A round ended (R165). -/
def endRound (cause : EndCause) (i : Fin 4) (s : State) : State :=
  match s.rm.slots.get i with
  | none => s
  | some rd =>
    let missed := rd.steps.filter (·.state == .pending)
    let ended : Round := { rd with steps := rd.steps.map Step.miss, endCause := some cause }
    let s := reevaluateSteps missed (setSlot i (some ended) s)
    if ended.lifting then setSlot i (some { ended with state := .closing }) s else freeSlotAt i s

/-! ### ROUND_LOAD (R152, R153) -/

/-- The position, counted from 1, of the first list entry that is invalid or repeats an earlier one (R152). -/
def badEntry (seen : List Number) : List Number → Option Nat
  | [] => none
  | n :: rest => if !validNumber n || seen.contains n then some (seen.length + 1) else badEntry (seen ++ [n]) rest

/-- The position, counted from 1, of the first list entry that passes a test. -/
def entryWhere (p : Number → Bool) (list : List Number) : Option Nat := (list.findIdx? p).map (· + 1)

/-- R152's ranges for the fields beside the list. -/
def RoundArgs.inRange (a : RoundArgs) : Bool :=
  a.number != 0 && a.vehicle != 0 && a.vehicle != 0xFFFF && decide (1 ≤ a.duration ∧ a.duration ≤ 1440) && decide (a.allowance ≤ 8)

/-- R152's cases, in order: the refusal with its position, or the slot the round takes. -/
def judgeRound (s : State) (a : RoundArgs) : Except (Status × Nat) (Fin 4) :=
  if !a.inRange then .error (.badField, 0)
  else match badEntry [] a.containers with
  | some n => .error (.badField, n)
  | none =>
    if (slotWhere s fun rd => rd.vehicle == a.vehicle).isSome then .error (.refusedState, 0)
    else if (slotWhere s fun rd => rd.number == a.number).isSome then .error (.conflict, 0)
    else match s.rm.slots.find fun slot => slot.isNone with
    | none => .error (.noRoom, 0)
    | some i =>
      match entryWhere (fun n => (containerOf s n).isNone) a.containers with
      | some n => .error (.notFound, n)
      | none =>
        match entryWhere (fun n => (containerOf s n).any (onActiveRound s)) a.containers with
        | some n => .error (.conflict, n)
        | none => .ok i

/-- The round a ROUND_LOAD makes (R153). -/
def loadedRound (s : State) (a : RoundArgs) : Round :=
  { state := .loaded, number := a.number, vehicle := a.vehicle, load := s.tk.uptime, duration := a.duration,
    allowance := a.allowance, adHoc := a.adHoc, lastLift := none, endCause := none,
    steps := (a.containers.filterMap (containerOf s)).map fun r => Step.fresh r .planned }

/-- The REPLY with OK of a ROUND_LOAD (R153): the slot, and a position byte the spec leaves open (log 16). -/
def acceptRound (tag : Byte) (i : Fin 4) (s : State) : State :=
  let (position, s) := drawByte s
  queueReply CommandKind.roundLoad.code tag .ok (.roundLoad (BitVec.ofNat 8 i.val) position) s

/-- ROUND_LOAD (R152, R153). -/
def roundLoadCommand (tag : Byte) (payload : List Byte) : State → State :=
  takeCommand .roundLoad tag (roundLoadArgs payload) false fun args s =>
    match judgeRound s args with
    | .error (status, position) => refuseRound tag status position s
    | .ok i =>
      let rd := loadedRound s args
      acceptRound tag i (reevaluateSteps rd.steps (setSlot i (some rd) s))

/-- ROUND_CANCEL (R164). -/
def roundCancelCommand (tag : Byte) (payload : List Byte) : State → State :=
  takeCommand .roundCancel tag (roundArgs payload) false fun n s =>
    if n = 0 then answer .roundCancel tag .badField s
    else match slotWhere s fun rd => rd.number == n with
    | none => answer .roundCancel tag .notFound s
    | some (i, rd) =>
      if rd.state = .closing then answer .roundCancel tag .refusedState s
      else answer .roundCancel tag .ok (endRound .cancelled i s)

/-- HOLD_CLEAR (R160). -/
def holdClearCommand (tag : Byte) (payload : List Byte) : State → State :=
  takeCommand .holdClear tag (numberArgs payload) false fun n s =>
    if !validNumber n then answer .holdClear tag .badField s
    else match containerOf s n with
    | none => answer .holdClear tag .notFound s
    | some r =>
      if (serviceOf s r).name ≠ .held then answer .holdClear tag .refusedState s
      else answer .holdClear tag .ok (reportChange r .service s (reevaluate r (setService r .inUse s)))

/-! ### Vehicle messages (R154 to R157) -/

/-- A vehicle reply that names a round (R154): the two bytes before the round number are drawn free (log 16). -/
def sendRoundReply (relay : Station) (ans : VehicleAnswer) (vehicle round : Short) (s : State) : State :=
  let (high1, s) := drawByte s
  let (high2, s) := drawByte s
  sendDown relay (.reply ans vehicle (.round round high1 high2)) s

/-- What a LIFT_REQUEST comes to (R155). -/
inductive LiftVerdict where
  | refused (reason : RefuseReason)
  | repeated (step : StepRef)
  | accepted (step : StepRef)
  | appended (slot : Fin 4)
deriving DecidableEq, Repr

/-- R155's cases for a container that this round holds neither PENDING nor LIFTING. -/
def judgeOffList (s : State) (i : Fin 4) (rd : Round) (r : Row) : LiftVerdict :=
  if onActiveRound s r then .refused .otherRound
  else if (serviceOf s r).name = .held then .refused .held
  else if rd.adHoc ∧ rd.steps.length < Config.stepPlaces then .appended i
  else .refused .notOnRound

/-- R155's cases for a container that a row holds, with its round. -/
def judgeLift (s : State) (i : Fin 4) (rd : Round) (r : Row) : LiftVerdict :=
  match rd.findStep fun st => st.row == r && st.state == .pending with
  | some k => if (serviceOf s r).name = .held then .refused .held else .accepted ⟨i, k⟩
  | none =>
    match rd.findStep fun st => st.row == r && st.state == .lifting with
    | some k => .repeated ⟨i, k⟩
    | none => judgeOffList s i rd r

/-- A pending request answered when a lift on its container is accepted (R131). -/
def denyForLift (r : Row) (c : ContainerConfig) (s : State) : State :=
  match s.au.requests.find? (·.row == r) with
  | some q => denyRequest q .service (redirectFor s r c.cluster) s
  | none => s

/-- A LIFTING step (R156). -/
def Step.lift (vehicle : Short) (level : Nat) (st : Step) : Step :=
  { st with state := .lifting, vehicle := some vehicle, before := some level }

/-- A LOADED slot whose first lift is accepted becomes RUNNING (R156). -/
def Round.run (rd : Round) : Round :=
  match rd.state with
  | .loaded => { rd with state := .running }
  | _ => rd

/-- A lift accepted (R156). `before` is the state in which the event began. -/
def acceptLift (relay : Station) (vehicle : Short) (r : Row) (c : ContainerConfig) (step : StepRef) (before s : State) : State :=
  let s := setStep step (Step.lift vehicle (fillOf s r).i) s
  let s := { s with rm.slots := s.rm.slots.update step.slot (Option.map Round.run) }
  let s :=
    if (s.au.deposits.get r).isSome then
      sendReply relay .liftWait vehicle c.number (setService r (.serviceWait step relay) s)
    else
      let s := denyForLift r c (setService r (.service step relay s.tk.seconds) s)
      sendReply relay .liftOk vehicle c.number (sendRelease c s)
  reportChange r .service before (reevaluate r s)

/-- A repeated LIFT_REQUEST (R157). -/
def repeatLift (relay : Station) (vehicle : Short) (r : Row) (c : ContainerConfig) (s : State) : State :=
  match serviceOf s r with
  | .serviceWait step _ => sendReply relay .liftWait vehicle c.number (setService r (.serviceWait step relay) s)
  | .service step _ start =>
    sendReply relay .liftOk vehicle c.number (sendRelease c (setService r (.service step relay start) s))
  | _ => s

/-- A LIFT_REQUEST at the Round Manager (R155). -/
def liftRequest (relay : Station) (vehicle round : Short) (n : Number) (s : State) : State :=
  let refused (reason : RefuseReason) : State := sendReply relay (.liftRefuse reason) vehicle n s
  match slotWhere s fun rd => rd.state.takesLifts && rd.vehicle == vehicle && rd.number == round with
  | none => refused .noRound
  | some (i, rd) =>
    match (containerOf s n).bind fun r => (configOf s r).map fun c => (r, c) with
    | none => refused .notOnRound
    | some (r, c) =>
      match judgeLift s i rd r with
      | .refused reason => refused reason
      | .repeated _ => repeatLift relay vehicle r c s
      | .accepted step => acceptLift relay vehicle r c step s s
      | .appended slot =>
        let t := setSlot slot (some { rd with steps := rd.steps ++ [Step.fresh r .adhoc] }) s
        acceptLift relay vehicle r c ⟨slot, rd.steps.length⟩ s (reevaluate r t)

/-- A ROUND_END at the Round Manager (R164). -/
def roundEnd (relay : Station) (vehicle round : Short) (s : State) : State :=
  match slotWhere s fun rd => rd.vehicle == vehicle with
  | none => sendRoundReply relay .roundClosed vehicle round s
  | some (i, rd) =>
    if rd.number ≠ round then sendRoundReply relay (.liftRefuse .noRound) vehicle round s
    else if rd.state = .closing then sendRoundReply relay .roundClosed vehicle round s
    else sendRoundReply relay .roundClosed vehicle round (endRound .vehicleEnd i s)

/-! ### Completions (R161 to R163, R170) -/

/-- The service state a completion leaves (R161, R163). -/
def serviceAfter : LockState → Service
  | .locked => .inUse
  | .unlocked => .held .unlocked none

/-- A step made DONE (R161, R163). -/
def Step.finish (weight : Short) (minute : Stamp) (st : Step) : Step :=
  { st with state := .done, weight := weight, after := some 0, doneMinute := some minute }

/-- The SERVICE_REPORT of a step (R170): `vehicle` is the one it names, `carried` the weight and lock state of a completion. -/
def serviceReport (outcome : ServiceOutcome) (r : Row) (c : ContainerConfig) (ref : Option StepRef) (vehicle : Option Short)
    (carried : Option (Short × LockState)) (s : State) : ServiceReport :=
  let step := ref.bind (stepAt s)
  { outcome := outcome, number := c.number, row := r,
    step := ref.bind fun p => (s.rm.slots.get p.slot).map fun rd => (rd.number, p.position + 1),
    origin := step.map (·.origin), vehicle := vehicle, before := step.bind (·.before), carried := carried,
    service := (serviceOf s r).name, stamp := s.stamp }

/-- A lift completed (R161). -/
def completeLift (relay : Station) (vehicle weight : Short) (lock : LockState) (r : Row) (c : ContainerConfig) (step : StepRef)
    (s : State) : State :=
  let t := setStep step (Step.finish weight s.stamp) s
  let last := some (s.tk.uptime, c.cluster)
  let t := { t with rm.slots := t.rm.slots.update step.slot (Option.map fun rd => { rd with lastLift := last }) }
  let t := setService r (serviceAfter lock) (completeService r t)
  let t := postReport (.service (serviceReport .done r c (some step) (some vehicle) (some (weight, lock)) t)) t
  let t := reportChange r .service s (reevaluate r t)
  freeIfClosed step.slot (sendReply relay .doneAck vehicle c.number t)

/-- A late completion (R163). -/
def completeLate (relay : Station) (vehicle weight : Short) (lock : LockState) (r : Row) (c : ContainerConfig)
    (held : Option StepRef) (s : State) : State :=
  let t := match held with
    | some step => setStep step (fun st => { st.finish weight s.stamp with vehicle := some vehicle }) s
    | none => s
  let t := setService r (serviceAfter lock) (completeService r t)
  let t := postReport (.service (serviceReport .late r c held (some vehicle) (some (weight, lock)) t)) t
  let t := reportChange r .service s (reevaluate r t)
  sendReply relay .doneAck vehicle c.number t

/-- A vehicle's active slot holds a DONE step of a container, done by that vehicle (R162). -/
def completedBy (s : State) (vehicle : Short) (r : Row) : Bool :=
  (slotWhere s fun rd => rd.vehicle == vehicle).any fun slot =>
    slot.2.steps.any fun st => st.row == r && st.state == .done && st.vehicle == some vehicle

/-- A lifting step's vehicle is the reporting one (R161, R162). -/
def liftedBy (s : State) (step : StepRef) (vehicle : Short) : Bool := (stepAt s step).any fun st => st.vehicle == some vehicle

/-- A LIFT_DONE at the Round Manager (R161, R162, R163). -/
def liftDone (relay : Station) (vehicle : Short) (n : Number) (weight : Short) (lock : LockState) (s : State) : State :=
  match (containerOf s n).bind fun r => (configOf s r).map fun c => (r, c) with
  | none => sendReply relay (.liftRefuse .notOnRound) vehicle n s
  | some (r, c) =>
    match serviceOf s r with
    | .held _ held => completeLate relay vehicle weight lock r c held s
    | .service step _ _ =>
      if liftedBy s step vehicle then completeLift relay vehicle weight lock r c step s
      else sendReply relay (.liftRefuse .otherVehicle) vehicle n s
    | .serviceWait step _ =>
      sendReply relay (if liftedBy s step vehicle then .liftWait else .liftRefuse .otherVehicle) vehicle n s
    | .inUse =>
      sendReply relay (if completedBy s vehicle r then .doneAck else .liftRefuse .notOnRound) vehicle n s

/-! ### Timers -/

/-- A container timed out (R159). -/
def timeOutLift (r : Row) (c : ContainerConfig) (step : StepRef) (s : State) : State :=
  let t := setStep step (fun st => { st with state := .missed, timedOut := true }) s
  let t := setService r (.held .timedOut (some step)) t
  let t := sendDown c.station (.liftHold c.bay) t
  let vehicle := (stepAt t step).bind (·.vehicle)
  let t := postReport (.service (serviceReport .timedOut r c (some step) vehicle none t)) t
  freeIfClosed step.slot (reportChange r .service s (reevaluate r t))

/-- The service timer of one container row at a second event (R159). -/
def timeService (r : Row) (s : State) : State :=
  match serviceOf s r, configOf s r with
  | .service step _ start, some c =>
    if s.tp.effective.serviceLimit ≤ elapsed s.tk.seconds start then timeOutLift r c step s else s
  | _, _ => s

/-- The expiry of one slot at a minute event (R164). -/
def expireRound (i : Fin 4) (s : State) : State :=
  match s.rm.slots.get i with
  | some rd => if rd.state.takesLifts ∧ rd.duration ≤ elapsed s.tk.uptime rd.load then endRound .expired i s else s
  | none => s

/-! ### Commands -/

/-- SERVICE_TIMER_EXPIRY (R159), the Round Manager's work of a second event, in row index order. -/
def execServiceTimerExpiry (s : State) : Host.Outcome State Fault Refusal :=
  whenRunning (fun s =>
    if s.tk.told.service then (List.finRange 192).foldl (fun s r => timeService r s) { s with tk.told.service := false }
    else s) s

/-- ROUND_EXPIRY (R164), the Round Manager's work of a minute event, in slot order. -/
def execRoundExpiry (s : State) : Host.Outcome State Fault Refusal :=
  whenRunning (fun s =>
    if s.tk.told.roundExpiry then
      (List.finRange 4).foldl (fun s i => expireRound i s) { s with tk.told.roundExpiry := false }
    else s) s

/-- ROUND_LOAD (R152, R153). -/
def execRoundLoad (tag : Byte) (payload : List Byte) (s : State) : Host.Outcome State Fault Refusal :=
  whenRunning (roundLoadCommand tag payload) s

/-- ROUND_CANCEL (R164). -/
def execRoundCancel (tag : Byte) (payload : List Byte) (s : State) : Host.Outcome State Fault Refusal :=
  whenRunning (roundCancelCommand tag payload) s

/-- HOLD_CLEAR (R160). -/
def execHoldClear (tag : Byte) (payload : List Byte) (s : State) : Host.Outcome State Fault Refusal :=
  whenRunning (holdClearCommand tag payload) s

end Sys2Proof.Machine
end

