-- ==== Sys2Proof/Machine/Tables.lean ====
section
/-! DEFINITION. The configuration commands PARAM_PUT (R192), PROFILE_PUT, CONTAINER_PUT, CONTAINER_DROP (chapter 5), STATION_PUT,
STATION_DROP and STATION_CLEAR (chapter 2), and PASS_DOWN (R196). -/

namespace Sys2Proof.Machine

/-! ### Parameters (R192) -/

/-- A new rejoin limit applied to one row (R26). -/
def StationRow.limitRejoin (limit : Nat) (r : StationRow) : StationRow :=
  match r.state with
  | .barred => { r with rejoin := limit }
  | _ => if limit ≤ r.rejoin then { r with rejoin := limit - 1 } else r

/-- A changed rejoin limit applied to every row (R26). -/
def applyRejoinLimit (old new : Nat) (s : State) : State :=
  if old = new then s else { s with slc.rows := s.slc.rows.map (StationRow.limitRejoin new) }

/-- A changed horizon: every occupied row re-evaluated (R97). -/
def applyHorizon (old new : Nat) (s : State) : State := if old = new then s else rebuildQueue s

/-- A set becomes the effective one. While its summary interval is 0 the minutes since the last SUMMARY are held at 0 (R204). -/
def TrunkPort.withEffective (p : Params) (t : TrunkPort) : TrunkPort :=
  { t with effective := p, sinceSummary := if p.summaryInterval = 0 then 0 else t.sinceSummary }

/-- Carried values enter the effective set, with the effects that come at once (R192; log 25). -/
def applyParams (values : List (ParamId × Nat)) (s : State) : State :=
  let old := s.tp.effective
  let new := old.enter values
  applyHorizon old.horizon new.horizon
    (applyRejoinLimit old.rejoinLimit new.rejoinLimit { s with tp := s.tp.withEffective new })

/-- Carried values enter the written set (R192). -/
def writeParams (values : List (ParamId × Nat)) (s : State) : State := { s with tp.written := s.tp.written.enter values }

/-- PARAM_PUT (R192). -/
def paramPutCommand (tag : Byte) (payload : List Byte) : State → State :=
  takeCommand .paramPut tag (paramPutArgs payload) false fun pairs s =>
    match paramPairs pairs with
    | none => answer .paramPut tag .badField s
    | some values =>
      if writesFull s then answer .paramPut tag .busy s
      else
        let s := writeParams values s
        if s.rmi.absent then queueReply CommandKind.paramPut.code tag .ok (.persisted true) (applyParams values s)
        else
          queueWrite (.record .parameter (recordOf .parameter s) values) (some { kind := CommandKind.paramPut.code, tag := tag }) s

/-! ### Profiles (R85) -/

/-- A row of a changed profile (R85, R76). -/
def reprofileRow (n : Fin 16) (fuChanged : Bool) (s : State) (r : Row) : State :=
  match configOf s r with
  | none => s
  | some c =>
    if c.profile ≠ n then s
    else
      let s := setFill r (fun f => { f with rise := 0, fall := 0 }) s
      if fuChanged then reevaluate r (setFill r (Fill.recompute (s.ft.profiles.get n)) s) else s

/-- A profile entry replaced, with its effects on the containers that name it (R85). -/
def putProfile (n : Fin 16) (p : Profile) (s : State) : State :=
  let fuChanged := (s.ft.profiles.get n).fu != p.fu
  (List.finRange 192).foldl (reprofileRow n fuChanged) { s with ft.profiles := s.ft.profiles.set n p }

/-- PROFILE_PUT (R85). -/
def profilePutCommand (tag : Byte) (payload : List Byte) : State → State :=
  takeCommand .profilePut tag (profilePutArgs payload) false fun args s =>
    match index? 16 args.1, profileValid args.2 with
    | some n, true => changeTable .profilePut tag (.profile n) (putProfile n args.2) s
    | _, _ => answer .profilePut tag .badField s

/-! ### Binding of station rows (R17) -/

/-- A row that is bound leaves UNBOUND (R17). -/
def bindStation (a : Station) (s : State) : State :=
  setStation a (fun r => match r.state with
    | .unbound => { r with state := .absent }
    | _ => r) s

/-- The fields of a row that has become UNBOUND by R17. -/
def StationRow.unbind (r : StationRow) : StationRow :=
  { r with state := .unbound, awakeSince := false, miss := 0, rejoin := 0, joinPrior := none, raised := false, due := false }

/-- A row that a container has left: UNBOUND when it was the last of a row with no serial (R17). -/
def releaseStation (a : Station) (s : State) : State :=
  if isBound s a then s else setStation a StationRow.unbind (emptyDown a s)

/-! ### Containers (R81, R82, R83) -/

/-- A container has traffic that refuses a change of its row (R81 step 4). -/
def hasTraffic (s : State) (r : Row) : Bool :=
  chuteBusy s r || (serviceOf s r).name != .inUse ||
    s.rm.slots.rows.any fun slot => slot.any fun rd => rd.steps.any fun st => st.row == r

/-- R81 cases 3 to 5. -/
def judgeContainer (s : State) (r : Row) (c : ContainerConfig) : Option Status :=
  if (containerOf s c.number).any (· != r) || ((configOf s r).any fun old => old.number != c.number) ||
      (containerAt s c.station c.bay.val).any (· != r) then some .conflict
  else if (configOf s r).isSome && hasTraffic s r then some .refusedState
  else if writesFull s then some .busy
  else none

/-- The dynamic part after a CONTAINER_PUT on a row (R58, R82). -/
def Fill.reconfigure (old : Option ContainerConfig) (new : ContainerConfig) (f : Fill) : Fill :=
  match old with
  | none => Fill.cold
  | some o =>
    let f := if o.empty ≠ new.empty ∨ o.full ≠ new.full then { f with fresh := true, ref := none } else f
    if o.profile ≠ new.profile then { f with rise := 0, fall := 0 } else f

/-- A CONTAINER_PUT taken (R82), up to its write-through. -/
def putContainer (r : Row) (c : ContainerConfig) (s : State) : State :=
  let old := configOf s r
  let s := { s with ft.rows := s.ft.rows.update r fun row => { config := some c, fill := row.fill.reconfigure old c } }
  let s := if old.isNone then setService r .inUse s else s
  let s := bindStation c.station s
  let s := match old with
    | some o => releaseStation o.station s
    | none => s
  reevaluate r s

/-- CONTAINER_PUT (R81, R82). -/
def containerPutCommand (tag : Byte) (payload : List Byte) : State → State :=
  takeCommand .containerPut tag (containerPutArgs payload) false fun args s =>
    match args with
    | none => answer .containerPut tag .badField s
    | some (r, c) =>
      match judgeContainer s r c with
      | some status => answer .containerPut tag status s
      | none => writeThrough .containerPut tag (.container r) (putContainer r c s)

/-- A CONTAINER_DROP taken (R83), up to its write-through. -/
def dropContainer (r : Row) (c : ContainerConfig) (s : State) : State :=
  let s := { s with ft.queue := s.ft.queue.filter (· != r) }
  let s := setService r .inUse { s with ft.rows := s.ft.rows.set r ContainerRow.cold }
  releaseStation c.station s

/-- CONTAINER_DROP (R83). -/
def containerDropCommand (tag : Byte) (payload : List Byte) : State → State :=
  takeCommand .containerDrop tag (numberArgs payload) false fun n s =>
    if !validNumber n then answer .containerDrop tag .badField s
    else match (containerOf s n).bind fun r => (configOf s r).map fun c => (r, c) with
    | none => answer .containerDrop tag .notFound s
    | some (r, c) =>
      if hasTraffic s r then answer .containerDrop tag .refusedState s
      else changeTable .containerDrop tag (.container r) (dropContainer r c) s

/-! ### Stations (R15, R16, R24) -/

/-- The states in which a row's serial may not be changed (R15, R16). -/
def StationState.inTraffic : StationState → Bool
  | .joining | .awake | .dozing | .silent => true
  | _ => false

/-- A row after a change of its serial (R15, R16); `bound` says whether it is bound now (log 20). -/
def StationRow.changeSerial (serial : Option Serial) (bound : Bool) (r : StationRow) : StationRow :=
  { r with serial := serial, rejoin := 0, miss := 0, awakeSince := false, lastJoin := none, joinCause := none,
           joinUnwritten := false, state := if bound then .absent else .unbound, raised := bound && r.raised }

/-- A serial entered in a row (R15), whose pinned flag takes the given value. -/
def putStation (a : Station) (serial : Option Serial) (pinned : Bool) (s : State) : State :=
  let bound := serial.isSome || !(boundTo s a).isEmpty
  setStation a (fun r => if r.serial = serial then { r with pinned := pinned }
    else { r.changeSerial serial bound with pinned := pinned }) s

/-- Another row holds a serial (R15). -/
def serialElsewhere (s : State) (a : Station) (serial : Option Serial) : Bool :=
  serial.isSome && (List.finRange 62).any fun b => b != a && (s.slc.rows.get b).serial == serial

/-- STATION_PUT (R15). -/
def stationPutCommand (tag : Byte) (payload : List Byte) : State → State :=
  takeCommand .stationPut tag (stationPutArgs payload) false fun args s =>
    match args with
    | (none, _, _) => answer .stationPut tag .badField s
    | (some a, serial, pinned) =>
      if serialElsewhere s a serial then answer .stationPut tag .conflict s
      else if (s.slc.rows.get a).serial != serial && (s.slc.rows.get a).state.inTraffic then
        answer .stationPut tag .refusedState s
      else changeTable .stationPut tag (.station a) (putStation a serial pinned) s

/-- A row's serial and pinned flag removed (R16). -/
def dropStation (a : Station) (s : State) : State :=
  let bound := !(boundTo s a).isEmpty
  setStation a (fun r => { r.changeSerial none bound with pinned := false }) s

/-- STATION_DROP (R16). -/
def stationDropCommand (tag : Byte) (payload : List Byte) : State → State :=
  takeCommand .stationDrop tag (addressArgs payload) false fun a s =>
    match a with
    | none => answer .stationDrop tag .badField s
    | some a =>
      if (s.slc.rows.get a).state.inTraffic then answer .stationDrop tag .refusedState s
      else changeTable .stationDrop tag (.station a) (dropStation a) s

/-- A row cleared by the centre (R24). -/
def StationRow.clearRejoin (r : StationRow) : StationRow :=
  { r with rejoin := 0, state := match r.state with
    | .barred => .lost
    | state => state }

/-- STATION_CLEAR (R24). -/
def stationClearCommand (tag : Byte) (payload : List Byte) : State → State :=
  takeCommand .stationClear tag (addressArgs payload) false fun a s =>
    match a with
    | none => answer .stationClear tag .badField s
    | some a => answer .stationClear tag .ok (setStation a StationRow.clearRejoin s)

/-! ### PASS_DOWN (R196) -/

/-- PASS_DOWN (R196). -/
def passDownCommand (tag : Byte) (payload : List Byte) : State → State :=
  takeCommand .passDown tag (passDownArgs payload) false fun args s =>
    if !validNumber args.1 then answer .passDown tag .badField s
    else match (containerOf s args.1).bind (configOf s) with
    | none => answer .passDown tag .notFound s
    | some c =>
      if !(s.slc.rows.get c.station).state.live then answer .passDown tag .refusedState s
      else match postDown c.station (.passDown c.bay args.2) s with
      | (.queued, s) => answer .passDown tag .ok s
      | (_, s) => answer .passDown tag .busy s

/-! ### Commands -/

/-- PARAM_PUT (R192). -/
def execParamPut (tag : Byte) (payload : List Byte) (s : State) : Host.Outcome State Fault Refusal :=
  whenRunning (paramPutCommand tag payload) s

/-- PROFILE_PUT (R85). -/
def execProfilePut (tag : Byte) (payload : List Byte) (s : State) : Host.Outcome State Fault Refusal :=
  whenRunning (profilePutCommand tag payload) s

/-- CONTAINER_PUT (R81, R82). -/
def execContainerPut (tag : Byte) (payload : List Byte) (s : State) : Host.Outcome State Fault Refusal :=
  whenRunning (containerPutCommand tag payload) s

/-- CONTAINER_DROP (R83). -/
def execContainerDrop (tag : Byte) (payload : List Byte) (s : State) : Host.Outcome State Fault Refusal :=
  whenRunning (containerDropCommand tag payload) s

/-- STATION_PUT (R15). -/
def execStationPut (tag : Byte) (payload : List Byte) (s : State) : Host.Outcome State Fault Refusal :=
  whenRunning (stationPutCommand tag payload) s

/-- STATION_DROP (R16). -/
def execStationDrop (tag : Byte) (payload : List Byte) (s : State) : Host.Outcome State Fault Refusal :=
  whenRunning (stationDropCommand tag payload) s

/-- STATION_CLEAR (R24). -/
def execStationClear (tag : Byte) (payload : List Byte) (s : State) : Host.Outcome State Fault Refusal :=
  whenRunning (stationClearCommand tag payload) s

/-- PASS_DOWN (R196). -/
def execPassDown (tag : Byte) (payload : List Byte) (s : State) : Host.Outcome State Fault Refusal :=
  whenRunning (passDownCommand tag payload) s

end Sys2Proof.Machine
end

