-- ==== Sys2Proof/Machine/Record.lean ====
section
/-! DEFINITION. The Record Memory Interface (chapter 9): the port arbiter, the restore, fetches and writes on the device, and their
commands. -/

namespace Sys2Proof.Machine

/-! ### The write queue's operations -/

/-- A write queue entry writes a card of a bucket (R109). -/
def WriteBody.writesBucket (b : Bucket) : WriteBody → Bool
  | .cardPut r => bucketOf r.number == b
  | .cardDrop n => bucketOf n == b
  | .record _ _ _ | .header | .format => false

/-- What a card write makes of its bucket as read (R117): its status and the slots it writes. -/
def cardWrites (body : WriteBody) (slots : List SlotReading) : Status × List MemUnit :=
  match body with
  | .cardPut r => let w := putCard slots r; (w.1, slotUnits (bucketOf r.number) w.2)
  | .cardDrop n => let w := dropCard slots n; (w.1, slotUnits (bucketOf n) w.2)
  | .record _ _ _ | .header | .format => (.ok, [])

/-- The bucket's slots as the device holds them. -/
def heldSlots (m : Memory) (b : Bucket) : List SlotReading := readBucket (some (m.readBytes (bucketAddress b) 64))

/-- The units an entry's operation writes on the device as it stands (R174). -/
def WriteBody.units (m : Memory) (body : WriteBody) : List MemUnit :=
  match body with
  | .cardPut r => (cardWrites body (heldSlots m (bucketOf r.number))).2
  | .cardDrop n => (cardWrites body (heldSlots m (bucketOf n))).2
  | .record t contents _ => [{ address := recordAddress t.imageIndex, bytes := contents }]
  | .header => [{ address := headerAddress, bytes := headerUnit }]
  | .format => formatUnits

/-- The entry that is on the port. -/
def activeWrite (s : State) : Option WriteEntry :=
  match s.rmi.port with
  | some .write => s.rmi.queue.head?
  | _ => none

/-- An operation that writes nothing more has ended: the port is free. -/
def freePort (s : State) : State := { s with rmi.port := none }

/-- The body of one of the part's own entries (R182). -/
def OwnWrite.body : OwnWrite → WriteBody
  | .header => .header
  | .format => .format

/-- One of the part's own entries made (R182). -/
def queueOwn (w : OwnWrite) (s : State) : State := queueWrite w.body none s

/-- An owed HEADER or FORMAT entry that is due is made at the end of the queue (R182; log 11, 12). -/
def remakeOwn (s : State) : State :=
  match s.rmi.remake with
  | some { kind := w, due := true } =>
    if s.rmi.queue.length < Config.writePlaces then queueOwn w { s with rmi.remake := none } else s
  | _ => s

/-- The entry on the port leaves the queue and frees the port (R175). With it, an owed HEADER or FORMAT entry is due (R182). -/
def endWrite (s : State) : State :=
  remakeOwn { s with rmi := { s.rmi with
    queue := s.rmi.queue.tail, port := none, remake := s.rmi.remake.map fun r => { r with due := true } } }

/-- A failed operation or bad units counted (R119, R174). -/
def countErrors (n : Nat) (s : State) : State := { s with clu.memoryErrors := bump s.clu.memoryErrors n }

/-- The device after the write accesses of an operation, and whether they succeeded (R174). -/
def Memory.perform (m : Memory) (units : List MemUnit) : MemWrite → Memory × Bool
  | .done => (m.writeUnits units, true)
  | .readBack returned => m.writeCompared units returned
  | .failed r => (m.writeCut units r, false)

/-- The REPLY of a write queue entry, if a command waits on it (R178, R117). -/
def replyWrite (reply : Option ReplyTo) (status : Status) (detail : Detail) (s : State) : State :=
  match reply with
  | some r => queueReply r.kind r.tag status detail s
  | none => s

/-! ### The port arbiter (R176) -/

/-- The oldest waiting write granted (R176). -/
def grantWrite (s : State) : State :=
  let queue := match s.rmi.queue with
    | e :: rest => { e with inProgress := true } :: rest
    | [] => []
  { s with rmi := { s.rmi with port := some .write, fetchRun := 0, queue := queue } }

/-- The oldest QUEUED fetch granted (R176, R109). -/
def grantFetch (b : Bucket) (s : State) : State :=
  let stale := s.rmi.queue.any fun e => e.body.writesBucket b
  let missList := s.clu.missList.map fun e => if e.bucket = b then { e with granted := true, stale := stale } else e
  { s with
    clu.missList := missList
    rmi := { s.rmi with port := some (.fetch b false), fetchRun := min 3 (s.rmi.fetchRun + 1) } }

/-- The restore's next read (R176 case 1). -/
def nextRead (p : RestoreProgress) : Option PortOp :=
  match p with
  | .identify _ => some .identification
  | .header => some .header
  | .records _ => some .record
  | .ended => none

/-- The oldest QUEUED fetch (R176). -/
def queuedFetch (s : State) : Option Bucket := (s.clu.missList.find? fun e => !e.granted).map (·.bucket)

/-- The port granted, when it is free and an operation waits (R176; log 7). -/
def grantPort (s : State) : State :=
  if s.rmi.port.isSome then s
  else if s.rmi.restoring then { s with rmi.port := nextRead s.rmi.progress }
  else if !s.rmi.queue.isEmpty && s.rmi.fetchRun == 3 then grantWrite s
  else match queuedFetch s with
  | some b => grantFetch b s
  | none => if s.rmi.queue.isEmpty then s else grantWrite s

/-! ### The end of the restore (R185) -/

/-- The outcome of a restore (R185). -/
def restoreOutcome (u : RecordMemory) : RestoreOutcome :=
  if u.absent then .memoryAbsent
  else match u.header with
  | some .good | some .bad => .imageLoaded
  | _ => .imageBlank

/-- The entry due at the end of the restore (R182). -/
def ownDue (u : RecordMemory) : Option OwnWrite :=
  if u.absent then none
  else match u.header with
  | some .bad => some .header
  | some .foreign | some .blank => some .format
  | _ => none

/-- The restore ends (R185). -/
def endRestore (s : State) : State :=
  let report : RestoreReport :=
    { outcome := restoreOutcome s.rmi, header := s.rmi.header, cause := s.rmi.cause, counts := s.rmi.counts, stamp := s.stamp }
  let s := postReport (.restore report) s
  let s := match ownDue s.rmi with
    | some w => queueOwn w s
    | none => s
  let s := { s with rmi := { s.rmi with restoring := false, progress := .ended } }
  let s := rebuildQueue s
  { s with slc.sinceOpen := 32 }

/-! ### The identification and the header (R181, R182) -/

/-- The identification the part expects (R181, 11.4). -/
def isIdentified (answer : Option (List Byte)) : Bool :=
  answer.any fun b => decide (3 ≤ b.length) && byteAt b 0 != 0x00 && byteAt b 0 != 0xFF && byteAt b 2 == 0x13

/-- An identification read ended (R181). -/
def endIdentification (answer : Option (List Byte)) (s : State) : State :=
  match s.rmi.port, s.rmi.progress with
  | some .identification, .identify failures =>
    let s := freePort s
    if isIdentified answer then { s with rmi.progress := .header }
    else if failures + 1 < 3 then { s with rmi.progress := .identify (failures + 1) }
    else endRestore { s with rmi := { s.rmi with absent := true } }
  | _, _ => s

/-- Every record counted empty (R182). -/
def allEmpty : Table RecordCounts 7 :=
  ⟨recordsOfKind.map fun n => { loaded := 0, empty := n, bad := 0 }, by decide⟩

/-- The header read ended (R182). -/
def endHeader (read : MemRead) (s : State) : State :=
  match s.rmi.port with
  | some .header =>
    let (memory, bytes) := s.memory.access headerAddress recordSize read
    let condition := readHeader bytes
    let s := freePort { s with memory := memory }
    let s := { s with rmi := { s.rmi with header := some condition } }
    match condition with
    | .good => { s with rmi.progress := .records 0 }
    | .bad => countErrors 1 { s with rmi.progress := .records 0 }
    | .foreign | .blank => endRestore { s with rmi.counts := allEmpty }
  | _ => s

/-! ### The records (R183, R184) -/

/-- The parameter set of a parameter record: `none` when a value lies outside its range (R183). -/
def paramsOf (b : List Byte) : Option Params :=
  let values := (List.range 14).map fun i => fieldAt b (2 * i) 2
  let pairs := ParamId.all.zip values
  if pairs.all fun p => p.1.inRange p.2 then some (Params.default.enter pairs) else none

/-- The contents of a record entered in their table: `none` when they fail R183's checks. A container binds its station's row (R17), and
a serial its own: an UNBOUND row that has become bound is ABSENT from then on (R14). -/
def loadRecord (t : RecordTarget) (b : List Byte) (s : State) : Option State :=
  match t with
  | .parameter => (paramsOf b).map fun p => { s with tp := { s.tp.withEffective p with written := p } }
  | .profile n =>
    let p := profileFields b
    if profileValid p then some { s with ft.profiles := s.ft.profiles.set n p } else none
  | .container r =>
    match containerFields b with
    | none => none
    | some c =>
      if (containerOf s c.number).isSome || (containerAt s c.station c.bay.val).isSome then none
      else some (bindStation c.station { s with ft.rows := s.ft.rows.update r fun row => { row with config := some c } })
  | .station a =>
    let (serial, pinned) := stationFields b
    if serialElsewhere s a serial then none
    else
      let s := setStation a (fun r => { r with serial := serial, pinned := pinned }) s
      some (if serial.isSome then bindStation a s else s)
  | .window n =>
    let w := windowFields b
    if windowValid w then some { s with au.windows := s.au.windows.set n w } else none
  | .cls n => some { s with au.classes := s.au.classes.set n (classFields (byteAt b 0)) }
  | .cost n => some { s with au.costs := s.au.costs.set n (fieldAt b 0 1) }

/-- One record counted under its kind (R184). -/
def countRecord (t : RecordTarget) (f : RecordCounts → RecordCounts) (s : State) : State :=
  { s with rmi.counts := s.rmi.counts.update t.kind f }

/-- A record read, classed, loaded and counted (R183, R184). -/
def takeRecord (t : RecordTarget) (bytes : Option (List Byte)) (s : State) : State :=
  let bad := countErrors 1 (countRecord t (fun c => { c with bad := c.bad + 1 }) s)
  match readRecord t bytes with
  | .empty => countRecord t (fun c => { c with empty := c.empty + 1 }) s
  | .bad => bad
  | .contents b =>
    match loadRecord t b s with
    | some s => countRecord t (fun c => { c with loaded := c.loaded + 1 }) s
    | none => bad

/-- After the last read each station row is ABSENT when it is bound and UNBOUND otherwise (R183, R35). -/
def settleBinding (s : State) : State :=
  (List.finRange 62).foldl (fun s a =>
    setStation a (fun r => { r with state := if isBound s a then .absent else .unbound }) s) s

/-- A restore record read ended (R183). -/
def endRecord (read : MemRead) (s : State) : State :=
  match s.rmi.port, s.rmi.progress with
  | some .record, .records n =>
    match targetAt n with
    | none => s
    | some t =>
      let (memory, bytes) := s.memory.access (recordAddress n) recordSize read
      let s := takeRecord t bytes (freePort { s with memory := memory })
      let s := { s with rmi.progress := .records (n + 1) }
      if n + 1 < Config.imageRecords then s else endRestore (settleBinding s)
  | _, _ => s

/-! ### Fetches (R177) -/

/-- A bucket fetch ended (R177, R111). One that a TRAFFIC reset has discarded has no effect but the count of a failure (R120). -/
def endFetch (read : MemRead) (s : State) : State :=
  match s.rmi.port with
  | some (.fetch b discarded) =>
    let (memory, bytes) := s.memory.access (bucketAddress b) 64 read
    let s := freePort { s with memory := memory }
    if discarded then (if bytes.isNone then countErrors 1 s else s) else completeFetch b bytes s
  | _ => s

/-! ### Writes (R117, R178, R179, R182) -/

/-- The bucket of a card write. -/
def WriteBody.bucket : WriteBody → Option Bucket
  | .cardPut r => some (bucketOf r.number)
  | .cardDrop n => some (bucketOf n)
  | .record _ _ _ | .header | .format => none

/-- A card write whose bucket has been read, to its end (R117). With no slot to write, no write access is made. -/
def finishCardWrite (e : WriteEntry) (bytes : Option (List Byte)) (write : MemWrite) (s : State) : State :=
  let slots := readBucket bytes
  let s := countErrors (if bytes.isNone then 1 else badSlots slots) s
  let (status, units) := cardWrites e.body slots
  if bytes.isNone then replyWrite e.reply .memoryFault .none (endWrite s)
  else if units.isEmpty then replyWrite e.reply status .none (endWrite s)
  else
    let (memory, ok) := s.memory.perform units write
    let s := { s with memory := memory }
    if ok then replyWrite e.reply status .none (endWrite s)
    else replyWrite e.reply .memoryFault .none (endWrite (countErrors 1 s))

/-- A card write ended (R117, R177). -/
def endCardWrite (read : MemRead) (write : MemWrite) (s : State) : State :=
  match activeWrite s with
  | none => s
  | some e =>
    match e.body.bucket with
    | none => s
    | some b =>
      let (memory, bytes) := s.memory.access (bucketAddress b) 64 read
      finishCardWrite e bytes write { s with memory := memory }

/-- The write accesses of the entry on the port made, with a failure counted (R174); and whether they succeeded. -/
def performEntry (e : WriteEntry) (write : MemWrite) (s : State) : Bool × State :=
  let (memory, ok) := s.memory.perform (e.body.units s.memory) write
  let s := { s with memory := memory }
  (ok, if ok then s else countErrors 1 s)

/-- A record write ended (R178, R179, R192). -/
def endRecordWrite (write : MemWrite) (s : State) : State :=
  match activeWrite s with
  | some e =>
    match e.body with
    | .record _ _ values =>
      let (ok, s) := performEntry e write s
      replyWrite e.reply (if ok then .ok else .memoryFault) (.persisted false) (applyParams values (endWrite s))
    | _ => s
  | none => s

/-- One of the part's own writes ended (R182): a failed one is made again at the end of the queue, at once when the queue has a
place beside the failed entry, and otherwise when the next entry leaves the queue (log 12). -/
def endOwnWrite (w : OwnWrite) (e : WriteEntry) (write : MemWrite) (s : State) : State :=
  let (ok, s) := performEntry e write s
  if ok then endWrite s
  else if s.rmi.queue.length < Config.writePlaces then endWrite (queueOwn w s)
  else { (endWrite s) with rmi := { (endWrite s).rmi with remake := some { kind := w, due := false } } }

/-- A header write ended (R182). -/
def endHeaderWrite (write : MemWrite) (s : State) : State :=
  match activeWrite s with
  | some e =>
    match e.body with
    | .header => endOwnWrite .header e write s
    | _ => s
  | none => s

/-- An image format ended (R182). -/
def endFormat (write : MemWrite) (s : State) : State :=
  match activeWrite s with
  | some e =>
    match e.body with
    | .format => endOwnWrite .format e write s
    | _ => s
  | none => s

/-- How the first read of a card write stands when one of its accesses has not finished in time (R174): when the bucket as read leaves
no slot to write, the access that has not finished is the read itself. -/
def readBeforeTimeout (body : WriteBody) (b : Bucket) (read : MemRead) (m : Memory) : MemRead :=
  if (cardWrites body (readBucket (m.access (bucketAddress b) 64 read).2)).2.isEmpty then .failed else read

/-- A device access not finished within the operation limit fails the operation on the port (R174). For a card write `read` says
whether its first read had ended; for every write `left` is what the failed access left. -/
def failAccess (read : MemRead) (left : Residue) (s : State) : State :=
  match s.rmi.port with
  | none => s
  | some .identification => endIdentification none s
  | some .header => endHeader .failed s
  | some .record => endRecord .failed s
  | some (.fetch _ _) => endFetch .failed s
  | some .write =>
    match activeWrite s with
    | none => s
    | some e =>
      match e.body with
      | .cardPut r => endCardWrite (readBeforeTimeout e.body (bucketOf r.number) read s.memory) (.failed left) s
      | .cardDrop n => endCardWrite (readBeforeTimeout e.body (bucketOf n) read s.memory) (.failed left) s
      | .record _ _ _ => endRecordWrite (.failed left) s
      | .header => endHeaderWrite (.failed left) s
      | .format => endFormat (.failed left) s

/-! ### Commands -/

/-- PORT_GRANT (R176). -/
def execPortGrant (s : State) : Host.Outcome State Fault Refusal := whenRunning grantPort s

/-- MEMORY_ACCESS_TIMEOUT (R174). -/
def execMemoryAccessTimeout (read : MemRead) (left : Residue) (s : State) : Host.Outcome State Fault Refusal :=
  whenRunning (failAccess read left) s

/-- IDENTIFICATION_READ_COMPLETE (R181). -/
def execIdentificationReadComplete (answer : Option (List Byte)) (s : State) : Host.Outcome State Fault Refusal :=
  whenRunning (endIdentification answer) s

/-- HEADER_READ_COMPLETE (R182). -/
def execHeaderReadComplete (read : MemRead) (s : State) : Host.Outcome State Fault Refusal := whenRunning (endHeader read) s

/-- RESTORE_RECORD_READ_COMPLETE (R183). -/
def execRestoreRecordReadComplete (read : MemRead) (s : State) : Host.Outcome State Fault Refusal :=
  whenRunning (endRecord read) s

/-- BUCKET_FETCH_COMPLETE (R111). -/
def execBucketFetchComplete (read : MemRead) (s : State) : Host.Outcome State Fault Refusal := whenRunning (endFetch read) s

/-- CARD_WRITE_COMPLETE (R117). -/
def execCardWriteComplete (read : MemRead) (write : MemWrite) (s : State) : Host.Outcome State Fault Refusal :=
  whenRunning (endCardWrite read write) s

/-- RECORD_WRITE_COMPLETE (R178). -/
def execRecordWriteComplete (write : MemWrite) (s : State) : Host.Outcome State Fault Refusal :=
  whenRunning (endRecordWrite write) s

/-- HEADER_WRITE_COMPLETE (R182). -/
def execHeaderWriteComplete (write : MemWrite) (s : State) : Host.Outcome State Fault Refusal :=
  whenRunning (endHeaderWrite write) s

/-- IMAGE_FORMAT_COMPLETE (R182). -/
def execImageFormatComplete (write : MemWrite) (s : State) : Host.Outcome State Fault Refusal :=
  whenRunning (endFormat write) s

/-- HEADER_FORMAT_REQUEUE (R182). -/
def execHeaderFormatRequeue (s : State) : Host.Outcome State Fault Refusal := whenRunning remakeOwn s

end Sys2Proof.Machine
end

