-- ==== Sys2Proof/Machine/Query.lean ====
section
/-! DEFINITION. The answers of the QUERY commands (R193 to R195), laid out as bytes by R208, and the six commands. -/

namespace Sys2Proof.Machine

/-! ### Names of the answers -/

/-- The state of a round slot (R149): FREE, LOADED, RUNNING, CLOSING. -/
def slotStateCode : Option Round → Byte
  | none => 0
  | some rd => match rd.state with
    | .loaded => 1
    | .running => 2
    | .closing => 3

/-- Step states (R150). -/
def StepState.code : StepState → Byte
  | .pending => 0
  | .lifting => 1
  | .done => 2
  | .missed => 3

/-- Phases of a pending request (R121). -/
def Phase.code : Phase → Byte
  | .waitMissSlot => 0
  | .waitFetch => 1

/-- Grant kinds (R122). -/
def GrantKind.code : GrantKind → Byte
  | .charged => 0
  | .exempt => 1
  | .provisional => 2

/-- Hold causes (R151). -/
def HoldCause.code : HoldCause → Byte
  | .timedOut => 0
  | .unlocked => 1

/-- Kinds of a write queue entry (R175). -/
def WriteBody.code : WriteBody → Byte
  | .cardPut _ => 0
  | .cardDrop _ => 1
  | .record _ _ _ => 2
  | .header => 3
  | .format => 4

/-- A second count or uptime. -/
def clockBytes (c : Clock) : List Byte := bytesOf 4 c.toNat

/-! ### QUERY STATUS (R195) -/

/-- R11's fields (log 26). -/
def timeBytes (s : State) : List Byte :=
  let w := s.tk.wall
  clockBytes s.tk.seconds ++ clockBytes s.tk.uptime ++ [flagByte w.valid] ++
    (if w.valid then bytesOf 2 w.day ++ bytesOf 2 w.minute ++ bytesOf 1 w.second else stampBytes none) ++
    optBytes 2 (s.tk.lastRefill.map (bytesOf 2)) ++ bytesOf 2 s.tp.effective.refillMinute

/-- R119's fields: valid cache entries, miss list entries with their fetch phases, slot-wait requests. The phases stand in the order in
which the entries were made, a DESIGN CHOICE (log 47). -/
def lookupBytes (s : State) : List Byte :=
  bytesOf 1 (s.clu.entries.rows.countP (·.isSome)) ++ listBytes (s.clu.missList.map fun e => [flagByte e.granted]) ++
    bytesOf 1 s.clu.slotWait.length

/-- R147's fields of a QUERY STATUS. -/
def admissionBytes (s : State) : List Byte :=
  bytesOf 1 s.au.requests.length ++ bytesOf 1 (s.au.deposits.rows.countP (·.isSome)) ++ [flagByte (windowsEnforced s)]

/-- R171's fields of a QUERY STATUS: state, round number and vehicle of each slot; a FREE slot's hold zeros (log 39). -/
def slotsBytes (s : State) : List Byte :=
  s.rm.slots.rows.flatMap fun slot =>
    [slotStateCode slot] ++ shortBytes ((slot.map (·.number)).getD 0) ++ shortBytes ((slot.map (·.vehicle)).getD 0)

/-- The card number of a card write's target. -/
def WriteBody.card : WriteBody → Option Number
  | .cardPut r => some r.number
  | .cardDrop n => some n
  | .record _ _ _ | .header | .format => none

/-- The record of a record write's target. -/
def WriteBody.target : WriteBody → Option RecordTarget
  | .record t _ _ => some t
  | .cardPut _ | .cardDrop _ | .header | .format => none

/-- The kind and target of a write queue entry (R175; log 39). -/
def WriteBody.bytes (b : WriteBody) : List Byte :=
  [b.code] ++ optBytes 4 (b.card.map numberBytes) ++
    optBytes 2 (b.target.map fun t => bytesOf 1 t.kind.val ++ bytesOf 1 t.position)

/-- A HEADER or FORMAT entry. -/
def WriteBody.own : WriteBody → Bool
  | .header | .format => true
  | .cardPut _ | .cardDrop _ | .record _ _ _ => false

/-- The position of the next record to read, while RESTORING (R184). -/
def restorePosition (u : RecordMemory) : Option Nat :=
  if !u.restoring then none
  else match u.progress with
  | .identify _ | .header => some 0
  | .records n => some n
  | .ended => some Config.imageRecords

/-- R188's fields. -/
def memoryBytes (s : State) : List Byte :=
  let u := s.rmi
  [flagByte (!u.restoring), flagByte u.absent] ++ optBytes 1 (u.header.map fun h => [h.code]) ++
    u.counts.rows.flatMap RecordCounts.bytes ++ optBytes 2 ((restorePosition u).map (bytesOf 2)) ++
    bytesOf 1 u.queue.length ++ optBytes 9 ((u.queue.find? (·.inProgress)).map (·.body.bytes)) ++
    [flagByte (u.queue.any (·.body.own))] ++ bytesOf 1 (s.clu.missList.countP fun e => !e.granted) ++
    [flagByte (match u.port with
      | some (.fetch _ _) => true
      | _ => false)] ++ bytesOf 1 u.fetchRun

/-- An upstream entry is a REPLY. -/
def UpEntry.isReply : UpEntry → Bool
  | .reply _ _ _ _ => true
  | .report _ _ => false

/-- Every entry of the upstream queue, the one on the line first (R200, R201). -/
def TrunkPort.entries (t : TrunkPort) : List UpEntry := t.line.toList ++ t.waiting

/-- The bytes of a parameter's value: the fewest that hold its range (R208). -/
def ParamId.bytes (p : ParamId) (v : Nat) : List Byte := bytesOf (if p.range.2 ≤ 255 then 1 else 2) v

/-- The counts that a SUMMARY carries beside the Trunk Port's own, in its order (R204). -/
def blockCounts (s : State) : List Nat :=
  [s.au.grants, s.au.denials, s.au.releases, s.au.ignoredCloses, s.slc.polls, s.slc.noAnswers, s.slc.collisions,
   s.slc.ignoredJoins, s.clu.hits, s.clu.misses, s.clu.memoryErrors]

/-- The station states in the order of R13. -/
def StationState.all : List StationState := [.unbound, .absent, .joining, .awake, .dozing, .silent, .lost, .barred]

/-- R195's fields. -/
def trunkBytes (s : State) : List Byte :=
  let t := s.tp
  bytesOf 1 (t.entries.countP (·.isReply)) ++ bytesOf 1 (t.entries.countP fun e => !e.isReply) ++ bytesOf 1 t.reserved ++
    [t.reportSeq] ++ bytesOf 2 t.crcErrors ++ bytesOf 2 t.droppedReports ++ bytesOf 2 t.commandOverruns ++
    (blockCounts s).flatMap (bytesOf 2) ++ bytesOf 2 t.sinceSummary ++ bytesOf 2 t.effective.summaryInterval ++
    (ParamId.all.flatMap fun p => p.bytes (t.effective.get p) ++ [flagByte (t.written.get p != t.effective.get p)]) ++
    (StationState.all.flatMap fun st => bytesOf 1 (s.slc.rows.rows.countP fun r => r.state == st)) ++
    bytesOf 1 (s.slc.rows.rows.countP (·.member))

/-- The STATUS answer (R195, R208). -/
def statusAnswer (s : State) : List Byte :=
  timeBytes s ++ lookupBytes s ++ admissionBytes s ++ slotsBytes s ++ memoryBytes s ++ trunkBytes s

/-! ### QUERY CONTAINER (R93) -/

/-- A step reference as carried: slot and position counted from 1 (log 39). -/
def StepRef.bytes (p : StepRef) : List Byte := bytesOf 1 p.slot.val ++ bytesOf 1 (p.position + 1)

/-- R78's dynamic fields. -/
def Fill.bytes (f : Fill) : List Byte :=
  bytesOf 2 f.lf ++ bytesOf 2 f.i ++ bytesOf 2 f.r ++ optBytes 6 (f.ref.map fun p => bytesOf 2 p.1 ++ clockBytes p.2) ++
    bytesOf 2 f.ttf ++ [f.health.code] ++ bytesOf 1 f.implausible ++ clockBytes f.lastPlausible ++
    [flagByte f.fresh, flagByte f.drop]

/-- The fields of a service record (R151): lifting step, relay station, service start, hold cause, held step. -/
def Service.bytes (v : Service) : List Byte :=
  let (step, relay, start) := match v with
    | .serviceWait step relay => (some step, some relay, none)
    | .service step relay start => (some step, some relay, some start)
    | _ => (none, none, none)
  let (cause, kept) := match v with
    | .held cause kept => (some cause, kept)
    | _ => (none, none)
  [v.name.code] ++ optBytes 2 (step.map StepRef.bytes) ++ optBytes 1 (relay.map fun a => bytesOf 1 (addressOf a)) ++
    optBytes 4 (start.map clockBytes) ++ optBytes 1 (cause.map fun c => [c.code]) ++ optBytes 2 (kept.map StepRef.bytes)

/-- The seconds left on a container's service timer, in SERVICE (R171). With the limit in force already reached or passed it is 0, a
DESIGN CHOICE (log 45). -/
def serviceLeft (s : State) (r : Row) : Option Nat :=
  match serviceOf s r with
  | .service _ _ start => some (s.tp.effective.serviceLimit - elapsed s.tk.seconds start)
  | _ => none

/-- The round number and step position, counted from 1, of a container's PENDING or LIFTING step (R171). -/
def openStep (s : State) (r : Row) : Option (Short × Nat) :=
  s.rm.slots.rows.findSome? fun slot =>
    slot.bind fun rd => (rd.findStep fun st => st.row == r && st.open).map fun k => (rd.number, k + 1)

/-- A pending request's fields (R147). -/
def Request.bytes (q : Request) : List Byte := numberBytes q.card ++ [q.phase.code] ++ clockBytes q.arrival

/-- An open deposit's fields (R122). -/
def OpenDeposit.bytes (d : OpenDeposit) : List Byte :=
  numberBytes d.card ++ bytesOf 2 d.account.val ++ bytesOf 1 d.cost ++ [d.kind.code, d.tag, flagByte d.delivered] ++
    clockBytes d.granted

/-- The CONTAINER answer (R93, R78, R171, R147). R80 calls the container number optional, so its presence flag goes before it (R208);
the other fields of R80 are those of `containerBytes`, in its order. Chapter 7's fields stand last, and one flag byte says both that
the container is a member of the queue and that its position follows (log 41). -/
def containerAnswer (s : State) (r : Row) (c : ContainerConfig) : List Byte :=
  let f := fillOf s r
  bytesOf 1 r.val ++ [flagByte true] ++ containerBytes c ++ profileBytes (s.ft.profiles.get c.profile) ++ [f.fill.code] ++ bytesOf 1 f.rise ++
    bytesOf 1 f.fall ++ optBytes 1 ((s.ft.queue.findIdx? (· == r)).map fun k => bytesOf 1 (k + 1)) ++ f.bytes ++
    (serviceOf s r).bytes ++ optBytes 2 ((serviceLeft s r).map (bytesOf 2)) ++
    optBytes 3 ((openStep s r).map fun p => shortBytes p.1 ++ bytesOf 1 p.2) ++
    optBytes 9 ((s.au.requests.find? (·.row == r)).map Request.bytes) ++ optBytes 14 ((s.au.deposits.get r).map OpenDeposit.bytes)

/-! ### QUERY STATION (R34) -/

/-- The containers bound to an address with their bays. -/
def boundList (s : State) (a : Station) : List (Number × Bay) :=
  (boundTo s a).filterMap fun r => (configOf s r).map fun c => (c.number, c.bay)

/-- The STATION answer (R34). -/
def stationAnswer (s : State) (a : Station) : List Byte :=
  let r := s.slc.rows.get a
  optBytes 6 (r.serial.map serialBytes) ++ [flagByte r.pinned, r.state.code, flagByte r.awakeSince] ++ bytesOf 1 r.miss ++
    bytesOf 1 r.rejoin ++ clockBytes r.stableSince ++ bytesOf 2 r.doze ++ clockBytes r.wake ++
    optBytes 1 (r.joinCause.map fun c => [joinCauseCode c]) ++ optBytes 1 (r.lastJoin.map fun k => [k.code]) ++
    bytesOf 1 r.queue.length ++ [flagByte (r.queue.any (·.command.isPassDown)), flagByte r.member] ++ boundBytes (boundList s a)

/-! ### QUERY ACCOUNT (R147, R194) -/

/-- The container rows of an account's open deposits, in row index order. -/
def depositsOn (s : State) (n : Fin 4096) : List Row :=
  s.au.deposits.indexes fun d => d.any fun d => d.account == n

/-- The ACCOUNT answer: the first 40 containers are named (R194). -/
def accountAnswer (s : State) (n : Fin 4096) : List Byte :=
  let a := s.au.accounts.get n
  let rows := depositsOn s n
  [flagByte a.loaded, flagByte a.blocked] ++ bytesOfInt 2 a.balance ++ bytesOf 2 a.held ++ bytesOf 2 a.limit ++
    bytesOf 2 a.refill ++ bytesOf 2 a.cap ++ bytesOf 1 rows.length ++
    listBytes ((rows.take 40).map fun r => numberBytes (((configOf s r).map (·.number)).getD 0))

/-! ### QUERY ROUND (R171, R194) -/

/-- The minutes left before a round's expiry, 0 in CLOSING (R171; log 36). -/
def minutesLeft (s : State) (rd : Round) : Nat :=
  match rd.state with
  | .closing => 0
  | _ => rd.duration - elapsed s.tk.uptime rd.load

/-- A step's fields and its container number (R150, R171). -/
def stepBytes (s : State) (st : Step) : List Byte :=
  bytesOf 1 st.row.val ++ [st.origin.code, st.state.code, flagByte st.timedOut] ++ optBytes 2 (st.before.map (bytesOf 2)) ++
    optBytes 2 (st.after.map (bytesOf 2)) ++ shortBytes st.weight ++ optBytes 4 (st.doneMinute.map stampBytes) ++
    optBytes 2 (st.vehicle.map shortBytes) ++ numberBytes (((configOf s st.row).map (·.number)).getD 0)

/-- The ROUND answer: the steps at positions offset + 1 to offset + 8 (R194). -/
def roundAnswer (s : State) (i : Fin 4) (rd : Round) (offset : Nat) : List Byte :=
  bytesOf 1 i.val ++ [slotStateCode (some rd)] ++ shortBytes rd.vehicle ++ clockBytes rd.load ++ bytesOf 2 rd.duration ++
    bytesOf 2 (minutesLeft s rd) ++ bytesOf 1 rd.allowance ++ [flagByte rd.adHoc] ++
    optBytes 5 (rd.lastLift.map fun l => clockBytes l.1 ++ bytesOf 1 l.2.val) ++
    optBytes 1 (rd.endCause.map fun c => [c.code]) ++ (stepCounts rd.steps).bytes ++ bytesOf 1 rd.steps.length ++
    listBytes (((rd.steps.drop offset).take 8).map (stepBytes s))

/-! ### QUERY SERVICE_QUEUE (R98) -/

/-- One entry of the service queue as R98 lists it. -/
def queueEntryBytes (s : State) (r : Row) : List Byte :=
  match configOf s r with
  | none => []
  | some c =>
    numberBytes c.number ++ bytesOf 1 r.val ++ bytesOf 2 (fillOf s r).ttf ++ [(fillOf s r).fill.code, (fillOf s r).health.code,
      (serviceOf s r).name.code] ++ bytesOf 1 c.cluster.val ++ bytesOf 1 c.fraction.val

/-- The SERVICE_QUEUE answer (R98). -/
def queueAnswer (s : State) (n : Nat) : List Byte :=
  bytesOf 1 s.ft.queue.length ++ listBytes ((s.ft.queue.take n).map (queueEntryBytes s))

/-! ### Commands -/

/-- The REPLY with OK of a QUERY (R193). -/
def answerQuery (tag : Byte) (bytes : List Byte) (s : State) : State :=
  queueReply CommandKind.query.code tag .ok (.answer bytes) s

/-- QUERY STATUS (R195), answered while RESTORING too (R190). The answer is read with the command's own reservation made. -/
def queryStatusCommand (tag : Byte) (arg : List Byte) : State → State :=
  takeCommand .query tag (noArgs arg) true fun _ s => answerQuery tag (statusAnswer s) s

/-- QUERY CONTAINER (R93). -/
def queryContainerCommand (tag : Byte) (arg : List Byte) : State → State :=
  takeCommand .query tag (numberArgs arg) false fun n s =>
    if !validNumber n then answer .query tag .badField s
    else match (containerOf s n).bind fun r => (configOf s r).map fun c => (r, c) with
    | none => answer .query tag .notFound s
    | some (r, c) => answerQuery tag (containerAnswer s r c) s

/-- QUERY STATION (R34). -/
def queryStationCommand (tag : Byte) (arg : List Byte) : State → State :=
  takeCommand .query tag (addressArgs arg) false fun a s =>
    match a with
    | none => answer .query tag .badField s
    | some a => answerQuery tag (stationAnswer s a) s

/-- QUERY ACCOUNT (R147). -/
def queryAccountCommand (tag : Byte) (arg : List Byte) : State → State :=
  takeCommand .query tag (accountArgs arg) false fun n s =>
    match index? 4096 n with
    | none => answer .query tag .badField s
    | some n => answerQuery tag (accountAnswer s n) s

/-- QUERY ROUND (R171, R194). An offset above 47 is judged before the round number is looked for, a DESIGN CHOICE (log 46). -/
def queryRoundCommand (tag : Byte) (arg : List Byte) : State → State :=
  takeCommand .query tag (queryRoundArgs arg) false fun args s =>
    if args.1 = 0 ∨ 47 < args.2 then answer .query tag .badField s
    else match slotWhere s fun rd => rd.number == args.1 with
    | none => answer .query tag .notFound s
    | some (i, rd) => answerQuery tag (roundAnswer s i rd args.2) s

/-- QUERY SERVICE_QUEUE (R98). -/
def queryServiceQueueCommand (tag : Byte) (arg : List Byte) : State → State :=
  takeCommand .query tag (countArgs arg) false fun n s =>
    if 1 ≤ n ∧ n ≤ 16 then answerQuery tag (queueAnswer s n) s else answer .query tag .badField s

/-- QUERY with subject STATUS (R195). -/
def execQueryStatus (tag : Byte) (arg : List Byte) (s : State) : Host.Outcome State Fault Refusal :=
  whenRunning (queryStatusCommand tag arg) s

/-- QUERY with subject CONTAINER (R93). -/
def execQueryContainer (tag : Byte) (arg : List Byte) (s : State) : Host.Outcome State Fault Refusal :=
  whenRunning (queryContainerCommand tag arg) s

/-- QUERY with subject STATION (R34). -/
def execQueryStation (tag : Byte) (arg : List Byte) (s : State) : Host.Outcome State Fault Refusal :=
  whenRunning (queryStationCommand tag arg) s

/-- QUERY with subject ACCOUNT (R147). -/
def execQueryAccount (tag : Byte) (arg : List Byte) (s : State) : Host.Outcome State Fault Refusal :=
  whenRunning (queryAccountCommand tag arg) s

/-- QUERY with subject ROUND (R194). -/
def execQueryRound (tag : Byte) (arg : List Byte) (s : State) : Host.Outcome State Fault Refusal :=
  whenRunning (queryRoundCommand tag arg) s

/-- QUERY with subject SERVICE_QUEUE (R98). -/
def execQueryServiceQueue (tag : Byte) (arg : List Byte) (s : State) : Host.Outcome State Fault Refusal :=
  whenRunning (queryServiceQueueCommand tag arg) s

end Sys2Proof.Machine
end

