-- ==== Sys2Proof/Machine/Time.lean ====
section
/-! DEFINITION. The Timekeeper (chapter 1): second and minute events, the weekly refill trigger and TIME_SET; with DOZE_WAKE_DUE
(R43) and STABLE_CLEAR (R25), the Street Loop Controller's work of those events. -/

namespace Sys2Proof.Machine

/-! ### Second and minute events (R1, R2, R3) -/

/-- A second event leaves wall time at the refill minute, second 0 (R8). -/
def atRefillMinute (w : WallTime) (refillMinute : Nat) : Bool := w.valid && w.minute == refillMinute && w.second == 0

/-- What the blocks are told at a second event (R1, R2; log 4). -/
def Told.second (refill minute : Bool) (t : Told) : Told :=
  { t with decision := true, close := true, service := true, doze := true, refill := t.refill || refill,
           minutes := if minute then t.minutes + 1 else t.minutes }

/-- A second event (R1, R3): the clocks advance and the blocks are told. -/
def secondEvent (s : State) : State :=
  let minute := decide (60 ≤ s.tk.subMinute + 1)
  let wall := s.tk.wall.tick
  let refill := atRefillMinute wall s.tp.effective.refillMinute
  { s with tk := { s.tk with seconds := s.tk.seconds + 1
                             subMinute := if minute then 0 else s.tk.subMinute + 1
                             wall := wall
                             told := s.tk.told.second refill minute } }

/-- What the blocks are told at a minute event (R2; log 4). -/
def Told.minute (t : Told) : Told :=
  { t with minutes := t.minutes - 1, stale := true, stableClear := true, roundExpiry := true, summary := true }

/-- The minutes since the last SUMMARY at a minute event (R204): held at 0 while the interval is 0. -/
def TrunkPort.minute (t : TrunkPort) : TrunkPort :=
  { t with sinceSummary := if t.effective.summaryInterval = 0 then 0 else t.sinceSummary + 1 }

/-- A minute event (R2), which a second event has made due: uptime, the time-to-full decrement (R72, R96) and the minutes since the
last SUMMARY (R204); the other per-minute work is told. -/
def minuteEvent (s : State) : State :=
  if s.tk.told.minutes = 0 then s
  else
    let s := { s with
      tk := { s.tk with uptime := s.tk.uptime + 1, told := s.tk.told.minute }
      tp := s.tp.minute }
    countDown s

/-! ### The weekly refill (R8, R9) -/

/-- The refill trigger evaluated at a day number (R8, R9). -/
def evaluateRefill (day : Nat) (s : State) : State :=
  if refillDue s.tk.lastRefill day then refillAccounts { s with tk.lastRefill := some day } else s

/-- The refill trigger of a second event (R8). Commits that the close limit makes on the same event come first (R146; log 5). -/
def refillTrigger (s : State) : State :=
  if !s.tk.told.refill then s
  else
    let s := { s with tk.told.refill := false }
    let s := if s.tk.told.close then expireDeposits { s with tk.told.close := false } else s
    if s.tk.wall.valid then evaluateRefill s.tk.wall.day s else s

/-! ### TIME_SET (R6, R7, R9) -/

/-- Wall time written, and the trigger evaluated after a forward jump that passed the refill minute (R6, R7, R9). -/
def setWall (new : WallTime) (s : State) : State :=
  let old := s.tk.wall
  let s := { s with tk.wall := new }
  if old.valid && forwardJump old new && jumpPassed old new s.tp.effective.refillMinute then evaluateRefill new.day s else s

/-- TIME_SET (R6). -/
def timeSetCommand (tag : Byte) (payload : List Byte) : State → State :=
  takeCommand .timeSet tag (timeSetArgs payload) false fun args s =>
    if 10079 < args.minute ∨ 59 < args.second then answer .timeSet tag .badField s
    else answer .timeSet tag .ok (setWall { valid := true, day := args.day, minute := args.minute, second := args.second } s)

/-! ### Stations -/

/-- A DOZING row whose next wake second is reached becomes due (R43). -/
def StationRow.becomeDue (now : Clock) (r : StationRow) : StationRow :=
  if r.state = .dozing ∧ r.wakeReached now then { r with due := true } else r

/-- The stable clear of one row (R25). -/
def StationRow.stableClear (uptime : Clock) (hours : Nat) (r : StationRow) : StationRow :=
  if (r.state = .awake ∨ r.state = .dozing) ∧ 0 < r.rejoin ∧ hours ≠ 0 ∧ 60 * hours ≤ elapsed uptime r.stableSince then
    { r with rejoin := 0 }
  else r

/-! ### Commands -/

/-- SECOND_EVENT (R1). -/
def execSecondEvent (s : State) : Host.Outcome State Fault Refusal := whenRunning secondEvent s

/-- MINUTE_EVENT (R2). -/
def execMinuteEvent (s : State) : Host.Outcome State Fault Refusal := whenRunning minuteEvent s

/-- REFILL_TRIGGER (R8). -/
def execRefillTrigger (s : State) : Host.Outcome State Fault Refusal := whenRunning refillTrigger s

/-- TIME_SET (R6). -/
def execTimeSet (tag : Byte) (payload : List Byte) (s : State) : Host.Outcome State Fault Refusal :=
  whenRunning (timeSetCommand tag payload) s

/-- DOZE_WAKE_DUE (R43), the Street Loop Controller's work of a second event. -/
def execDozeWakeDue (s : State) : Host.Outcome State Fault Refusal :=
  whenRunning (fun s =>
    if s.tk.told.doze then
      let s := { s with tk.told.doze := false }
      { s with slc.rows := s.slc.rows.map (StationRow.becomeDue s.tk.seconds) }
    else s) s

/-- STABLE_CLEAR (R25), the Street Loop Controller's work of a minute event. -/
def execStableClear (s : State) : Host.Outcome State Fault Refusal :=
  whenRunning (fun s =>
    if s.tk.told.stableClear then
      let s := { s with tk.told.stableClear := false }
      { s with slc.rows := s.slc.rows.map (StationRow.stableClear s.tk.uptime s.tp.effective.stableClearTime) }
    else s) s

end Sys2Proof.Machine
end

