-- ==== Sys2Proof/Machine/Street.lean ====
section
/-! DEFINITION. The Street Loop Controller (chapters 2 and 3): the poll arbiter, failed transmissions, misses and losses, answers,
joins, open slots, and the commands of the street loop. -/

namespace Sys2Proof.Machine

/-! ### The poll arbiter (R40 to R43) -/

/-- The addresses in the order that follows one of them, passing from 62 to 1 and ending with it (R41, R42). -/
def addressesAfter (last : Station) : List Station :=
  (List.finRange 62).filter (fun a => decide (last < a)) ++ (List.finRange 62).filter (fun a => decide (a ≤ last))

/-- The first row after an address that passes a test (R41, R42). -/
def firstAfter (s : State) (last : Station) (p : StationRow → Bool) : Option Station :=
  (addressesAfter last).find? fun a => p (s.slc.rows.get a)

/-- The due DOZING row that was reached earliest, the lowest address among equals (R42, R43). -/
def dueRow (s : State) : Option Station :=
  (List.finRange 62).foldl (init := none) fun best a =>
    if (s.slc.rows.get a).isDue s.tk.seconds then
      match best with
      | none => some a
      | some b =>
        if elapsed s.tk.seconds (s.slc.rows.get b).wake < elapsed s.tk.seconds (s.slc.rows.get a).wake then some a else some b
    else best

/-- A turn as the arbiter chooses it (R40). -/
inductive Choice where
  | openSlot
  | attention (a : Station)
  | due (a : Station)
  | ring (a : Station)
deriving DecidableEq, Repr

/-- The spacing of open slots (R40). -/
def slotSpacing (s : State) : Nat := if s.slc.contention then 2 else s.tp.effective.openSlotSpacing

/-- A routine turn's choice (R42). -/
def chooseRoutine (s : State) : Option Choice :=
  match dueRow s with
  | some a => some (.due a)
  | none => (firstAfter s s.slc.lastRoutine StationRow.inRing).map .ring

/-- The arbiter's choice (R40). -/
def chooseTurn (s : State) : Choice :=
  if slotSpacing s ≤ s.slc.sinceOpen then .openSlot
  else match firstAfter s s.slc.lastAttention StationRow.member with
  | some a =>
    match chooseRoutine s with
    | some routine => if s.slc.streak < s.tp.effective.streakLimit then .attention a else routine
    | none => .attention a
  | none => (chooseRoutine s).getD .openSlot

/-- What a poll to a row carries (R39). -/
def pollLoad (r : StationRow) : PollLoad :=
  match r.state with
  | .joining => .accept (r.serial.getD 0)
  | _ => match r.queue with
    | q :: _ => .command q
    | [] => .nothing

/-- A poll turn begun (R36, R38, R54): its first transmission is counted and the retry limit read. -/
def startPoll (a : Station) (s : State) : State :=
  let load := pollLoad (s.slc.rows.get a)
  let p : Poll := { address := a, load := load, standing := true, retries := s.tp.effective.retryLimit }
  { s with slc := { s.slc with turn := some (.poll p), polls := bump s.slc.polls } }

/-- A chosen turn begun (R40, R41, R42). -/
def startTurn (c : Choice) (s : State) : State :=
  match c with
  | .openSlot => { s with slc := { s.slc with turn := some .openSlot, sinceOpen := 0 } }
  | .attention a => startPoll a { s with slc := { s.slc with lastAttention := a, streak := min 7 (s.slc.streak + 1) } }
  | .due a => startPoll a { s with slc.streak := 0 }
  | .ring a => startPoll a { s with slc := { s.slc with lastRoutine := a, streak := 0 } }

/-- The next turn, when the part is READY and no turn is on the loop (R36, R40; log 8). -/
def startNextTurn (s : State) : State :=
  if s.rmi.restoring || s.slc.turn.isSome then s else startTurn (chooseTurn s) s

/-! ### Turn ends -/

/-- A poll turn ended (R40). -/
def endPoll (s : State) : State :=
  { s with slc := { s.slc with turn := none, sinceOpen := min 32 (s.slc.sinceOpen + 1) } }

/-- An open slot ended, with the contention flag it leaves (R46). -/
def endSlot (contention : Bool) (s : State) : State :=
  { s with slc := { s.slc with turn := none, contention := contention } }

/-! ### Station events (R33) -/

/-- A STATION_EVENT about a row, stamped and with the row's serial and rejoin count after the event (R33). -/
def rowEvent (event : StationEventKind) (a : Station) (kind : Option JoinKind) (cause : Option JoinCause)
    (notPersisted : Option Bool) (s : State) : State :=
  let r := s.slc.rows.get a
  postReport (.station { event := event, address := some a, serial := r.serial, joinKind := kind, cause := cause,
                         result := some r.state, rejoin := some r.rejoin, notPersisted := notPersisted, stamp := s.stamp }) s

/-! ### Misses and loss (R22, R28, R29) -/

/-- A row lost (R29). -/
def loseStation (a : Station) (s : State) : State :=
  let s := emptyDown a (setStation a (fun r => { r with state := .lost, raised := false, due := false }) s)
  settleStation false a (rowEvent .lost a none none none s)

/-- A join that was not confirmed (R22). -/
def joinTimeout (a : Station) (s : State) : State :=
  let s := setStation a (fun r => { r with state := .absent, miss := 0, joinPrior := none }) s
  rowEvent .joinTimeout a none (s.slc.rows.get a).joinCause (some (s.slc.rows.get a).joinUnwritten) s

/-- A missed poll of a row in service (R28). -/
def countMiss (a : Station) (s : State) : State :=
  let s := setStation a (fun r => { r with miss := r.miss + 1 }) s
  if s.tp.effective.missLimit ≤ (s.slc.rows.get a).miss then loseStation a s
  else setStation a (fun r => { r with state := .silent }) s

/-- A missed poll handed to its row (R28, R45). -/
def missPoll (a : Station) (s : State) : State :=
  if !(s.slc.rows.get a).state.polled then s
  else
    let s := setStation a (fun r => { r with raised := false, due := false }) s
    match (s.slc.rows.get a).state with
    | .joining => joinTimeout a s
    | .awake | .dozing | .silent => countMiss a s
    | _ => s

/-- A failed transmission of a poll (R38, R54): a retry at once, or a missed turn. -/
def failPoll (p : Poll) (s : State) : State :=
  let s := { s with slc.noAnswers := bump s.slc.noAnswers }
  match p.retries with
  | n + 1 => { s with slc := { s.slc with turn := some (.poll { p with retries := n }), polls := bump s.slc.polls } }
  | 0 => missPoll p.address (endPoll s)

/-! ### Joins (R18 to R21) -/

/-- A row made AWAKE with stable-since set (R21, R27). -/
def StationRow.wake' (uptime : Clock) (r : StationRow) : StationRow :=
  { r with state := .awake, awakeSince := true, stableSince := uptime }

/-- The kind of a completed join (R21). -/
def joinKindOf (r : StationRow) : JoinKind :=
  if !r.awakeSince then .first
  else match r.joinPrior with
    | some .awake | some .dozing => .restart
    | _ => .comeback

/-- A row whose JOIN_ACCEPT is answered (R21). -/
def StationRow.completeJoin (uptime : Clock) (limit : Nat) (r : StationRow) : StationRow :=
  let kind := joinKindOf r
  let r := { r with lastJoin := some kind, joinPrior := none, miss := 0 }
  match kind with
  | .first => r.wake' uptime
  | _ =>
    let r := { r with rejoin := r.rejoin + 1 }
    if r.rejoin = limit then { r with state := .barred, raised := false } else r.wake' uptime

/-- A join completed (R21). -/
def completeJoin (a : Station) (s : State) : State :=
  let s := setStation a (StationRow.completeJoin s.tk.uptime s.tp.effective.rejoinLimit) s
  let r := s.slc.rows.get a
  rowEvent .joined a r.lastJoin r.joinCause (some r.joinUnwritten) s

/-- A row that can be auto-bound (R18). -/
def canAutoBind (s : State) (a : Station) : Bool :=
  let r := s.slc.rows.get a
  !r.pinned && r.serial.isNone && !(boundTo s a).isEmpty && (r.state == .absent || r.state == .lost)

/-- A serial auto-bound to a row, with its write-through when the queue has a place and the memory is present (R18, R179). The row
remembers whether the serial was left unwritten (log 31). -/
def autoBind (a : Station) (serial : Serial) (s : State) : State :=
  let unwritten := s.rmi.absent || writesFull s
  let s := setStation a (fun r => { r with serial := some serial, awakeSince := false, joinUnwritten := unwritten }) s
  if unwritten then s else queueWrite (.record (.station a) (recordOf (.station a) s) []) none s

/-- A row enters JOINING (R19, R20). -/
def enterJoining (a : Station) (cause : JoinCause) (s : State) : State :=
  let prior := (s.slc.rows.get a).state
  let s := setStation a (fun r => { r with joinPrior := some prior, joinCause := some cause, state := .joining, miss := 0,
                                            raised := false, due := false }) s
  let s := emptyDown a s
  match prior with
  | .awake | .dozing => settleStation true a s
  | .silent => settleStation false a s
  | _ => s

/-- An announce taken by its row's state (R18). -/
def announceAt (a : Station) (cause : JoinCause) (s : State) : State :=
  match (s.slc.rows.get a).state with
  | .barred => { s with slc.ignoredJoins := bump s.slc.ignoredJoins }
  | .joining => setStation a (fun r => { r with joinCause := some cause }) s
  | .absent | .awake | .dozing | .silent | .lost => enterJoining a cause s
  | .unbound => s

/-- The STATION_EVENT of an unknown serial (R18, R33). -/
def unknownSerial (serial : Serial) (cause : JoinCause) (s : State) : State :=
  postReport (.station { event := .unknownSerial, address := none, serial := some serial, joinKind := none, cause := some cause,
                         result := none, rejoin := none, notPersisted := none, stamp := s.stamp }) s

/-- A JOIN_ANNOUNCE taken in an open slot (R18). -/
def takeAnnounce (serial : Serial) (cause : JoinCause) (s : State) : State :=
  match s.slc.rows.find fun r => r.serial == some serial with
  | some a =>
    let keep := (s.slc.rows.get a).state == .joining || (s.slc.rows.get a).state == .barred
    announceAt a cause (setStation a (fun r => { r with joinUnwritten := keep && r.joinUnwritten }) s)
  | none =>
    match (List.finRange 62).find? (canAutoBind s) with
    | some a => announceAt a cause (autoBind a serial s)
    | none => unknownSerial serial cause s

/-! ### Open slots (R46, R47) -/

/-- An ATTENTION taken by its row's state (R47, R31). -/
def takeAttention (a : Station) (s : State) : State :=
  match (s.slc.rows.get a).state with
  | .awake | .silent | .absent => setStation a (fun r => { r with raised := true }) s
  | .dozing => setStation a (fun r => { r with state := .awake, awakeSince := true, raised := true, due := false }) s
  | .joining | .lost | .barred | .unbound => s

/-- A garbled open slot (R46, R54). -/
def garbledSlot (s : State) : State :=
  let s := endSlot true s
  { s with slc.collisions := bump s.slc.collisions }

/-- An open slot that ends with an ATTENTION frame; an address outside 1..62 makes it silent (R46). -/
def slotAttention (address : Byte) (s : State) : State :=
  match station? address.toNat with
  | some a => takeAttention a (endSlot false s)
  | none => endSlot false s

/-- An open slot that ends with a valid upward frame (R46, R209). -/
def slotFrame (f : UpFrame) (s : State) : State :=
  match f.item with
  | .attention => slotAttention f.address s
  | .joinAnnounce serial cause => if f.address = 0 then takeAnnounce serial cause (endSlot false s) else endSlot false s
  | _ => endSlot false s

/-- An open slot that ends with bytes in its window (R46, R209). -/
def slotBytes (bytes : List Byte) (s : State) : State :=
  match bytes with
  | [] => endSlot false s
  | _ => match readUpward bytes with
    | .frame f => slotFrame f s
    | .unknown => endSlot false s
    | .garbled => garbledSlot s

/-! ### Answers (R27, R30, R31, R52) -/

/-- A DOZE_NOTICE's effect on its row (R30): the interval is clamped to 10..3600. -/
def StationRow.doze' (now : Clock) (interval : Nat) (r : StationRow) : StationRow :=
  let interval := max 10 (min 3600 interval)
  { r with state := .dozing, doze := interval, wake := now + BitVec.ofNat 32 interval }

/-- A DOZING row's answer (R31); `rest` says that the answer keeps it DOZING. -/
def StationRow.answerDozing (now : Clock) (rest : Bool) (r : StationRow) : StationRow :=
  if rest then { r with wake := now + BitVec.ofNat 32 r.doze } else { r with state := .awake, awakeSince := true }

/-- The row's state at an answer (R27, R31, R21): the first part of R52. -/
def answerState (rest : Bool) (a : Station) (s : State) : State :=
  let s := setStation a (fun r => { r with miss := 0, due := false }) s
  match (s.slc.rows.get a).state with
  | .absent => rowEvent .resumed a none none none (setStation a (StationRow.wake' s.tk.uptime) s)
  | .silent => setStation a (StationRow.wake' s.tk.uptime) s
  | .dozing => setStation a (StationRow.answerDozing s.tk.seconds rest) s
  | .joining => completeJoin a s
  | .awake | .unbound | .lost | .barred => s

/-- The carried command delivered (R49). -/
def deliver (p : Poll) (s : State) : State :=
  match p.load, p.standing with
  | .command q, true =>
    let s := setStation p.address (fun r => { r with queue := r.queue.tail }) s
    match q.command with
    | .grant bay tag => grantDelivered p.address bay tag s
    | _ => s
  | _, _ => s

/-- The raised mark of an answer (R45); a row that the answer has made BARRED keeps it clear (log 19). -/
def markRaised (more : Bool) (a : Station) (s : State) : State :=
  setStation a (fun r => { r with raised := more && r.state != .barred }) s

/-- An answered poll turn, as one event (R52, R53). `rest` says that the item keeps a DOZING row DOZING; `item` hands the item to
its block, unless the join has made the row BARRED (R21). -/
def answerPoll (p : Poll) (flags : Byte) (rest : Bool) (item : Station → State → State) (s : State) : State :=
  let s := endPoll s
  if !(s.slc.rows.get p.address).state.polled then s
  else
    let s := markRaised (morePending flags) p.address (deliver p (answerState rest p.address s))
    if (s.slc.rows.get p.address).state = .barred then s else item p.address s

/-- A LEVEL_SAMPLE at the Fill Tracker (R59). -/
def levelSample (a : Station) (bay : Byte) (echo : BitVec 16) (temperature : BitVec 8) (lidOpen : Bool) (s : State) : State :=
  match containerAt s a bay.toNat with
  | none => s
  | some r => sampleEvent r echo.toNat temperature.toInt lidOpen s

/-- A PASS_UP item posted as a report (R197), its containers in row index order (log 40). -/
def passUp (a : Station) (bytes : List Byte) (s : State) : State :=
  let containers := ((boundTo s a).filterMap fun r => (configOf s r).map fun c => (c.number, c.bay)).take 4
  postReport (.passUp { station := a, serial := (s.slc.rows.get a).serial, containers := containers, bytes := bytes,
                        stamp := s.stamp }) s

/-- A VEHICLE item's LIFT_REQUEST at the Round Manager: a ROUND_END when its container number is FFFFFFFFh (R154). -/
def vehicleRequest (a : Station) (vehicle round : Short) (container : Number) (s : State) : State :=
  if container = 0xFFFFFFFF then roundEnd a vehicle round s else liftRequest a vehicle round container s

/-- A DOZE_NOTICE item (R30). -/
def dozeNotice (a : Station) (interval : Short) (s : State) : State :=
  setStation a (StationRow.doze' s.tk.seconds interval.toNat) s

/-- An answer that keeps a DOZING row DOZING (R31): NOTHING without the more-pending flag, or a DOZE_NOTICE. -/
def UpItem.rests (flags : Byte) : UpItem → Bool
  | .nothing => !morePending flags
  | .dozeNotice _ => true
  | _ => false

/-- An item handed to its block (R51). -/
def handItem (item : UpItem) (a : Station) (s : State) : State :=
  match item with
  | .nothing => s
  | .depositRequest bay card tag => depositRequest a bay card tag s
  | .depositClose bay outcome => depositClose a bay outcome s
  | .levelSample bay echo temperature lidOpen => levelSample a bay echo temperature lidOpen s
  | .liftRequest vehicle round container => vehicleRequest a vehicle round container s
  | .liftDone vehicle container weight lock => liftDone a vehicle container weight lock s
  | .dozeNotice interval => dozeNotice a interval s
  | .passUp bytes => passUp a bytes s
  | .attention => s
  | .joinAnnounce _ _ => s

/-- An item of a kind that only an open slot takes (R209). -/
def UpItem.slotOnly : UpItem → Bool
  | .attention | .joinAnnounce _ _ => true
  | _ => false

/-- A poll's answer window that ends with a valid upward frame (R37, R209). -/
def pollFrame (p : Poll) (f : UpFrame) (s : State) : State :=
  if f.address.toNat = addressOf p.address ∧ !f.item.slotOnly then
    answerPoll p f.flags (f.item.rests f.flags) (handItem f.item) s
  else failPoll p s

/-- A poll's answer window that ends with bytes (R37, R209). -/
def pollBytes (p : Poll) (bytes : List Byte) (s : State) : State :=
  match readUpward bytes with
  | .frame f => pollFrame p f s
  | .unknown => failPoll p s
  | .garbled => failPoll p s

/-- What arrives in a turn's window: `poll` for a poll turn, `slot` for an open slot; with no turn on the loop nothing is taken
(R53; log 27). -/
def onTurn (poll : Poll → State → State) (slot : State → State) (s : State) : State :=
  match s.slc.turn with
  | none => s
  | some .openSlot => slot s
  | some (.poll p) => poll p s

/-- Bytes of a frame that arrived in a turn's window (R209). -/
def loopBytes (bytes : List Byte) : State → State :=
  onTurn (fun p => pollBytes p bytes) (slotBytes bytes)

/-- A well-formed frame with the polled address and an item of the kinds 00h to 06h: an answer in a poll turn, a silent slot in an
open slot (R46, R52; log 27). -/
def loopAnswer (flags : Byte) (item : UpItem) : State → State :=
  onTurn (fun p => answerPoll p flags (item.rests flags) (handItem item)) (endSlot false)

/-! ### Commands -/

/-- LOOP_TURN_START (R40). -/
def execLoopTurnStart (s : State) : Host.Outcome State Fault Refusal := whenRunning startNextTurn s

/-- RESPONSE_WINDOW_EXPIRY (R37, R46): no byte has arrived. -/
def execResponseWindowExpiry (s : State) : Host.Outcome State Fault Refusal :=
  whenRunning (onTurn failPoll (endSlot false)) s

/-- LOOP_BYTE_GAP_TIMEOUT (R37, R46): a gap inside what arrived. -/
def execLoopByteGapTimeout (s : State) : Host.Outcome State Fault Refusal :=
  whenRunning (onTurn failPoll garbledSlot) s

/-- POLL_ANSWER_GARBLED (R37): the bytes that arrived, judged by R209. -/
def execPollAnswerGarbled (bytes : List Byte) (s : State) : Host.Outcome State Fault Refusal :=
  whenRunning (loopBytes bytes) s

/-- OPEN_SLOT_GARBLED (R46): the bytes that arrived, judged by R209. -/
def execOpenSlotGarbled (bytes : List Byte) (s : State) : Host.Outcome State Fault Refusal :=
  whenRunning (loopBytes bytes) s

/-- OPEN_SLOT_SILENT_FRAME (R46): the bytes that arrived, judged by R209. -/
def execOpenSlotSilentFrame (bytes : List Byte) (s : State) : Host.Outcome State Fault Refusal :=
  whenRunning (loopBytes bytes) s

/-- ATTENTION (R47); in a poll turn it is no answer (R209). -/
def execAttention (address : Byte) (s : State) : Host.Outcome State Fault Refusal :=
  whenRunning (onTurn failPoll (slotAttention address)) s

/-- JOIN_ANNOUNCE (R18); in a poll turn it is no answer (R209). -/
def execJoinAnnounce (serial : Serial) (cause : JoinCause) (s : State) : Host.Outcome State Fault Refusal :=
  whenRunning (onTurn failPoll fun s => takeAnnounce serial cause (endSlot false s)) s

/-- ANSWER_NOTHING (R52). -/
def execAnswerNothing (flags : Byte) (s : State) : Host.Outcome State Fault Refusal :=
  whenRunning (loopAnswer flags .nothing) s

/-- DOZE_NOTICE (R30). -/
def execDozeNotice (flags : Byte) (interval : Short) (s : State) : Host.Outcome State Fault Refusal :=
  whenRunning (loopAnswer flags (.dozeNotice interval)) s

/-- DEPOSIT_REQUEST (R123). -/
def execDepositRequest (flags bay : Byte) (card : Number) (tag : Byte) (s : State) : Host.Outcome State Fault Refusal :=
  whenRunning (loopAnswer flags (.depositRequest bay card tag)) s

/-- DEPOSIT_CLOSE (R140). -/
def execDepositClose (flags bay : Byte) (outcome : CloseOutcome) (s : State) : Host.Outcome State Fault Refusal :=
  whenRunning (loopAnswer flags (.depositClose bay outcome)) s

/-- LEVEL_SAMPLE (R59). -/
def execLevelSample (flags bay : Byte) (echo : BitVec 16) (temperature : BitVec 8) (lidOpen : Bool) (s : State) :
    Host.Outcome State Fault Refusal :=
  whenRunning (loopAnswer flags (.levelSample bay echo temperature lidOpen)) s

/-- LIFT_REQUEST (R155); with the container number FFFFFFFFh it is a ROUND_END (R154). -/
def execLiftRequest (flags : Byte) (vehicle round : Short) (container : Number) (s : State) :
    Host.Outcome State Fault Refusal :=
  whenRunning (loopAnswer flags (.liftRequest vehicle round container)) s

/-- ROUND_END (R164): a LIFT_REQUEST whose container number is FFFFFFFFh (R154). -/
def execRoundEnd (flags : Byte) (vehicle round : Short) (s : State) : Host.Outcome State Fault Refusal :=
  whenRunning (loopAnswer flags (.liftRequest vehicle round 0xFFFFFFFF)) s

/-- LIFT_DONE (R161). -/
def execLiftDone (flags : Byte) (vehicle : Short) (container : Number) (weight : Short) (lock : LockState) (s : State) :
    Host.Outcome State Fault Refusal :=
  whenRunning (loopAnswer flags (.liftDone vehicle container weight lock)) s

/-- PASS_UP (R197): 1 to 32 bytes; any other length is no valid frame (R209). -/
def execPassUp (flags : Byte) (bytes : List Byte) (s : State) : Host.Outcome State Fault Refusal :=
  whenRunning (if 1 ≤ bytes.length ∧ bytes.length ≤ 32 then loopAnswer flags (.passUp bytes) else onTurn failPoll garbledSlot) s

end Sys2Proof.Machine
end

