-- ==== Sys2Proof/Machine/Reset.lean ====
section
/-! DEFINITION. Resets (R12, R198, R199), the transmitter (R201) and the SUMMARY (R204), with their commands. -/

namespace Sys2Proof.Machine

/-! ### COLD -/

/-- The memory operation on the port abandoned (R187): a write that was on the port leaves `cut` (log 29). -/
def abandonPort (cut : Residue) (s : State) : State :=
  match activeWrite s with
  | some e => { s with memory := s.memory.writeCut (e.body.units s.memory) cut }
  | none => s

/-- The reset pin or power holds the part (R12). -/
def holdCold (cut : Residue) (s : State) : State := (abandonPort cut s).cold .pinOrPower .pin s.straps

/-- The release of the pin (R181): the straps are read; the blocks stand at their COLD values, RESTORING. -/
def releaseCold (straps : Straps) (s : State) : State :=
  match s.hold with
  | .pin => { s with hold := .running, straps := straps }
  | .running | .trunkFull => s

/-! ### TRAFFIC (R198) -/

/-- A station row at a TRAFFIC reset (R35, R56). -/
def StationRow.traffic (r : StationRow) : StationRow :=
  { r with state := (match r.state with
             | .joining => .absent
             | state => state)
           miss := 0, joinPrior := none, queue := [], raised := false }

/-- The Street Loop Controller at a TRAFFIC reset (R35, R53, R56). -/
def StreetLoop.traffic (u : StreetLoop) : StreetLoop :=
  { rows := u.rows.map StationRow.traffic, turn := none, sinceOpen := 32, contention := false, streak := 0, lastAttention := 61,
    lastRoutine := 61, polls := 0, noAnswers := 0, collisions := 0, ignoredJoins := 0 }

/-- The Card Lookup Unit at a TRAFFIC reset (R120). -/
def CardLookup.traffic (u : CardLookup) : CardLookup :=
  { u.flush with missList := [], slotWait := [], hits := 0, misses := 0, memoryErrors := 0 }

/-- The Admission Unit at a TRAFFIC reset, before its commits (R148). -/
def AdmissionUnit.traffic (u : AdmissionUnit) : AdmissionUnit :=
  { u with requests := [], grants := 0, denials := 0, releases := 0, ignoredCloses := 0 }

/-- A fetch on the port at a TRAFFIC reset is discarded when it ends (R120). -/
def PortOp.discard : PortOp → PortOp
  | .fetch b _ => .fetch b true
  | op => op

/-- The Record Memory Interface at a TRAFFIC reset (R187). -/
def RecordMemory.traffic (u : RecordMemory) : RecordMemory := { u with port := u.port.map PortOp.discard, fetchRun := 0 }

/-- The Trunk Port at a TRAFFIC reset (R198, R206): waiting reports go, REPLYs stay. -/
def TrunkPort.traffic (t : TrunkPort) : TrunkPort :=
  { t with waiting := t.waiting.filter (·.isReply), crcErrors := 0, droppedReports := 0, commandOverruns := 0 }

/-- Every block's TRAFFIC values (R198). -/
def trafficValues (s : State) : State :=
  { s with slc := s.slc.traffic, clu := s.clu.traffic, au := s.au.traffic, rmi := s.rmi.traffic, tp := s.tp.traffic }

/-- Every open deposit committed, in row index order (R148). -/
def commitAll (s : State) : State := (List.finRange 192).foldl (fun s r => commitDeposit false r s) s

/-- RESET with scope TRAFFIC (R198). -/
def resetTrafficCommand (tag : Byte) (rest : List Byte) : State → State :=
  takeCommand .reset tag (noArgs rest) true fun _ s =>
    if s.rmi.restoring then answer .reset tag .ok s else commitAll (answer .reset tag .ok (trafficValues s))

/-! ### FULL (R199) -/

/-- The upstream queue at a FULL reset: what has not begun is discarded with every reservation; one place for the REPLY. -/
def TrunkPort.shut (t : TrunkPort) : TrunkPort := { t with receiver := .hunt, waiting := [], reserved := 1 }

/-- RESET with scope FULL (R199): the blocks hold from the taking, and take their COLD values when the REPLY has been sent. -/
def resetFullCommand (tag : Byte) (rest : List Byte) (cut : Residue) : State → State :=
  takeCommand .reset tag (noArgs rest) true fun _ s =>
    let s := abandonPort cut s
    answer .reset tag .ok
      { s with hold := .trunkFull, slc.turn := none, tp := s.tp.shut, rmi := { s.rmi with port := none, queue := [] } }

/-- The last byte of a FULL reset's REPLY has been sent (R199): COLD values, and the restore begins (log 28). -/
def fullResetReplySent (straps : Straps) (s : State) : State :=
  match s.hold, s.tp.line, s.tp.waiting with
  | .trunkFull, some _, [] => s.cold .trunkFull .running straps
  | _, _, _ => s

/-! ### The transmitter (R201) -/

/-- The entry on the line has been sent: it leaves, and the next begins (R201). -/
def TrunkPort.sent (t : TrunkPort) : TrunkPort :=
  match t.waiting with
  | e :: rest => { t with line := some e, waiting := rest }
  | [] => { t with line := none }

/-- UPSTREAM_FRAME_SENT (R201). While a FULL reset's REPLY is the last entry, its end is FULL_RESET_REPLY_SENT. -/
def frameSent (s : State) : State :=
  match s.hold with
  | .running => { s with tp := s.tp.sent }
  | .trunkFull => if s.tp.waiting.isEmpty then s else { s with tp := s.tp.sent }
  | .pin => s

/-! ### The SUMMARY (R204) -/

/-- The service queue head a SUMMARY carries (R98). -/
def queueHead (s : State) : List (Number × Nat × FillState) :=
  (s.ft.queue.take 4).filterMap fun r => (configOf s r).map fun c => (c.number, (fillOf s r).ttf, (fillOf s r).fill)

/-- The SUMMARY as the counts stand (R204). -/
def summaryOf (s : State) : SummaryReport :=
  { grants := s.au.grants, denials := s.au.denials, releases := s.au.releases, ignoredCloses := s.au.ignoredCloses,
    polls := s.slc.polls, noAnswers := s.slc.noAnswers, collisions := s.slc.collisions, ignoredJoins := s.slc.ignoredJoins,
    hits := s.clu.hits, misses := s.clu.misses, memoryErrors := s.clu.memoryErrors, crcErrors := s.tp.crcErrors,
    droppedReports := s.tp.droppedReports, commandOverruns := s.tp.commandOverruns, head := queueHead s,
    interval := s.tp.effective.summaryInterval, stamp := s.stamp }

/-- Every count that a SUMMARY carries set to 0 (R204). -/
def clearCounts (s : State) : State :=
  { s with
    slc := { s.slc with polls := 0, noAnswers := 0, collisions := 0, ignoredJoins := 0 }
    clu := { s.clu with hits := 0, misses := 0, memoryErrors := 0 }
    au := { s.au with grants := 0, denials := 0, releases := 0, ignoredCloses := 0 }
    tp := { s.tp with crcErrors := 0, droppedReports := 0, commandOverruns := 0 } }

/-- A SUMMARY posted (R204): the counts are cleared when it enters the queue, and run on when it is dropped. -/
def postSummary (s : State) : State :=
  let s := { s with tp.sinceSummary := 0 }
  let entered := decide (s.tp.occupancy < Config.reportPlaces)
  let after := placeReport (.summary (summaryOf s)) s
  if entered then clearCounts after else after

/-- The SUMMARY of a minute event, when the interval has been reached (R204). -/
def summaryDue (s : State) : State :=
  if !s.tk.told.summary then s
  else
    let s := { s with tk.told.summary := false }
    if s.tp.effective.summaryInterval ≠ 0 ∧ s.tp.effective.summaryInterval ≤ s.tp.sinceSummary then postSummary s else s

/-! ### Commands -/

/-- COLD_RESET (R12). It is taken whatever holds the part. -/
def execColdReset (cut : Residue) (s : State) : Host.Outcome State Fault Refusal := .next (holdCold cut s)

/-- COLD_RESET_RELEASE (R181). -/
def execColdResetRelease (straps : Straps) (s : State) : Host.Outcome State Fault Refusal := .next (releaseCold straps s)

/-- RESET with scope TRAFFIC (R198). -/
def execResetTraffic (tag : Byte) (rest : List Byte) (s : State) : Host.Outcome State Fault Refusal :=
  whenRunning (resetTrafficCommand tag rest) s

/-- RESET with scope FULL (R199). -/
def execResetFull (tag : Byte) (rest : List Byte) (cut : Residue) (s : State) : Host.Outcome State Fault Refusal :=
  whenRunning (resetFullCommand tag rest cut) s

/-- FULL_RESET_REPLY_SENT (R199). -/
def execFullResetReplySent (straps : Straps) (s : State) : Host.Outcome State Fault Refusal :=
  .next (fullResetReplySent straps s)

/-- UPSTREAM_FRAME_SENT (R201). -/
def execUpstreamFrameSent (s : State) : Host.Outcome State Fault Refusal := .next (frameSent s)

/-- SUMMARY (R204), the Trunk Port's work of a minute event. -/
def execSummary (s : State) : Host.Outcome State Fault Refusal := whenRunning summaryDue s

end Sys2Proof.Machine
end

