-- ==== Sys2Proof/Machine/Trunk.lean ====
section
/-! DEFINITION. The trunk receiver (R189), the taking of a good frame of any kind (R190, R193), and the commands TRUNK_GAP_TIMEOUT,
TRUNK_CRC_ERROR, TRUNK_BAD_LENGTH and UNKNOWN_KIND. -/

namespace Sys2Proof.Machine

/-! ### A good frame (R190) -/

/-- A frame whose kind or subject names nothing, answered with a status under the kind it carried (R190). -/
def refuseFrame (kind tag : Byte) (status : Status) : State → State :=
  reserveReply fun s => queueReply kind tag status .none s

/-- A QUERY whose subject names nothing (R193): BAD_FIELD, after the checks of R190. -/
def unknownSubject (tag : Byte) : State → State :=
  takeCommand .query tag (some PUnit.unit) false fun _ s => answer .query tag .badField s

/-- A QUERY by its subject (R193). -/
def queryFrame (tag : Byte) (payload : List Byte) : State → State :=
  match payload with
  | [] => refuseFrame CommandKind.query.code tag .badLength
  | subject :: arg =>
    match subject.toNat with
    | 0 => queryStatusCommand tag arg
    | 1 => queryContainerCommand tag arg
    | 2 => queryStationCommand tag arg
    | 3 => queryAccountCommand tag arg
    | 4 => queryRoundCommand tag arg
    | 5 => queryServiceQueueCommand tag arg
    | _ => unknownSubject tag

/-- A RESET by its scope (R198): any other scope is BAD_FIELD. -/
def resetFrame (tag : Byte) (payload : List Byte) (cut : Residue) : State → State :=
  match payload with
  | [] => refuseFrame CommandKind.reset.code tag .badLength
  | scope :: rest =>
    match scope.toNat with
    | 0 => resetTrafficCommand tag rest
    | 1 => resetFullCommand tag rest cut
    | _ => takeCommand .reset tag (noArgs rest) true fun _ s => answer .reset tag .badField s

/-- A good frame taken by its kind (R190, R207). `cut` is what a write that a FULL reset abandons has left. -/
def takeFrame (kind tag : Byte) (payload : List Byte) (cut : Residue) : State → State :=
  match kind.toNat with
  | 0x01 => timeSetCommand tag payload
  | 0x02 => paramPutCommand tag payload
  | 0x03 => profilePutCommand tag payload
  | 0x04 => containerPutCommand tag payload
  | 0x05 => containerDropCommand tag payload
  | 0x06 => stationPutCommand tag payload
  | 0x07 => stationDropCommand tag payload
  | 0x08 => stationClearCommand tag payload
  | 0x09 => windowPutCommand tag payload
  | 0x0A => classPutCommand tag payload
  | 0x0B => costPutCommand tag payload
  | 0x0C => cardPutCommand tag payload
  | 0x0D => cardDropCommand tag payload
  | 0x0E => accountPutCommand tag payload
  | 0x0F => roundLoadCommand tag payload
  | 0x10 => roundCancelCommand tag payload
  | 0x11 => holdClearCommand tag payload
  | 0x12 => cacheFlushCommand tag payload
  | 0x13 => passDownCommand tag payload
  | 0x14 => queryFrame tag payload
  | 0x15 => resetFrame tag payload cut
  | _ => refuseFrame kind tag .unknownKind

/-! ### The receiver (R189) -/

/-- The receiver returns to HUNT. -/
def hunt (s : State) : State := { s with tp.receiver := .hunt }

/-- Nothing of an abandoned write has reached the device; what a frame received as bytes leaves (log 29). -/
def Residue.untouched : Residue := { completed := 0, left := [] }

/-- A frame whose second CRC byte has arrived (R189): tested, and taken or counted. -/
def endFrame (len : Byte) (got : List Byte) (crc : List Byte) (s : State) : State :=
  let s := hunt s
  if crc = crcBytes (trunkCrc (len :: got)) then takeFrame (byteAt got 0) (byteAt got 1) (got.drop 2) Residue.untouched s
  else { s with tp.crcErrors := bump s.tp.crcErrors }

/-- One received byte (R189). Bytes that arrive while the part is held are discarded (R199). -/
def rxByte (b : Byte) (s : State) : State :=
  if s.hold ≠ .running then s
  else match s.tp.receiver with
  | .hunt => if b = 0xC3 then { s with tp.receiver := .length } else s
  | .length =>
    { s with tp.receiver := if 2 ≤ b.toNat ∧ b.toNat ≤ 250 then .body b [] else .hunt }
  | .body len got =>
    let got := got ++ [b]
    { s with tp.receiver := if got.length = len.toNat then .check len got none else .body len got }
  | .check len got none => { s with tp.receiver := .check len got (some b) }
  | .check len got (some first) => endFrame len got [first, b] s

/-- Bytes received one after another. -/
def rxBytes (bytes : List Byte) (s : State) : State := bytes.foldl (fun s b => rxByte b s) s

/-! ### Commands -/

/-- TRUNK_GAP_TIMEOUT (R189): the bytes before the gap, and then the receiver in HUNT. -/
def execTrunkGapTimeout (bytes : List Byte) (s : State) : Host.Outcome State Fault Refusal :=
  whenRunning (fun s => let s := rxBytes bytes s; if s.hold = .running then hunt s else s) s

/-- TRUNK_CRC_ERROR (R189): the bytes of the frame as they arrived. -/
def execTrunkCrcError (bytes : List Byte) (s : State) : Host.Outcome State Fault Refusal :=
  whenRunning (rxBytes bytes) s

/-- TRUNK_BAD_LENGTH (R189): the bytes of the frame as they arrived. -/
def execTrunkBadLength (bytes : List Byte) (s : State) : Host.Outcome State Fault Refusal :=
  whenRunning (rxBytes bytes) s

/-- UNKNOWN_KIND (R190). A kind that names a command is taken as that command. -/
def execUnknownKind (kind tag : Byte) (payload : List Byte) (s : State) : Host.Outcome State Fault Refusal :=
  whenRunning (takeFrame kind tag payload Residue.untouched) s

end Sys2Proof.Machine
end

