-- ==== Sys2Proof/Machine/Dispatch.lean ====
section
/-! DEFINITION. One arm for each command of the table. -/

namespace Sys2Proof.Machine

/-- The effect of a command on everything but the queue of waiting commands. -/
def exec (i : Instr) (s : State) : Host.Outcome State Fault Refusal :=
  match i with
  | .coldReset cut => Sys2Proof.Machine.execColdReset cut s
  | .coldResetRelease straps => Sys2Proof.Machine.execColdResetRelease straps s
  | .secondEvent => Sys2Proof.Machine.execSecondEvent s
  | .minuteEvent => Sys2Proof.Machine.execMinuteEvent s
  | .refillTrigger => Sys2Proof.Machine.execRefillTrigger s
  | .decisionLimitExpiry => Sys2Proof.Machine.execDecisionLimitExpiry s
  | .closeLimitExpiry => Sys2Proof.Machine.execCloseLimitExpiry s
  | .serviceTimerExpiry => Sys2Proof.Machine.execServiceTimerExpiry s
  | .dozeWakeDue => Sys2Proof.Machine.execDozeWakeDue s
  | .staleWatch => Sys2Proof.Machine.execStaleWatch s
  | .stableClear => Sys2Proof.Machine.execStableClear s
  | .roundExpiry => Sys2Proof.Machine.execRoundExpiry s
  | .summary => Sys2Proof.Machine.execSummary s
  | .trunkGapTimeout bytes => Sys2Proof.Machine.execTrunkGapTimeout bytes s
  | .trunkCrcError bytes => Sys2Proof.Machine.execTrunkCrcError bytes s
  | .unknownKind kind tag payload => Sys2Proof.Machine.execUnknownKind kind tag payload s
  | .timeSet tag payload => Sys2Proof.Machine.execTimeSet tag payload s
  | .paramPut tag payload => Sys2Proof.Machine.execParamPut tag payload s
  | .profilePut tag payload => Sys2Proof.Machine.execProfilePut tag payload s
  | .containerPut tag payload => Sys2Proof.Machine.execContainerPut tag payload s
  | .containerDrop tag payload => Sys2Proof.Machine.execContainerDrop tag payload s
  | .stationPut tag payload => Sys2Proof.Machine.execStationPut tag payload s
  | .stationDrop tag payload => Sys2Proof.Machine.execStationDrop tag payload s
  | .stationClear tag payload => Sys2Proof.Machine.execStationClear tag payload s
  | .windowPut tag payload => Sys2Proof.Machine.execWindowPut tag payload s
  | .classPut tag payload => Sys2Proof.Machine.execClassPut tag payload s
  | .costPut tag payload => Sys2Proof.Machine.execCostPut tag payload s
  | .accountPut tag payload => Sys2Proof.Machine.execAccountPut tag payload s
  | .cardPut tag payload => Sys2Proof.Machine.execCardPut tag payload s
  | .cardDrop tag payload => Sys2Proof.Machine.execCardDrop tag payload s
  | .cacheFlush tag payload => Sys2Proof.Machine.execCacheFlush tag payload s
  | .roundLoad tag payload => Sys2Proof.Machine.execRoundLoad tag payload s
  | .roundCancel tag payload => Sys2Proof.Machine.execRoundCancel tag payload s
  | .holdClear tag payload => Sys2Proof.Machine.execHoldClear tag payload s
  | .passDown tag payload => Sys2Proof.Machine.execPassDown tag payload s
  | .queryStatus tag arg => Sys2Proof.Machine.execQueryStatus tag arg s
  | .queryContainer tag arg => Sys2Proof.Machine.execQueryContainer tag arg s
  | .queryStation tag arg => Sys2Proof.Machine.execQueryStation tag arg s
  | .queryAccount tag arg => Sys2Proof.Machine.execQueryAccount tag arg s
  | .queryRound tag arg => Sys2Proof.Machine.execQueryRound tag arg s
  | .queryServiceQueue tag arg => Sys2Proof.Machine.execQueryServiceQueue tag arg s
  | .resetTraffic tag rest => Sys2Proof.Machine.execResetTraffic tag rest s
  | .resetFull tag rest cut => Sys2Proof.Machine.execResetFull tag rest cut s
  | .fullResetReplySent straps => Sys2Proof.Machine.execFullResetReplySent straps s
  | .upstreamFrameSent => Sys2Proof.Machine.execUpstreamFrameSent s
  | .portGrant => Sys2Proof.Machine.execPortGrant s
  | .memoryAccessTimeout read left => Sys2Proof.Machine.execMemoryAccessTimeout read left s
  | .identificationReadComplete answer => Sys2Proof.Machine.execIdentificationReadComplete answer s
  | .headerReadComplete read => Sys2Proof.Machine.execHeaderReadComplete read s
  | .restoreRecordReadComplete read => Sys2Proof.Machine.execRestoreRecordReadComplete read s
  | .bucketFetchComplete read => Sys2Proof.Machine.execBucketFetchComplete read s
  | .missSlotPlacement => Sys2Proof.Machine.execMissSlotPlacement s
  | .cardWriteComplete read write => Sys2Proof.Machine.execCardWriteComplete read write s
  | .recordWriteComplete write => Sys2Proof.Machine.execRecordWriteComplete write s
  | .headerWriteComplete write => Sys2Proof.Machine.execHeaderWriteComplete write s
  | .imageFormatComplete write => Sys2Proof.Machine.execImageFormatComplete write s
  | .headerFormatRequeue => Sys2Proof.Machine.execHeaderFormatRequeue s
  | .loopTurnStart => Sys2Proof.Machine.execLoopTurnStart s
  | .responseWindowExpiry => Sys2Proof.Machine.execResponseWindowExpiry s
  | .loopByteGapTimeout => Sys2Proof.Machine.execLoopByteGapTimeout s
  | .pollAnswerGarbled bytes => Sys2Proof.Machine.execPollAnswerGarbled bytes s
  | .openSlotGarbled bytes => Sys2Proof.Machine.execOpenSlotGarbled bytes s
  | .attention address => Sys2Proof.Machine.execAttention address s
  | .joinAnnounce serial cause => Sys2Proof.Machine.execJoinAnnounce serial cause s
  | .answerNothing flags => Sys2Proof.Machine.execAnswerNothing flags s
  | .dozeNotice flags interval => Sys2Proof.Machine.execDozeNotice flags interval s
  | .depositRequest flags bay card tag => Sys2Proof.Machine.execDepositRequest flags bay card tag s
  | .depositClose flags bay outcome => Sys2Proof.Machine.execDepositClose flags bay outcome s
  | .levelSample flags bay echo temperature lidOpen => Sys2Proof.Machine.execLevelSample flags bay echo temperature lidOpen s
  | .liftRequest flags vehicle round container => Sys2Proof.Machine.execLiftRequest flags vehicle round container s
  | .roundEnd flags vehicle round => Sys2Proof.Machine.execRoundEnd flags vehicle round s
  | .liftDone flags vehicle container weight lock => Sys2Proof.Machine.execLiftDone flags vehicle container weight lock s
  | .passUp flags bytes => Sys2Proof.Machine.execPassUp flags bytes s
  | .trunkBadLength bytes => Sys2Proof.Machine.execTrunkBadLength bytes s
  | .openSlotSilentFrame bytes => Sys2Proof.Machine.execOpenSlotSilentFrame bytes s

end Sys2Proof.Machine
end

