-- ==== Sys2Proof/Safety.lean ====
section
/-! DEFINITION. What the statements say of a state: the laws that the spec says stay true. -/

namespace Sys2Proof.Machine

/-- The record memory is in its one canonical form (log 3). -/
def State.memoryWf (s : State) : Prop := s.memory.wf = true

/-- The reply reservations are exactly those of the commands that wait on the write queue (R190, R191). -/
def State.reservedMatches (s : State) : Prop := s.tp.reserved = s.rmi.queue.countP (·.reply.isSome)

/-- The upstream queue as R200 and R201 keep it: an entry waits only behind one on the line, the occupancy is at most 128, and at
most 120 entries are not REPLYs. With it, what keeps it: the part's own writes have no command waiting on them (R175). -/
structure State.upstreamLaw (s : State) : Prop where
  begun : s.tp.line = none → s.tp.waiting = []
  reserved : s.reservedMatches
  own : ∀ e ∈ s.rmi.queue, e.body.own = true → e.reply = none
  places : s.tp.occupancy ≤ Config.upstreamPlaces
  reports : s.tp.entries.countP (fun e => !e.isReply) ≤ Config.reportPlaces

/-- The charged costs of the open deposits on an account's cards, summed (R137). -/
def State.charges (s : State) (n : Fin 4096) : Nat :=
  ((s.au.deposits.rows.filterMap id).filter (·.account == n)).foldl (fun sum d => sum + d.cost) 0

/-- R137's law on the held amounts, with what keeps it: a deposit that is not CHARGED costs 0 (R122), and no container has both a
pending request and an open deposit (R122). -/
structure State.heldLaw (s : State) : Prop where
  held : ∀ n : Fin 4096, (s.au.accounts.get n).held = s.charges n
  free : ∀ r d, s.au.deposits.get r = some d → d.kind ≠ .charged → d.cost = 0
  one : ∀ q ∈ s.au.requests, s.au.deposits.get q.row = none

/-- A row of the service queue qualifies for it, and stands where R94 puts it. -/
structure State.queueLaw (s : State) : Prop where
  exact : ∀ r : Row, r ∈ s.ft.queue ↔ qualifies s r = true
  sorted : s.ft.queue.Pairwise fun a b => queueBefore s a b = true

/-- A reference of a container's service record names a step of that container; while the lift lasts, a LIFTING one (R151). -/
def Service.refersTo (s : State) (r : Row) : Service → Prop
  | .inUse => True
  | .serviceWait step _ | .service step _ _ => ∃ st, stepAt s step = some st ∧ st.row = r ∧ st.state = .lifting
  | .held _ (some step) => ∃ st, stepAt s step = some st ∧ st.row = r ∧ st.state ≠ .lifting
  | .held _ none => True

/-- R94's law on the service queue in READY (R180), with what keeps it: the service records name steps of their own containers, and
the restore's operations are on the port in RESTORING alone (R176). -/
structure State.serviceLaw (s : State) : Prop where
  queue : s.rmi.restoring = false → s.queueLaw
  steps : ∀ r : Row, (serviceOf s r).refersTo s r
  restore : s.rmi.restoring = false →
    s.rmi.port ≠ some .identification ∧ s.rmi.port ≠ some .header ∧ s.rmi.port ≠ some .record

/-- The card cache holds no card number twice, and its recency order lists exactly the valid entries, each once (R105). -/
structure State.cacheLaw (s : State) : Prop where
  single : ∀ i j a b, s.clu.entries.get i = some a → s.clu.entries.get j = some b → a.number = b.number → i = j
  listed : ∀ i, i ∈ s.clu.recency ↔ (s.clu.entries.get i).isSome = true
  once : s.clu.recency.Nodup

/-- The lists that the spec bounds: downstream queues (R48), the pending requests with one to a container (R121, R122), the miss
list with one entry to a bucket (R107). With them, what keeps the last: a request waits for a place only while the miss list is
full and has no entry for its bucket (R107, R113). -/
structure State.listLaw (s : State) : Prop where
  down : ∀ a, (s.slc.rows.get a).queue.length ≤ Config.downPlaces
  passDown : ∀ a, (s.slc.rows.get a).queue.countP (fun q => q.command.isPassDown) ≤ 1
  requests : s.au.requests.length ≤ Config.requestPlaces
  single : (s.au.requests.map (·.row)).Nodup
  missList : s.clu.missList.length ≤ Config.missPlaces
  buckets : (s.clu.missList.map (·.bucket)).Nodup
  full : s.clu.slotWait ≠ [] → s.clu.missList.length = Config.missPlaces
  apart : ∀ w ∈ s.clu.slotWait, ∀ e ∈ s.clu.missList, e.bucket ≠ bucketOf w.card

/-- A container with neither a pending request nor an open deposit. -/
def State.idle (s : State) (r : Row) : Prop := (∀ q ∈ s.au.requests, q.row ≠ r) ∧ s.au.deposits.get r = none

/-- The law that closes R29: a container of a station that is LOST, BARRED, ABSENT, JOINING or UNBOUND has neither a pending
request nor an open deposit. With it, what keeps it: an empty row has neither, in RESTORING no row has and no turn is on the loop
(R180), and the restore's operations are on the port in RESTORING alone (R176). -/
structure State.settledLaw (s : State) : Prop where
  station : ∀ r c, configOf s r = some c → (s.slc.rows.get c.station).state.live = false → s.idle r
  empty : ∀ r, configOf s r = none → s.idle r
  restore : s.rmi.restoring = true → s.slc.turn = none ∧ ∀ r, s.idle r
  port : s.rmi.restoring = false →
    s.rmi.port ≠ some .identification ∧ s.rmi.port ≠ some .header ∧ s.rmi.port ≠ some .record

/-- The active rounds hold no vehicle and no round number twice (R149), and a container is PENDING or LIFTING in at most one step; a
LIFTING step is the one its container's service record names, in SERVICE_WAIT or SERVICE (R151). With it, what keeps the last: every
step names an occupied row (R83). -/
structure State.roundsLaw (s : State) : Prop where
  vehicle : ∀ i j a b, s.rm.slots.get i = some a → s.rm.slots.get j = some b → a.vehicle = b.vehicle → i = j
  number : ∀ i j a b, s.rm.slots.get i = some a → s.rm.slots.get j = some b → a.number = b.number → i = j
  single : ∀ p q x y, stepAt s p = some x → stepAt s q = some y → x.row = y.row → x.open = true → y.open = true → p = q
  lifting : ∀ p x, stepAt s p = some x → x.state = .lifting →
    (∃ relay, serviceOf s x.row = .serviceWait p relay) ∨ ∃ relay start, serviceOf s x.row = .service p relay start
  occupied : ∀ p x, stepAt s p = some x → (configOf s x.row).isSome = true

/-- A valid cache entry equals its card's record in the record memory, as its bucket is searched for it (R105): no accepted card write
of that number is outstanding, for its acceptance has made the entry invalid (R115, R116). With it, what keeps it: a granted fetch with
an accepted card write to its bucket is stale (R109, R110), and a record write stays within its record (11.4). -/
structure State.cachedLaw (s : State) : Prop where
  equal : ∀ i r, s.clu.entries.get i = some r →
    searchBucket (heldSlots s.memory (bucketOf r.number)) r.number = .found r ∧
      ∀ e ∈ s.rmi.queue, e.body.card ≠ some r.number
  stale : ∀ m ∈ s.clu.missList, m.granted = true → m.stale = false → ∀ e ∈ s.rmi.queue, e.body.bucket ≠ some m.bucket
  wanted : ∀ m ∈ s.clu.missList, ∀ n ∈ m.wanted, bucketOf n = m.bucket
  inside : ∀ e ∈ s.rmi.queue, ∀ target contents values, e.body = .record target contents values → contents.length ≤ 32

/-- A rejoin count never exceeds the rejoin limit, and reaches it in BARRED alone (R21, R26). With it, what keeps it: the limit in force
and the limits on their way into force are in their range (R192); and in RESTORING, where the parameter record is read, no turn is on the
loop and every count is 0 (R35, R180). -/
structure State.rejoinLaw (s : State) : Prop where
  count : ∀ a, (s.slc.rows.get a).rejoin ≤ s.tp.effective.rejoinLimit
  barred : ∀ a, (s.slc.rows.get a).state = .barred ↔ (s.slc.rows.get a).rejoin = s.tp.effective.rejoinLimit
  limit : 1 ≤ s.tp.effective.rejoinLimit ∧ s.tp.effective.rejoinLimit ≤ 15
  coming : ∀ e ∈ s.rmi.queue, ∀ target contents values, e.body = .record target contents values →
    ∀ v ∈ values, v.1 = .rejoinLimit → 1 ≤ v.2 ∧ v.2 ≤ 15
  restore : s.rmi.restoring = true → s.slc.turn = none ∧ ∀ a, (s.slc.rows.get a).rejoin = 0
  port : s.rmi.restoring = false →
    s.rmi.port ≠ some .identification ∧ s.rmi.port ≠ some .header ∧ s.rmi.port ≠ some .record

/-- No two station rows hold the same serial (R13). -/
def State.serialLaw (s : State) : Prop :=
  ∀ a b, (s.slc.rows.get a).serial.isSome = true → (s.slc.rows.get a).serial = (s.slc.rows.get b).serial → a = b

/-- A command with which the record memory keeps its card buckets as the part has written them: a read of a bucket returns what is
held, or fails; a card write is done, or fails with nothing of the unit it fails at on the device (log 3, 29). -/
def keepsBuckets : Instr → Prop
  | .bucketFetchComplete read => ∀ bytes, read ≠ .other bytes
  | .cardWriteComplete read write => (∀ bytes, read ≠ .other bytes) ∧ (write = .done ∨ ∃ r, write = .failed r ∧ r.left = [])
  | .memoryAccessTimeout read left => (∀ bytes, read ≠ .other bytes) ∧ left.left = []
  | _ => True

/-- The bounds of the counts and of the arbiter's state (R40, R147, R176, R205). -/
structure State.countsInRange (s : State) : Prop where
  fetchRun : s.rmi.fetchRun ≤ 3
  sinceOpen : s.slc.sinceOpen ≤ 32
  streak : s.slc.streak ≤ 7
  polls : s.slc.polls ≤ 65535
  noAnswers : s.slc.noAnswers ≤ 65535
  collisions : s.slc.collisions ≤ 65535
  ignoredJoins : s.slc.ignoredJoins ≤ 65535
  hits : s.clu.hits ≤ 65535
  misses : s.clu.misses ≤ 65535
  memoryErrors : s.clu.memoryErrors ≤ 65535
  grants : s.au.grants ≤ 65535
  denials : s.au.denials ≤ 65535
  releases : s.au.releases ≤ 65535
  ignoredCloses : s.au.ignoredCloses ≤ 65535
  crcErrors : s.tp.crcErrors ≤ 65535
  droppedReports : s.tp.droppedReports ≤ 65535
  commandOverruns : s.tp.commandOverruns ≤ 65535

/-! ### States that the statements name -/

/-- The part takes trunk commands and serves them: running, READY, with a place for the REPLY (R180, R190). -/
structure State.serves (s : State) : Prop where
  running : s.hold = .running
  ready : s.rmi.restoring = false
  place : s.tp.occupancy < Config.upstreamPlaces

/-- A configuration command finds a place for its write, or needs none (R175, R186). -/
def State.canWrite (s : State) : Prop := s.rmi.absent = true ∨ s.rmi.queue.length < Config.writePlaces

/-- A command answered at once: the receiver in HUNT, its REPLY at the tail of the upstream queue (R190, R191). -/
def State.replied (kind tag : Byte) (status : Status) (detail : Detail) (s : State) : State :=
  { s with tp := { s.tp with receiver := .hunt }.enqueue (.reply kind tag status detail) }

/-- A command that waits on the write queue: the receiver in HUNT, a place reserved for its REPLY, an entry with `body` (R175). -/
def State.awaiting (kind tag : Byte) (body : WriteBody) (s : State) : State :=
  { s with
    tp := { s.tp with receiver := .hunt, reserved := s.tp.reserved + 1 }
    rmi.queue := s.rmi.queue ++ [{ body := body, reply := some { kind := kind, tag := tag }, inProgress := false }] }

/-- A configuration command whose table change has been made (R178): its record is written through as the table now stands, or,
with the record memory absent, its REPLY is queued with the not-persisted mark (R186). -/
def State.written (kind tag : Byte) (target : RecordTarget) (s : State) : State :=
  if s.rmi.absent then s.replied kind tag .ok (.persisted true)
  else s.awaiting kind tag (.record target (recordOf target s) [])

/-- A name's byte: its place, counted from 0, in the order in which its rule lists the names (R208). -/
def nameByte {α : Type} [BEq α] (names : List α) (x : α) : Byte := BitVec.ofNat 8 (names.idxOf x)

/-- The payload of a command kind has a length that 11.2 gives it. A QUERY's length is that of its subject; one whose subject names
nothing has none to keep (log 44). -/
def payloadFits (kind : Byte) (payload : List Byte) : Bool :=
  let n := payload.length
  let counted (place size most : Nat) : Bool :=
    let count := (payload.getD place 0).toNat
    decide (1 ≤ count ∧ count ≤ most) && n == place + 1 + size * count
  match kind.toNat with
  | 0x01 => n == 5
  | 0x02 => counted 0 3 14
  | 0x03 => n == 12
  | 0x04 => n == 15
  | 0x05 => n == 4
  | 0x06 | 0x09 => n == 9
  | 0x07 | 0x08 => n == 1
  | 0x0A | 0x0B | 0x10 => n == 2
  | 0x0C => n == 15
  | 0x0D | 0x11 => n == 4
  | 0x0E => n == 11
  | 0x0F => counted 8 4 48
  | 0x12 => n == 0
  | 0x13 => counted 4 1 32
  | 0x14 => match payload with
    | [] => false
    | subject :: _ => match subject.toNat with
      | 0 => n == 1
      | 1 => n == 5
      | 2 | 5 => n == 2
      | 3 => n == 3
      | 4 => n == 4
      | _ => true
  | 0x15 => n == 1
  | _ => true

/-- A command of a known kind refused by the checks of R190: the configuration commands carry their mark, clear, and a ROUND_LOAD
position 0 behind a slot byte that is open (log 16, 17). -/
def State.refusedBy (kind tag : Byte) (status : Status) (s t : State) : Prop :=
  if kind.toNat = 0x0F then ∃ slot, t = { s with free := s.free + 1 }.replied kind tag status (.roundLoad slot 0)
  else t = s.replied kind tag status
    (if kind.toNat ∈ [0x02, 0x03, 0x04, 0x05, 0x06, 0x07, 0x09, 0x0A, 0x0B] then .persisted false else .none)

/-- A row with a command at the tail of its queue, under its next sequence number (R39, R48). -/
def StationRow.posted (command : DownCommand) (row : StationRow) : StationRow :=
  { row with queue := row.queue ++ [{ seq := row.nextSeq, command := command }], nextSeq := row.nextSeq + 1 }

/-- A row to which a command other than a PASS_DOWN has been posted (R32, R48): it is at the tail of the queue of a row in AWAKE,
DOZING, SILENT or ABSENT with fewer than five commands, and nowhere otherwise. -/
def StationRow.offered (command : DownCommand) (row : StationRow) : StationRow :=
  if row.state ∈ [.awake, .dozing, .silent, .absent] ∧ row.queue.length < 5 then row.posted command else row

/-- The street loop once a command other than a PASS_DOWN has been posted to a station. -/
def StreetLoop.offered (a : Station) (command : DownCommand) (u : StreetLoop) : StreetLoop :=
  { u with rows := u.rows.update a (StationRow.offered command) }

/-- A state with such a command posted. -/
def State.offered (a : Station) (command : DownCommand) (s : State) : State := { s with slc := s.slc.offered a command }

/-- The Trunk Port once a report has been posted as a new entry (R200, R202): at the tail of the upstream queue under the next report
sequence number; with 120 places taken it is dropped and counted. -/
def TrunkPort.reported (r : Report) (u : TrunkPort) : TrunkPort :=
  if u.occupancy < 120 then { u with reportSeq := u.reportSeq + 1 }.enqueue (.report u.reportSeq r)
  else { u with reportSeq := u.reportSeq + 1, droppedReports := min 65535 (u.droppedReports + 1) }

/-- What the checks of a found card (R127), of the windows (R133) and of its account (R128) make of a request for a container: the reason
of the first that fails, with the redirect, or the kind and the charged cost of the grant. -/
def State.cardVerdict (s : State) (r : Row) (c : ContainerConfig) (card : CardRecord) :
    Except (DenyReason × Option Redirect) (GrantKind × Nat) :=
  let wall := s.tk.wall
  let day := wall.minute / 1440
  let minute := wall.minute % 1440
  let covers (w : Window) : Bool :=
    w.enabled && w.fractions.getLsbD c.fraction.val && w.classes.getLsbD card.cls.val &&
      (if w.start < w.stop then decide (w.start ≤ minute) && decide (minute < w.stop) && w.days.getLsbD day
       else if w.stop < w.start then
         (decide (w.start ≤ minute) && w.days.getLsbD day) || (decide (minute < w.stop) && w.days.getLsbD ((day + 6) % 7))
       else w.days.getLsbD day)
  let account := s.au.accounts.get card.account
  let cost := s.au.costs.get c.fraction
  if card.status ≠ .active then .error (.cardBlocked, none)
  else if wall.valid && card.expiry.any (fun d => decide (d < wall.day)) then .error (.cardExpired, none)
  else if wall.valid && card.start.any (fun d => decide (wall.day < d)) then .error (.notYet, none)
  else if card.rights.getLsbD c.fraction.val = false then .error (.noRight, none)
  else if card.home.any (fun h => h != c.cluster) then .error (.wrongPlace, card.home.bind (redirectFor s r))
  else if wall.valid && s.au.windows.rows.any (·.enabled) && !s.au.windows.rows.any covers then .error (.closedHours, none)
  else if account.loaded && account.blocked then .error (.accountBlocked, none)
  else if account.loaded = false then
    if (s.au.classes.get card.cls).provisional then .ok (.provisional, 0) else .error (.accountUnknown, none)
  else if (s.au.classes.get card.cls).exempt then .ok (.exempt, 0)
  else if account.balance - account.held - cost < -(account.limit : Int) then .error (.noBudget, none)
  else .ok (.charged, cost)

/-- A pending request of a container has been denied (R130): the DENY is posted to its station and counted, whether the queue takes it
or not, and the request has left the list. `t` holds the outcome. -/
def State.denies (s : State) (q : Request) (reason : DenyReason) (redirect : Option Redirect) (t : State) : Prop :=
  t.slc = s.slc.offered q.station (.deny (BitVec.ofNat 8 q.bay.val) q.tag reason redirect) ∧
  t.au = { s.au with requests := s.au.requests.filter (·.row != q.row), denials := min 65535 (s.au.denials + 1) }

/-- What a found card makes of a pending request (R127 to R130): the DENY of the first check that fails, with a CARD_ALERT for a LOST card
(R136); or the grant (R129), with the hold, the open deposit and the GRANT at its station. A GRANT that finds no room is withdrawn: the
hold as before, the deposit slot empty, and a denial counted. A GRANT that its row discards leaves the deposit to the settling of its
station, and is not counted (R32). -/
def State.decidesCard (s : State) (q : Request) (c : ContainerConfig) (card : CardRecord) (t : State) : Prop :=
  match s.cardVerdict q.row c card with
  | .error (reason, redirect) =>
    s.denies q reason redirect t ∧
    t.tp = if card.status = .lost then
        s.tp.reported (.cardAlert { card := card.number, account := card.account, cls := card.cls, number := c.number, row := q.row,
                                    station := q.station, bay := q.bay, stamp := s.stamp })
      else s.tp
  | .ok (kind, cost) =>
    let row := s.slc.rows.get q.station
    let left := { s.au with requests := s.au.requests.filter (·.row != q.row) }
    let held : AdmissionUnit := { left with
      accounts := s.au.accounts.update card.account fun account => { account with held := account.held + cost }
      deposits := s.au.deposits.set q.row (some
        { card := card.number, account := card.account, cost := cost, kind := kind, tag := q.tag, delivered := false,
          granted := s.tk.seconds }) }
    t.slc = s.slc.offered q.station (.grant q.bay q.tag) ∧ t.tp = s.tp ∧
    t.au = if row.state ∈ [.awake, .dozing, .silent, .absent] then
        if row.queue.length < 5 then { held with grants := min 65535 (s.au.grants + 1) }
        else { left with deposits := s.au.deposits.set q.row none, denials := min 65535 (s.au.denials + 1) }
      else held

/-- What an answer that comes in a later event makes of a pending request of a container (R126 to R130): the container checks made
again, each with its redirect, and then the answer. `t` holds the outcome. -/
def State.decides (s : State) (q : Request) (c : ContainerConfig) (ans : CardAnswer) (t : State) : Prop :=
  let denied (reason : DenyReason) (redirect : Option Redirect) : Prop := s.denies q reason redirect t ∧ t.tp = s.tp
  if c.enabled = false then denied .outOfUse (redirectFor s q.row c.cluster)
  else if serviceOf s q.row ≠ .inUse then denied .service (redirectFor s q.row c.cluster)
  else if (fillOf s q.row).fill = .full ∨ (fillOf s q.row).fill = .overflow ∨
      (s.ft.profiles.get c.profile).fu ≤ (fillOf s q.row).i then denied .full (redirectFor s q.row c.cluster)
  else match ans with
  | .unknown => denied .unknownCard none
  | .memoryFault => denied .memoryFault none
  | .found card => s.decidesCard q c card t

/-- A container of a station that has restarted or is lost, settled (R20, R29, R143): a pending request leaves without a decision; an
open deposit is committed as UNCONFIRMED when the station has restarted or its grant was delivered, and released otherwise. -/
def State.settle (restarted : Bool) (s : State) (r : Row) : State :=
  let s : State := { s with
    au.requests := s.au.requests.filter (·.row != r)
    clu := { s.clu with
      missList := s.clu.missList.map fun e => { e with waiting := e.waiting.filter (·.row != r) }
      slotWait := s.clu.slotWait.filter (·.row != r) } }
  match s.au.deposits.get r with
  | some d => if restarted || d.delivered then commitDeposit false r s else releaseDeposit r s
  | none => s

/-- An answer's command: one of the items of the kinds 00h to 06h (R37), with its flag byte. -/
inductive IsAnswer (flags : Byte) : Instr → Prop
  | nothing : IsAnswer flags (.answerNothing flags)
  | dozeNotice (interval : Short) : IsAnswer flags (.dozeNotice flags interval)
  | depositRequest (bay : Byte) (card : Number) (tag : Byte) : IsAnswer flags (.depositRequest flags bay card tag)
  | depositClose (bay : Byte) (how : CloseOutcome) : IsAnswer flags (.depositClose flags bay how)
  | levelSample (bay : Byte) (echo : BitVec 16) (temperature : BitVec 8) (lid : Bool) :
      IsAnswer flags (.levelSample flags bay echo temperature lid)
  | liftRequest (vehicle round : Short) (n : Number) : IsAnswer flags (.liftRequest flags vehicle round n)
  | roundEnd (vehicle round : Short) : IsAnswer flags (.roundEnd flags vehicle round)
  | liftDone (vehicle : Short) (n : Number) (weight : Short) (lock : LockState) : IsAnswer flags (.liftDone flags vehicle n weight lock)
  | passUp (bytes : List Byte) (least : 1 ≤ bytes.length) (most : bytes.length ≤ 32) : IsAnswer flags (.passUp flags bytes)

/-- A poll turn on the loop to an address, with nothing carried (R36, R39). -/
def State.polling (s : State) (a : Station) : Prop :=
  ∃ retries standing, s.slc.turn = some (.poll { address := a, load := .nothing, standing := standing, retries := retries })

/-- The first three parts of R52 for an AWAKE row whose poll carried nothing: the turn has ended, the miss count is 0, the raised
mark is the more-pending flag. -/
def State.heard (a : Station) (flags : Byte) (s : State) : State :=
  { s with slc := { s.slc with
    turn := none
    sinceOpen := min 32 (s.slc.sinceOpen + 1)
    rows := s.slc.rows.update a fun r => { r with miss := 0, due := false, raised := morePending flags } } }

/-- An open slot that has ended (R46). -/
def State.slotEnded (contention : Bool) (s : State) : State :=
  { s with slc := { s.slc with turn := none, contention := contention } }

end Sys2Proof.Machine
end

