-- ==== Sys2Proof/WellFormed.lean ====
section
/-! DEFINITION. When a command's operands are ones that can arrive. `exec` gives every command a meaning, well-formed or not. -/

namespace Sys2Proof

/-- A trunk payload fits a frame: the length byte, 2..250, counts the kind, the tag and the payload (R189). -/
def fitsFrame (payload : List Byte) : Bool := decide (payload.length ≤ 248)

/-- The payload bytes after a QUERY subject or a RESET scope. -/
def fitsAfterByte (rest : List Byte) : Bool := decide (rest.length ≤ 247)

/-- A kind that names a command (R207). -/
def namesCommand (kind : Byte) : Bool := decide (1 ≤ kind.toNat) && decide (kind.toNat ≤ 0x15)

/-- A whole frame whose CRC does not agree (R189). -/
def isBadFrame (bytes : List Byte) : Bool :=
  let len := Machine.fieldAt bytes 1 1
  Machine.byteAt bytes 0 == 0xC3 && decide (2 ≤ len ∧ len ≤ 250) && bytes.length == len + 4 &&
    bytes.drop (len + 2) != Machine.crcBytes (Machine.trunkCrc (Machine.slice bytes 1 (len + 1)))

/-- A sync byte and a length byte that discards the frame (R189). -/
def isBadLength (bytes : List Byte) : Bool :=
  bytes.length == 2 && Machine.byteAt bytes 0 == 0xC3 &&
    (decide (Machine.fieldAt bytes 1 1 < 2) || decide (250 < Machine.fieldAt bytes 1 1))

/-- A good frame that an open slot takes as silent (R46, R209). -/
def isSilentFrame (bytes : List Byte) : Bool :=
  match Machine.readUpward bytes with
  | .garbled => false
  | .unknown => true
  | .frame f => match f.item with
    | .attention => (Machine.station? f.address.toNat).isNone
    | .joinAnnounce _ _ => f.address != 0
    | _ => true

/-- Bytes that make an open slot garbled (R46, R209). -/
def isGarbled (bytes : List Byte) : Bool :=
  match Machine.readUpward bytes with
  | .frame _ | .unknown => false
  | .garbled => !bytes.isEmpty

/-- A device returns as many bytes as the read asks for (R174). -/
def MemRead.fits (size : Nat) : MemRead → Bool
  | .other bytes => bytes.length == size
  | .asHeld | .failed => true

/-- A read-back returns as many bytes as the unit it reads (R174). -/
def MemWrite.fits (size : Nat) : MemWrite → Bool
  | .readBack returned => returned.all fun b => b.length == size
  | .done | .failed _ => true

/-- A command whose operands can arrive as its row says. -/
def Instr.wf : Instr → Bool
  | .coldReset _ | .coldResetRelease _ | .secondEvent | .minuteEvent | .refillTrigger | .decisionLimitExpiry
  | .closeLimitExpiry | .serviceTimerExpiry | .dozeWakeDue | .staleWatch | .stableClear | .roundExpiry | .summary => true
  | .trunkGapTimeout bytes => !bytes.isEmpty
  | .trunkCrcError bytes => isBadFrame bytes
  | .unknownKind kind _ payload => !namesCommand kind && fitsFrame payload
  | .timeSet _ payload | .paramPut _ payload | .profilePut _ payload | .containerPut _ payload | .containerDrop _ payload
  | .stationPut _ payload | .stationDrop _ payload | .stationClear _ payload | .windowPut _ payload | .classPut _ payload
  | .costPut _ payload | .accountPut _ payload | .cardPut _ payload | .cardDrop _ payload | .cacheFlush _ payload
  | .roundLoad _ payload | .roundCancel _ payload | .holdClear _ payload | .passDown _ payload => fitsFrame payload
  | .queryStatus _ arg | .queryContainer _ arg | .queryStation _ arg | .queryAccount _ arg | .queryRound _ arg
  | .queryServiceQueue _ arg => fitsAfterByte arg
  | .resetTraffic _ rest => fitsAfterByte rest
  | .resetFull _ rest _ => fitsAfterByte rest
  | .fullResetReplySent _ | .upstreamFrameSent | .portGrant | .missSlotPlacement | .headerFormatRequeue
  | .loopTurnStart | .responseWindowExpiry | .loopByteGapTimeout => true
  | .identificationReadComplete answer => answer.all fun b => decide (3 ≤ b.length)
  | .headerReadComplete read | .restoreRecordReadComplete read => read.fits Machine.recordSize
  | .bucketFetchComplete read | .memoryAccessTimeout read _ => read.fits 64
  | .cardWriteComplete read write => read.fits 64 && write.fits Machine.slotSize
  | .recordWriteComplete write | .headerWriteComplete write | .imageFormatComplete write => write.fits Machine.recordSize
  | .pollAnswerGarbled bytes => !bytes.isEmpty
  | .openSlotGarbled bytes => isGarbled bytes
  | .attention _ | .joinAnnounce _ _ | .answerNothing _ | .dozeNotice _ _ | .depositRequest _ _ _ _ | .depositClose _ _ _
  | .levelSample _ _ _ _ _ => true
  | .liftRequest _ _ _ container => container != 0xFFFFFFFF
  | .roundEnd _ _ _ | .liftDone _ _ _ _ _ => true
  | .passUp _ bytes => decide (1 ≤ bytes.length) && decide (bytes.length ≤ 32)
  | .trunkBadLength bytes => isBadLength bytes
  | .openSlotSilentFrame bytes => isSilentFrame bytes

end Sys2Proof
end

