-- ==== Sys2Proof/Certificates/Slice0/Obligations.lean ====
section
/-! DEFINITION. The statements for the provers. Each docstring names the spec's sentence or section that the statement formalises, or
the log entry where it states a choice of the model. -/

open Sys2Proof Sys2Proof.Machine

/-! ### The step, resets and time -/

/-- A step carries out the command at the front of the queue with the rest waiting (one row of the table is one step, log 4); with
no command waiting the part idles. Both are the model's conventions (log 4, 6). -/
def Obligations.StepRunsFront : Prop :=
  (∀ (c : Instr) (rest : List Instr) (s : State), s.pending = c :: rest → step s = exec c { s with pending := rest }) ∧
  (∀ s : State, s.pending = [] → step s = .next s)

/-- What a COLD reset leaves in each block (chapter 1, 1.6; chapter 2, 2.10; chapter 3, 3.9; chapter 4, 4.12; chapter 5, 5.7;
chapter 6, 6.5; chapter 7, 7.11; chapter 8, 8.9; chapter 9, 9.8; chapter 10, 10.8 and, for the parameters' defaults, 10.3). The
values the spec does not state are left out: they are the model's (log 1, 2, 3). That State.reset stands right after the release is
the model's choice (log 1). -/
def Obligations.ResetValues : Prop :=
  State.reset.tk.seconds = 0 ∧ State.reset.tk.subMinute = 0 ∧ State.reset.tk.uptime = 0 ∧
  State.reset.tk.wall = { valid := false, day := 0, minute := 0, second := 0 } ∧ State.reset.tk.lastRefill = none ∧
  (∀ a, ((State.reset.slc.rows.get a).state = .unbound ∧ (State.reset.slc.rows.get a).doze = 60 ∧
    (State.reset.slc.rows.get a).queue = [] ∧ (State.reset.slc.rows.get a).rejoin = 0)) ∧
  State.reset.slc.turn = none ∧ State.reset.slc.contention = false ∧ State.reset.slc.streak = 0 ∧
  (∀ r, State.reset.ft.rows.get r = { config := none, fill := Fill.cold }) ∧ Fill.cold.ttf = 10080 ∧ Fill.cold.fill = .low ∧
  Fill.cold.health = .noData ∧ (∀ n, State.reset.ft.profiles.get n = ⟨750, 900, 1000, 50, 2, 4, 5⟩) ∧ State.reset.ft.queue = [] ∧
  (∀ i, State.reset.clu.entries.get i = none) ∧ State.reset.clu.missList = [] ∧ State.reset.au.requests = [] ∧
  (∀ r, State.reset.au.deposits.get r = none) ∧ (∀ n, (State.reset.au.accounts.get n).loaded = false) ∧
  (∀ f, State.reset.au.costs.get f = 1) ∧ (∀ i, State.reset.rm.slots.get i = none) ∧
  (∀ r, State.reset.rm.service.get r = .inUse) ∧ State.reset.rmi.restoring = true ∧ State.reset.rmi.absent = false ∧
  State.reset.rmi.queue = [] ∧ State.reset.rmi.fetchRun = 0 ∧ State.reset.tp.line = none ∧ State.reset.tp.waiting = [] ∧
  State.reset.tp.reportSeq = 0 ∧ State.reset.tp.receiver = .hunt ∧
  State.reset.tp.effective = ⟨0, 8, 3, 1, 4, 3, 24, 12, 240, 720, 3, 120, 900, 60⟩

/-- The laws that every step keeps hold right after reset. -/
def Obligations.ResetMeetsTheLaws : Prop :=
  State.reset.memoryWf ∧ State.reset.upstreamLaw ∧ State.reset.heldLaw ∧ State.reset.countsInRange ∧ State.reset.serviceLaw ∧
    State.reset.cacheLaw ∧ State.reset.listLaw ∧ State.reset.settledLaw ∧ State.reset.roundsLaw ∧ State.reset.cachedLaw ∧
    State.reset.rejoinLaw ∧ State.reset.serialLaw

/-- The reset pin or power holds the part in COLD: every block takes its COLD values and only the record memory, the straps, the
model's own counter and the waiting commands stay; a write on the port leaves what `cut` says (log 29). The release reads the straps
and lets the part run, RESTORING (chapter 1, 1.6; chapter 9, 9.5 and 9.8; chapter 11, 11.5). -/
def Obligations.ColdResetAndRelease : Prop :=
  (∀ (cut : Residue) (s : State), exec (.coldReset cut) s = .next
    { State.reset with
      memory := (match activeWrite s with
        | some e => s.memory.writeCut (e.body.units s.memory) cut
        | none => s.memory)
      hold := .pin, straps := s.straps, free := s.free, pending := s.pending }) ∧
  (∀ (straps : Straps) (s : State), s.hold = .pin →
    exec (.coldResetRelease straps) s = .next { s with hold := .running, straps := straps })

/-- A second event (chapter 1, 1.1): the second count and the sub-minute count advance, wall time advances, the blocks are told (log
4); on the return of the sub-minute count to 0 a minute event is due; at second 0 of a VALID refill minute the refill is due (1.4).
Nothing else changes. -/
def Obligations.SecondEventAdvancesTheClocks : Prop :=
  ∀ s : State, s.hold = .running →
    exec .secondEvent s = .next { s with tk := { s.tk with
      seconds := s.tk.seconds + 1
      subMinute := if 59 ≤ s.tk.subMinute then 0 else s.tk.subMinute + 1
      wall := s.tk.wall.tick
      told := { s.tk.told with
        decision := true, close := true, service := true, doze := true
        refill := s.tk.told.refill ||
          (s.tk.wall.tick.valid && s.tk.wall.tick.minute == s.tp.effective.refillMinute && s.tk.wall.tick.second == 0)
        minutes := if 59 ≤ s.tk.subMinute then s.tk.told.minutes + 1 else s.tk.told.minutes } } }

/-- R3: how a second event advances wall time, and the two values derived from the minute-of-week. -/
def Obligations.WallTimeAdvances : Prop :=
  (∀ w : WallTime, w.valid = false → w.tick = w) ∧
  (∀ w : WallTime, w.valid = true → w.day ≤ 65535 → w.minute ≤ 10079 → w.second ≤ 59 →
    (w.tick.valid = true →
      w.tick.day ≤ 65535 ∧ w.tick.minute ≤ 10079 ∧ w.tick.second ≤ 59 ∧
      w.tick.minute * 60 + w.tick.second = (w.minute * 60 + w.second + 1) % 604800 ∧
      w.tick.day = w.day + (if w.tick.second = 0 ∧ w.tick.minute % 1440 = 0 then 1 else 0)) ∧
    (w.tick.valid = false ↔ w.day = 65535 ∧ w.second = 59 ∧ (w.minute + 1) % 1440 = 0) ∧
    (w.tick.valid = false → w.tick.day = w.day ∧ w.tick.minute = w.minute)) ∧
  (∀ m, m ≤ 10079 → minuteOfDay m = m % 1440 ∧ minuteOfDay m ≤ 1439 ∧ dayOfWeek m = m / 1440 ∧ dayOfWeek m ≤ 6)

/-- A minute event in READY (chapter 1, 1.1; chapter 4, 4.8; chapter 5, 5.5; chapter 10, 10.7): uptime minutes advance, every
occupied row's TTF falls by 1 and stays at 0, the service queue holds to its law, the minutes since the last SUMMARY advance unless
the interval is 0. The other blocks keep their state. -/
def Obligations.MinuteEventCountsDown : Prop :=
  ∀ s : State, s.hold = .running → s.rmi.restoring = false → s.tk.told.minutes ≠ 0 →
    ∃ t, exec .minuteEvent s = .next t ∧ t.tk.uptime = s.tk.uptime + 1 ∧ t.tk.seconds = s.tk.seconds ∧ t.tk.wall = s.tk.wall ∧
      (∀ r, t.ft.rows.get r =
        if (configOf s r).isSome then { s.ft.rows.get r with fill := { fillOf s r with ttf := (fillOf s r).ttf - 1 } }
        else s.ft.rows.get r) ∧
      t.queueLaw ∧ t.ft.profiles = s.ft.profiles ∧
      t.tp = { s.tp with sinceSummary := if s.tp.effective.summaryInterval = 0 then 0 else s.tp.sinceSummary + 1 } ∧
      t.slc = s.slc ∧ t.clu = s.clu ∧ t.au = s.au ∧ t.rm = s.rm ∧ t.rmi = s.rmi ∧ t.memory = s.memory

/-- The weekly refill (chapter 1, 1.4; chapter 7, 7.9), with the close limit of the same second already worked off (log 5): at a
refill minute, when no refill day is held or six days have passed, every loaded account below its cap rises by its refill up to the
cap and the refill day is the day number; otherwise no account changes. -/
def Obligations.RefillTriggerRefills : Prop :=
  ∀ s : State, s.hold = .running → s.tk.told.refill = true → s.tk.told.close = false → s.tk.wall.valid = true →
    ∃ t, exec .refillTrigger s = .next t ∧ t.tk.told.refill = false ∧
      (if (s.tk.lastRefill.all fun d => decide (d + 6 ≤ s.tk.wall.day)) = true then
        t.tk.lastRefill = some s.tk.wall.day ∧
        (∀ n, t.au.accounts.get n = if (s.au.accounts.get n).loaded = true ∧ (s.au.accounts.get n).balance < (s.au.accounts.get n).cap
          then { s.au.accounts.get n with
            balance := min ((s.au.accounts.get n).balance + (s.au.accounts.get n).refill) (s.au.accounts.get n).cap }
          else s.au.accounts.get n)
      else t.tk.lastRefill = s.tk.lastRefill ∧ t.au.accounts = s.au.accounts) ∧
      t.tk.seconds = s.tk.seconds ∧ t.tk.uptime = s.tk.uptime ∧ t.tk.wall = s.tk.wall ∧ t.au.requests = s.au.requests ∧
      t.au.deposits = s.au.deposits ∧ t.slc = s.slc ∧ t.ft = s.ft ∧ t.clu = s.clu ∧ t.rm = s.rm ∧ t.rmi = s.rmi ∧ t.tp = s.tp ∧
      t.memory = s.memory

/-! ### Limits and watches -/

/-- The decision limit (chapter 7, 7.2): every pending request whose age has reached the limit leaves the list with a denial
counted, whether its DENY finds room or not, and DENY TRY_AGAIN without a redirect is posted to its station, in list order; the others
keep their order; accounts, deposits, containers, rounds and the record memory are untouched. The close limit (chapter 7, 7.7): every open
deposit of a container whose age has reached the limit is ended, and the others stay as they are; no pending request is touched. -/
def Obligations.AdmissionLimitsExpire : Prop :=
  (∀ s : State, s.hold = .running → s.tk.told.decision = true → (s.au.requests.map (·.row)).Nodup →
     ∃ t, exec .decisionLimitExpiry s = .next t ∧
       t.au.requests = s.au.requests.filter (fun q => decide (elapsed s.tk.seconds q.arrival < s.tp.effective.decisionLimit)) ∧
       (s.au.denials ≤ 65535 → t.au.denials = min 65535 (s.au.denials +
         s.au.requests.countP fun q => decide (s.tp.effective.decisionLimit ≤ elapsed s.tk.seconds q.arrival))) ∧
       t.au.grants = s.au.grants ∧ t.au.accounts = s.au.accounts ∧ t.au.deposits = s.au.deposits ∧ t.ft = s.ft ∧ t.rm = s.rm ∧
       t.rmi = s.rmi ∧ t.tp = s.tp ∧ t.memory = s.memory ∧ t.clu.entries = s.clu.entries ∧
       t.clu.missList.map (·.bucket) = s.clu.missList.map (·.bucket) ∧
       t.slc = (s.au.requests.filter fun q => decide (s.tp.effective.decisionLimit ≤ elapsed s.tk.seconds q.arrival)).foldl
         (fun u q => u.offered q.station (.deny (BitVec.ofNat 8 q.bay.val) q.tag .tryAgain none)) s.slc) ∧
  (∀ s : State, s.hold = .running → s.tk.told.close = true →
     ∃ t, exec .closeLimitExpiry s = .next t ∧
       (∀ r d, s.au.deposits.get r = some d → (configOf s r).isSome = true →
         t.au.deposits.get r = if s.tp.effective.closeLimit ≤ elapsed s.tk.seconds d.granted then none else some d) ∧
       (∀ r, s.au.deposits.get r = none → t.au.deposits.get r = none) ∧
       t.au.requests = s.au.requests ∧ t.tk = { s.tk with told := { s.tk.told with close := false } } ∧ t.rmi = s.rmi ∧
       t.clu = s.clu ∧ t.memory = s.memory ∧ (∀ r, configOf t r = configOf s r))

/-- The service timer (chapter 8, 8.4): every container in SERVICE whose timer has reached the service limit is HELD, its step is MISSED
with the timeout flag, and LIFT_HOLD is posted to its station, container by container in row order; a CLOSING slot that this leaves
without a LIFTING step is free (8.6), and the holds that named a step of it keep none. A SERVICE_REPORT TIMED_OUT is posted, said of the
first of them, and the freed slot's ROUND_EVENT ENDED, said of one alone. No other container's service state and no other step changes;
deposits, requests, accounts, fill levels and the record memory are untouched. Round expiry (8.6): a LOADED or RUNNING round whose
duration has run out is ended: its slot is free, or CLOSING with cause EXPIRED and its PENDING steps MISSED while a step of it is LIFTING;
every other slot stays as it is. -/
def Obligations.ServiceAndRoundLimitsExpire : Prop :=
  (∀ s : State, s.hold = .running → s.tk.told.service = true → (∀ r, (serviceOf s r).refersTo s r) →
     let expired (r : Row) : Option StepRef := match serviceOf s r with
       | .service step _ start =>
         if (configOf s r).isSome = true ∧ s.tp.effective.serviceLimit ≤ elapsed s.tk.seconds start then some step else none
       | _ => none
     let late : List Row := (List.finRange 192).filter fun r => (expired r).isSome
     let stepsAfter (i : Fin 4) (rd : Round) : List Step := rd.steps.mapIdx fun k st =>
       if late.any (fun r => expired r == some ⟨i, k⟩) then { st with state := .missed, timedOut := true } else st
     let freed (i : Fin 4) : Bool := late.any (fun r => (expired r).any fun step => step.slot == i) &&
       (s.rm.slots.get i).any fun rd => rd.state == .closing && (stepsAfter i rd).all fun st => st.state != .lifting
     let keeps (v : Service) : Service := match v with
       | .held cause (some step) => .held cause (if freed step.slot then none else some step)
       | v => v
     ∃ t, exec .serviceTimerExpiry s = .next t ∧
       (∀ r, serviceOf t r = keeps (match expired r with
         | some step => .held .timedOut (some step)
         | none => serviceOf s r)) ∧
       (∀ i, t.rm.slots.get i =
         if freed i then none else (s.rm.slots.get i).map fun rd => { rd with steps := stepsAfter i rd }) ∧
       t.slc = late.foldl (fun u r => match configOf s r with
         | some c => u.offered c.station (.liftHold c.bay)
         | none => u) s.slc ∧
       (∀ r c i k rd st, late.head? = some r → configOf s r = some c → expired r = some ⟨i, k⟩ → s.rm.slots.get i = some rd →
         rd.steps[k]? = some st → s.tp.occupancy < 120 → UpEntry.report s.tp.reportSeq (.service
           { outcome := .timedOut, number := c.number, row := r, step := some (rd.number, k + 1), origin := some st.origin,
             vehicle := st.vehicle, before := st.before, carried := none, service := .held, stamp := s.stamp }) ∈ t.tp.entries) ∧
       (∀ r step rd, late = [r] → expired r = some step → s.rm.slots.get step.slot = some rd → freed step.slot = true →
         s.tp.occupancy + 2 < 120 → UpEntry.report (s.tp.reportSeq + 2) (.round
           { round := rd.number, vehicle := rd.vehicle, slot := step.slot, stamp := s.stamp
             news := .ended rd.endCause (stepCounts (stepsAfter step.slot rd)) }) ∈ t.tp.entries) ∧
       t.tk = { s.tk with told := { s.tk.told with service := false } } ∧ t.au = s.au ∧ t.clu = s.clu ∧ t.rmi = s.rmi ∧
       t.ft.rows = s.ft.rows ∧ t.ft.profiles = s.ft.profiles ∧ t.memory = s.memory) ∧
  (∀ s : State, s.hold = .running → s.tk.told.service = true →
     ∃ t, exec .serviceTimerExpiry s = .next t ∧
       (∀ r, (serviceOf t r).name = (match serviceOf s r with
         | .service _ _ start =>
           if (configOf s r).isSome = true ∧ s.tp.effective.serviceLimit ≤ elapsed s.tk.seconds start then .held else .service
         | v => v.name)) ∧
       t.tk = { s.tk with told := { s.tk.told with service := false } } ∧ t.au = s.au ∧ t.clu = s.clu ∧ t.rmi = s.rmi ∧
       t.ft.rows = s.ft.rows ∧ t.ft.profiles = s.ft.profiles ∧ t.memory = s.memory) ∧
  (∀ s : State, s.hold = .running → s.tk.told.roundExpiry = true →
     ∃ t, exec .roundExpiry s = .next t ∧
       (∀ i, t.rm.slots.get i = (match s.rm.slots.get i with
         | some rd =>
           if rd.state ≠ .closing ∧ rd.duration ≤ (s.tk.uptime - rd.load).toNat then
             if rd.steps.any (fun st => st.state == .lifting) then
               some { rd with state := .closing, endCause := some .expired, steps := rd.steps.map fun st =>
                 if st.state = .pending then { st with state := .missed, timedOut := false } else st }
             else none
           else some rd
         | none => none)) ∧
       t.tk = { s.tk with told := { s.tk.told with roundExpiry := false } } ∧ t.slc = s.slc ∧ t.clu = s.clu ∧ t.au = s.au ∧
       t.rmi = s.rmi ∧ t.ft.rows = s.ft.rows ∧ t.memory = s.memory)

/-- A DOZING row whose next wake second is reached is due (chapter 3, 3.3), and an AWAKE or DOZING row that has been stable for the
stable-clear time loses its rejoin count (chapter 2, 2.4). The stale watch in READY (chapter 4, 4.8): every container in GOOD health
whose last plausible sample is as old as the stale window becomes SUSPECT. No other row and no other field changes, and no other
block but the Trunk Port, which takes the reports. That a due row is marked is the model's (log 14). -/
def Obligations.WatchesOfTheMinute : Prop :=
  ((∀ s : State, s.hold = .running → s.tk.told.doze = true →
     ∃ t, exec .dozeWakeDue s = .next t ∧
       (∀ a, t.slc.rows.get a =
         if (s.slc.rows.get a).state = .dozing ∧ (s.tk.seconds - (s.slc.rows.get a).wake).toNat < 2147483648
         then { s.slc.rows.get a with due := true } else s.slc.rows.get a) ∧
       t = { s with tk := t.tk, slc := { s.slc with rows := t.slc.rows } } ∧
       t.tk = { s.tk with told := { s.tk.told with doze := false } }) ∧
   (∀ s : State, s.hold = .running → s.tk.told.stableClear = true →
     ∃ t, exec .stableClear s = .next t ∧
       (∀ a, t.slc.rows.get a =
         if ((s.slc.rows.get a).state = .awake ∨ (s.slc.rows.get a).state = .dozing) ∧ 0 < (s.slc.rows.get a).rejoin ∧
             s.tp.effective.stableClearTime ≠ 0 ∧
             60 * s.tp.effective.stableClearTime ≤ (s.tk.uptime - (s.slc.rows.get a).stableSince).toNat
         then { s.slc.rows.get a with rejoin := 0 } else s.slc.rows.get a) ∧
       t = { s with tk := t.tk, slc := { s.slc with rows := t.slc.rows } } ∧
       t.tk = { s.tk with told := { s.tk.told with stableClear := false } })) ∧
  (∀ s : State, s.hold = .running → s.rmi.restoring = false → s.tk.told.stale = true →
     ∃ t, exec .staleWatch s = .next t ∧
       (∀ r, t.ft.rows.get r =
         if (configOf s r).isSome = true ∧ (fillOf s r).health = .good ∧
             s.tp.effective.staleWindow ≤ (s.tk.uptime - (fillOf s r).lastPlausible).toNat
         then { s.ft.rows.get r with fill := { fillOf s r with health := .suspect } } else s.ft.rows.get r) ∧
       t.ft.profiles = s.ft.profiles ∧ t.ft.queue = s.ft.queue ∧ t.tk = { s.tk with told := { s.tk.told with stale := false } } ∧
       t.slc = s.slc ∧ t.clu = s.clu ∧ t.au = s.au ∧ t.rm = s.rm ∧ t.rmi = s.rmi ∧ t.memory = s.memory)

/-- The SUMMARY (chapter 10, 10.7): when the minutes have reached the interval and a place is free, it enters the queue with every count
read into it, the first four containers of the service queue (chapter 5, 5.5), the interval and the stamp, and every count is 0; when no
place is free it is dropped and counted and the counts run on; and when the minutes have not reached the interval nothing is posted. The
transmitter: the entry whose frame has been sent leaves, and the oldest waiting entry begins. -/
def Obligations.SummaryAndTransmitter : Prop :=
  (∀ s : State, s.hold = .running → s.tk.told.summary = true →
     let due := decide (s.tp.effective.summaryInterval ≠ 0 ∧ s.tp.effective.summaryInterval ≤ s.tp.sinceSummary)
     let u : State := { s with tk.told.summary := false }
     let summary : SummaryReport :=
       { grants := s.au.grants, denials := s.au.denials, releases := s.au.releases, ignoredCloses := s.au.ignoredCloses,
         polls := s.slc.polls, noAnswers := s.slc.noAnswers, collisions := s.slc.collisions, ignoredJoins := s.slc.ignoredJoins,
         hits := s.clu.hits, misses := s.clu.misses, memoryErrors := s.clu.memoryErrors, crcErrors := s.tp.crcErrors,
         droppedReports := s.tp.droppedReports, commandOverruns := s.tp.commandOverruns
         head := (s.ft.queue.take 4).filterMap fun r =>
           (configOf s r).map fun c => (c.number, (fillOf s r).ttf, (fillOf s r).fill)
         interval := s.tp.effective.summaryInterval
         stamp := if s.tk.wall.valid then some (s.tk.wall.day, s.tk.wall.minute) else none }
     exec .summary s = .next (
       if !due then u
       else if s.tp.occupancy < 120 then
         { u with
           slc := { s.slc with polls := 0, noAnswers := 0, collisions := 0, ignoredJoins := 0 }
           clu := { s.clu with hits := 0, misses := 0, memoryErrors := 0 }
           au := { s.au with grants := 0, denials := 0, releases := 0, ignoredCloses := 0 }
           tp := { s.tp with sinceSummary := 0, reportSeq := s.tp.reportSeq + 1, crcErrors := 0, droppedReports := 0,
                             commandOverruns := 0 }.enqueue (.report s.tp.reportSeq (.summary summary)) }
       else
         { u with tp := { s.tp with sinceSummary := 0, reportSeq := s.tp.reportSeq + 1,
                                    droppedReports := min 65535 (s.tp.droppedReports + 1) } })) ∧
  ((∀ (e next : UpEntry) (rest : List UpEntry) (s : State), s.hold = .running → s.tp.line = some e → s.tp.waiting = next :: rest →
     exec .upstreamFrameSent s = .next { s with tp := { s.tp with line := some next, waiting := rest } }) ∧
   (∀ (e : UpEntry) (s : State), s.hold = .running → s.tp.line = some e → s.tp.waiting = [] →
     exec .upstreamFrameSent s = .next { s with tp := { s.tp with line := none } }))

/-! ### The trunk receiver and the time command -/

/-- A whole good frame of any kind, received byte by byte in HUNT, is taken by its kind with exactly its tag and payload, and the
receiver is back in HUNT (chapter 10, 10.1 and 10.2; chapter 11, 11.2). What an abandoned write leaves is not carried by a frame
(log 29). -/
def Obligations.TrunkFrameIsTaken : Prop :=
  ∀ (kind tag : Byte) (payload : List Byte) (s : State), s.hold = .running → s.tp.receiver = .hunt → payload.length ≤ 248 →
    rxBytes (trunkFrameBytes kind tag payload) s = takeFrame kind tag payload Residue.untouched s

/-- What the receiver discards (chapter 10, 10.1): the start of a frame that a gap cuts short, and a frame with a length byte below
2 or above 250, leave no trace; a frame whose CRC does not agree is counted; a gap returns the receiver to HUNT from any state. What
the checks make of a command (chapter 10, 10.2): a kind that names no command is UNKNOWN_KIND whatever the part state; of any kind
that names one, a command without a place for its REPLY is counted and has no effect, one whose payload does not fit its kind is
BAD_LENGTH, and while RESTORING a fitting one is NOT_READY, but for QUERY STATUS and RESET. Every trunk command is its kind's frame
taken. What such a REPLY carries beside its status is the model's choice (log 16, 17). -/
def Obligations.TrunkReceiverAndChecks : Prop :=
  ((∀ (kind tag : Byte) (payload : List Byte) (n : Nat) (s : State), s.hold = .running → s.tp.receiver = .hunt →
     payload.length ≤ 248 → n < (trunkFrameBytes kind tag payload).length →
     exec (.trunkGapTimeout ((trunkFrameBytes kind tag payload).take n)) s = .next s) ∧
   (∀ s : State, s.hold = .running → exec (.trunkGapTimeout []) s = .next { s with tp := { s.tp with receiver := .hunt } }) ∧
   (∀ (len : Byte) (s : State), s.hold = .running → s.tp.receiver = .hunt → (len.toNat < 2 ∨ 250 < len.toNat) →
     exec (.trunkBadLength [0xC3, len]) s = .next s) ∧
   (∀ (kind tag : Byte) (payload : List Byte) (crc : BitVec 16) (s : State), s.hold = .running → s.tp.receiver = .hunt →
     payload.length ≤ 248 → crc ≠ trunkCrc (bytesOf 1 (payload.length + 2) ++ [kind, tag] ++ payload) →
     exec (.trunkCrcError ([0xC3] ++ (bytesOf 1 (payload.length + 2) ++ [kind, tag] ++ payload) ++ crcBytes crc)) s =
       .next { s with tp := { s.tp with crcErrors := min 65535 (s.tp.crcErrors + 1) } })) ∧
  ((∀ (kind tag : Byte) (payload : List Byte) (s : State), s.hold = .running → s.tp.occupancy < 128 →
     (kind.toNat = 0 ∨ 0x15 < kind.toNat) →
     exec (.unknownKind kind tag payload) s = .next (s.replied kind tag .unknownKind .none)) ∧
   (∀ (tag : Byte) (payload : List Byte) (s : State), s.hold = .running → 128 ≤ s.tp.occupancy →
     exec (.timeSet tag payload) s =
       .next { s with tp := { s.tp with receiver := .hunt, commandOverruns := min 65535 (s.tp.commandOverruns + 1) } }) ∧
   (∀ (tag : Byte) (payload : List Byte) (s : State), s.hold = .running → s.tp.occupancy < 128 → payload.length ≠ 5 →
     exec (.timeSet tag payload) s = .next (s.replied 0x01 tag .badLength .none)) ∧
   (∀ (tag : Byte) (payload : List Byte) (s : State), s.hold = .running → s.tp.occupancy < 128 → payload.length = 5 →
     s.rmi.restoring = true → exec (.timeSet tag payload) s = .next (s.replied 0x01 tag .notReady .none))) ∧
  (∀ (kind tag : Byte) (payload : List Byte) (cut : Residue) (s : State), 1 ≤ kind.toNat → kind.toNat ≤ 0x15 →
    let t := takeFrame kind tag payload cut s
    (128 ≤ s.tp.occupancy →
      t = { s with tp := { s.tp with receiver := .hunt, commandOverruns := min 65535 (s.tp.commandOverruns + 1) } }) ∧
    (s.tp.occupancy < 128 → payloadFits kind payload = false → s.refusedBy kind tag .badLength t) ∧
    (s.tp.occupancy < 128 → payloadFits kind payload = true → s.rmi.restoring = true → kind.toNat ≠ 0x15 →
      ¬(kind.toNat = 0x14 ∧ payload = [0x00]) → s.refusedBy kind tag .notReady t)) ∧
  (∀ (tag : Byte) (p : List Byte) (cut : Residue) (s : State), s.hold = .running →
    let takes (c : Instr) (kind : Byte) (payload : List Byte) : Prop := exec c s = .next (takeFrame kind tag payload cut s)
    takes (.timeSet tag p) 0x01 p ∧ takes (.paramPut tag p) 0x02 p ∧ takes (.profilePut tag p) 0x03 p ∧
    takes (.containerPut tag p) 0x04 p ∧ takes (.containerDrop tag p) 0x05 p ∧ takes (.stationPut tag p) 0x06 p ∧
    takes (.stationDrop tag p) 0x07 p ∧ takes (.stationClear tag p) 0x08 p ∧ takes (.windowPut tag p) 0x09 p ∧
    takes (.classPut tag p) 0x0A p ∧ takes (.costPut tag p) 0x0B p ∧ takes (.cardPut tag p) 0x0C p ∧
    takes (.cardDrop tag p) 0x0D p ∧ takes (.accountPut tag p) 0x0E p ∧ takes (.roundLoad tag p) 0x0F p ∧
    takes (.roundCancel tag p) 0x10 p ∧ takes (.holdClear tag p) 0x11 p ∧ takes (.cacheFlush tag p) 0x12 p ∧
    takes (.passDown tag p) 0x13 p ∧ takes (.queryStatus tag p) 0x14 (0x00 :: p) ∧ takes (.queryContainer tag p) 0x14 (0x01 :: p) ∧
    takes (.queryStation tag p) 0x14 (0x02 :: p) ∧ takes (.queryAccount tag p) 0x14 (0x03 :: p) ∧
    takes (.queryRound tag p) 0x14 (0x04 :: p) ∧ takes (.queryServiceQueue tag p) 0x14 (0x05 :: p) ∧
    takes (.resetTraffic tag p) 0x15 (0x00 :: p) ∧ takes (.resetFull tag p cut) 0x15 (0x01 :: p))

/-- TIME_SET in READY (chapter 1, 1.3 and 1.4): a minute-of-week above 10079 or a second above 59 is BAD_FIELD; otherwise wall time
is written and VALID, and after a forward jump from VALID time that passed the refill minute the refill fires by the six-day
condition. No clock and no other state changes. A minute-of-week is passed when it lies in the range that starts just after the
prior one and runs forward, passing from 10079 to 0 where necessary, up to and including the new one. -/
def Obligations.TimeSetWritesWallTime : Prop :=
  (∀ (tag : Byte) (day minute second : Nat) (s : State), s.serves → day ≤ 65535 → minute ≤ 65535 → second ≤ 255 →
     exec (.timeSet tag (bytesOf 2 day ++ bytesOf 2 minute ++ bytesOf 1 second)) s = .next (
       if 10079 < minute ∨ 59 < second then s.replied 0x01 tag .badField .none
       else
         let new : WallTime := { valid := true, day := day, minute := minute, second := second }
         let old := s.tk.wall
         let forward := if old.day ≠ day then decide (old.day < day)
           else if old.minute % 1440 ≠ minute % 1440 then decide (old.minute % 1440 < minute % 1440) else decide (old.second < second)
         let passed := decide (old.day + 7 ≤ day) || minutePassed old.minute minute s.tp.effective.refillMinute
         let due := s.tk.lastRefill.all fun d => decide (d + 6 ≤ day)
         if old.valid && forward && passed && due then
           { s with
             tk := { s.tk with wall := new, lastRefill := some day }
             au.accounts := s.au.accounts.map Account.topUp }.replied 0x01 tag .ok .none
         else { s with tk := { s.tk with wall := new } }.replied 0x01 tag .ok .none)) ∧
  (∀ old new m : Nat, old ≤ 10079 → new ≤ 10079 → m ≤ 10079 →
     (minutePassed old new m = true ↔
       (old < new ∧ old < m ∧ m ≤ new) ∨ (new < old ∧ (old < m ∨ m ≤ new))))

/-! ### Configuration tables -/

/-- PARAM_PUT of distinct parameters within their ranges (chapter 10, 10.3): the written set takes the values at once; with the
record memory present they wait on the write of the parameter record, the effective set unchanged; with it absent they take effect
and the REPLY with the not-persisted mark is queued. Values taking effect: the effective set takes exactly the carried values; a
changed rejoin limit sets every BARRED row's count to it and lowers every other count at or above it to one below (chapter 2, 2.4);
a changed horizon puts the service queue to its law (chapter 5, 5.5); a summary interval of 0 holds the minutes since the last SUMMARY
at 0 (chapter 10, 10.7). Nothing else changes. -/
def Obligations.ParametersAreWrittenAndTakeEffect : Prop :=
  (∀ (tag : Byte) (values : List (ParamId × Nat)) (s : State), s.serves → s.canWrite → values ≠ [] →
     (values.map (·.1)).Nodup → (∀ v ∈ values, v.1.range.1 ≤ v.2 ∧ v.2 ≤ v.1.range.2) →
     let payload := bytesOf 1 values.length ++ values.flatMap fun v => bytesOf 1 (ParamId.all.idxOf v.1) ++ bytesOf 2 v.2
     let u : State := { s with tp := { s.tp with written := s.tp.written.enter values } }
     exec (.paramPut tag payload) s = .next (
       if s.rmi.absent then (applyParams values u).replied 0x02 tag .ok (.persisted true)
       else u.awaiting 0x02 tag (.record .parameter (recordUnit .parameter 1 (paramsBytes u.tp.written)) values))) ∧
  (∀ (values : List (ParamId × Nat)) (s : State), (values.map (·.1)).Nodup →
     (∀ p, (applyParams values s).tp.effective.get p = ((values.find? fun v => v.1 == p).map (·.2)).getD (s.tp.effective.get p)) ∧
     (let new := (applyParams values s).tp.effective.rejoinLimit
      ∀ a, (applyParams values s).slc.rows.get a =
       if new = s.tp.effective.rejoinLimit then s.slc.rows.get a
       else if (s.slc.rows.get a).state = .barred then { s.slc.rows.get a with rejoin := new }
       else if new ≤ (s.slc.rows.get a).rejoin then { s.slc.rows.get a with rejoin := new - 1 }
       else s.slc.rows.get a) ∧
     (if (applyParams values s).tp.effective.horizon = s.tp.effective.horizon then (applyParams values s).ft = s.ft
      else (applyParams values s).queueLaw ∧ (applyParams values s).ft.rows = s.ft.rows) ∧
     applyParams values s = { s with
       tp := { s.tp with
         effective := (applyParams values s).tp.effective
         sinceSummary := if (applyParams values s).tp.effective.summaryInterval = 0 then 0 else s.tp.sinceSummary }
       slc := { s.slc with rows := (applyParams values s).slc.rows }
       ft := { s.ft with queue := (applyParams values s).ft.queue } })

/-- PROFILE_PUT of a legal profile (chapter 5, 5.2; chapter 4, 4.10): the entry is replaced; every container that names it has its
rise and fall counts cleared, and a changed full threshold recomputes its TTF and re-evaluates its membership; no other container
changes. Then the record is written through. -/
def Obligations.ProfilePutReplaces : Prop :=
  ∀ (tag : Byte) (n : Fin 16) (p : Profile) (s : State), s.serves → s.canWrite → profileValid p = true →
    ∃ u : State, exec (.profilePut tag (bytesOf 1 n.val ++ profileBytes p)) s = .next (u.written 0x03 tag (.profile n)) ∧
      u = { s with ft := u.ft } ∧ u.ft.profiles = s.ft.profiles.set n p ∧
      (∀ r, u.ft.rows.get r = (match configOf s r with
        | some c =>
          if c.profile = n then
            { s.ft.rows.get r with fill :=
              { fillOf s r with
                rise := 0, fall := 0
                ttf := if (s.ft.profiles.get n).fu = p.fu then (fillOf s r).ttf else timeToFull p.fu (fillOf s r).i (fillOf s r).r } }
          else s.ft.rows.get r
        | none => s.ft.rows.get r)) ∧
      (s.queueLaw → u.queueLaw)

/-- CONTAINER_PUT of a legal container (chapter 5, 5.1): the row takes the fields. A row that was empty starts at the COLD values,
IN_USE; a row that held the container keeps its dynamic part, but for a fresh start when E or F changes and cleared counts when the
profile changes. No other row changes, the row's service queue membership is re-evaluated, and the record is written through. An UNBOUND
station row of the new address becomes ABSENT; a row with no serial whose last container has been moved to another address becomes
UNBOUND, its queue emptied and its counts and marks cleared (chapter 2, 2.2), so that a poll of it on the loop delivers nothing (3.6); every
other station row stays. That the due mark goes too is the model's (log 14). -/
def Obligations.ContainerPutEnters : Prop :=
  ∀ (tag : Byte) (r : Row) (c : ContainerConfig) (s : State), s.serves → s.canWrite →
    c.number ≠ 0 → c.number ≠ 0xFFFFFFFF → 100 ≤ c.full → c.empty ≤ 6000 → c.full + 200 ≤ c.empty →
    (∀ q d, configOf s q = some d → q ≠ r → d.number ≠ c.number ∧ (d.station = c.station → d.bay ≠ c.bay)) →
    (∀ d, configOf s r = some d → d.number = c.number ∧ hasTraffic s r = false) →
    let leaves := fun a => (∃ d, configOf s r = some d ∧ d.station = a) ∧ a ≠ c.station ∧ (s.slc.rows.get a).serial = none ∧
      ∀ q d, q ≠ r → configOf s q = some d → d.station ≠ a
    ∃ u : State, exec (.containerPut tag (bytesOf 1 r.val ++ containerBytes c)) s = .next (u.written 0x04 tag (.container r)) ∧
      (∀ q, u.ft.rows.get q = if q = r then
          { config := some c
            fill := match configOf s r with
              | none => Fill.cold
              | some d =>
                { fillOf s r with
                  fresh := (fillOf s r).fresh || decide (d.empty ≠ c.empty ∨ d.full ≠ c.full)
                  ref := if d.empty ≠ c.empty ∨ d.full ≠ c.full then none else (fillOf s r).ref
                  rise := if d.profile ≠ c.profile then 0 else (fillOf s r).rise
                  fall := if d.profile ≠ c.profile then 0 else (fillOf s r).fall } }
        else s.ft.rows.get q) ∧
      serviceOf u r = (if (configOf s r).isSome then serviceOf s r else .inUse) ∧ (∀ q, q ≠ r → serviceOf u q = serviceOf s q) ∧
      (∀ a, leaves a → u.slc.rows.get a = { s.slc.rows.get a with
        state := .unbound, awakeSince := false, miss := 0, rejoin := 0, joinPrior := none, raised := false, due := false, queue := [] }) ∧
      (∀ a, ¬leaves a → u.slc.rows.get a =
        if a = c.station ∧ (s.slc.rows.get a).state = .unbound then { s.slc.rows.get a with state := .absent } else s.slc.rows.get a) ∧
      (∀ p, s.slc.turn = some (.poll p) → leaves p.address → u.slc.turn = some (.poll { p with standing := false })) ∧
      ((∀ p, s.slc.turn = some (.poll p) → ¬leaves p.address) → u.slc.turn = s.slc.turn) ∧
      u.slc = { s.slc with rows := u.slc.rows, turn := u.slc.turn } ∧ (s.queueLaw → u.queueLaw) ∧ u.ft.profiles = s.ft.profiles ∧
      u.rm.slots = s.rm.slots ∧ u.tk = s.tk ∧ u.clu = s.clu ∧ u.au = s.au ∧ u.rmi = s.rmi ∧ u.tp = s.tp ∧ u.memory = s.memory

/-- CONTAINER_DROP of a container without traffic (chapter 5, 5.1): its row is empty with the COLD values, IN_USE, and out of the
service queue; the last container of a row with no serial leaves it UNBOUND with its queue emptied and its counts and marks cleared
(chapter 2, 2.2; that the due mark goes too is the model's, log 14), so that a poll of it on the loop delivers nothing (3.6); the empty
record is written through. Nothing else changes. -/
def Obligations.ContainerDropEmpties : Prop :=
  ∀ (tag : Byte) (n : Number) (r : Row) (c : ContainerConfig) (s : State), s.serves → s.canWrite → n ≠ 0 → n ≠ 0xFFFFFFFF →
    containerOf s n = some r → configOf s r = some c → hasTraffic s r = false →
    ∃ u : State, exec (.containerDrop tag (bytesOf 4 n.toNat)) s = .next (u.written 0x05 tag (.container r)) ∧
      u.ft.rows = s.ft.rows.set r { config := none, fill := Fill.cold } ∧ u.ft.queue = s.ft.queue.filter (· != r) ∧
      u.ft.profiles = s.ft.profiles ∧ u.rm.service = s.rm.service.set r .inUse ∧ u.rm.slots = s.rm.slots ∧
      (∀ a, a ≠ c.station → u.slc.rows.get a = s.slc.rows.get a) ∧
      ((s.slc.rows.get c.station).serial.isSome = true ∨ (∃ q d, q ≠ r ∧ configOf s q = some d ∧ d.station = c.station) →
        u.slc = s.slc) ∧
      ((s.slc.rows.get c.station).serial = none → (∀ q d, q ≠ r → configOf s q = some d → d.station ≠ c.station) →
        u.slc.rows.get c.station = { s.slc.rows.get c.station with
          state := .unbound, awakeSince := false, miss := 0, rejoin := 0, joinPrior := none, raised := false, due := false
          queue := [] } ∧
        (∀ p, s.slc.turn = some (.poll p) → p.address = c.station → u.slc.turn = some (.poll { p with standing := false })) ∧
        ((∀ p, s.slc.turn = some (.poll p) → p.address ≠ c.station) → u.slc.turn = s.slc.turn)) ∧
      u.slc = { s.slc with rows := u.slc.rows, turn := u.slc.turn } ∧
      u.tk = s.tk ∧ u.clu = s.clu ∧ u.au = s.au ∧ u.rmi = s.rmi ∧ u.tp = s.tp ∧ u.memory = s.memory

/-- STATION_PUT and STATION_DROP (chapter 2, 2.2): the row takes the serial and the pinned flag. A changed serial clears the rejoin
and miss counts, the awake-since-reset flag, the last join kind and the join cause, and leaves the row ABSENT when it is bound and
UNBOUND otherwise; with the serial unchanged nothing but the pinned flag changes. Every other row stays, and the record is written
through. That the downstream queue is kept where the row becomes UNBOUND is the model's choice (log 20). -/
def Obligations.StationPutAndDrop : Prop :=
  (∀ (tag : Byte) (a : Station) (serial : Option Serial) (pinned : Bool) (s : State), s.serves → s.canWrite →
    (∀ b, b ≠ a → serial.isSome = true → (s.slc.rows.get b).serial ≠ serial) →
    ((s.slc.rows.get a).serial = serial ∨ (s.slc.rows.get a).state ∈ [.unbound, .absent, .lost, .barred]) →
    ∃ u : State, exec (.stationPut tag (bytesOf 1 (addressOf a) ++ stationBytes serial pinned)) s = .next (u.written 0x06 tag (.station a)) ∧
      (∀ b, b ≠ a → u.slc.rows.get b = s.slc.rows.get b) ∧
      u = { s with slc := { s.slc with rows := u.slc.rows } } ∧
      (if (s.slc.rows.get a).serial = serial then u.slc.rows.get a = { s.slc.rows.get a with pinned := pinned }
       else
        let r := u.slc.rows.get a
        r.serial = serial ∧ r.pinned = pinned ∧ r.rejoin = 0 ∧ r.miss = 0 ∧ r.awakeSince = false ∧ r.lastJoin = none ∧
        r.joinCause = none ∧ r.state = (if isBound u a then .absent else .unbound) ∧ r.queue = (s.slc.rows.get a).queue ∧
        r.stableSince = (s.slc.rows.get a).stableSince ∧ r.nextSeq = (s.slc.rows.get a).nextSeq)) ∧
  (∀ (tag : Byte) (a : Station) (s : State), s.serves → s.canWrite →
    (s.slc.rows.get a).state ∈ [StationState.unbound, .absent, .lost, .barred] →
    ∃ u : State, exec (.stationDrop tag (bytesOf 1 (addressOf a))) s = .next (u.written 0x07 tag (.station a)) ∧
      (∀ b, b ≠ a → u.slc.rows.get b = s.slc.rows.get b) ∧ u = { s with slc := { s.slc with rows := u.slc.rows } } ∧
      let r := u.slc.rows.get a
      r.serial = none ∧ r.pinned = false ∧ r.rejoin = 0 ∧ r.miss = 0 ∧ r.awakeSince = false ∧ r.lastJoin = none ∧
      r.joinCause = none ∧ r.state = (if (boundTo s a).isEmpty then .unbound else .absent))

/-- R24: STATION_CLEAR. -/
def Obligations.StationClearClears : Prop :=
  (∀ (tag address : Byte) (s : State), s.hold = .running → s.tp.occupancy < 128 → s.rmi.restoring = true →
    exec (.stationClear tag [address]) s = .next (s.replied 0x08 tag .notReady .none)) ∧
  (∀ (tag address : Byte) (s : State), s.serves → (address.toNat = 0 ∨ 62 < address.toNat) →
    exec (.stationClear tag [address]) s = .next (s.replied 0x08 tag .badField .none)) ∧
  (∀ (tag : Byte) (a : Station) (s : State), s.serves →
    ∃ u : State, exec (.stationClear tag (bytesOf 1 (addressOf a))) s = .next (u.replied 0x08 tag .ok .none) ∧
      u = { s with slc := { s.slc with rows := s.slc.rows.set a { s.slc.rows.get a with
        rejoin := 0
        state := if (s.slc.rows.get a).state = .barred then .lost else (s.slc.rows.get a).state } } }) ∧
  (∀ (r : StationRow) (uptime : Clock) (limit : Nat), r.state = .joining → r.rejoin = 0 → r.awakeSince = true →
    r.joinPrior = some .lost →
    (r.completeJoin uptime limit).lastJoin = some .comeback ∧ (r.completeJoin uptime limit).rejoin = 1)

/-- WINDOW_PUT, CLASS_PUT and COST_PUT (chapter 7, 7.3 and 7.5): the entry takes the fields, nothing else changes, and the record is
written through. That bit 7 of a window's day mask, which names no day, is kept and written as it came is the model's choice (log 21).
ACCOUNT_PUT within its ranges (7.6): the account is loaded with the fields, its held amount kept; its REPLY is
queued at once and nothing is written to the record memory. -/
def Obligations.AdmissionTablesPut : Prop :=
  ((∀ (tag : Byte) (n : Fin 16) (w : Window) (s : State), s.serves → s.canWrite → w.start ≤ 1439 → w.stop ≤ 1439 →
     exec (.windowPut tag (bytesOf 1 n.val ++ windowBytes w)) s =
       .next ({ s with au := { s.au with windows := s.au.windows.set n w } }.written 0x09 tag (.window n))) ∧
   (∀ (tag : Byte) (n : Fin 8) (c : CardClass) (s : State), s.serves → s.canWrite →
     exec (.classPut tag (bytesOf 1 n.val ++ [classByte c])) s =
       .next ({ s with au := { s.au with classes := s.au.classes.set n c } }.written 0x0A tag (.cls n))) ∧
   (∀ (tag : Byte) (n : Fin 8) (cost : Nat) (s : State), s.serves → s.canWrite → cost ≤ 255 →
     exec (.costPut tag (bytesOf 1 n.val ++ bytesOf 1 cost)) s =
       .next ({ s with au := { s.au with costs := s.au.costs.set n cost } }.written 0x0B tag (.cost n)))) ∧
  (∀ (tag : Byte) (n : Fin 4096) (balance : Int) (limit refill cap : Nat) (blocked : Bool) (s : State), s.serves →
     -32768 ≤ balance → balance ≤ 32767 → limit ≤ 32767 → refill ≤ 32767 → cap ≤ 32767 →
     exec (.accountPut tag (bytesOf 2 n.val ++ bytesOfInt 2 balance ++ bytesOf 2 limit ++ bytesOf 2 refill ++ bytesOf 2 cap ++
         [flagByte blocked])) s =
       let account : Account :=
         { loaded := true, blocked := blocked, balance := balance, held := (s.au.accounts.get n).held, limit := limit,
           refill := refill, cap := cap }
       .next ({ s with au := { s.au with accounts := s.au.accounts.set n account } }.replied 0x0E tag .ok .none))

/-! ### Cards, rounds and messages from the centre -/

/-- CARD_PUT and CARD_DROP accepted (chapter 6, 6.4): the card's cache entry, if it has one, becomes invalid and leaves the recency
order, a granted fetch of its bucket becomes stale, and the write waits on the write queue. CACHE_FLUSH (6.4): every entry becomes invalid
and every granted fetch stale. Nothing else changes. -/
def Obligations.CardCommandsAccepted : Prop :=
  let withdrawn (n : Number) (u : CardLookup) : CardLookup := { u with
    entries := match cacheFind u n with
      | some i => u.entries.set i none
      | none => u.entries
    recency := match cacheFind u n with
      | some i => u.recency.filter (· != i)
      | none => u.recency
    missList := u.missList.map fun e => if e.granted && e.bucket.val == n.toNat % 4096 then { e with stale := true } else e }
  (∀ (tag : Byte) (card : CardRecord) (s : State), s.serves → s.rmi.absent = false → s.rmi.queue.length < 8 →
    card.number ≠ 0 → card.number ≠ 0xFFFFFFFF → (∀ d ∈ card.expiry, d ≤ 65535) → (∀ d ∈ card.start, d ≤ 65535) →
    exec (.cardPut tag ((slotOf card).take 15)) s =
      .next ({ s with clu := withdrawn card.number s.clu }.awaiting 0x0C tag (.cardPut card))) ∧
  (∀ (tag : Byte) (n : Number) (s : State), s.serves → s.rmi.absent = false → s.rmi.queue.length < 8 → n ≠ 0 → n ≠ 0xFFFFFFFF →
    exec (.cardDrop tag (bytesOf 4 n.toNat)) s =
      .next ({ s with clu := withdrawn n s.clu }.awaiting 0x0D tag (.cardDrop n))) ∧
  (∀ (tag : Byte) (s : State), s.serves →
    exec (.cacheFlush tag []) s =
      let missList : List MissEntry := s.clu.missList.map fun e => if e.granted then { e with stale := true } else e
      .next ({ s with clu := { s.clu with entries := Table.replicate 32 none, recency := [], missList := missList } }.replied 0x12 tag
        .ok .none))

/-- A card installed from a fetch (chapter 6, 6.3) is found by the next lookup with the record as read, as the most recently used
entry; a cache that keeps its law keeps it. A search of the cache for a card finds an entry that holds its number, if there is one. After
an accepted card write no valid cache entry holds the card, and every other card's entry stays (6.4). -/
def Obligations.CacheServesWhatWasRead : Prop :=
  (∀ (r : CardRecord) (u : CardLookup) (s : State), s.clu = u → s.cacheLaw →
     (∃ i, cacheFind (u.install r) r.number = some i ∧ (u.install r).entries.get i = some r ∧
       (u.install r).recency.head? = some i) ∧
     State.cacheLaw { s with clu := u.install r }) ∧
  (∀ (n : Number) (u : CardLookup),
     (∀ i, cacheFind u n = some i → (u.entries.get i).any (fun r => r.number == n) = true) ∧
     (cacheFind u n = none ↔ ∀ i, (u.entries.get i).any (fun r => r.number == n) = false)) ∧
  (∀ (n : Number) (s : State), s.cacheLaw →
     cacheFind (s.clu.invalidate n) n = none ∧
     (∀ i r, s.clu.entries.get i = some r → r.number ≠ n → (s.clu.invalidate n).entries.get i = some r))

/-- ROUND_LOAD accepted (chapter 8, 8.2): the lowest FREE slot holds the round LOADED with one PENDING step for each list entry, in
list order; the listed containers leave the service queue; the REPLY names the slot (its position byte is open, log 16). Nothing
else changes but the model's own counter. -/
def Obligations.RoundLoadTakesASlot : Prop :=
  ∀ (tag : Byte) (number vehicle : Short) (duration allowance : Nat) (adHoc : Bool) (containers : List Number) (i : Fin 4)
    (s : State), s.serves → number ≠ 0 → vehicle ≠ 0 → vehicle ≠ 0xFFFF → 1 ≤ duration → duration ≤ 1440 → allowance ≤ 8 →
    1 ≤ containers.length → containers.length ≤ 48 → containers.Nodup → (∀ n ∈ containers, n ≠ 0 ∧ n ≠ 0xFFFFFFFF) →
    (∀ n ∈ containers, ∃ r, containerOf s n = some r ∧ onActiveRound s r = false) →
    (∀ j rd, s.rm.slots.get j = some rd → rd.vehicle ≠ vehicle ∧ rd.number ≠ number) →
    s.rm.slots.get i = none → (∀ j, j < i → (s.rm.slots.get j).isSome = true) →
    ∃ position : Byte,
      let payload := shortBytes number ++ shortBytes vehicle ++ bytesOf 2 duration ++ bytesOf 1 allowance ++ [flagByte adHoc] ++
        bytesOf 1 containers.length ++ containers.flatMap numberBytes
      let rows := containers.filterMap (containerOf s)
      let round : Round :=
        { state := .loaded, number := number, vehicle := vehicle, load := s.tk.uptime, duration := duration, allowance := allowance,
          adHoc := adHoc, lastLift := none, endCause := none,
          steps := rows.map fun r =>
            { row := r, origin := .planned, state := .pending, timedOut := false, before := none, after := none, weight := 0,
              doneMinute := none, vehicle := none } }
      exec (.roundLoad tag payload) s =
        .next ({ s with
          rm := { s.rm with slots := s.rm.slots.set i (some round) }
          ft := { s.ft with queue := s.ft.queue.filter fun r => !rows.contains r }
          free := s.free + 1 }.replied 0x0F tag .ok (.roundLoad (BitVec.ofNat 8 i.val) position))

/-- ROUND_CANCEL, and a ROUND_END that an AWAKE row relays, of a LOADED or RUNNING round (chapter 8, 8.6): its PENDING steps are
MISSED; with a LIFTING step the slot is CLOSING with the cause, otherwise it is free and its ROUND_EVENT ENDED is posted; the
service queue keeps its law. ROUND_CANCEL's REPLY with OK comes last. ROUND_END is answered ROUND_CLOSED naming the round (the two
bytes before the round number are open, log 16). With no active round of the vehicle, or with that round already CLOSING, ROUND_CLOSED is
posted alone; with another round number it is refused NO_ROUND. -/
def Obligations.RoundsAreEnded : Prop :=
  (∀ (tag : Byte) (i : Fin 4) (rd : Round) (s : State), s.serves → s.rm.slots.get i = some rd → rd.number ≠ 0 →
     (∀ j other, s.rm.slots.get j = some other → other.number = rd.number → j = i) → rd.state ≠ .closing →
     (s.tp.line = none → s.tp.waiting = []) →
     ∃ t : State, exec (.roundCancel tag (shortBytes rd.number)) s = .next t ∧
       (let steps := rd.steps.map fun st => if st.state = .pending then { st with state := .missed, timedOut := false } else st
        if rd.steps.any (fun st => st.state == .lifting) then
         t.rm.slots = s.rm.slots.set i (some { rd with state := .closing, endCause := some .cancelled, steps := steps })
        else t.rm.slots = s.rm.slots.set i none ∧
         (s.tp.occupancy + 1 < 120 → UpEntry.report s.tp.reportSeq (.round
           { round := rd.number, vehicle := rd.vehicle, slot := i, news := .ended (some .cancelled) (stepCounts steps),
             stamp := s.stamp }) ∈ t.tp.entries)) ∧
       t.tp.entries.getLast? = some (.reply 0x10 tag .ok .none) ∧ (s.queueLaw → t.queueLaw) ∧ t.ft.rows = s.ft.rows ∧ t.tk = s.tk ∧
       t.slc = s.slc ∧ t.clu = s.clu ∧ t.au = s.au ∧ t.rmi = s.rmi ∧ t.memory = s.memory) ∧
  (∀ (a : Station) (flags : Byte) (vehicle round : Short) (s : State), s.hold = .running → s.polling a →
     (s.slc.rows.get a).state = .awake →
     let u := s.heard a flags
     let outcome := exec (.roundEnd flags vehicle round) s
     let replied (ans : VehicleAnswer) (t : State) : Prop :=
       ∃ high1 high2, t.slc = u.slc.offered a (.reply ans vehicle (.round round high1 high2))
     let alone (ans : VehicleAnswer) : Prop := ∃ t, outcome = .next t ∧ replied ans t ∧ t = { u with slc := t.slc, free := t.free }
     ((∀ i rd, s.rm.slots.get i = some rd → rd.vehicle ≠ vehicle) → alone .roundClosed) ∧
     (∀ i rd, s.rm.slots.get i = some rd → rd.vehicle = vehicle →
       (∀ j other, s.rm.slots.get j = some other → other.vehicle = vehicle → j = i) →
       (rd.number ≠ round → alone (.liftRefuse .noRound)) ∧ (rd.number = round → rd.state = .closing → alone .roundClosed)) ∧
     (∀ i rd, s.rm.slots.get i = some rd → rd.vehicle = vehicle → rd.number = round → rd.state ≠ .closing →
       (∀ j other, s.rm.slots.get j = some other → other.vehicle = vehicle → j = i) →
       ∃ t, outcome = .next t ∧ replied .roundClosed t ∧
         (let steps := rd.steps.map fun st => if st.state = .pending then { st with state := .missed, timedOut := false } else st
          if rd.steps.any (fun st => st.state == .lifting) then
           t.rm.slots = s.rm.slots.set i (some { rd with state := .closing, endCause := some .vehicleEnd, steps := steps })
          else t.rm.slots = s.rm.slots.set i none ∧
           (s.tp.occupancy < 120 → UpEntry.report s.tp.reportSeq (.round
             { round := rd.number, vehicle := rd.vehicle, slot := i, news := .ended (some .vehicleEnd) (stepCounts steps),
               stamp := s.stamp }) ∈ t.tp.entries)) ∧
         (s.queueLaw → t.queueLaw) ∧ t.ft.rows = s.ft.rows ∧ t.au = s.au ∧ t.clu = s.clu ∧ t.rmi = s.rmi ∧ t.tk = s.tk ∧
         t.memory = s.memory))

/-- HOLD_CLEAR of a HELD container (chapter 8, 8.4): its service state is IN_USE and no other container's changes, its membership of
the service queue is re-evaluated, one CONTAINER_STATUS with cause SERVICE is posted, and the REPLY with OK comes last. -/
def Obligations.HoldClearReleases : Prop :=
  ∀ (tag : Byte) (n : Number) (r : Row) (c : ContainerConfig) (cause : HoldCause) (held : Option StepRef) (s : State), s.serves →
    n ≠ 0 → n ≠ 0xFFFFFFFF → containerOf s n = some r → configOf s r = some c → serviceOf s r = .held cause held →
    (s.tp.line = none → s.tp.waiting = []) →
    ∃ t : State, exec (.holdClear tag (bytesOf 4 n.toNat)) s = .next t ∧ t.rm = { s.rm with service := s.rm.service.set r .inUse } ∧
      t.ft = (reevaluate r s).ft ∧
      (s.tp.occupancy + 1 < 120 → UpEntry.report s.tp.reportSeq (.containerStatus
        { number := c.number, row := r, cause := .service, fill := (fillOf s r).fill, fillBefore := (fillOf s r).fill,
          health := (fillOf s r).health, healthBefore := (fillOf s r).health, service := .inUse, lf := (fillOf s r).lf,
          i := (fillOf s r).i, ttf := (fillOf s r).ttf, drop := (fillOf s r).drop, member := (reevaluate r s).ft.queue.contains r,
          stamp := s.stamp }) ∈ t.tp.entries) ∧
      t.tp.entries.getLast? = some (.reply 0x11 tag .ok .none) ∧ t.tk = s.tk ∧ t.slc = s.slc ∧ t.clu = s.clu ∧ t.au = s.au ∧
      t.rmi = s.rmi ∧ t.memory = s.memory

/-- PASS_DOWN to a container whose station is AWAKE, DOZING or SILENT and whose queue has room and no PASS_DOWN (chapter 10, 10.5;
chapter 3, 3.6): the command enters the tail of that row's queue with the row's next sequence number; the REPLY with OK is queued.
Nothing else changes. It is BAD_FIELD for a number that is no container's, NOT_FOUND for one that no row holds, REFUSED_STATE when the
station is in any other state, and BUSY when the queue holds five commands or a PASS_DOWN; then nothing is queued but the REPLY. -/
def Obligations.PassDownEntersTheQueue : Prop :=
  ∀ (tag : Byte) (n : Number) (bytes : List Byte) (s : State), s.serves → 1 ≤ bytes.length → bytes.length ≤ 32 →
    let outcome := exec (.passDown tag (bytesOf 4 n.toNat ++ bytesOf 1 bytes.length ++ bytes)) s
    (n = 0 ∨ n = 0xFFFFFFFF → outcome = .next (s.replied 0x13 tag .badField .none)) ∧
    (n ≠ 0 → n ≠ 0xFFFFFFFF → containerOf s n = none → outcome = .next (s.replied 0x13 tag .notFound .none)) ∧
    (∀ r c, n ≠ 0 → n ≠ 0xFFFFFFFF → containerOf s n = some r → configOf s r = some c →
      let row := s.slc.rows.get c.station
      let room := row.queue.length < 5 ∧ ∀ q ∈ row.queue, q.command.isPassDown = false
      let row' : StationRow :=
        { row with queue := row.queue ++ [{ seq := row.nextSeq, command := .passDown c.bay bytes }], nextSeq := row.nextSeq + 1 }
      (row.state ∉ [.awake, .dozing, .silent] → outcome = .next (s.replied 0x13 tag .refusedState .none)) ∧
      (row.state ∈ [.awake, .dozing, .silent] → ¬room → outcome = .next (s.replied 0x13 tag .busy .none)) ∧
      (row.state ∈ [.awake, .dozing, .silent] → room →
        outcome = .next ({ s with slc := { s.slc with rows := s.slc.rows.set c.station row' } }.replied 0x13 tag .ok .none)))

/-- The six queries (chapter 10, 10.4; chapter 11, 11.2): each answers with the fields its section lists, in its order, read as they
stand, and changes nothing but the upstream queue. STATUS (1.5, 6.5, 7.10, 8.8, 9.9, 10.4) is answered in RESTORING too. CONTAINER gives
the fields of 5.4, 4.11, 8.8 and 7.10, STATION those of 2.9, ACCOUNT those of 7.10 with the first 40 containers, ROUND those of 8.8 with
up to eight steps behind the offset, and SERVICE_QUEUE those of 5.5. A number, address, account, offset or count outside its range is
BAD_FIELD, a container or round that is not held NOT_FOUND. That STATUS counts the command's own reservation is the model's choice (log
38), and so are what the layouts settle beyond section 11.2 (log 26, 39, 40, 41, 47, 48), the minutes and seconds left when a limit is
already passed (log 36, 45), and that an offset above 47 is judged before the round number is looked for (log 46). -/
def Obligations.QueriesAnswer : Prop :=
  let clock (c : Clock) : List Byte := bytesOf 4 c.toNat
  let number (n : Number) : List Byte := bytesOf 4 n.toNat
  let short (n : Short) : List Byte := bytesOf 2 n.toNat
  let since (now start : Clock) : Nat := (now - start).toNat
  let place (p : StepRef) : List Byte := bytesOf 1 p.slot.val ++ bytesOf 1 (p.position + 1)
  let slotByte (slot : Option Round) : Byte := match slot with
    | none => 0
    | some rd => nameByte [.loaded, .running, .closing] rd.state + 1
  ((∀ (size : Nat) (bytes : List Byte) (items : List (List Byte)),
      optBytes size (some bytes) = 1 :: bytes ∧ optBytes size none = 0 :: List.replicate size 0 ∧
      listBytes items = bytesOf 1 items.length ++ items.flatten) ∧ flagByte true = 1 ∧ flagByte false = 0) ∧
  (∀ (tag : Byte) (s : State), s.hold = .running → s.tp.occupancy < 128 →
    let w := s.tk.wall
    let entries := s.tp.line.toList ++ s.tp.waiting
    let target (body : WriteBody) : List Byte := match body with
      | .cardPut card => [0] ++ optBytes 4 (some (number card.number)) ++ optBytes 2 none
      | .cardDrop n => [1] ++ optBytes 4 (some (number n)) ++ optBytes 2 none
      | .record t _ _ => [2] ++ optBytes 4 none ++ optBytes 2 (some (bytesOf 1 t.kind.val ++ bytesOf 1 t.position))
      | .header => [3] ++ optBytes 4 none ++ optBytes 2 none
      | .format => [4] ++ optBytes 4 none ++ optBytes 2 none
    let time := clock s.tk.seconds ++ clock s.tk.uptime ++ [flagByte w.valid] ++
      (if w.valid then bytesOf 2 w.day ++ bytesOf 2 w.minute ++ bytesOf 1 w.second else [0xFF, 0xFF, 0xFF, 0xFF]) ++
      optBytes 2 (s.tk.lastRefill.map (bytesOf 2)) ++ bytesOf 2 s.tp.effective.refillMinute
    let lookup := bytesOf 1 (s.clu.entries.rows.countP (·.isSome)) ++ listBytes (s.clu.missList.map fun e => [flagByte e.granted]) ++
      bytesOf 1 s.clu.slotWait.length
    let admission := bytesOf 1 s.au.requests.length ++ bytesOf 1 (s.au.deposits.rows.countP (·.isSome)) ++
      [flagByte (w.valid && s.au.windows.rows.any (·.enabled))]
    let rounds := s.rm.slots.rows.flatMap fun slot =>
      [slotByte slot] ++ short ((slot.map (·.number)).getD 0) ++ short ((slot.map (·.vehicle)).getD 0)
    let memory := [flagByte (!s.rmi.restoring), flagByte s.rmi.absent] ++
      optBytes 1 (s.rmi.header.map fun h => [nameByte [.good, .bad, .foreign, .blank] h]) ++
      (s.rmi.counts.rows.flatMap fun c => bytesOf 1 c.loaded ++ bytesOf 1 c.empty ++ bytesOf 1 c.bad) ++
      optBytes 2 (if s.rmi.restoring then (match s.rmi.progress with
        | .identify _ | .header => some (bytesOf 2 0)
        | .records n => some (bytesOf 2 n)
        | .ended => some (bytesOf 2 303)) else none) ++
      bytesOf 1 s.rmi.queue.length ++ optBytes 9 ((s.rmi.queue.find? (·.inProgress)).map fun e => target e.body) ++
      [flagByte (s.rmi.queue.any fun e => e.body == .header || e.body == .format)] ++
      bytesOf 1 (s.clu.missList.countP fun e => !e.granted) ++
      [flagByte (match s.rmi.port with
        | some (.fetch _ _) => true
        | _ => false)] ++ bytesOf 1 s.rmi.fetchRun
    let trunk := bytesOf 1 (entries.countP (·.isReply)) ++ bytesOf 1 (entries.countP fun e => !e.isReply) ++
      bytesOf 1 (s.tp.reserved + 1) ++ [s.tp.reportSeq] ++
      bytesOf 2 s.tp.crcErrors ++ bytesOf 2 s.tp.droppedReports ++ bytesOf 2 s.tp.commandOverruns ++
      bytesOf 2 s.au.grants ++ bytesOf 2 s.au.denials ++ bytesOf 2 s.au.releases ++ bytesOf 2 s.au.ignoredCloses ++
      bytesOf 2 s.slc.polls ++ bytesOf 2 s.slc.noAnswers ++ bytesOf 2 s.slc.collisions ++ bytesOf 2 s.slc.ignoredJoins ++
      bytesOf 2 s.clu.hits ++ bytesOf 2 s.clu.misses ++ bytesOf 2 s.clu.memoryErrors ++
      bytesOf 2 s.tp.sinceSummary ++ bytesOf 2 s.tp.effective.summaryInterval ++
      (ParamId.all.flatMap fun p => bytesOf (if p.range.2 ≤ 255 then 1 else 2) (s.tp.effective.get p) ++
        [flagByte (s.tp.written.get p != s.tp.effective.get p)]) ++
      ([StationState.unbound, .absent, .joining, .awake, .dozing, .silent, .lost, .barred].flatMap fun st =>
        bytesOf 1 (s.slc.rows.rows.countP fun row => row.state == st)) ++
      bytesOf 1 (s.slc.rows.rows.countP (·.member))
    exec (.queryStatus tag []) s =
      .next (s.replied 0x14 tag .ok (.answer (time ++ lookup ++ admission ++ rounds ++ memory ++ trunk)))) ∧
  (∀ (tag : Byte) (n : Number) (r : Row) (c : ContainerConfig) (s : State), s.serves → n ≠ 0 → n ≠ 0xFFFFFFFF →
    containerOf s n = some r → configOf s r = some c →
    let f := fillOf s r
    let p := s.ft.profiles.get c.profile
    let configured := bytesOf 1 r.val ++ [flagByte true] ++ number c.number ++ bytesOf 1 (addressOf c.station) ++ bytesOf 1 c.bay.val ++
      bytesOf 1 c.fraction.val ++ bytesOf 1 c.cluster.val ++ bytesOf 1 c.profile.val ++ bytesOf 2 c.empty ++ bytesOf 2 c.full ++
      [flagByte c.enabled] ++ bytesOf 2 p.n ++ bytesOf 2 p.fu ++ bytesOf 2 p.o ++ bytesOf 2 p.h ++ bytesOf 1 p.d ++ bytesOf 1 p.k ++
      bytesOf 1 p.increment
    let dynamic := [nameByte [.low, .nearFull, .full, .overflow] f.fill] ++ bytesOf 1 f.rise ++ bytesOf 1 f.fall ++
      optBytes 1 ((s.ft.queue.findIdx? (· == r)).map fun k => bytesOf 1 (k + 1)) ++
      bytesOf 2 f.lf ++ bytesOf 2 f.i ++ bytesOf 2 f.r ++ optBytes 6 (f.ref.map fun x => bytesOf 2 x.1 ++ clock x.2) ++
      bytesOf 2 f.ttf ++ [nameByte [.noData, .good, .suspect, .fault] f.health] ++ bytesOf 1 f.implausible ++ clock f.lastPlausible ++
      [flagByte f.fresh, flagByte f.drop]
    let service := (match serviceOf s r with
      | .inUse => [0] ++ optBytes 2 none ++ optBytes 1 none ++ optBytes 4 none ++ optBytes 1 none ++ optBytes 2 none ++ optBytes 2 none
      | .serviceWait step relay => [1] ++ optBytes 2 (some (place step)) ++ optBytes 1 (some (bytesOf 1 (addressOf relay))) ++
        optBytes 4 none ++ optBytes 1 none ++ optBytes 2 none ++ optBytes 2 none
      | .service step relay start => [2] ++ optBytes 2 (some (place step)) ++ optBytes 1 (some (bytesOf 1 (addressOf relay))) ++
        optBytes 4 (some (clock start)) ++ optBytes 1 none ++ optBytes 2 none ++
        optBytes 2 (some (bytesOf 2 (s.tp.effective.serviceLimit - since s.tk.seconds start)))
      | .held cause step => [3] ++ optBytes 2 none ++ optBytes 1 none ++ optBytes 4 none ++
        optBytes 1 (some [nameByte [.timedOut, .unlocked] cause]) ++ optBytes 2 (step.map place) ++ optBytes 2 none) ++
      optBytes 3 ((s.rm.slots.rows.findSome? fun slot => slot.bind fun rd =>
        (rd.steps.findIdx? fun st => st.row == r && (st.state == .pending || st.state == .lifting)).map fun k =>
          (rd.number, k + 1)).map fun x => short x.1 ++ bytesOf 1 x.2)
    let admission := optBytes 9 ((s.au.requests.find? (·.row == r)).map fun q =>
        number q.card ++ [nameByte [.waitMissSlot, .waitFetch] q.phase] ++ clock q.arrival) ++
      optBytes 14 ((s.au.deposits.get r).map fun d =>
        number d.card ++ bytesOf 2 d.account.val ++ bytesOf 1 d.cost ++
          [nameByte [.charged, .exempt, .provisional] d.kind, d.tag, flagByte d.delivered] ++ clock d.granted)
    exec (.queryContainer tag (bytesOf 4 n.toNat)) s =
      .next (s.replied 0x14 tag .ok (.answer (configured ++ dynamic ++ service ++ admission)))) ∧
  (∀ (tag : Byte) (a : Station) (s : State), s.serves →
    let row := s.slc.rows.get a
    exec (.queryStation tag (bytesOf 1 (addressOf a))) s = .next (s.replied 0x14 tag .ok (.answer (
      optBytes 6 (row.serial.map fun n => bytesOf 6 n.toNat) ++ [flagByte row.pinned,
        nameByte [.unbound, .absent, .joining, .awake, .dozing, .silent, .lost, .barred] row.state, flagByte row.awakeSince] ++
      bytesOf 1 row.miss ++ bytesOf 1 row.rejoin ++ clock row.stableSince ++ bytesOf 2 row.doze ++ clock row.wake ++
      optBytes 1 (row.joinCause.map fun cause => [nameByte [.powerOn, .watchdog, .brownout, .soft] cause]) ++
      optBytes 1 (row.lastJoin.map fun kind => [nameByte [.first, .comeback, .restart] kind]) ++
      bytesOf 1 row.queue.length ++ [flagByte (row.queue.any (·.command.isPassDown)), flagByte row.member] ++
      listBytes ((List.finRange 192).filterMap fun r => match configOf s r with
        | some c => if c.station = a then some (number c.number ++ bytesOf 1 c.bay.val) else none
        | none => none))))) ∧
  (∀ (tag : Byte) (n : Fin 4096) (s : State), s.serves →
    let account := s.au.accounts.get n
    let rows := (List.finRange 192).filter fun r => (s.au.deposits.get r).any fun d => d.account == n
    exec (.queryAccount tag (bytesOf 2 n.val)) s = .next (s.replied 0x14 tag .ok (.answer (
      [flagByte account.loaded, flagByte account.blocked] ++ bytesOfInt 2 account.balance ++ bytesOf 2 account.held ++
      bytesOf 2 account.limit ++ bytesOf 2 account.refill ++ bytesOf 2 account.cap ++ bytesOf 1 rows.length ++
      listBytes ((rows.take 40).map fun r => number (((configOf s r).map (·.number)).getD 0)))))) ∧
  (∀ (tag : Byte) (i : Fin 4) (rd : Round) (offset : Nat) (s : State), s.serves → s.rm.slots.get i = some rd → rd.number ≠ 0 →
    offset ≤ 47 → (∀ j other, s.rm.slots.get j = some other → other.number = rd.number → j = i) →
    let left := if rd.state = .closing then 0 else rd.duration - since s.tk.uptime rd.load
    let stepBytes (st : Step) : List Byte :=
      bytesOf 1 st.row.val ++ [nameByte [.planned, .inserted, .adhoc] st.origin,
        nameByte [.pending, .lifting, .done, .missed] st.state, flagByte st.timedOut] ++
      optBytes 2 (st.before.map (bytesOf 2)) ++ optBytes 2 (st.after.map (bytesOf 2)) ++ short st.weight ++
      optBytes 4 (st.doneMinute.map fun stamp => match stamp with
        | some (day, minute) => bytesOf 2 day ++ bytesOf 2 minute
        | none => [0xFF, 0xFF, 0xFF, 0xFF]) ++
      optBytes 2 (st.vehicle.map short) ++ number (((configOf s st.row).map (·.number)).getD 0)
    exec (.queryRound tag (shortBytes rd.number ++ bytesOf 1 offset)) s = .next (s.replied 0x14 tag .ok (.answer (
      bytesOf 1 i.val ++ [slotByte (some rd)] ++ short rd.vehicle ++ clock rd.load ++ bytesOf 2 rd.duration ++ bytesOf 2 left ++
      bytesOf 1 rd.allowance ++ [flagByte rd.adHoc] ++ optBytes 5 (rd.lastLift.map fun l => clock l.1 ++ bytesOf 1 l.2.val) ++
      optBytes 1 (rd.endCause.map fun cause => [nameByte [.vehicleEnd, .expired, .cancelled] cause]) ++
      bytesOf 1 (rd.steps.countP (·.state == .done)) ++ bytesOf 1 (rd.steps.countP (·.state == .missed)) ++
      bytesOf 1 (rd.steps.countP (·.timedOut)) ++ bytesOf 1 (rd.steps.countP (·.origin == .inserted)) ++
      bytesOf 1 (rd.steps.countP (·.origin == .adhoc)) ++ bytesOf 1 (rd.steps.countP (·.origin == .planned)) ++
      bytesOf 1 rd.steps.length ++ listBytes (((rd.steps.drop offset).take 8).map stepBytes))))) ∧
  (∀ (tag : Byte) (n : Nat) (s : State), s.serves → 1 ≤ n → n ≤ 16 →
    exec (.queryServiceQueue tag (bytesOf 1 n)) s = .next (s.replied 0x14 tag .ok (.answer (
      bytesOf 1 s.ft.queue.length ++ listBytes ((s.ft.queue.take n).map fun r => match configOf s r with
        | some c => number c.number ++ bytesOf 1 r.val ++ bytesOf 2 (fillOf s r).ttf ++
          [nameByte [.low, .nearFull, .full, .overflow] (fillOf s r).fill,
            nameByte [.noData, .good, .suspect, .fault] (fillOf s r).health,
            nameByte [.inUse, .serviceWait, .service, .held] (serviceOf s r).name] ++
          bytesOf 1 c.cluster.val ++ bytesOf 1 c.fraction.val
        | none => []))))) ∧
  (∀ (tag : Byte) (s : State), s.serves →
    let badField : Host.Outcome State Fault Refusal := .next (s.replied 0x14 tag .badField .none)
    let notFound : Host.Outcome State Fault Refusal := .next (s.replied 0x14 tag .notFound .none)
    (∀ n, n = 0 ∨ n = 0xFFFFFFFF → exec (.queryContainer tag (number n)) s = badField) ∧
    (∀ n, n ≠ 0 → n ≠ 0xFFFFFFFF → containerOf s n = none → exec (.queryContainer tag (number n)) s = notFound) ∧
    (∀ n, n = 0 ∨ (62 < n ∧ n ≤ 255) → exec (.queryStation tag (bytesOf 1 n)) s = badField) ∧
    (∀ n, 4096 ≤ n → n ≤ 65535 → exec (.queryAccount tag (bytesOf 2 n)) s = badField) ∧
    (∀ n offset, n = 0 ∨ 47 < offset → offset ≤ 255 → exec (.queryRound tag (short n ++ bytesOf 1 offset)) s = badField) ∧
    (∀ n offset, n ≠ 0 → offset ≤ 47 → (∀ i rd, s.rm.slots.get i = some rd → rd.number ≠ n) →
      exec (.queryRound tag (short n ++ bytesOf 1 offset)) s = notFound) ∧
    (∀ n, n = 0 ∨ (16 < n ∧ n ≤ 255) → exec (.queryServiceQueue tag (bytesOf 1 n)) s = badField))

/-! ### Trunk resets -/

/-- RESET with scope TRAFFIC (chapter 10, 10.6; the reset tables of chapters 2, 3, 6, 7 and 8): in READY the turn is abandoned, the
waiting reports are discarded and the waiting REPLYs kept, every count of the SUMMARY is 0, JOINING rows become ABSENT, miss counts,
raised marks and downstream queues are cleared, requests, the cache and the miss list are emptied; the REPLY is queued; and then every
open deposit is committed as UNCONFIRMED, in row order, with its reports behind the REPLY (7.7). The configuration tables, the accounts
but for their balance and held amount, the rounds' slots but for steps inserted by a commit's overflow (8.7), the write queue and the
record memory are kept. That the clocks, with what the blocks have been told and not yet worked off, are kept is the model's choice in
part (log 30), and so is the count that makes an open slot the next turn (log 18). While RESTORING only the REPLY is queued. -/
def Obligations.ResetTrafficClears : Prop :=
  (∀ (tag : Byte) (s : State), s.serves →
    let cleared : State := { s with
      slc := { s.slc with
        rows := s.slc.rows.map fun row => { row with
          state := if row.state = .joining then .absent else row.state, miss := 0, joinPrior := none, queue := [], raised := false }
        turn := none, sinceOpen := 32, contention := false, streak := 0, lastAttention := 61, lastRoutine := 61
        polls := 0, noAnswers := 0, collisions := 0, ignoredJoins := 0 }
      clu := { entries := Table.replicate 32 none, recency := [], missList := [], slotWait := [], hits := 0, misses := 0
               memoryErrors := 0 }
      au := { s.au with requests := [], grants := 0, denials := 0, releases := 0, ignoredCloses := 0 }
      rmi := { s.rmi with fetchRun := 0, port := match s.rmi.port with
        | some (.fetch b _) => some (.fetch b true)
        | port => port }
      tp := { s.tp with waiting := s.tp.waiting.filter (·.isReply), crcErrors := 0, droppedReports := 0, commandOverruns := 0 } }
    exec (.resetTraffic tag []) s =
      .next ((List.finRange 192).foldl (fun u r => commitDeposit false r u) (cleared.replied 0x15 tag .ok .none)) ∧
    ((∀ r, s.au.deposits.get r = none) → exec (.resetTraffic tag []) s = .next (cleared.replied 0x15 tag .ok .none))) ∧
  (∀ (tag : Byte) (s : State), s.serves →
    ∃ t : State, exec (.resetTraffic tag []) s = .next t ∧ t.slc.turn = none ∧ t.au.requests = [] ∧
      (∀ a, (t.slc.rows.get a).state = (if (s.slc.rows.get a).state = .joining then .absent else (s.slc.rows.get a).state) ∧
        (t.slc.rows.get a).miss = 0 ∧ (t.slc.rows.get a).raised = false ∧ (t.slc.rows.get a).joinPrior = none ∧
        (t.slc.rows.get a).serial = (s.slc.rows.get a).serial ∧ (t.slc.rows.get a).rejoin = (s.slc.rows.get a).rejoin ∧
        ((∀ r, (serviceOf s r).name ≠ .serviceWait) → (t.slc.rows.get a).queue = [])) ∧
      (∀ r, (configOf s r).isSome = true → t.au.deposits.get r = none) ∧ (∀ r, configOf t r = configOf s r) ∧
      (∀ i, t.clu.entries.get i = none) ∧ t.clu.missList = [] ∧ t.clu.slotWait = [] ∧
      (∀ i, (t.rm.slots.get i).isSome = (s.rm.slots.get i).isSome) ∧ UpEntry.reply 0x15 tag .ok .none ∈ t.tp.entries ∧
      t.tk = s.tk ∧ t.rmi.queue = s.rmi.queue ∧ t.rmi.fetchRun = 0 ∧ t.rmi.restoring = false ∧ t.tp.effective = s.tp.effective ∧
      t.memory = s.memory ∧ t.hold = .running ∧
      (∀ a, (t.slc.rows.get a).pinned = (s.slc.rows.get a).pinned) ∧ t.ft.profiles = s.ft.profiles ∧
      t.au.windows = s.au.windows ∧ t.au.classes = s.au.classes ∧ t.au.costs = s.au.costs ∧ t.tp.written = s.tp.written ∧
      (∀ n, t.au.accounts.get n = { s.au.accounts.get n with
        balance := (t.au.accounts.get n).balance, held := (t.au.accounts.get n).held }) ∧
      (∀ i, s.rm.slots.get i = none → t.rm.slots.get i = none) ∧
      (∀ i rd, s.rm.slots.get i = some rd → ∃ more : List Step,
        t.rm.slots.get i = some { rd with steps := rd.steps ++ more, allowance := rd.allowance - more.length } ∧
        ∀ st ∈ more, st.origin = .inserted ∧ st.state = .pending) ∧
      (∀ r, (serviceOf s r).name ≠ .serviceWait → serviceOf t r = serviceOf s r)) ∧
  (∀ (tag : Byte) (s : State), s.hold = .running → s.tp.occupancy < 128 → s.rmi.restoring = true →
    exec (.resetTraffic tag []) s = .next (s.replied 0x15 tag .ok .none))

/-- RESET with scope FULL (chapter 10, 10.6; chapter 9, 9.8): the part holds, the turn and the memory operation are abandoned (a
write leaves what `cut` says, log 29), the write queue is gone, every waiting entry and reservation is discarded and the REPLY
stands behind the entry on the line. When its last byte has been sent every block takes its COLD values and the restore begins. That
the straps are read then is the model's reading of section 11.5 (log 28). -/
def Obligations.ResetFullHoldsAndRestarts : Prop :=
  (∀ (tag : Byte) (cut : Residue) (s : State), s.hold = .running → s.tp.occupancy < 128 →
    exec (.resetFull tag [] cut) s = .next { s with
      memory := (match activeWrite s with
        | some e => s.memory.writeCut (e.body.units s.memory) cut
        | none => s.memory)
      hold := .trunkFull
      slc := { s.slc with turn := none }
      rmi := { s.rmi with port := none, queue := [] }
      tp := { s.tp with receiver := .hunt, waiting := [], reserved := 0 }.enqueue (.reply 0x15 tag .ok .none) }) ∧
  (∀ (straps : Straps) (e : UpEntry) (s : State), s.hold = .trunkFull → s.tp.line = some e → s.tp.waiting = [] →
    exec (.fullResetReplySent straps) s = .next { State.reset with
      rmi := RecordMemory.cold .trunkFull, memory := s.memory, hold := .running, straps := straps, free := s.free,
      pending := s.pending })

/-! ### The record memory -/

/-- The port arbiter (chapter 9, 9.3), with the port free: while RESTORING the restore's next read is granted; a waiting write goes
first after three fetches; otherwise the oldest QUEUED fetch is granted and becomes stale when a card write to its bucket waits;
otherwise a waiting write is granted; otherwise the port stays free. Nothing else changes. -/
def Obligations.PortArbiterGrants : Prop :=
  ∀ s : State, s.hold = .running → s.rmi.port = none →
    (s.rmi.restoring = true → exec .portGrant s = .next { s with rmi := { s.rmi with port := (match s.rmi.progress with
      | .identify _ => some .identification
      | .header => some .header
      | .records _ => some .record
      | .ended => none) } }) ∧
    (∀ (e : WriteEntry) (rest : List WriteEntry), s.rmi.restoring = false → s.rmi.queue = e :: rest →
      (s.rmi.fetchRun = 3 ∨ ∀ m ∈ s.clu.missList, m.granted = true) →
      exec .portGrant s = .next { s with rmi := { s.rmi with
        port := some .write, fetchRun := 0, queue := { e with inProgress := true } :: rest } }) ∧
    (∀ (before after : List MissEntry) (m : MissEntry), s.rmi.restoring = false → (s.rmi.queue = [] ∨ s.rmi.fetchRun ≠ 3) →
      s.clu.missList = before ++ m :: after → (∀ x ∈ before, x.granted = true) → m.granted = false →
      (s.clu.missList.map (·.bucket)).Nodup →
      let stale := s.rmi.queue.any fun e => (e.body.card.map fun n => n.toNat % 4096) == some m.bucket.val
      exec .portGrant s = .next { s with
        clu := { s.clu with missList := before ++ { m with granted := true, stale := stale } :: after }
        rmi := { s.rmi with port := some (.fetch m.bucket false), fetchRun := min 3 (s.rmi.fetchRun + 1) } }) ∧
    (s.rmi.restoring = false → s.rmi.queue = [] → (∀ m ∈ s.clu.missList, m.granted = true) → exec .portGrant s = .next s)

/-- The identification read (chapter 9, 9.6; chapter 11, 11.4): the expected identification leads on to the header; another or a
failed one is tried again up to three times in all; then the memory is absent and the restore ends. The header read: a GOOD header
leads on to the records, a BAD one too with a memory error counted; for a BLANK or FOREIGN one the restore ends with an image format
queued. -/
def Obligations.RestoreOpens : Prop :=
  (∀ (failures : Nat) (s : State), s.hold = .running → s.rmi.port = some .identification → s.rmi.progress = .identify failures →
     (∀ (first second third : Byte) (more : List Byte), first ≠ 0x00 → first ≠ 0xFF → third = 0x13 →
       exec (.identificationReadComplete (some (first :: second :: third :: more))) s =
         .next { s with rmi := { s.rmi with port := none, progress := .header } }) ∧
     (∀ answer, isIdentified answer = false → failures < 2 →
       exec (.identificationReadComplete answer) s =
         .next { s with rmi := { s.rmi with port := none, progress := .identify (failures + 1) } }) ∧
     (∀ answer, isIdentified answer = false → failures = 2 →
       ∃ t, exec (.identificationReadComplete answer) s = .next t ∧ t.rmi.absent = true ∧ t.rmi.restoring = false ∧
         t.rmi.port = none ∧ t.rmi.queue = s.rmi.queue ∧ t.queueLaw ∧ t.memory = s.memory ∧
         (s.tp.occupancy < 120 → UpEntry.report s.tp.reportSeq (.restore
           { outcome := .memoryAbsent, header := s.rmi.header, cause := s.rmi.cause, counts := s.rmi.counts, stamp := s.stamp }) ∈
             t.tp.entries))) ∧
  (∀ (s : State), s.hold = .running → s.rmi.port = some .header →
     let unit := s.memory.readBytes 0 32
     (unitSum unit = 0x5A → unit.take 6 = [0x4E, 0x4C, 0x41, 0x42, 0x01, 0x2F] →
       exec (.headerReadComplete .asHeld) s =
         .next { s with rmi := { s.rmi with port := none, header := some .good, progress := .records 0 } }) ∧
     (unitSum unit ≠ 0x5A → (∃ b ∈ unit, b ≠ 0xFF) →
       exec (.headerReadComplete .asHeld) s = .next { s with
         clu := { s.clu with memoryErrors := min 65535 (s.clu.memoryErrors + 1) }
         rmi := { s.rmi with port := none, header := some .bad, progress := .records 0 } }) ∧
     (((∀ b ∈ unit, b = 0xFF) ∨ (unitSum unit = 0x5A ∧ unit.take 6 ≠ [0x4E, 0x4C, 0x41, 0x42, 0x01, 0x2F])) → s.rmi.absent = false →
       ∃ t, exec (.headerReadComplete .asHeld) s = .next t ∧ t.rmi.restoring = false ∧ t.rmi.port = none ∧
         t.rmi.queue = s.rmi.queue ++ [{ body := .format, reply := none, inProgress := false }] ∧
         t.rmi.counts.rows = [1, 16, 192, 62, 16, 8, 8].map (fun n => ⟨0, n, 0⟩) ∧ t.queueLaw ∧ t.memory = s.memory))

/-- A restore record read (chapter 9, 9.6; chapter 11, 11.4), short of the last: a good record of any kind enters its table entry and is
counted loaded, a container binding its station row (chapter 2, 2.2), a serial its own (2.1), and a summary interval of 0 holding the
minutes since the last SUMMARY at 0 (chapter 10, 10.7; log 25), and a window keeping bit 7 of its day mask, which names no day (log 21);
an erased record, or one whose check agrees and whose present mark is clear, leaves its entry and is counted empty; a record whose check
does not agree, whose kind code or present mark is wrong, or whose contents fail the checks of its kind (a value out of its range; a
container number, station and bay, or serial that a row already holds) leaves its entry and is counted bad, with a memory error; the next
record is due. The last record, whose entry is taken in the same way (said of a good one), ends the restore: the part is READY, every
station row is ABSENT when it is bound and UNBOUND otherwise, the service queue holds to its law, a HEADER write is queued when the header
was BAD and none when it was GOOD, and the RESTORE_REPORT is posted. -/
def Obligations.RestoreRecords : Prop :=
  (∀ (n : Nat) (s : State), s.hold = .running → s.rmi.port = some .record → s.rmi.progress = .records n → n < 302 →
     let unit := s.memory.readBytes (32 + 32 * n) 32
     (∀ (k : Fin 16) (p : Profile), n = 1 + k.val → profileValid p = true → unit = recordUnit (.profile k) 1 (profileBytes p) →
       exec (.restoreRecordReadComplete .asHeld) s = .next { s with
         ft := { s.ft with profiles := s.ft.profiles.set k p }
         rmi := { s.rmi with port := none, progress := .records (n + 1),
                             counts := s.rmi.counts.update 1 fun c => { c with loaded := c.loaded + 1 } } }) ∧
     (∀ t, targetAt n = some t → (∀ b ∈ unit, b = 0xFF) →
       exec (.restoreRecordReadComplete .asHeld) s = .next { s with
         rmi := { s.rmi with port := none, progress := .records (n + 1),
                             counts := s.rmi.counts.update t.kind fun c => { c with empty := c.empty + 1 } } }) ∧
     (∀ t, targetAt n = some t → (∃ b ∈ unit, b ≠ 0xFF) → unitSum unit ≠ 0x5A →
       exec (.restoreRecordReadComplete .asHeld) s = .next { s with
         clu := { s.clu with memoryErrors := min 65535 (s.clu.memoryErrors + 1) }
         rmi := { s.rmi with port := none, progress := .records (n + 1),
                             counts := s.rmi.counts.update t.kind fun c => { c with bad := c.bad + 1 } } })) ∧
  (∀ (n : Nat) (s : State), s.hold = .running → s.rmi.port = some .record → s.rmi.progress = .records n → n < 302 →
     let unit := s.memory.readBytes (32 + 32 * n) 32
     let outcome := exec (.restoreRecordReadComplete .asHeld) s
     let counted (kind : Fin 7) (f : RecordCounts → RecordCounts) : RecordMemory :=
       { s.rmi with port := none, progress := .records (n + 1), counts := s.rmi.counts.update kind f }
     let loaded (kind : Fin 7) : RecordMemory := counted kind fun c => { c with loaded := c.loaded + 1 }
     let bad (kind : Fin 7) : Prop := outcome = .next { s with
       clu := { s.clu with memoryErrors := min 65535 (s.clu.memoryErrors + 1) }
       rmi := counted kind fun c => { c with bad := c.bad + 1 } }
     (∀ p : Params, n = 0 → unit = recordUnit .parameter 1 (paramsBytes p) → (∀ i, p.get i ≤ 65535) →
       ((∀ i : ParamId, i.range.1 ≤ p.get i ∧ p.get i ≤ i.range.2) → outcome = .next { s with
         tp := { s.tp with effective := p, written := p,
                           sinceSummary := if p.summaryInterval = 0 then 0 else s.tp.sinceSummary }
         rmi := loaded 0 }) ∧
       ((∃ i : ParamId, p.get i < i.range.1 ∨ i.range.2 < p.get i) → bad 0)) ∧
     (∀ (k : Fin 16) (p : Profile), n = 1 + k.val → unit = recordUnit (.profile k) 1 (profileBytes p) →
       p.n ≤ 65535 → p.fu ≤ 65535 → p.o ≤ 65535 → p.h ≤ 65535 → p.d ≤ 255 → p.k ≤ 255 → p.increment ≤ 255 →
       profileValid p = false → bad 1) ∧
     (∀ (r : Row) (c : ContainerConfig), n = 17 + r.val → unit = recordUnit (.container r) 1 (containerBytes c) →
       c.empty ≤ 65535 → c.full ≤ 65535 →
       let legal := c.number ≠ 0 ∧ c.number ≠ 0xFFFFFFFF ∧ 100 ≤ c.full ∧ c.empty ≤ 6000 ∧ c.full + 200 ≤ c.empty
       let taken := ∃ q d, configOf s q = some d ∧ (d.number = c.number ∨ (d.station = c.station ∧ d.bay = c.bay))
       (legal → ¬taken → outcome = .next { s with
         ft := { s.ft with rows := s.ft.rows.set r { s.ft.rows.get r with config := some c } }
         slc := { s.slc with rows := s.slc.rows.update c.station fun row =>
           { row with state := if row.state = .unbound then .absent else row.state } }
         rmi := loaded 2 }) ∧
       (¬legal ∨ taken → bad 2)) ∧
     (∀ (r : Row) (b : List Byte), n = 17 + r.val → b.length = 14 → unit = recordUnit (.container r) 1 b →
       ((b.getD 4 0).toNat = 0 ∨ 62 < (b.getD 4 0).toNat ∨ 3 < (b.getD 5 0).toNat ∨ 7 < (b.getD 6 0).toNat ∨
         63 < (b.getD 7 0).toNat ∨ 15 < (b.getD 8 0).toNat) → bad 2) ∧
     (∀ (a : Station) (serial : Option Serial) (pinned : Bool), n = 209 + a.val →
       unit = recordUnit (.station a) 1 (stationBytes serial pinned) →
       let taken := serial.isSome = true ∧ ∃ b, b ≠ a ∧ (s.slc.rows.get b).serial = serial
       (¬taken → outcome = .next { s with
         slc := { s.slc with rows := s.slc.rows.set a { s.slc.rows.get a with
           serial := serial, pinned := pinned
           state := if serial.isSome = true ∧ (s.slc.rows.get a).state = .unbound then .absent else (s.slc.rows.get a).state } }
         rmi := loaded 3 }) ∧
       (taken → bad 3)) ∧
     (∀ (k : Fin 16) (w : Window), n = 271 + k.val → unit = recordUnit (.window k) 1 (windowBytes w) →
       w.start ≤ 65535 → w.stop ≤ 65535 →
       (w.start ≤ 1439 → w.stop ≤ 1439 →
         outcome = .next { s with au := { s.au with windows := s.au.windows.set k w }, rmi := loaded 4 }) ∧
       (1439 < w.start ∨ 1439 < w.stop → bad 4)) ∧
     (∀ (k : Fin 8) (c : CardClass), n = 287 + k.val → unit = recordUnit (.cls k) 1 [classByte c] →
       outcome = .next { s with au := { s.au with classes := s.au.classes.set k c }, rmi := loaded 5 }) ∧
     (∀ (k : Fin 8) (cost : Nat), n = 295 + k.val → cost ≤ 255 → unit = recordUnit (.cost k) 1 (bytesOf 1 cost) →
       outcome = .next { s with au := { s.au with costs := s.au.costs.set k cost }, rmi := loaded 6 }) ∧
     (∀ (t : RecordTarget) (contents : List Byte), targetAt n = some t → unit = recordUnit t 0 contents →
       outcome = .next { s with rmi := counted t.kind fun c => { c with empty := c.empty + 1 } }) ∧
     (∀ t, targetAt n = some t → unitSum unit = 0x5A →
       (unit.getD 0 0).toNat ≠ t.kind.val + 1 ∨ 1 < (unit.getD 1 0).toNat → bad t.kind)) ∧
  (∀ (read : MemRead) (s : State), s.hold = .running → s.rmi.port = some .record → s.rmi.progress = .records 302 →
     s.rmi.absent = false → (s.rmi.header = some .good ∨ s.rmi.header = some .bad) →
     ∃ t, exec (.restoreRecordReadComplete read) s = .next t ∧ t.rmi.restoring = false ∧ t.rmi.port = none ∧
       (∀ a, (t.slc.rows.get a).state = if isBound s a then .absent else .unbound) ∧ t.queueLaw ∧
       t.rmi.queue = s.rmi.queue ++
         (if s.rmi.header = some .bad then [{ body := .header, reply := none, inProgress := false }] else []) ∧
       (s.tp.occupancy < 120 → UpEntry.report s.tp.reportSeq (.restore
         { outcome := .imageLoaded, header := s.rmi.header, cause := s.rmi.cause, counts := t.rmi.counts, stamp := s.stamp }) ∈
           t.tp.entries) ∧
       t.ft.rows = s.ft.rows ∧ t.ft.profiles = s.ft.profiles ∧ t.rm = s.rm ∧ t.tk = s.tk ∧
       (∀ cost, cost ≤ 255 → read = .asHeld → s.memory.readBytes 9696 32 = recordUnit (.cost 7) 1 (bytesOf 1 cost) →
         t.au = { s.au with costs := s.au.costs.set 7 cost } ∧
         t.rmi.counts = s.rmi.counts.update 6 fun c => { c with loaded := c.loaded + 1 }))

/-- A bucket fetch that ends with nobody waiting for a place (chapter 6, 6.3; chapter 9, 9.3): the port is free, the entry leaves the miss
list, the bad slots read (or one for a failed read) are counted, every request that waited in it leaves the pending list; a stale entry
installs nothing. The record memory, the rounds and the tables stay. Where one request waited, it is decided by the bucket as read
(chapter 7, 7.2): the container checks are made again; then the answer, the card and its account give the GRANT with its hold and open
deposit, or the DENY with its reason and redirect, posted and counted. A GRANT that finds no room is withdrawn and a denial counted; a
DENY that finds none is counted all the same; a GRANT that a row discards leaves its deposit open (2.7). An entry that is not stale leaves
the card found in the cache as the most recently used. A freed place of the miss list (6.3), by the end of a fetch or by itself (log 11),
goes to the oldest request in the slot-wait order, when its card is not in the cache: one new QUEUED entry for its bucket takes every
slot-waiting request of that bucket, in order; the others stay. One whose card is in the cache is decided at once from there, and no count
of hits changes. -/
def Obligations.MissListIsServed : Prop :=
  (∀ (b : Bucket) (e : MissEntry) (read : MemRead) (s : State), s.hold = .running → s.rmi.port = some (.fetch b false) →
     e ∈ s.clu.missList → e.bucket = b → e.granted = true → (s.clu.missList.map (·.bucket)).Nodup → s.clu.slotWait = [] →
     read = .asHeld ∨ read = .failed →
     ∃ t, exec (.bucketFetchComplete read) s = .next t ∧ t.rmi = { s.rmi with port := none } ∧
       t.clu.missList.map (·.bucket) = (s.clu.missList.map (·.bucket)).filter (· != b) ∧
       t.clu.memoryErrors = min 65535 (s.clu.memoryErrors + (match read with
         | .failed => 1
         | _ => badSlots (heldSlots s.memory b))) ∧
       (∀ w ∈ e.waiting, ∀ q ∈ t.au.requests, q.row ≠ w.row) ∧
       (∀ q ∈ s.au.requests, (∀ w ∈ e.waiting, w.row ≠ q.row) → q ∈ t.au.requests) ∧
       (e.stale = true → t.clu.entries = s.clu.entries) ∧ (read = .failed → t.clu.entries = s.clu.entries) ∧
       t.memory = s.memory ∧ t.rm = s.rm ∧ t.ft = s.ft ∧ t.tk = s.tk) ∧
  (∀ (b : Bucket) (e : MissEntry) (w : Waiter) (q : Request) (c : ContainerConfig) (read : MemRead) (s : State), s.hold = .running →
     s.rmi.port = some (.fetch b false) → e ∈ s.clu.missList → e.bucket = b → e.granted = true →
     (s.clu.missList.map (·.bucket)).Nodup → s.clu.slotWait = [] → read = .asHeld ∨ read = .failed →
     e.waiting = [w] → e.wanted = [w.card] → q ∈ s.au.requests → q.row = w.row → (∀ x ∈ s.au.requests, x.row = w.row → x = q) →
     configOf s q.row = some c →
     let slots := match read with
       | .failed => List.replicate 4 .bad
       | _ => heldSlots s.memory b
     ∃ t, exec (.bucketFetchComplete read) s = .next t ∧ s.decides q c (searchBucket slots w.card) t ∧
       (∀ card, e.stale = false → s.cacheLaw → cardIn slots w.card = some card →
         ∃ i, cacheFind t.clu w.card = some i ∧ t.clu.entries.get i = some card ∧ t.clu.recency.head? = some i)) ∧
  (∀ (b : Bucket) (e : MissEntry) (w : Waiter) (rest : List Waiter) (read : MemRead) (s : State), s.hold = .running →
     s.rmi.port = some (.fetch b false) → e ∈ s.clu.missList → e.bucket = b → e.granted = true →
     (s.clu.missList.map (·.bucket)).Nodup → s.clu.missList.length ≤ 8 → s.clu.slotWait = w :: rest → e.waiting = [] →
     cacheFind s.clu w.card = none → (read = .asHeld ∧ e.stale = true) ∨ read = .failed →
     ∃ t, exec (.bucketFetchComplete read) s = .next t ∧
       (∃ entry : MissEntry, t.clu.missList = s.clu.missList.filter (·.bucket != b) ++ [entry] ∧
         entry.bucket.val = w.card.toNat % 4096 ∧ entry.granted = false ∧ entry.stale = false ∧
         entry.waiting = (w :: rest).filter fun v => v.card.toNat % 4096 == w.card.toNat % 4096) ∧
       t.clu.slotWait = (w :: rest).filter (fun v => v.card.toNat % 4096 != w.card.toNat % 4096) ∧
       t.clu.entries = s.clu.entries ∧ t.au.requests.map (·.row) = s.au.requests.map (·.row) ∧
       (∀ q ∈ t.au.requests, q.row = w.row → q.phase = .waitFetch) ∧ t.rmi = { s.rmi with port := none } ∧ t.memory = s.memory) ∧
  (∀ (w : Waiter) (i : Fin 32) (card : CardRecord) (q : Request) (c : ContainerConfig) (s : State), s.hold = .running →
     s.clu.slotWait = [w] → s.clu.missList.length < 8 → cacheFind s.clu w.card = some i → s.clu.entries.get i = some card →
     q ∈ s.au.requests → q.row = w.row → (∀ x ∈ s.au.requests, x.row = w.row → x = q) → configOf s q.row = some c →
     ∃ t, exec .missSlotPlacement s = .next t ∧ s.decides q c (.found card) t ∧ t.clu.slotWait = [] ∧
       t.clu.entries = s.clu.entries ∧ t.clu.recency = i :: s.clu.recency.filter (· != i) ∧ t.clu.hits = s.clu.hits ∧
       t.clu.missList.map (·.bucket) = s.clu.missList.map (·.bucket) ∧ t.rmi = s.rmi ∧ t.memory = s.memory) ∧
  (∀ (w : Waiter) (rest : List Waiter) (s : State), s.hold = .running → s.clu.slotWait = w :: rest → s.clu.missList.length < 8 →
     cacheFind s.clu w.card = none →
     ∃ t, exec .missSlotPlacement s = .next t ∧
       (∃ entry : MissEntry, t.clu.missList = s.clu.missList ++ [entry] ∧ entry.bucket.val = w.card.toNat % 4096 ∧
         entry.granted = false ∧ entry.stale = false ∧
         entry.waiting = (w :: rest).filter fun v => v.card.toNat % 4096 == w.card.toNat % 4096) ∧
       t.clu.slotWait = (w :: rest).filter (fun v => v.card.toNat % 4096 != w.card.toNat % 4096) ∧
       t.clu.entries = s.clu.entries ∧ t.au.requests.map (·.row) = s.au.requests.map (·.row) ∧
       (∀ q ∈ t.au.requests, q.row = w.row → q.phase = .waitFetch) ∧ t.rmi = s.rmi ∧ t.memory = s.memory)

/-- A card write that reads its bucket and writes its slots (chapter 6, 6.4; chapter 9, 9.2): each unit holds what was to be
written, the entry leaves the queue, the port is free, the bad slots read are counted and the REPLY takes its reserved place. With
no slot to write the status of the search is answered and the memory is untouched. CARD_PUT's read-modify-write: with the card's
number in a good slot, its first slot is rewritten and any later one freed; otherwise the lowest slot that holds no card takes it;
with four other cards there is NO_ROOM. Whatever it writes, the card is then found in the bucket. CARD_DROP's: every slot that holds
the card is freed, and it is in the bucket no more; a card not found is NOT_FOUND, or MEMORY_FAULT when a slot is bad, and nothing is
written. No byte of another slot, and none outside the bucket, changes. A failed read, or a failed write with what it left (log 29), is
counted once more and answered MEMORY_FAULT. -/
def Obligations.CardWriteCompletes : Prop :=
  (∀ (b : Bucket) (e : WriteEntry) (rest : List WriteEntry) (who : ReplyTo) (s : State), s.hold = .running →
     s.rmi.port = some .write → s.rmi.queue = e :: rest → e.reply = some who → e.body.bucket = some b → s.rmi.remake = none →
     let slots := heldSlots s.memory b
     exec (.cardWriteComplete .asHeld .done) s = .next { s with
       memory := s.memory.writeUnits (cardWrites e.body slots).2
       clu := { s.clu with memoryErrors := min 65535 (s.clu.memoryErrors + badSlots slots) }
       rmi := { s.rmi with port := none, queue := rest }
       tp := { s.tp with reserved := s.tp.reserved - 1 }.enqueue (.reply who.kind who.tag (cardWrites e.body slots).1 .none) }) ∧
  (∀ (card : CardRecord) (m : Memory), m.wf = true → card.number ≠ 0 → card.number ≠ 0xFFFFFFFF →
     (∀ d ∈ card.expiry, d ≤ 65535) → (∀ d ∈ card.start, d ≤ 65535) →
     let b := bucketOf card.number
     let w := cardWrites (.cardPut card) (heldSlots m b)
     (w.1 = .ok ∧ searchBucket (heldSlots (m.writeUnits w.2) b) card.number = .found card) ∨
     (w.1 = .noRoom ∧ w.2 = [] ∧ ∀ x ∈ heldSlots m b, ∃ other, x = .card other ∧ other.number ≠ card.number)) ∧
  (∀ (n : Number) (m : Memory), m.wf = true → n ≠ 0 →
     let b := bucketOf n
     let w := cardWrites (.cardDrop n) (heldSlots m b)
     (w.1 = .ok ∧ (∃ r, searchBucket (heldSlots m b) n = .found r) ∧ ∀ r, searchBucket (heldSlots (m.writeUnits w.2) b) n ≠ .found r) ∨
     (w.1 = .notFound ∧ w.2 = [] ∧ searchBucket (heldSlots m b) n = .unknown) ∨
     (w.1 = .memoryFault ∧ w.2 = [] ∧ searchBucket (heldSlots m b) n = .memoryFault)) ∧
  (∀ (card : CardRecord) (m : Memory), m.wf = true → card.number ≠ 0 → card.number ≠ 0xFFFFFFFF →
     (∀ d ∈ card.expiry, d ≤ 65535) → (∀ d ∈ card.start, d ≤ 65535) →
     let b := bucketOf card.number
     let slots := heldSlots m b
     let m' := m.writeUnits (cardWrites (.cardPut card) slots).2
     let after := heldSlots m' b
     let holds (i : Nat) : Prop := ∃ r, slots[i]? = some (.card r) ∧ r.number = card.number
     let same (i : Nat) : Prop := ∀ k, k < 16 → m'.read (0x010000 + 64 * b.val + 16 * i + k) = m.read (0x010000 + 64 * b.val + 16 * i + k)
     (∀ i, i < 4 → holds i → (∀ j, j < i → ¬holds j) → after[i]? = some (.card card) ∧
       ∀ j, j < 4 → j ≠ i → (holds j → after[j]? = some .free) ∧ (¬holds j → same j)) ∧
     (∀ i, i < 4 → (∀ j, j < 4 → ¬holds j) → (∀ r, slots[i]? ≠ some (.card r)) → (∀ j, j < i → ∃ r, slots[j]? = some (.card r)) →
       after[i]? = some (.card card) ∧ ∀ j, j < 4 → j ≠ i → same j) ∧
     (∀ a, a < 0x010000 + 64 * b.val ∨ 0x010000 + 64 * b.val + 64 ≤ a → m'.read a = m.read a)) ∧
  (∀ (n : Number) (m : Memory), m.wf = true → n ≠ 0 →
     let b := bucketOf n
     let slots := heldSlots m b
     let m' := m.writeUnits (cardWrites (.cardDrop n) slots).2
     let holds (i : Nat) : Prop := ∃ r, slots[i]? = some (.card r) ∧ r.number = n
     (∀ i, i < 4 → (holds i → (heldSlots m' b)[i]? = some .free) ∧
       (¬holds i → ∀ k, k < 16 → m'.read (0x010000 + 64 * b.val + 16 * i + k) = m.read (0x010000 + 64 * b.val + 16 * i + k))) ∧
     (∀ a, a < 0x010000 + 64 * b.val ∨ 0x010000 + 64 * b.val + 64 ≤ a → m'.read a = m.read a)) ∧
  (∀ (b : Bucket) (e : WriteEntry) (rest : List WriteEntry) (who : ReplyTo) (write : MemWrite) (r : Residue) (s : State),
     s.hold = .running → s.rmi.port = some .write → s.rmi.queue = e :: rest → e.reply = some who → e.body.bucket = some b →
     s.rmi.remake = none →
     let slots := heldSlots s.memory b
     let failed (memory : Memory) (errors : Nat) : State := { s with
       memory := memory
       clu := { s.clu with memoryErrors := min 65535 (s.clu.memoryErrors + errors) }
       rmi := { s.rmi with port := none, queue := rest }
       tp := { s.tp with reserved := s.tp.reserved - 1 }.enqueue (.reply who.kind who.tag .memoryFault .none) }
     exec (.cardWriteComplete .failed write) s = .next (failed s.memory 1) ∧
     ((cardWrites e.body slots).2 ≠ [] → exec (.cardWriteComplete .asHeld (.failed r)) s =
       .next (failed (s.memory.writeCut (cardWrites e.body slots).2 r) (badSlots slots + 1))))

/-- A record write that ends (chapter 9, 9.2 and 9.4; chapter 10, 10.3): completed, the record's 32 bytes stand at its place and the
REPLY is OK; failed, the place holds what the write left (log 29), a memory error is counted and the REPLY is MEMORY_FAULT. The
entry leaves the queue, the port is free, and carried parameter values take effect either way. -/
def Obligations.RecordWriteCompletes : Prop :=
  ∀ (target : RecordTarget) (contents : List Byte) (values : List (ParamId × Nat)) (who : ReplyTo) (busy : Bool)
    (rest : List WriteEntry) (s : State), s.hold = .running → s.rmi.port = some .write → s.rmi.remake = none →
    s.rmi.queue = { body := .record target contents values, reply := some who, inProgress := busy } :: rest →
    let freed := { s.rmi with port := none, queue := rest }
    (∃ t : State, exec (.recordWriteComplete .done) s = .next t ∧
      t = { applyParams values { s with memory := s.memory.writeBytes (32 + 32 * target.imageIndex) contents, rmi := freed } with
        tp := { (applyParams values s).tp with reserved := s.tp.reserved - 1 }.enqueue
          (.reply who.kind who.tag .ok (.persisted false)) }) ∧
    (∀ left : List Byte, ∃ t : State, exec (.recordWriteComplete (.failed { completed := 0, left := left })) s = .next t ∧
      t = { applyParams values { s with
          memory := s.memory.writeBytes (32 + 32 * target.imageIndex) (left.take contents.length)
          clu := { s.clu with memoryErrors := min 65535 (s.clu.memoryErrors + 1) }
          rmi := freed } with
        tp := { (applyParams values s).tp with reserved := s.tp.reserved - 1 }.enqueue
          (.reply who.kind who.tag .memoryFault (.persisted false)) })

/-- The part's own writes (chapter 9, 9.2 and 9.6; chapter 11, 11.4): a completed header write leaves a GOOD header, a completed
image format leaves every record empty and a GOOD header; the entry leaves the queue and the port is free. A failed header write or
image format is counted as a memory error and made again at the end of the queue when it has a place beside the failed entry (log 12);
a format that has not reached the header leaves it as it was. With the queue full the new entry is owed, and is made when the next entry
leaves the queue, within that event (log 11); before that the row HEADER_FORMAT_REQUEUE makes nothing. -/
def Obligations.OwnWritesComplete : Prop :=
  (∀ (busy : Bool) (rest : List WriteEntry) (s : State), s.hold = .running → s.rmi.port = some .write → s.rmi.remake = none →
    s.rmi.queue = { body := .header, reply := none, inProgress := busy } :: rest → s.memory.wf = true →
    ∃ t, exec (.headerWriteComplete .done) s = .next t ∧ readHeader (some (t.memory.readBytes 0 32)) = .good ∧
      (∀ a, 32 ≤ a → t.memory.read a = s.memory.read a) ∧
      t = { s with memory := t.memory, rmi := { s.rmi with port := none, queue := rest } }) ∧
  (∀ (busy : Bool) (rest : List WriteEntry) (s : State), s.hold = .running → s.rmi.port = some .write → s.rmi.remake = none →
    s.rmi.queue = { body := .format, reply := none, inProgress := busy } :: rest → s.memory.wf = true →
    ∃ t, exec (.imageFormatComplete .done) s = .next t ∧ readHeader (some (t.memory.readBytes 0 32)) = .good ∧
      (∀ i target, i < 303 → targetAt i = some target →
        readRecord target (some (t.memory.readBytes (32 + 32 * i) 32)) = .empty) ∧
      (∀ a, 0x002600 ≤ a → t.memory.read a = s.memory.read a) ∧
      t = { s with memory := t.memory, rmi := { s.rmi with port := none, queue := rest } }) ∧
  (∀ (busy : Bool) (rest : List WriteEntry) (r : Residue) (s : State), s.hold = .running → s.rmi.port = some .write →
    s.rmi.remake = none → s.rmi.queue = { body := .header, reply := none, inProgress := busy } :: rest → rest.length < 7 →
    ∃ t, exec (.headerWriteComplete (.failed r)) s = .next t ∧
      t.rmi = { s.rmi with port := none, queue := rest ++ [{ body := .header, reply := none, inProgress := false }] } ∧
      t.clu.memoryErrors = min 65535 (s.clu.memoryErrors + 1)) ∧
  (∀ (busy : Bool) (rest : List WriteEntry) (r : Residue) (s : State), s.hold = .running → s.rmi.port = some .write →
    s.rmi.remake = none → s.rmi.queue = { body := .format, reply := none, inProgress := busy } :: rest → rest.length < 7 →
    ∃ t, exec (.imageFormatComplete (.failed r)) s = .next t ∧
      t.rmi = { s.rmi with port := none, queue := rest ++ [{ body := .format, reply := none, inProgress := false }] } ∧
      t.clu.memoryErrors = min 65535 (s.clu.memoryErrors + 1) ∧
      (r.completed < 303 → ∀ a, a < 32 → t.memory.read a = s.memory.read a)) ∧
  (∀ (kind : OwnWrite) (busy : Bool) (rest : List WriteEntry) (r : Residue) (s : State), s.hold = .running →
    s.rmi.port = some .write → s.rmi.remake = none → rest.length = 7 →
    s.rmi.queue = { body := kind.body, reply := none, inProgress := busy } :: rest →
    ∃ t, exec (match kind with
        | .header => .headerWriteComplete (.failed r)
        | .format => .imageFormatComplete (.failed r)) s = .next t ∧
      t.rmi = { s.rmi with port := none, queue := rest, remake := some { kind := kind, due := false } } ∧
      t.clu.memoryErrors = min 65535 (s.clu.memoryErrors + 1)) ∧
  (∀ (kind : OwnWrite) (due : Bool) (c : Instr) (e : WriteEntry) (rest : List WriteEntry) (s : State), s.hold = .running →
    s.rmi.port = some .write → s.rmi.queue = e :: rest → rest.length < 8 → s.rmi.remake = some { kind := kind, due := due } →
    ((∃ read write, c = .cardWriteComplete read write) ∧ e.body.bucket.isSome = true ∨
      (∃ write, c = .recordWriteComplete write) ∧ (∃ target contents values, e.body = .record target contents values)) →
    ∃ t, exec c s = .next t ∧ t.rmi = { s.rmi with
      port := none, remake := none, queue := rest ++ [{ body := kind.body, reply := none, inProgress := false }] }) ∧
  (∀ (kind : OwnWrite) (s : State), s.hold = .running →
    (s.rmi.remake = none ∨ s.rmi.remake = some { kind := kind, due := false } → exec .headerFormatRequeue s = .next s) ∧
    (s.rmi.remake = some { kind := kind, due := true } → s.rmi.queue.length < 8 →
      exec .headerFormatRequeue s = .next { s with rmi := { s.rmi with
        remake := none, queue := s.rmi.queue ++ [{ body := kind.body, reply := none, inProgress := false }] } }))

/-- A device access that is not finished in time fails the operation on the port (chapter 9, 9.1): each read as its own failed
completion, with its place in the restore or its fetch given up; a card write at its read or at its writes; a record write, whose
carried values take effect all the same (chapter 10, 10.3); a header write and an image format, which are remade (9.6). What a write
left stands on the device (log 29), a memory error is counted, the entry leaves the queue and its REPLY is MEMORY_FAULT. With nothing
on the port nothing changes (log 10). A read-back that differs from what was written fails the operation at its unit in the same way, and
one that agrees in every byte does not (chapter 11, 11.4); the device then holds what it returned (log 3). -/
def Obligations.AccessTimeoutFails : Prop :=
  (∀ (read : MemRead) (left : Residue) (s : State), s.hold = .running →
    let outcome := exec (.memoryAccessTimeout read left) s
    let counted (errors : Nat) : CardLookup := { s.clu with memoryErrors := min 65535 (s.clu.memoryErrors + errors) }
    (s.rmi.port = none → outcome = .next s) ∧
    (s.rmi.port = some .identification → outcome = exec (.identificationReadComplete none) s) ∧
    (∀ failures, s.rmi.port = some .identification → s.rmi.progress = .identify failures → failures < 2 →
      outcome = .next { s with rmi := { s.rmi with port := none, progress := .identify (failures + 1) } }) ∧
    (s.rmi.port = some .header → outcome = exec (.headerReadComplete .failed) s) ∧
    (s.rmi.port = some .header → outcome = .next { s with
      clu := counted 1, rmi := { s.rmi with port := none, header := some .bad, progress := .records 0 } }) ∧
    (s.rmi.port = some .record → outcome = exec (.restoreRecordReadComplete .failed) s) ∧
    (∀ n t, s.rmi.port = some .record → s.rmi.progress = .records n → n < 302 → targetAt n = some t → outcome = .next { s with
      clu := counted 1
      rmi := { s.rmi with port := none, progress := .records (n + 1),
                          counts := s.rmi.counts.update t.kind fun c => { c with bad := c.bad + 1 } } }) ∧
    (∀ b, s.rmi.port = some (.fetch b true) → outcome = .next { s with
      rmi := { s.rmi with port := none }, clu := { s.clu with memoryErrors := min 65535 (s.clu.memoryErrors + 1) } }) ∧
    (∀ b, s.rmi.port = some (.fetch b false) → outcome = exec (.bucketFetchComplete .failed) s) ∧
    (∀ b e, s.rmi.port = some (.fetch b false) → e ∈ s.clu.missList → e.bucket = b → e.granted = true →
      (s.clu.missList.map (·.bucket)).Nodup →
      ∃ t, outcome = .next t ∧ t.rmi = { s.rmi with port := none } ∧ t.clu.memoryErrors = (counted 1).memoryErrors ∧
        t.memory = s.memory ∧ t.clu.entries = s.clu.entries ∧ (∀ w ∈ e.waiting, ∀ q ∈ t.au.requests, q.row ≠ w.row)) ∧
    (∀ (target : RecordTarget) (contents : List Byte) (values : List (ParamId × Nat)) (who : ReplyTo) (busy : Bool)
      (rest : List WriteEntry), s.rmi.port = some .write → s.rmi.remake = none →
      s.rmi.queue = { body := .record target contents values, reply := some who, inProgress := busy } :: rest →
      outcome = .next { applyParams values { s with
          memory := s.memory.writeBytes (32 + 32 * target.imageIndex)
            (if left.completed = 0 then left.left.take contents.length else contents)
          clu := counted 1
          rmi := { s.rmi with port := none, queue := rest } } with
        tp := { (applyParams values s).tp with reserved := s.tp.reserved - 1 }.enqueue
          (.reply who.kind who.tag .memoryFault (.persisted false)) }) ∧
    (∀ (b : Bucket) (e : WriteEntry) (who : ReplyTo) (rest : List WriteEntry), s.rmi.port = some .write → s.rmi.remake = none →
      s.rmi.queue = e :: rest → e.reply = some who → e.body.bucket = some b →
      let slots := heldSlots s.memory b
      let units := (cardWrites e.body slots).2
      let failed (memory : Memory) (errors : Nat) : State := { s with
        memory := memory, clu := counted errors, rmi := { s.rmi with port := none, queue := rest }
        tp := { s.tp with reserved := s.tp.reserved - 1 }.enqueue (.reply who.kind who.tag .memoryFault .none) }
      (read = .failed ∨ (read = .asHeld ∧ units = []) → outcome = .next (failed s.memory 1)) ∧
      (read = .asHeld → units ≠ [] → outcome = .next (failed (s.memory.writeCut units left) (badSlots slots + 1)))) ∧
    (∀ (kind : OwnWrite) (busy : Bool) (rest : List WriteEntry), s.rmi.port = some .write → s.rmi.remake = none →
      s.rmi.queue = { body := kind.body, reply := none, inProgress := busy } :: rest →
      (outcome = match kind with
        | .header => exec (.headerWriteComplete (.failed left)) s
        | .format => exec (.imageFormatComplete (.failed left)) s) ∧
      (rest.length < 7 → outcome = .next { s with
        memory := s.memory.writeCut (match kind with
          | .header => [{ address := 0, bytes := headerUnit }]
          | .format => formatUnits) left
        clu := counted 1
        rmi := { s.rmi with
          port := none, queue := rest ++ [{ body := kind.body, reply := none, inProgress := false }] } }))) ∧
  (∀ (before : List MemUnit) (u : MemUnit) (after : List MemUnit) (returned : List Byte) (more : List (List Byte)) (m : Memory),
    returned.length = u.bytes.length →
    (returned ≠ u.bytes → m.perform (before ++ u :: after) (.readBack (before.map (·.bytes) ++ returned :: more)) =
      m.perform (before ++ u :: after) (.failed { completed := before.length, left := returned })) ∧
    (returned = u.bytes → m.perform (before ++ [u]) (.readBack (before.map (·.bytes) ++ [returned])) =
      m.perform (before ++ [u]) .done)) ∧
  (∀ (target : RecordTarget) (contents : List Byte) (values : List (ParamId × Nat)) (who : ReplyTo) (busy : Bool)
    (rest : List WriteEntry) (returned : List Byte) (s : State), s.hold = .running → s.rmi.port = some .write →
    s.rmi.queue = { body := .record target contents values, reply := some who, inProgress := busy } :: rest →
    returned.length = contents.length →
    exec (.recordWriteComplete (.readBack [returned])) s =
      exec (.recordWriteComplete (if returned = contents then .done else .failed { completed := 0, left := returned })) s)

/-! ### The street loop -/

/-- The poll arbiter (chapter 3, 3.3 and 3.4), in READY with no turn on the loop. An open slot when the turns since the last have reached
the spacing; otherwise the attention member next after the last attention address, when the streak allows it or nothing routine is due;
otherwise the due DOZING row reached earliest (the lowest address among equals; that a row marked due stays so until it is polled is the
model's, log 14), or else the ring row next after the last routine address; otherwise an open slot. A poll is counted, reads the retry
limit and leaves everything else. -/
def Obligations.ArbiterChoosesTheTurn : Prop :=
  ∀ s : State, s.hold = .running → s.rmi.restoring = false → s.slc.turn = none →
    let spacing := if s.slc.contention then 2 else s.tp.effective.openSlotSpacing
    let row := fun a => s.slc.rows.get a
    let ring := fun a => (row a).state = .awake ∨ (row a).state = .silent ∨ (row a).state = .absent
    let due := fun a => (row a).state = .dozing ∧ ((row a).due = true ∨ (s.tk.seconds - (row a).wake).toNat < 2147483648)
    let after := fun (last a : Station) => (a.val + 61 - last.val) % 62
    let age := fun a => (s.tk.seconds - (row a).wake).toNat
    let polled := fun a => some (Turn.poll
      { address := a, load := pollLoad (row a), standing := true, retries := s.tp.effective.retryLimit })
    (spacing ≤ s.slc.sinceOpen →
      exec .loopTurnStart s = .next { s with slc := { s.slc with turn := some .openSlot, sinceOpen := 0 } }) ∧
    (s.slc.sinceOpen < spacing →
      (∀ a, (row a).member = true → (∀ b, (row b).member = true → after s.slc.lastAttention a ≤ after s.slc.lastAttention b) →
        (s.slc.streak < s.tp.effective.streakLimit ∨ ∀ b, ¬ring b ∧ ¬due b) →
        exec .loopTurnStart s = .next { s with slc := { s.slc with
          turn := polled a, lastAttention := a, streak := min 7 (s.slc.streak + 1), polls := min 65535 (s.slc.polls + 1) } }) ∧
      (((∀ b, (row b).member = false) ∨ s.tp.effective.streakLimit ≤ s.slc.streak) →
        (∀ a, due a → (∀ b, due b → age b < age a ∨ (age b = age a ∧ a ≤ b)) →
          exec .loopTurnStart s = .next { s with slc := { s.slc with
            turn := polled a, streak := 0, polls := min 65535 (s.slc.polls + 1) } }) ∧
        (∀ a, (∀ b, ¬due b) → ring a → (∀ b, ring b → after s.slc.lastRoutine a ≤ after s.slc.lastRoutine b) →
          exec .loopTurnStart s = .next { s with slc := { s.slc with
            turn := polled a, lastRoutine := a, streak := 0, polls := min 65535 (s.slc.polls + 1) } })) ∧
      ((∀ b, (row b).member = false) → (∀ b, ¬ring b ∧ ¬due b) →
        exec .loopTurnStart s = .next { s with slc := { s.slc with turn := some .openSlot, sinceOpen := 0 } }))

/-- A failed transmission of a poll (chapter 3, 3.2; chapter 2, 2.5): with a retry left the same poll is sent again; without one the turn
ends as missed: an ABSENT row stays, an AWAKE, DOZING or SILENT row below the miss limit is SILENT with one more miss. No answer, a gap
and a garbled answer are treated alike. A miss at the miss limit: the row is LOST with its queue emptied, a STATION_EVENT LOST is posted,
and then each of its containers is settled, in row order (7.7): a pending request is gone without a decision, and an open deposit is
committed as UNCONFIRMED when its grant was delivered and released when it was not (the outcomes are stated with DEPOSIT_CLOSE); the other
containers' are untouched. A missed JOIN_ACCEPT leaves the row ABSENT with its serial, and a STATION_EVENT JOIN_TIMEOUT is posted (2.3).
Where the row remembers whether its serial was written is the model's (log 31). -/
def Obligations.PollsFailOrMiss : Prop :=
  (∀ (c : Instr) (p : Poll) (s : State), s.hold = .running → s.slc.turn = some (.poll p) →
     (c = .responseWindowExpiry ∨ c = .loopByteGapTimeout ∨ ∃ bytes, c = .pollAnswerGarbled bytes ∧
       ∀ f, readUpward bytes = .frame f → f.address.toNat ≠ p.address.val + 1 ∨ f.item = .attention ∨
         ∃ serial cause, f.item = .joinAnnounce serial cause) →
     exec c s = exec .responseWindowExpiry s ∧
     (∀ n, p.retries = n + 1 → exec c s = .next { s with slc := { s.slc with
       turn := some (.poll { p with retries := n }), polls := min 65535 (s.slc.polls + 1)
       noAnswers := min 65535 (s.slc.noAnswers + 1) } }) ∧
     (p.retries = 0 → (s.slc.rows.get p.address).state = .absent → exec c s = .next { s with slc := { s.slc with
       turn := none, sinceOpen := min 32 (s.slc.sinceOpen + 1), noAnswers := min 65535 (s.slc.noAnswers + 1)
       rows := s.slc.rows.update p.address fun r => { r with raised := false, due := false } } }) ∧
     (p.retries = 0 → (s.slc.rows.get p.address).state ∈ [.awake, .dozing, .silent] →
       (s.slc.rows.get p.address).miss + 1 < s.tp.effective.missLimit → exec c s = .next { s with slc := { s.slc with
         turn := none, sinceOpen := min 32 (s.slc.sinceOpen + 1), noAnswers := min 65535 (s.slc.noAnswers + 1)
         rows := s.slc.rows.update p.address fun r =>
           { r with state := .silent, miss := r.miss + 1, raised := false, due := false } } })) ∧
  (∀ (p : Poll) (s : State), s.hold = .running → s.slc.turn = some (.poll p) → p.retries = 0 →
     ((s.slc.rows.get p.address).state ∈ [.awake, .dozing, .silent] →
       s.tp.effective.missLimit ≤ (s.slc.rows.get p.address).miss + 1 →
       let row := s.slc.rows.get p.address
       let lost : State := { s with
         slc := { s.slc with
           turn := none, sinceOpen := min 32 (s.slc.sinceOpen + 1), noAnswers := min 65535 (s.slc.noAnswers + 1)
           rows := s.slc.rows.set p.address
             { row with state := .lost, miss := row.miss + 1, raised := false, due := false, queue := [] } }
         tp := s.tp.reported (.station
           { event := .lost, address := some p.address, serial := row.serial, joinKind := none, cause := none, result := some .lost,
             rejoin := some row.rejoin, notPersisted := none, stamp := s.stamp }) }
       exec .responseWindowExpiry s = .next ((boundTo s p.address).foldl (State.settle false) lost)) ∧
     ((s.slc.rows.get p.address).state ∈ [.awake, .dozing, .silent] →
       s.tp.effective.missLimit ≤ (s.slc.rows.get p.address).miss + 1 →
       ∃ t, exec .responseWindowExpiry s = .next t ∧ (t.slc.rows.get p.address).state = .lost ∧
         (t.slc.rows.get p.address).queue = [] ∧ (t.slc.rows.get p.address).member = false ∧
         (∀ a, a ≠ p.address → (t.slc.rows.get a).state = (s.slc.rows.get a).state) ∧
         (∀ r c, configOf s r = some c → c.station = p.address → t.idle r) ∧
         (∀ r c, configOf s r = some c → c.station ≠ p.address →
           t.au.deposits.get r = s.au.deposits.get r ∧ ∀ q, q.row = r → (q ∈ t.au.requests ↔ q ∈ s.au.requests)) ∧
         t.memory = s.memory ∧ t.rmi = s.rmi ∧ t.tk = s.tk) ∧
     ((s.slc.rows.get p.address).state = .joining → s.tp.occupancy < 120 →
       ∃ t, exec .responseWindowExpiry s = .next t ∧
         t.slc.rows = s.slc.rows.update p.address (fun r =>
           { r with state := .absent, miss := 0, joinPrior := none, raised := false, due := false }) ∧
         UpEntry.report s.tp.reportSeq (.station
           { event := .joinTimeout, address := some p.address, serial := (s.slc.rows.get p.address).serial, joinKind := none,
             cause := (s.slc.rows.get p.address).joinCause, result := some .absent, rejoin := some (s.slc.rows.get p.address).rejoin,
             notPersisted := some (s.slc.rows.get p.address).joinUnwritten, stamp := s.stamp }) ∈ t.tp.entries ∧
         t.au = s.au ∧ t.ft = s.ft ∧ t.clu = s.clu ∧ t.rm = s.rm ∧ t.memory = s.memory))

/-- How an open slot ends (chapter 3, 3.5; chapter 11, 11.3): no byte, or a good frame that the slot does not take, ends it silent and
clears the contention flag (that a good frame of an unknown kind does so at any length up to 40 is the model's choice, log 43); bytes that
form no frame, or a gap, end it garbled, set the flag and count a collision. A valid ATTENTION (3.5; chapter 2, 2.6) raises an AWAKE,
SILENT or ABSENT row, wakes a DOZING one, and is ignored for any other. -/
def Obligations.OpenSlotsEnd : Prop :=
  (∀ s : State, s.hold = .running → s.slc.turn = some .openSlot →
     let garbled := { s.slotEnded true with slc := { (s.slotEnded true).slc with collisions := min 65535 (s.slc.collisions + 1) } }
     exec .responseWindowExpiry s = .next (s.slotEnded false) ∧
     exec .loopByteGapTimeout s = .next garbled ∧
     (∀ bytes, bytes ≠ [] → readUpward bytes = .garbled → exec (.openSlotGarbled bytes) s = .next garbled) ∧
     (∀ bytes, isSilentFrame bytes = true → exec (.openSlotSilentFrame bytes) s = .next (s.slotEnded false))) ∧
  ((∀ (a : Station) (s : State), s.hold = .running → s.slc.turn = some .openSlot →
     ∃ row, exec (.attention (BitVec.ofNat 8 (a.val + 1))) s = .next { s with slc := { s.slc with
         turn := none, contention := false, rows := s.slc.rows.set a row } } ∧
       ((s.slc.rows.get a).state ∈ [.awake, .silent, .absent] → row = { s.slc.rows.get a with raised := true } ∧ row.member = true) ∧
       ((s.slc.rows.get a).state = .dozing → row.state = .awake ∧ row.stableSince = (s.slc.rows.get a).stableSince ∧
         row.raised = true ∧ row.member = true ∧ row.queue = (s.slc.rows.get a).queue ∧ row.wake = (s.slc.rows.get a).wake) ∧
       ((s.slc.rows.get a).state ∈ [.joining, .lost, .barred, .unbound] → row = s.slc.rows.get a)) ∧
   (∀ (address : Byte) (s : State), s.hold = .running → s.slc.turn = some .openSlot → (address.toNat = 0 ∨ 62 < address.toNat) →
     exec (.attention address) s = .next (s.slotEnded false)))

/-- A JOIN_ANNOUNCE whose serial a row holds (chapter 2, 2.3): an ABSENT or LOST row enters JOINING with its queue emptied; a BARRED
row's announce is counted; a row in service enters JOINING with its containers settled (2.3), in row order (7.7): a pending request
leaves without a decision, and an open deposit is committed as UNCONFIRMED, but for a SILENT row's whose grant was not delivered, which is
released (the outcomes are stated with DEPOSIT_CLOSE); a JOINING row takes the new cause alone. A
serial that no row holds is auto-bound to the lowest unpinned ABSENT or LOST row with a container and no serial, which enters JOINING;
the row's record is queued for writing (chapter 9, 9.4) unless the memory is absent or the write queue full, which the row remembers
(log 31). With no row to bind it is reported. -/
def Obligations.JoinAnnounceIsTaken : Prop :=
  ∀ (serial : Serial) (cause : JoinCause) (s : State), s.hold = .running → s.slc.turn = some .openSlot →
    (∀ a, (s.slc.rows.get a).serial = some serial → (∀ b, (s.slc.rows.get b).serial = some serial → b = a) →
      ((s.slc.rows.get a).state ∈ [.absent, .lost] →
        exec (.joinAnnounce serial cause) s = .next { s with slc := { s.slc with
          turn := none, contention := false
          rows := s.slc.rows.update a fun r =>
            { r with state := .joining, joinPrior := some r.state, joinCause := some cause, miss := 0, queue := [], raised := false,
                     due := false, joinUnwritten := false } } }) ∧
      ((s.slc.rows.get a).state = .barred →
        exec (.joinAnnounce serial cause) s = .next { s with slc := { s.slc with
          turn := none, contention := false, ignoredJoins := min 65535 (s.slc.ignoredJoins + 1) } }) ∧
      ((s.slc.rows.get a).state ∈ [.awake, .dozing, .silent] →
        let joining : State := { s with slc := { s.slc with
          turn := none, contention := false
          rows := s.slc.rows.update a fun r =>
            { r with state := .joining, joinPrior := some r.state, joinCause := some cause, miss := 0, queue := [], raised := false,
                     due := false, joinUnwritten := false } } }
        exec (.joinAnnounce serial cause) s =
          .next ((boundTo s a).foldl (State.settle ((s.slc.rows.get a).state != .silent)) joining)) ∧
      ((s.slc.rows.get a).state ∈ [.awake, .dozing, .silent] →
        ∃ t, exec (.joinAnnounce serial cause) s = .next t ∧ (t.slc.rows.get a).state = .joining ∧
          (t.slc.rows.get a).joinPrior = some (s.slc.rows.get a).state ∧ (t.slc.rows.get a).joinCause = some cause ∧
          (t.slc.rows.get a).queue = [] ∧ (t.slc.rows.get a).rejoin = (s.slc.rows.get a).rejoin ∧
          (∀ r c, configOf s r = some c → c.station = a → t.idle r) ∧
          (∀ r c, configOf s r = some c → c.station ≠ a → t.au.deposits.get r = s.au.deposits.get r) ∧
          t.memory = s.memory ∧ t.rmi = s.rmi ∧ t.tk = s.tk) ∧
      ((s.slc.rows.get a).state = .joining →
        exec (.joinAnnounce serial cause) s = .next { s with slc := { s.slc with
          turn := none, contention := false, rows := s.slc.rows.update a fun r => { r with joinCause := some cause } } })) ∧
    (let canBind := fun a => (s.slc.rows.get a).pinned = false ∧ (s.slc.rows.get a).serial = none ∧
        (∃ r c, configOf s r = some c ∧ c.station = a) ∧ (s.slc.rows.get a).state ∈ [.absent, .lost]
     let unwritten := s.rmi.absent || decide (8 ≤ s.rmi.queue.length)
     ∀ a, (∀ b, (s.slc.rows.get b).serial ≠ some serial) → canBind a → (∀ b, b < a → ¬canBind b) →
      exec (.joinAnnounce serial cause) s = .next { s with
        slc := { s.slc with
          turn := none, contention := false
          rows := s.slc.rows.update a fun r =>
            { r with serial := some serial, awakeSince := false, state := .joining, joinPrior := some r.state,
                     joinCause := some cause, miss := 0, queue := [], raised := false, due := false, joinUnwritten := unwritten } }
        rmi := { s.rmi with queue := s.rmi.queue ++ (if unwritten then [] else
          [{ body := .record (.station a) (recordUnit (.station a) 1 (stationBytes (some serial) false)) [], reply := none,
             inProgress := false }]) } }) ∧
    ((∀ a, (s.slc.rows.get a).serial ≠ some serial) → (∀ a, (s.slc.rows.get a).serial.isSome = true ∨ boundTo s a = []) →
      s.tp.occupancy < 120 →
      exec (.joinAnnounce serial cause) s = .next { s.slotEnded false with
        tp := { s.tp with reportSeq := s.tp.reportSeq + 1 }.enqueue (.report s.tp.reportSeq (.station
          { event := .unknownSerial, address := none, serial := some serial, joinKind := none, cause := some cause, result := none,
            rejoin := none, notPersisted := none, stamp := s.stamp })) })

/-- An answered JOIN_ACCEPT (chapter 2, 2.3): a first join makes the row AWAKE with its count kept; a RETURN or RESTART raises the
count and, at the rejoin limit, makes the row BARRED. The miss count is 0 and the join prior state is gone. That a row made BARRED
keeps its raised mark clear, whatever the more-pending flag, is the model's choice (log 19), and so is where the not-persisted mark is
remembered (log 31). -/
def Obligations.JoinCompletes : Prop :=
  ∀ (p : Poll) (flags : Byte) (s : State), s.hold = .running → s.slc.turn = some (.poll p) →
    (∃ serial, p.load = .accept serial) → (s.slc.rows.get p.address).state = .joining →
    let before := s.slc.rows.get p.address
    let kind : JoinKind := if before.awakeSince = false then .first
      else if before.joinPrior = some .awake ∨ before.joinPrior = some .dozing then .restart else .comeback
    let count := if kind = .first then before.rejoin else before.rejoin + 1
    let barred := decide (kind ≠ .first ∧ count = s.tp.effective.rejoinLimit)
    ∃ t row, exec (.answerNothing flags) s = .next t ∧ t.slc.rows = s.slc.rows.set p.address row ∧
      row = { before with
        state := if barred then .barred else .awake
        rejoin := count, miss := 0, joinPrior := none, lastJoin := some kind, due := false
        awakeSince := if barred then before.awakeSince else true
        stableSince := if barred then before.stableSince else s.tk.uptime
        raised := flags.getLsbD 0 && !barred } ∧
      (s.tp.occupancy < 120 → UpEntry.report s.tp.reportSeq (.station
        { event := .joined, address := some p.address, serial := before.serial, joinKind := some kind, cause := before.joinCause,
          result := some row.state, rejoin := some count, notPersisted := some before.joinUnwritten, stamp := s.stamp }) ∈
            t.tp.entries) ∧
      t.slc.turn = none ∧ t.au = s.au ∧ t.ft = s.ft ∧ t.clu = s.clu ∧ t.rm = s.rm ∧ t.rmi = s.rmi ∧ t.memory = s.memory

/-- An answer NOTHING to a poll that carried nothing (chapter 2, 2.5 and 2.6; chapter 3, 3.7): an AWAKE row stays; a SILENT row is
AWAKE with stable-since set; a DOZING row stays, due again after its interval, or is AWAKE when more is pending; an ABSENT row is
AWAKE and RESUMED is posted. The miss count is 0 and the raised mark is the more-pending flag. Any other item comes after the row's state
has changed (3.7): from a SILENT, ABSENT or JOINING row it has the effect it has from the row as NOTHING has left it, and none when the
join has made the row BARRED; from a DOZING row it has the effect it has from an AWAKE one. The answer of a row that has become UNBOUND
is not taken. -/
def Obligations.AnswerNothingTakesTheRow : Prop :=
  ∀ (a : Station) (flags : Byte) (s : State), s.hold = .running → s.polling a →
    let row := s.slc.rows.get a
    let ended := fun (r : StationRow) => { s with slc := { s.slc with
      turn := none, sinceOpen := min 32 (s.slc.sinceOpen + 1)
      rows := s.slc.rows.set a { r with miss := 0, due := false, raised := flags.getLsbD 0 } } }
    (row.state = .awake → exec (.answerNothing flags) s = .next (ended row)) ∧
    (row.state = .silent → exec (.answerNothing flags) s =
      .next (ended { row with state := .awake, awakeSince := true, stableSince := s.tk.uptime })) ∧
    (row.state = .dozing → flags.getLsbD 0 = false → exec (.answerNothing flags) s =
      .next (ended { row with wake := s.tk.seconds + BitVec.ofNat 32 row.doze })) ∧
    (row.state = .dozing → flags.getLsbD 0 = true → exec (.answerNothing flags) s =
      .next (ended { row with state := .awake, awakeSince := true })) ∧
    (row.state = .absent → s.tp.occupancy < 120 → exec (.answerNothing flags) s =
      .next { ended { row with state := .awake, awakeSince := true, stableSince := s.tk.uptime } with
        tp := { s.tp with reportSeq := s.tp.reportSeq + 1 }.enqueue (.report s.tp.reportSeq (.station
          { event := .resumed, address := some a, serial := row.serial, joinKind := none, cause := none, result := some .awake,
            rejoin := some row.rejoin, notPersisted := none, stamp := s.stamp })) }) ∧
    (∀ c v, IsAnswer flags c → row.state ∈ [.silent, .absent, .joining] → exec (.answerNothing flags) s = .next v →
      ((v.slc.rows.get a).state = .barred → exec c s = .next v) ∧
      ((v.slc.rows.get a).state ≠ .barred → (v.slc.rows.get a).state = .awake ∧
        exec c s = exec c { v with slc := { v.slc with turn := s.slc.turn, sinceOpen := s.slc.sinceOpen } })) ∧
    (∀ c, IsAnswer flags c → row.state = .dozing →
      ((∃ interval, c = .dozeNotice flags interval) →
        exec c s = exec c { s with slc := { s.slc with rows := s.slc.rows.set a { row with state := .awake } } }) ∧
      (c ≠ .answerNothing flags → (∀ interval, c ≠ .dozeNotice flags interval) →
        exec c s = exec c { s with slc := { s.slc with rows := s.slc.rows.set a { row with state := .awake, awakeSince := true } } })) ∧
    (∀ c, IsAnswer flags c → row.state = .unbound →
      exec c s = .next { s with slc := { s.slc with turn := none, sinceOpen := min 32 (s.slc.sinceOpen + 1) } })

/-- What a poll carries (chapter 3, 3.2 and 3.6): JOIN_ACCEPT with the serial for a JOINING row, otherwise the oldest command of its
queue, with its sequence number, if there is one; a GRANT's frame is the one of chapter 11, 11.3. The carried command of an answered
poll leaves the head of the row's queue, and a delivered GRANT whose tag is the open deposit's sets its grant-delivered flag
(chapter 7, 7.7). Whatever item the answer carries comes after that (3.7): it has the effect it has on a poll that carried nothing, from the
state in which the command has left the queue and the GRANT is marked. A command that no longer stands in the queue, and a JOIN_ACCEPT,
deliver nothing (3.6). -/
def Obligations.PollsCarryAndDeliver : Prop :=
  (∀ r : StationRow,
     (∀ serial, r.state = .joining → r.serial = some serial → pollLoad r = .accept serial) ∧
     (∀ q rest, r.state ≠ .joining → r.queue = q :: rest → pollLoad r = .command q) ∧
     (r.state ≠ .joining → r.queue = [] → pollLoad r = .nothing) ∧
     (∀ (a : Station) (seq tag : Byte) (bay : Bay) (standing : Bool) (retries : Nat),
       (Turn.poll { address := a, load := .command { seq := seq, command := .grant bay tag }, standing := standing,
                    retries := retries }).frame =
         let body : List Byte := [BitVec.ofNat 8 (a.val + 1), 0x01, seq, 0x03, 0x01, BitVec.ofNat 8 bay.val, tag]
         [0x96] ++ body ++ crcBytes (loopCrc body))) ∧
  (∀ (a : Station) (flags : Byte) (q : Queued) (rest : List Queued) (retries : Nat) (s : State), s.hold = .running →
     s.slc.turn = some (.poll { address := a, load := .command q, standing := true, retries := retries }) →
     (s.slc.rows.get a).state = .awake → (s.slc.rows.get a).queue = q :: rest →
     ∃ t, exec (.answerNothing flags) s = .next t ∧
       t.slc.rows = s.slc.rows.set a { s.slc.rows.get a with
         queue := rest, miss := 0, due := false, raised := flags.getLsbD 0 } ∧
       (∀ bay tag r d, q.command = .grant bay tag → containerAt s a bay.val = some r → s.au.deposits.get r = some d →
         t.au.deposits = (if d.tag = tag then s.au.deposits.set r (some { d with delivered := true }) else s.au.deposits)) ∧
       ((∀ bay tag, q.command ≠ .grant bay tag) → t.au = s.au) ∧ t.au.accounts = s.au.accounts ∧ t.au.requests = s.au.requests ∧
       t.ft = s.ft ∧ t.clu = s.clu ∧ t.rm = s.rm ∧ t.rmi = s.rmi ∧ t.tp = s.tp ∧ t.memory = s.memory) ∧
  (∀ (flags : Byte) (c : Instr) (p : Poll) (s : State), s.hold = .running → IsAnswer flags c → s.slc.turn = some (.poll p) →
     (s.slc.rows.get p.address).state ∈ [.awake, .dozing, .silent, .absent, .joining] →
     let carrying (rows : Table StationRow 62) : StreetLoop :=
       { s.slc with turn := some (.poll { p with load := .nothing }), rows := rows }
     (∀ q, p.load = .command q → p.standing = true →
       let taken := carrying (s.slc.rows.update p.address fun row => { row with queue := row.queue.tail })
       let marks (r : Row) (d : OpenDeposit) : Prop := ∃ bay tag, q.command = .grant bay tag ∧
         containerAt s p.address bay.val = some r ∧ s.au.deposits.get r = some d ∧ d.tag = tag
       (∀ r d, marks r d → exec c s = exec c { s with
         slc := taken, au := { s.au with deposits := s.au.deposits.set r (some { d with delivered := true }) } }) ∧
       ((∀ r d, ¬marks r d) → exec c s = exec c { s with slc := taken })) ∧
     ((∀ q, p.load = .command q → p.standing = false) → exec c s = exec c { s with slc := carrying s.slc.rows }))

/-- DOZE_NOTICE from an AWAKE row (chapter 2, 2.6): the row is DOZING, its interval clamped to 10..3600, its next wake second the
second count plus the interval, its stable-since kept. PASS_UP (chapter 10, 10.5): one report with the row's serial, the first four
containers bound (in row index order, the model's choice, log 40) and the bytes is posted, and the answer's own effects on the row stand.
Nothing else changes. -/
def Obligations.DozeNoticeAndPassUp : Prop :=
  (∀ (a : Station) (flags : Byte) (interval : Short) (s : State), s.hold = .running → s.polling a →
     (s.slc.rows.get a).state = .awake →
     let seconds := if interval.toNat < 10 then 10 else if 3600 < interval.toNat then 3600 else interval.toNat
     exec (.dozeNotice flags interval) s = .next { s.heard a flags with slc := { (s.heard a flags).slc with
       rows := s.slc.rows.set a { s.slc.rows.get a with
         state := .dozing, miss := 0, due := false, raised := flags.getLsbD 0, doze := seconds
         wake := s.tk.seconds + BitVec.ofNat 32 seconds } } }) ∧
  (∀ (a : Station) (flags : Byte) (bytes : List Byte) (s : State), s.hold = .running → s.polling a →
     (s.slc.rows.get a).state = .awake → 1 ≤ bytes.length → bytes.length ≤ 32 → s.tp.occupancy < 120 →
     exec (.passUp flags bytes) s = .next { s.heard a flags with
       tp := { s.tp with reportSeq := s.tp.reportSeq + 1 }.enqueue (.report s.tp.reportSeq (.passUp
         { station := a, serial := (s.slc.rows.get a).serial, containers := (boundList s a).take 4, bytes := bytes,
           stamp := s.stamp })) })

/-! ### Answers handed on -/

/-- A DEPOSIT_REQUEST from an AWAKE row (chapter 7, 7.2; chapter 6, 6.3): for a bay with no container it is denied OUT_OF_USE with no
redirect; otherwise the container checks come in their order, each with its reason and redirect; then the room check; then the card. A
denial is counted whether the queue takes the DENY or not. A card in the cache that passes every check on an account that can pay is
granted: the hold, the open deposit, the GRANT, the count; with no room in the station's queue the grant is withdrawn, with no hold and no
deposit, and a denial counted. A card that is not in the cache waits for a fetch of its bucket. A card in the cache that fails a check of
the card (7.3 to 7.5) or of its account (7.6) is denied with the reason of the first one, a redirect into the home cluster for WRONG_PLACE
alone, and a CARD_ALERT for a LOST card; an account that is not loaded is granted as PROVISIONAL where the class allows it, and an exempt
class as EXEMPT, both at no charge. A number that is no card's is UNKNOWN_CARD, and with the record memory absent the answer is
MEMORY_FAULT. -/
def Obligations.DepositRequestIsJudged : Prop :=
  (∀ (a : Station) (flags bay : Byte) (n : Number) (tag : Byte) (s : State), s.hold = .running → s.polling a →
    (s.slc.rows.get a).state = .awake → containerAt s a bay.toNat = none →
    exec (.depositRequest flags bay n tag) s =
      .next { (s.heard a flags).offered a (.deny bay tag .outOfUse none) with
        au := { s.au with denials := min 65535 (s.au.denials + 1) } }) ∧
  (∀ (a : Station) (flags : Byte) (bay : Bay) (n : Number) (tag : Byte) (r : Row) (c : ContainerConfig) (s : State),
    s.hold = .running → s.polling a → (s.slc.rows.get a).state = .awake → containerAt s a bay.val = some r → configOf s r = some c →
    let u := s.heard a flags
    let outcome := exec (.depositRequest flags (BitVec.ofNat 8 bay.val) n tag) s
    let deny (reason : DenyReason) (redirect : Option Redirect) : DownCommand := .deny (BitVec.ofNat 8 bay.val) tag reason redirect
    let denied (reason : DenyReason) (redirect : Option Redirect) : Prop := outcome = .next
      { u.offered a (deny reason redirect) with au := { s.au with denials := min 65535 (s.au.denials + 1) } }
    let full := (fillOf s r).fill = .full ∨ (fillOf s r).fill = .overflow ∨ (s.ft.profiles.get c.profile).fu ≤ (fillOf s r).i
    (c.enabled = false → denied .outOfUse (redirectFor u r c.cluster)) ∧
    (c.enabled = true → serviceOf s r ≠ .inUse → denied .service (redirectFor u r c.cluster)) ∧
    (c.enabled = true → serviceOf s r = .inUse → ¬s.idle r → denied .busyChute none) ∧
    (c.enabled = true → serviceOf s r = .inUse → s.idle r → full → denied .full (redirectFor u r c.cluster)) ∧
    (c.enabled = true → serviceOf s r = .inUse → s.idle r → ¬full →
      (16 ≤ s.au.requests.length → denied .tryAgain none) ∧
      (∀ i card, s.au.requests.length < 16 → n ≠ 0 → n ≠ 0xFFFFFFFF → s.rmi.absent = false → cacheFind s.clu n = some i →
        s.clu.entries.get i = some card →
        card.status = .active → (s.tk.wall.valid = true → ∀ d ∈ card.expiry, s.tk.wall.day ≤ d) →
        (s.tk.wall.valid = true → ∀ d ∈ card.start, d ≤ s.tk.wall.day) → inMask card.rights c.fraction.val = true →
        (∀ h ∈ card.home, h = c.cluster) → (windowsEnforced s = true → windowCovers s c.fraction card.cls = true) →
        let account := s.au.accounts.get card.account
        let cost := s.au.costs.get c.fraction
        account.loaded = true → account.blocked = false → (s.au.classes.get card.cls).exempt = false →
        -(account.limit : Int) ≤ account.balance - account.held - cost →
        ∃ t, outcome = .next t ∧ t.slc = u.slc.offered a (.grant bay tag) ∧
          t.au = (if (s.slc.rows.get a).queue.length < 5 then { s.au with
              grants := min 65535 (s.au.grants + 1)
              accounts := s.au.accounts.set card.account { account with held := account.held + cost }
              deposits := s.au.deposits.set r (some { card := n, account := card.account, cost := cost, kind := .charged, tag := tag,
                                                      delivered := false, granted := s.tk.seconds }) }
            else { s.au with denials := min 65535 (s.au.denials + 1) }) ∧
          t.clu.entries = s.clu.entries ∧ t.clu.recency = i :: s.clu.recency.filter (· != i) ∧
          t.clu.hits = min 65535 (s.clu.hits + 1) ∧ t.clu.misses = s.clu.misses ∧ t.tk = s.tk ∧ t.ft = s.ft ∧ t.rm = s.rm ∧
          t.rmi = s.rmi ∧ t.tp = s.tp ∧ t.memory = s.memory) ∧
      (s.au.requests.length < 16 → n ≠ 0 → n ≠ 0xFFFFFFFF → s.rmi.absent = false → cacheFind s.clu n = none →
        s.clu.missList.length < 8 → (∀ e ∈ s.clu.missList, e.bucket ≠ bucketOf n) →
        outcome = .next { u with
          au := { s.au with requests := s.au.requests ++
            [{ row := r, station := a, bay := bay, tag := tag, card := n, arrival := s.tk.seconds, phase := .waitFetch }] }
          clu := { s.clu with
            misses := min 65535 (s.clu.misses + 1)
            missList := s.clu.missList ++
              [{ bucket := bucketOf n, waiting := [{ row := r, card := n }], wanted := [n], granted := false, stale := false }] } }) ∧
      (let denies (reason : DenyReason) (t : State) : Prop :=
         t.slc = u.slc.offered a (deny reason none) ∧
         t.au = { s.au with denials := min 65535 (s.au.denials + 1) } ∧ t.clu.entries = s.clu.entries ∧ t.tk = s.tk ∧ t.ft = s.ft ∧
         t.rm = s.rm ∧ t.rmi = s.rmi ∧ t.tp = s.tp ∧ t.memory = s.memory
       (s.au.requests.length < 16 → n = 0 ∨ n = 0xFFFFFFFF →
         ∃ t, outcome = .next t ∧ denies .unknownCard t ∧ t.clu.misses = s.clu.misses) ∧
       (s.au.requests.length < 16 → n ≠ 0 → n ≠ 0xFFFFFFFF → s.rmi.absent = true →
         ∃ t, outcome = .next t ∧ denies .memoryFault t ∧ t.clu.misses = min 65535 (s.clu.misses + 1)) ∧
       (∀ i card, s.au.requests.length < 16 → n ≠ 0 → n ≠ 0xFFFFFFFF → s.rmi.absent = false → cacheFind s.clu n = some i →
         s.clu.entries.get i = some card →
         let q : Request :=
           { row := r, station := a, bay := bay, tag := tag, card := n, arrival := s.tk.seconds, phase := .waitFetch }
         ∃ t, outcome = .next t ∧ u.decidesCard q c card t ∧ t.clu.entries = s.clu.entries ∧
           t.clu.recency = i :: s.clu.recency.filter (· != i) ∧ t.clu.hits = min 65535 (s.clu.hits + 1) ∧
           t.clu.misses = s.clu.misses ∧ t.tk = s.tk ∧ t.ft = s.ft ∧ t.rm = s.rm ∧ t.rmi = s.rmi ∧ t.memory = s.memory))))

/-- A DEPOSIT_CLOSE from an AWAKE row (chapter 7, 7.7; chapter 4, 4.7): with no open deposit it is counted alone. USED commits: the
account pays the charged cost down to -32768 and the hold is let go, the interim level takes the profile's increment up to 1200, and
TTF and the fill state follow. UNUSED releases: the hold is let go, the release counted, and the fill level untouched. Either way
the slot is empty, and a container in SERVICE_WAIT moves on to SERVICE. A commit of any kind of deposit, by USED or by the close limit
(7.7), charges the account for a CHARGED one alone and posts a DEPOSIT_REPORT: PROVISIONAL for a PROVISIONAL deposit, otherwise
COMMITTED by USED and UNCONFIRMED by the limit; a waiting report of the same account, container and outcome with a count below 255
takes it in, and otherwise it is a new entry (chapter 10, 10.7; that an entry queued on an idle line waits no longer is read from 10.7, log
9). A commit of any kind credits the level, and a release of any kind leaves it, lets a CHARGED hold go and is counted; either way a
container in SERVICE_WAIT moves on to SERVICE with LIFT_RELEASE to its station and then LIFT_OK to the relay station (chapter 8, 8.3). So
do the commits and releases of a lost or restarted station and of a TRAFFIC reset end. -/
def Obligations.DepositCloseEndsTheDeposit : Prop :=
  (∀ (a : Station) (flags bay : Byte) (how : CloseOutcome) (s : State), s.hold = .running → s.polling a →
    (s.slc.rows.get a).state = .awake →
    let u := s.heard a flags
    ((∀ r, containerAt s a bay.toNat = some r → s.au.deposits.get r = none) →
      exec (.depositClose flags bay how) s =
        .next { u with au := { s.au with ignoredCloses := min 65535 (s.au.ignoredCloses + 1) } }) ∧
    (∀ r c d, containerAt s a bay.toNat = some r → configOf s r = some c → s.au.deposits.get r = some d → d.kind = .charged →
      ∃ t, exec (.depositClose flags bay how) s = .next t ∧ t.au.deposits = s.au.deposits.set r none ∧
        (let account := s.au.accounts.get d.account
         t.au.accounts = s.au.accounts.set d.account { account with
          balance := (match how with
            | .used => max (-32768) (account.balance - d.cost)
            | .unused => account.balance)
          held := account.held - d.cost }) ∧
        t.au.requests = s.au.requests ∧
        t.au.releases = (if how = .unused then min 65535 (s.au.releases + 1) else s.au.releases) ∧
        (let p := s.ft.profiles.get c.profile
         let f := fillOf s r
         let level := min 1200 (f.i + p.increment)
         let rising := risingTarget p level
         t.ft.rows = (match how with
          | .unused => s.ft.rows
          | .used => s.ft.rows.set r { s.ft.rows.get r with fill :=
            { f with
              i := level, ttf := timeToFull p.fu level f.r
              fill := if f.fill.rank < rising.rank then rising else f.fill
              rise := if f.fill.rank < rising.rank then 0 else f.rise
              fall := if f.fill.rank < rising.rank then 0 else f.fall } })) ∧
        t.rm.service = (match serviceOf s r with
          | .serviceWait step relay => s.rm.service.set r (.service step relay s.tk.seconds)
          | _ => s.rm.service) ∧
        t.tk = s.tk ∧ t.clu = s.clu ∧ t.rmi = s.rmi ∧ t.memory = s.memory) ∧
    (∀ r c d, containerAt s a bay.toNat = some r → configOf s r = some c → s.au.deposits.get r = some d →
      (how = .used → exec (.depositClose flags bay how) s = .next (commitDeposit true r u)) ∧
      (how = .unused → d.kind ≠ .charged →
        ∃ t, exec (.depositClose flags bay how) s = .next t ∧
          t.au = { s.au with deposits := s.au.deposits.set r none, releases := min 65535 (s.au.releases + 1) } ∧
          t.ft.rows = s.ft.rows ∧ t.tk = s.tk ∧ t.clu = s.clu ∧ t.rmi = s.rmi ∧ t.memory = s.memory))) ∧
  (∀ (r : Row) (c : ContainerConfig) (d : OpenDeposit) (s : State), s.hold = .running → s.tk.told.close = true →
    configOf s r = some c → s.au.deposits.get r = some d →
    s.tp.effective.closeLimit ≤ elapsed s.tk.seconds d.granted →
    (∀ q e, s.au.deposits.get q = some e → s.tp.effective.closeLimit ≤ elapsed s.tk.seconds e.granted → q = r) →
    exec .closeLimitExpiry s =
      .next (commitDeposit false r { s with tk := { s.tk with told := { s.tk.told with close := false } } })) ∧
  (∀ (confirmed : Bool) (r : Row) (c : ContainerConfig) (d : OpenDeposit) (s : State), configOf s r = some c → s.au.deposits.get r = some d →
    let t := commitDeposit confirmed r s
    let new : DepositReport :=
      { account := d.account, number := c.number, row := r
        outcome := if d.kind = .provisional then .provisional else if confirmed then .committed else .unconfirmed
        count := 1, cost := d.cost, first := s.stamp, last := s.stamp }
    let joins (old : DepositReport) : Prop :=
      old.account = new.account ∧ old.number = new.number ∧ old.outcome = new.outcome ∧ old.count < 255
    t.au = { s.au with
      deposits := s.au.deposits.set r none
      accounts := if d.kind = .charged then
          s.au.accounts.update d.account fun account =>
            { account with balance := max (-32768) (account.balance - d.cost), held := account.held - d.cost }
        else s.au.accounts } ∧
    ((∀ seq old, UpEntry.report seq (.deposit old) ∈ s.tp.waiting → ¬joins old) → s.tp.occupancy < 120 →
      UpEntry.report s.tp.reportSeq (.deposit new) ∈ t.tp.entries) ∧
    (∀ before seq old after, s.tp.waiting = before ++ UpEntry.report seq (.deposit old) :: after → joins old →
      (∀ x y, UpEntry.report x (.deposit y) ∈ before → ¬joins y) →
      ∃ later, t.tp.waiting = before ++ UpEntry.report seq (.deposit
        { old with count := old.count + 1, cost := old.cost + d.cost, last := s.stamp }) :: after ++ later ∧
        ∀ x y, UpEntry.report x (.deposit y) ∉ later) ∧
    t.tk = s.tk ∧ t.clu = s.clu ∧ t.rmi = s.rmi ∧ t.memory = s.memory) ∧
  (∀ (r : Row) (c : ContainerConfig) (d : OpenDeposit) (s : State), configOf s r = some c → s.au.deposits.get r = some d →
    let movedOn (t : State) : Prop := match serviceOf s r with
      | .serviceWait step relay =>
        t.rm.service = s.rm.service.set r (.service step relay s.tk.seconds) ∧
        (let slc := s.slc.offered c.station (.liftRelease c.bay)
         t.slc = match (stepAt s step).bind (·.vehicle) with
           | some vehicle => slc.offered relay (.reply .liftOk vehicle (.container c.number))
           | none => slc)
      | _ => t.rm.service = s.rm.service ∧ t.slc = s.slc
    (∀ confirmed, let t := commitDeposit confirmed r s
      movedOn t ∧
      (let p := s.ft.profiles.get c.profile
       let f := fillOf s r
       let level := min 1200 (f.i + p.increment)
       let rising := risingTarget p level
       t.ft.rows = s.ft.rows.set r { s.ft.rows.get r with fill :=
        { f with
          i := level, ttf := timeToFull p.fu level f.r
          fill := if f.fill.rank < rising.rank then rising else f.fill
          rise := if f.fill.rank < rising.rank then 0 else f.rise
          fall := if f.fill.rank < rising.rank then 0 else f.fall } })) ∧
    (let t := releaseDeposit r s
     movedOn t ∧ t = { s with au := t.au, slc := t.slc, rm := t.rm, tp := t.tp } ∧ t.rm.slots = s.rm.slots ∧
     t.au = { s.au with
       deposits := s.au.deposits.set r none
       releases := min 65535 (s.au.releases + 1)
       accounts := if d.kind = .charged then
           s.au.accounts.update d.account fun account => { account with held := account.held - d.cost }
         else s.au.accounts } ∧
     ((∀ step relay, serviceOf s r ≠ .serviceWait step relay) → t.tp = s.tp) ∧
     (∀ step relay, serviceOf s r = .serviceWait step relay → t.tp = s.tp.reported (.containerStatus
       { number := c.number, row := r, cause := .service, fill := (fillOf s r).fill, fillBefore := (fillOf s r).fill,
         health := (fillOf s r).health, healthBefore := (fillOf s r).health, service := .service, lf := (fillOf s r).lf,
         i := (fillOf s r).i, ttf := (fillOf s r).ttf, drop := (fillOf s r).drop, member := s.ft.queue.contains r,
         stamp := s.stamp }))))

/-- A LEVEL_SAMPLE from an AWAKE row (chapter 4, 4.2 to 4.6; chapter 5, 5.3). With the lid open, with the container in SERVICE or
with no container it has no effect. An implausible one raises the implausible count and may change the health, and nothing else of
the container. A plausible one makes the health GOOD, filters the level, cancels the credits, moves the rate, recomputes TTF and
evaluates the fill state. No other container's row changes. When it brings an IN_USE container that no active round holds into OVERFLOW
(chapter 8, 8.7), the RUNNING round with allowance and room whose last lift in the container's cluster is the most recent (the lowest
slot among equals) takes it as an inserted step, a ROUND_EVENT INSERTED is posted and the container leaves the service queue; otherwise
the rounds stay. -/
def Obligations.LevelSampleIsTaken : Prop :=
  ∀ (a : Station) (flags bay : Byte) (echo : BitVec 16) (temperature : BitVec 8) (lid : Bool) (s : State), s.hold = .running →
    s.polling a → (s.slc.rows.get a).state = .awake →
    let u := s.heard a flags
    let outcome := exec (.levelSample flags bay echo temperature lid) s
    let d := (echo.toNat * (3313 + 6 * max (-40) (min 85 temperature.toInt)) / 20000).toNat
    (containerAt s a bay.toNat = none → outcome = .next u) ∧
    (∀ r c, containerAt s a bay.toNat = some r → configOf s r = some c →
      let f := fillOf s r
      let p := s.ft.profiles.get c.profile
      let implausible := echo.toNat = 0 ∨ echo.toNat = 65535 ∨ d < 100 ∨ c.empty + 150 < d
      (lid = true ∨ (serviceOf s r).name = .service → outcome = .next u) ∧
      (lid = false → (serviceOf s r).name ≠ .service → implausible →
        ∃ t, outcome = .next t ∧ t = { u with ft := t.ft, tp := t.tp } ∧ t.ft.profiles = s.ft.profiles ∧ t.ft.queue = s.ft.queue ∧
          (let count := min 255 (f.implausible + 1)
           t.ft.rows = s.ft.rows.set r { s.ft.rows.get r with fill := { f with
            implausible := count
            health := if s.tp.effective.faultCount ≤ count then .fault
              else if 3 ≤ count ∧ (f.health = .noData ∨ f.health = .good) then .suspect else f.health } })) ∧
      (lid = false → (serviceOf s r).name ≠ .service → ¬implausible →
        ∃ t g, outcome = .next t ∧ t.ft.rows = s.ft.rows.set r { s.ft.rows.get r with fill := g } ∧
          (let level := if c.empty ≤ d then 0 else min 1200 ((c.empty - d) * 1000 / (c.empty - c.full))
           let fresh := f.fresh = true ∨ f.health = .fault
           g.health = .good ∧ g.implausible = 0 ∧ g.lastPlausible = s.tk.uptime ∧ g.fresh = false ∧ g.i = g.lf ∧
           (fresh → g.lf = level ∧ g.drop = false) ∧
           (¬fresh → (g.lf : Int) = max 0 (f.lf + filterStep level f.lf p.k) ∧ g.drop = (f.drop || decide (g.lf + 300 < f.lf))) ∧
           (f.ref = none ∨ f.health = .fault → g.ref = some (g.lf, s.tk.uptime) ∧ g.r = f.r) ∧
           (∀ lref tref, f.ref = some (lref, tref) → f.health ≠ .fault →
            let minutes := (s.tk.uptime - tref).toNat
            let measured : Int := max 0 (min 20000 ((((g.lf : Int) - lref) * 600).tdiv minutes))
            (minutes < 10 → g.ref = f.ref ∧ g.r = f.r) ∧
            (10 ≤ minutes → g.ref = some (g.lf, s.tk.uptime) ∧ (g.r : Int) = max 0 (f.r + (measured - f.r).tdiv 4))) ∧
           g.ttf = timeToFull p.fu g.i g.r ∧
           (let up := risingTarget p g.lf
            let down := fallingTarget p g.lf
            (f.fill.rank < up.rank → (g.fill, g.rise, g.fall) =
              if f.rise + 1 = p.d then (up, 0, 0) else (f.fill, f.rise + 1, 0)) ∧
            (up.rank ≤ f.fill.rank → down.rank < f.fill.rank → (g.fill, g.rise, g.fall) =
              if f.fall + 1 = p.d then (down, 0, 0) else (f.fill, 0, f.fall + 1)) ∧
            (up.rank ≤ f.fill.rank → f.fill.rank ≤ down.rank → (g.fill, g.rise, g.fall) = (f.fill, 0, 0)))) ∧
          t.tk = s.tk ∧ t.slc = u.slc ∧ t.clu = s.clu ∧ t.au = s.au ∧ t.rmi = s.rmi ∧ t.rm.service = s.rm.service ∧
          t.memory = s.memory) ∧
      (lid = false → (serviceOf s r).name ≠ .service → ¬implausible →
        ∃ t, outcome = .next t ∧
          (let enters := f.fill ≠ .overflow ∧ (fillOf t r).fill = .overflow
           let takes := enters ∧ serviceOf s r = .inUse ∧ onActiveRound s r = false
           let age := fun (lift : Clock) => (s.tk.uptime - lift).toNat
           let candidate := fun i rd lift => s.rm.slots.get i = some rd ∧ rd.state = RoundState.running ∧ 0 < rd.allowance ∧
             rd.steps.length < 48 ∧ rd.lastLift = some (lift, c.cluster)
           (¬takes → t.rm = s.rm) ∧
           ((∀ i rd lift, ¬candidate i rd lift) → t.rm = s.rm) ∧
           (∀ i rd lift, takes → candidate i rd lift →
            (∀ j other last, candidate j other last → age lift < age last ∨ (age lift = age last ∧ i ≤ j)) →
            t.rm.slots = s.rm.slots.set i (some { rd with
              allowance := rd.allowance - 1
              steps := rd.steps ++ [{ row := r, origin := .inserted, state := .pending, timedOut := false, before := none,
                                      after := none, weight := 0, doneMinute := none, vehicle := none }] }) ∧
            r ∉ t.ft.queue ∧
            (s.tp.occupancy < 120 → UpEntry.report s.tp.reportSeq (.round
              { round := rd.number, vehicle := rd.vehicle, slot := i, stamp := s.stamp
                news := .inserted c.number r (rd.steps.length + 1) (rd.allowance - 1) }) ∈ t.tp.entries)))))

/-- R64 and R65: the level of a distance, and the filter's step toward it. -/
def Obligations.LevelAndFilter : Prop :=
  (∀ (c : ContainerConfig) (d : Nat), c.full + 200 ≤ c.empty →
    (c.empty ≤ d → levelOf c d = 0) ∧
    (d < c.empty → levelOf c d ≤ 1200 ∧ levelOf c d * (c.empty - c.full) ≤ (c.empty - d) * 1000 ∧
      (levelOf c d < 1200 → (c.empty - d) * 1000 < (levelOf c d + 1) * (c.empty - c.full)))) ∧
  (∀ (l k : Nat) (f : Fill), f.fresh = true → f.filter l k = { f with lf := l, fresh := false, drop := false }) ∧
  (∀ (l k : Nat) (f : Fill), f.fresh = false → 1 ≤ k → k ≤ 8 →
    let g := f.filter l k
    g = { f with lf := g.lf, drop := g.drop } ∧
    (l = f.lf → g.lf = f.lf) ∧ (k = 8 → g.lf = l) ∧
    (f.lf < l → f.lf < g.lf ∧ g.lf ≤ l ∧ (l - f.lf) * k < 8 * (g.lf - f.lf + 1) ∧
      (8 * (g.lf - f.lf) ≤ (l - f.lf) * k ∨ g.lf = f.lf + 1)) ∧
    (l < f.lf → l ≤ g.lf ∧ g.lf < f.lf ∧ (f.lf - l) * k < 8 * (f.lf - g.lf + 1) ∧
      (8 * (f.lf - g.lf) ≤ (f.lf - l) * k ∨ g.lf + 1 = f.lf)))

/-- R99: the redirect for a denied container in a cluster. -/
def Obligations.RedirectIsChosen : Prop :=
  ∀ (s : State) (denied : Row) (d : ContainerConfig) (cluster : Fin 64), configOf s denied = some d →
    let candidate (r : Row) (c : ContainerConfig) : Prop :=
      configOf s r = some c ∧ r ≠ denied ∧ c.cluster = cluster ∧ c.fraction = d.fraction ∧ c.enabled = true ∧
        serviceOf s r = .inUse ∧ (s.slc.rows.get c.station).state ∈ [StationState.awake, .dozing, .silent] ∧
        (fillOf s r).fill ∈ [FillState.low, .nearFull] ∧ (fillOf s r).i < (s.ft.profiles.get c.profile).fu ∧
        (fillOf s r).health ≠ .fault
    (redirectFor s denied cluster = none ↔ ∀ r c, ¬candidate r c) ∧
    (∀ r c, candidate r c → (∀ q e, candidate q e → (fillOf s r).i < (fillOf s q).i ∨ ((fillOf s r).i = (fillOf s q).i ∧ r ≤ q)) →
      redirectFor s denied cluster = some { number := c.number, station := c.station, bay := c.bay })

/-- A LIFT_REQUEST that an AWAKE row relays (chapter 8, 8.3). With no LOADED or RUNNING round of the vehicle and number it is
refused NO_ROUND. For a PENDING step of the round, the container not HELD, the lift is accepted: the step is LIFTING with the
vehicle and the level before, the round RUNNING, the container in SERVICE_WAIT while its deposit is open and in SERVICE otherwise,
out of the service queue; LIFT_WAIT, or LIFT_RELEASE and LIFT_OK, are posted. A request pending on a container that goes to SERVICE is
answered first (chapter 7, 7.2): DENY SERVICE with a redirect in the container's cluster, counted, the request gone from the list and from
where it waited. A container that the round does not hold open is
appended to an ad hoc round with fewer than 48 steps and lifted in the same way. A repeat for a LIFTING step makes this station the
relay and is answered again, the step, the slot and the service start unchanged. The refusals NOT_ON_ROUND, OTHER_ROUND and HELD come in
their order and change nothing. -/
def Obligations.LiftRequestIsJudged : Prop :=
  ∀ (a : Station) (flags : Byte) (vehicle round : Short) (n : Number) (s : State), s.hold = .running → s.polling a →
    (s.slc.rows.get a).state = .awake → n ≠ 0xFFFFFFFF →
    let u := s.heard a flags
    let outcome := exec (.liftRequest flags vehicle round n) s
    let reply (answer : VehicleAnswer) : DownCommand := .reply answer vehicle (.container n)
    let refused (reason : RefuseReason) : Prop := outcome = .next (u.offered a (reply (.liftRefuse reason)))
    let released (c : ContainerConfig) (slc : StreetLoop) : StreetLoop :=
      (slc.offered c.station (.liftRelease c.bay)).offered a (reply .liftOk)
    let lifted (r : Row) (c : ContainerConfig) (step : StepRef) (slots : Table (Option Round) 4) : Prop :=
      ∃ t, outcome = .next t ∧ t.rm.slots = slots ∧ r ∉ t.ft.queue ∧ t.ft.rows = s.ft.rows ∧ t.rmi = s.rmi ∧ t.tk = s.tk ∧
        t.memory = s.memory ∧
        ((s.au.deposits.get r).isSome = true →
          t.rm.service = s.rm.service.set r (.serviceWait step a) ∧ t.slc = u.slc.offered a (reply .liftWait) ∧ t.au = s.au ∧
          t.clu = s.clu) ∧
        (s.au.deposits.get r = none → t.rm.service = s.rm.service.set r (.service step a s.tk.seconds) ∧
          ((∀ q ∈ s.au.requests, q.row ≠ r) → t.slc = released c u.slc ∧ t.au = s.au ∧ t.clu = s.clu) ∧
          (∀ q ∈ s.au.requests, q.row = r → (∀ x ∈ s.au.requests, x.row = r → x = q) →
            t.slc = released c
              (u.slc.offered q.station (.deny (BitVec.ofNat 8 q.bay.val) q.tag .service (redirectFor s r c.cluster))) ∧
            t.au = { s.au with
              requests := s.au.requests.filter (·.row != r), denials := min 65535 (s.au.denials + 1) } ∧
            t.clu = { s.clu with
              missList := s.clu.missList.map fun e => { e with waiting := e.waiting.filter (·.row != r) }
              slotWait := s.clu.slotWait.filter (·.row != r) }))
    ((∀ i rd, s.rm.slots.get i = some rd → rd.state = .closing ∨ rd.vehicle ≠ vehicle ∨ rd.number ≠ round) → refused .noRound) ∧
    (∀ i rd, s.rm.slots.get i = some rd → rd.state ≠ .closing → rd.vehicle = vehicle → rd.number = round →
      (∀ j other, s.rm.slots.get j = some other → other.vehicle = vehicle → j = i) →
      (containerOf s n = none → refused .notOnRound) ∧
      (∀ r c, containerOf s n = some r → configOf s r = some c →
        let holds := fun state => ∃ st ∈ rd.steps, st.row = r ∧ st.state = state
        (holds .pending → (serviceOf s r).name = .held → refused .held) ∧
        (∀ k st, rd.steps[k]? = some st → st.row = r → st.state = .pending →
          (∀ j x, j < k → rd.steps[j]? = some x → x.row = r → x.state ≠ .pending) → (serviceOf s r).name ≠ .held →
          lifted r c ⟨i, k⟩ (s.rm.slots.set i (some { rd with
            state := .running
            steps := rd.steps.set k { st with state := .lifting, vehicle := some vehicle, before := some (fillOf s r).i } }))) ∧
        (¬holds .pending → holds .lifting →
          (∀ step relay, serviceOf s r = .serviceWait step relay → outcome = .next { u.offered a (reply .liftWait) with
            rm := { s.rm with service := s.rm.service.set r (.serviceWait step a) } }) ∧
          (∀ step relay start, serviceOf s r = .service step relay start → outcome = .next { u with
            slc := released c u.slc, rm := { s.rm with service := s.rm.service.set r (.service step a start) } })) ∧
        (¬holds .pending → ¬holds .lifting →
          (onActiveRound s r = true → refused .otherRound) ∧
          (onActiveRound s r = false → (serviceOf s r).name = .held → refused .held) ∧
          (onActiveRound s r = false → (serviceOf s r).name ≠ .held → rd.adHoc = false ∨ 48 ≤ rd.steps.length → refused .notOnRound) ∧
          (onActiveRound s r = false → (serviceOf s r).name ≠ .held → rd.adHoc = true → rd.steps.length < 48 →
            lifted r c ⟨i, rd.steps.length⟩ (s.rm.slots.set i (some { rd with
              state := .running
              steps := rd.steps ++ [{ row := r, origin := .adhoc, state := .lifting, timedOut := false, before := some (fillOf s r).i,
                                      after := none, weight := 0, doneMinute := none, vehicle := some vehicle }] }))))))

/-- A LIFT_DONE that an AWAKE row relays (chapter 8, 8.5; chapter 4, 4.9). For a container in SERVICE, from the vehicle of its
lifting step: the step is DONE with the weight, level after 0 and the minute; the slot's last lift is now; the container is empty
with a fresh start; it is IN_USE when LOCKED and HELD when UNLOCKED; a SERVICE_REPORT is posted and DONE_ACK sent; a CLOSING slot
with no lift left is free. A container in HELD is completed late, by any vehicle: its held step, if it still has one, is DONE by the
reporting vehicle with its timeout flag kept, the slot's last lift stays, the container is empty with a fresh start, IN_USE or HELD as
the lock says, and a SERVICE_REPORT LATE is posted before DONE_ACK. What remains is only answered: LIFT_WAIT for a container in
SERVICE_WAIT by the vehicle of its lifting step; LIFT_REFUSE OTHER_VEHICLE for one in SERVICE_WAIT or SERVICE by another vehicle; DONE_ACK
again for a container in IN_USE that this vehicle has completed on its active round; and LIFT_REFUSE NOT_ON_ROUND for one in IN_USE without
such a step, and for a container that no row holds. -/
def Obligations.LiftDoneCompletes : Prop :=
  ∀ (a : Station) (flags : Byte) (vehicle : Short) (n : Number) (weight : Short) (lock : LockState) (s : State),
    s.hold = .running → s.polling a → (s.slc.rows.get a).state = .awake →
    let u := s.heard a flags
    let outcome := exec (.liftDone flags vehicle n weight lock) s
    let reply (answer : VehicleAnswer) : DownCommand := .reply answer vehicle (.container n)
    let replied (answer : VehicleAnswer) (t : State) : Prop := t.slc = u.slc.offered a (reply answer)
    let answered (answer : VehicleAnswer) : Prop := outcome = .next (u.offered a (reply answer))
    (containerOf s n = none → answered (.liftRefuse .notOnRound)) ∧
    (∀ r c i rd k st relay, containerOf s n = some r → configOf s r = some c → s.rm.slots.get i = some rd → rd.steps[k]? = some st →
      (serviceOf s r = .serviceWait ⟨i, k⟩ relay → st.vehicle = some vehicle → answered .liftWait) ∧
      (serviceOf s r = .serviceWait ⟨i, k⟩ relay → st.vehicle ≠ some vehicle → answered (.liftRefuse .otherVehicle)) ∧
      (∀ start, serviceOf s r = .service ⟨i, k⟩ relay start → st.vehicle ≠ some vehicle → answered (.liftRefuse .otherVehicle))) ∧
    (∀ r c, containerOf s n = some r → configOf s r = some c → serviceOf s r = .inUse →
      (∀ i rd, s.rm.slots.get i = some rd → rd.vehicle = vehicle →
        (∀ j other, s.rm.slots.get j = some other → other.vehicle = vehicle → j = i) →
        (∃ st ∈ rd.steps, st.row = r ∧ st.state = .done ∧ st.vehicle = some vehicle) → answered .doneAck) ∧
      ((∀ i rd, s.rm.slots.get i = some rd → rd.vehicle = vehicle →
        ∀ st ∈ rd.steps, st.row = r → st.state = .done → st.vehicle ≠ some vehicle) → answered (.liftRefuse .notOnRound))) ∧
    (∀ r c i rd k st relay start, containerOf s n = some r → configOf s r = some c → serviceOf s r = .service ⟨i, k⟩ relay start →
      s.rm.slots.get i = some rd → rd.steps[k]? = some st → st.vehicle = some vehicle →
      ∃ t, outcome = .next t ∧ replied .doneAck t ∧
        (let steps := rd.steps.set k
          { st with state := .done, weight := weight, after := some 0, doneMinute := some s.stamp }
         t.rm.slots = s.rm.slots.set i (
          if rd.state = .closing ∧ steps.all (fun x => x.state != .lifting) = true then none
          else some { rd with lastLift := some (s.tk.uptime, c.cluster), steps := steps })) ∧
        serviceOf t r = (match lock with
          | .locked => .inUse
          | .unlocked => .held .unlocked none) ∧
        t.ft.rows = s.ft.rows.set r { s.ft.rows.get r with fill := { fillOf s r with
          lf := 0, i := 0, fill := .low, rise := 0, fall := 0, ref := none, fresh := true
          ttf := timeToFull (s.ft.profiles.get c.profile).fu 0 (fillOf s r).r } } ∧
        (s.tp.occupancy < 120 → UpEntry.report s.tp.reportSeq (.service
          { outcome := .done, number := n, row := r, step := some (rd.number, k + 1), origin := some st.origin,
            vehicle := some vehicle, before := st.before, carried := some (weight, lock),
            service := (match lock with
              | .locked => .inUse
              | .unlocked => .held), stamp := s.stamp }) ∈ t.tp.entries) ∧
        t.au = s.au ∧ t.clu = s.clu ∧ t.rmi = s.rmi ∧ t.tk = s.tk ∧ t.memory = s.memory) ∧
    (∀ r c cause held, containerOf s n = some r → configOf s r = some c → serviceOf s r = .held cause held →
      let late (slots : Table (Option Round) 4) (step : Option (Short × Nat)) (origin : Option Origin) (before : Option Nat) : Prop :=
        ∃ t, outcome = .next t ∧ replied .doneAck t ∧ t.rm.slots = slots ∧
          (∀ q, serviceOf t q = if q = r then (match lock with
            | .locked => .inUse
            | .unlocked => .held .unlocked none) else serviceOf s q) ∧
          t.ft.rows = s.ft.rows.set r { s.ft.rows.get r with fill := { fillOf s r with
            lf := 0, i := 0, fill := .low, rise := 0, fall := 0, ref := none, fresh := true
            ttf := timeToFull (s.ft.profiles.get c.profile).fu 0 (fillOf s r).r } } ∧
          (s.tp.occupancy < 120 → UpEntry.report s.tp.reportSeq (.service
            { outcome := .late, number := n, row := r, step := step, origin := origin, vehicle := some vehicle, before := before,
              carried := some (weight, lock), stamp := s.stamp
              service := (match lock with
                | .locked => .inUse
                | .unlocked => .held) }) ∈ t.tp.entries) ∧
          t.au = s.au ∧ t.clu = s.clu ∧ t.rmi = s.rmi ∧ t.tk = s.tk ∧ t.memory = s.memory
      (held = none → late s.rm.slots none none none) ∧
      (∀ i k rd st, held = some ⟨i, k⟩ → s.rm.slots.get i = some rd → rd.steps[k]? = some st →
        late (s.rm.slots.set i (some { rd with
            steps := rd.steps.set k
              { st with state := .done, weight := weight, after := some 0, doneMinute := some s.stamp, vehicle := some vehicle } }))
          (some (rd.number, k + 1)) (some st.origin) st.before))

/-! ### The laws every step keeps -/

/-- Every step keeps the record memory in its canonical form, so that equal contents are equal data (the form is the model's, log
3). -/
def Obligations.StepKeepsTheMemoryCanonical : Prop :=
  ∀ s t : State, s.memoryWf → step s = .next t → t.memoryWf

/-- Every step keeps the upstream queue within its places, at most 128 entries and reservations and at most 120 entries that are not
REPLYs, each reservation one waiting command's (chapter 10, 10.7 and 10.2; chapter 9, 9.2); and every count and the arbiters' state
within bounds (chapter 3, 3.3 and 3.8; chapter 6, 6.5; chapter 7, 7.10; chapter 9, 9.3; chapter 10, 10.7). -/
def Obligations.StepKeepsTheUpstreamQueue : Prop :=
  (∀ s t : State, s.upstreamLaw → step s = .next t → t.upstreamLaw) ∧
  (∀ s t : State, s.countsInRange → step s = .next t → t.countsInRange)

/-- Every step keeps, for every account, held equal to the sum of the charged costs of the open deposits on that account's cards
(chapter 7, 7.6). -/
def Obligations.StepKeepsHeldAmounts : Prop :=
  ∀ s t : State, s.heldLaw → step s = .next t → t.heldLaw

/-- Every step keeps the service queue, in READY, to its law: exactly the qualifying containers, each once, by TTF and then index
(chapter 5, 5.5). With the service records' references, which that law holds, every step keeps the rounds' law (chapter 8, 8.1): no two
active slots with one vehicle or one round number, a container PENDING or LIFTING in at most one step, and a LIFTING step the one its
container's service record names, in SERVICE_WAIT or SERVICE. -/
def Obligations.StepKeepsTheServiceQueue : Prop :=
  (∀ s t : State, s.serviceLaw → step s = .next t → t.serviceLaw) ∧
  (∀ s t : State, s.serviceLaw → s.roundsLaw → step s = .next t → t.roundsLaw)

/-- Every step keeps the card cache free of two entries for one card, its recency order listing exactly the valid entries (chapter
6, 6.2); and the bounded lists: downstream queues of at most five commands and one PASS_DOWN, at most 16 pending requests and one to
a container, at most 8 miss list entries and one to a bucket (chapter 3, 3.6; chapter 7, 7.1; chapter 6, 6.3). Every step keeps a valid
cache entry equal to its card's record in the record memory, with no write of that card outstanding (chapter 6, 6.2), while the device keeps
what is written to it (log 3, 29) and until a RESET FULL is taken, which ends the cache's use. -/
def Obligations.StepKeepsTheCacheAndLists : Prop :=
  (∀ s t : State, s.cacheLaw → step s = .next t → t.cacheLaw) ∧
  (∀ s t : State, s.listLaw → step s = .next t → t.listLaw) ∧
  (∀ s t : State, (∀ c rest, s.pending = c :: rest → keepsBuckets c) → s.memoryWf → (s.hold ≠ .trunkFull → s.cachedLaw) →
    step s = .next t → t.hold ≠ .trunkFull → t.cachedLaw)

/-- Every step keeps: no container of a station that is LOST, BARRED, ABSENT, JOINING or UNBOUND has a pending request or an open
deposit (chapter 2, 2.5); a rejoin count at most the rejoin limit, and at the limit exactly in BARRED (chapter 2, 2.3 and 2.4); and no
serial in two rows (2.1). -/
def Obligations.StepKeepsStationsSettled : Prop :=
  (∀ s t : State, s.settledLaw → step s = .next t → t.settledLaw) ∧
  (∀ s t : State, s.rejoinLaw → step s = .next t → t.rejoinLaw) ∧
  (∀ s t : State, s.serialLaw → step s = .next t → t.serialLaw)
end

