-- ==== Sys2Proof/Laws/Bytes.lean ====
section
/-! SUPPORT. Fields written high byte first are read back (11.1). -/

namespace Sys2Proof.Machine

@[simp] theorem length_bytesOf : ∀ (size n : Nat), (bytesOf size n).length = size
  | 0, _ => rfl
  | size + 1, n => by simp [bytesOf, length_bytesOf size]

theorem natOf_append (xs : List Byte) (b : Byte) : natOf (xs ++ [b]) = natOf xs * 256 + b.toNat := by
  simp [natOf, List.foldl_append]

/-- A number that fits its field is read back. -/
theorem natOf_bytesOf : ∀ (size n : Nat), n < 256 ^ size → natOf (bytesOf size n) = n
  | 0, n, h => by have : n = 0 := by simpa using h
                  subst this; rfl
  | size + 1, n, h => by
    have h1 : n / 256 < 256 ^ size := by
      rw [Nat.div_lt_iff_lt_mul (by decide)]; rwa [pow_succ] at h
    rw [bytesOf, natOf_append, natOf_bytesOf size _ h1, BitVec.toNat_ofNat]
    show n / 256 * 256 + n % 256 = n
    omega

@[simp] theorem length_slice_le (b : List Byte) (i k : Nat) : (slice b i k).length ≤ k := by simp [slice]

/-- A field at the front of what is left. -/
theorem slice_append_left {xs ys : List Byte} {k : Nat} (h : xs.length = k) : slice (xs ++ ys) 0 k = xs := by
  subst h; simp [slice]

/-- A field behind another. -/
theorem slice_append_right {xs ys : List Byte} {i k : Nat} (h : xs.length ≤ i) :
    slice (xs ++ ys) i k = slice ys (i - xs.length) k := by
  simp [slice, List.drop_append, List.drop_eq_nil_of_le h]

theorem slice_whole {xs : List Byte} {k : Nat} (h : xs.length = k) : slice xs 0 k = xs := by subst h; simp [slice]

@[simp] theorem flagOf_flagByte (b : Bool) : flagOf (flagByte b) = b := by cases b <;> rfl

theorem fixed_eq_some {α : Type} {size : Nat} {f : List Byte → α} {b : List Byte} (h : b.length = size) :
    fixed size f b = some (f b) := by simp [fixed, h]

theorem index?_val {n : Nat} (i : Fin n) : index? n i.val = some i := by simp [index?]

theorem station?_addressOf (a : Station) : station? (addressOf a) = some a := by
  have := a.isLt
  simp [station?, addressOf]

end Sys2Proof.Machine
end

