-- ==== Sys2Proof/Laws/Table.lean ====
section
/-! SUPPORT. What a read of a table gives after a write. -/

namespace Sys2Proof.Machine

variable {α : Type} {n : Nat}

@[simp] theorem Table.get_set_self (t : Table α n) (i : Fin n) (x : α) : (t.set i x).get i = x := by
  simp [Table.get, Table.set]

theorem Table.get_set_ne {i j : Fin n} (h : j ≠ i) (t : Table α n) (x : α) : (t.set i x).get j = t.get j := by
  have h : i.val ≠ j.val := fun e => h (Fin.ext e.symm)
  simp [Table.get, Table.set, List.getElem_set_ne h]

theorem Table.get_set (t : Table α n) (i j : Fin n) (x : α) : (t.set i x).get j = if j = i then x else t.get j := by
  by_cases h : j = i
  · subst h; simp
  · simp [h, Table.get_set_ne h]

@[simp] theorem Table.get_set_of_ne {i j : Fin n} (t : Table α n) (x : α) (h : ¬j = i) : (t.set i x).get j = t.get j :=
  Table.get_set_ne h t x

@[simp] theorem Table.get_update_self (t : Table α n) (i : Fin n) (f : α → α) : (t.update i f).get i = f (t.get i) := by
  simp [Table.update]

@[simp] theorem Table.get_update_ne {i j : Fin n} (t : Table α n) (f : α → α) (h : ¬j = i) : (t.update i f).get j = t.get j := by
  simp [Table.update, h]

@[simp] theorem Table.get_map (t : Table α n) (f : α → α) (i : Fin n) : (t.map f).get i = f (t.get i) := by
  simp [Table.get, Table.map]

@[simp] theorem Table.get_replicate (x : α) (i : Fin n) : (Table.replicate n x).get i = x := by
  simp [Table.get, Table.replicate]

/-- Two tables that agree row by row are the same. -/
theorem Table.ext_get {t u : Table α n} (h : ∀ i, t.get i = u.get i) : t = u := by
  cases t with | mk a ha => cases u with | mk b hb =>
  have : a = b := by
    apply List.ext_getElem (by rw [ha, hb])
    intro i h1 h2
    exact h ⟨i, by omega⟩
  subst this; rfl

theorem Table.mem_rows {t : Table α n} {x : α} : x ∈ t.rows ↔ ∃ i, t.get i = x := by
  constructor
  · intro h
    obtain ⟨i, hi, rfl⟩ := List.getElem_of_mem h
    exact ⟨⟨i, by have := t.size; omega⟩, rfl⟩
  · rintro ⟨i, rfl⟩
    exact List.getElem_mem _

theorem Table.any_rows {t : Table α n} {p : α → Bool} : t.rows.any p = true ↔ ∃ i, p (t.get i) = true := by
  simp only [List.any_eq_true, Table.mem_rows]
  constructor
  · rintro ⟨x, ⟨i, rfl⟩, h⟩; exact ⟨i, h⟩
  · rintro ⟨i, h⟩; exact ⟨_, ⟨i, rfl⟩, h⟩

theorem Table.find_some {t : Table α n} {p : α → Bool} {i : Fin n} (h : t.find p = some i) : p (t.get i) = true :=
  List.find?_some (p := fun i => p (t.get i)) h

theorem Table.find_none {t : Table α n} {p : α → Bool} : t.find p = none ↔ ∀ i, p (t.get i) = false := by
  simp [Table.find, List.find?_eq_none, List.mem_finRange]

theorem Table.mem_indexes {t : Table α n} {p : α → Bool} {i : Fin n} : i ∈ t.indexes p ↔ p (t.get i) = true := by
  simp [Table.indexes, List.mem_finRange]

end Sys2Proof.Machine
end

