-- ==== Sys2Proof/Laws/State.lean ====
section
/-! SUPPORT. One lemma for each named update of the state and each field it leaves: true by unfolding, so that no proof unfolds a
record update. -/

namespace Sys2Proof.Machine

@[simp] theorem setStation_tk (a : Station) (f : StationRow → StationRow) (s : State) : (setStation a f s).tk = s.tk := rfl
@[simp] theorem setStation_ft (a : Station) (f : StationRow → StationRow) (s : State) : (setStation a f s).ft = s.ft := rfl
@[simp] theorem setStation_clu (a : Station) (f : StationRow → StationRow) (s : State) : (setStation a f s).clu = s.clu := rfl
@[simp] theorem setStation_au (a : Station) (f : StationRow → StationRow) (s : State) : (setStation a f s).au = s.au := rfl
@[simp] theorem setStation_rm (a : Station) (f : StationRow → StationRow) (s : State) : (setStation a f s).rm = s.rm := rfl
@[simp] theorem setStation_rmi (a : Station) (f : StationRow → StationRow) (s : State) : (setStation a f s).rmi = s.rmi := rfl
@[simp] theorem setStation_tp (a : Station) (f : StationRow → StationRow) (s : State) : (setStation a f s).tp = s.tp := rfl
@[simp] theorem setStation_memory (a : Station) (f : StationRow → StationRow) (s : State) : (setStation a f s).memory = s.memory := rfl
@[simp] theorem setStation_hold (a : Station) (f : StationRow → StationRow) (s : State) : (setStation a f s).hold = s.hold := rfl
@[simp] theorem setStation_straps (a : Station) (f : StationRow → StationRow) (s : State) : (setStation a f s).straps = s.straps := rfl
@[simp] theorem setStation_free (a : Station) (f : StationRow → StationRow) (s : State) : (setStation a f s).free = s.free := rfl
@[simp] theorem setStation_pending (a : Station) (f : StationRow → StationRow) (s : State) : (setStation a f s).pending = s.pending := rfl

@[simp] theorem setFill_tk (r : Row) (f : Fill → Fill) (s : State) : (setFill r f s).tk = s.tk := rfl
@[simp] theorem setFill_slc (r : Row) (f : Fill → Fill) (s : State) : (setFill r f s).slc = s.slc := rfl
@[simp] theorem setFill_clu (r : Row) (f : Fill → Fill) (s : State) : (setFill r f s).clu = s.clu := rfl
@[simp] theorem setFill_au (r : Row) (f : Fill → Fill) (s : State) : (setFill r f s).au = s.au := rfl
@[simp] theorem setFill_rm (r : Row) (f : Fill → Fill) (s : State) : (setFill r f s).rm = s.rm := rfl
@[simp] theorem setFill_rmi (r : Row) (f : Fill → Fill) (s : State) : (setFill r f s).rmi = s.rmi := rfl
@[simp] theorem setFill_tp (r : Row) (f : Fill → Fill) (s : State) : (setFill r f s).tp = s.tp := rfl
@[simp] theorem setFill_memory (r : Row) (f : Fill → Fill) (s : State) : (setFill r f s).memory = s.memory := rfl
@[simp] theorem setFill_hold (r : Row) (f : Fill → Fill) (s : State) : (setFill r f s).hold = s.hold := rfl
@[simp] theorem setFill_straps (r : Row) (f : Fill → Fill) (s : State) : (setFill r f s).straps = s.straps := rfl
@[simp] theorem setFill_free (r : Row) (f : Fill → Fill) (s : State) : (setFill r f s).free = s.free := rfl
@[simp] theorem setFill_pending (r : Row) (f : Fill → Fill) (s : State) : (setFill r f s).pending = s.pending := rfl

@[simp] theorem setService_tk (r : Row) (v : Service) (s : State) : (setService r v s).tk = s.tk := rfl
@[simp] theorem setService_slc (r : Row) (v : Service) (s : State) : (setService r v s).slc = s.slc := rfl
@[simp] theorem setService_ft (r : Row) (v : Service) (s : State) : (setService r v s).ft = s.ft := rfl
@[simp] theorem setService_clu (r : Row) (v : Service) (s : State) : (setService r v s).clu = s.clu := rfl
@[simp] theorem setService_au (r : Row) (v : Service) (s : State) : (setService r v s).au = s.au := rfl
@[simp] theorem setService_rmi (r : Row) (v : Service) (s : State) : (setService r v s).rmi = s.rmi := rfl
@[simp] theorem setService_tp (r : Row) (v : Service) (s : State) : (setService r v s).tp = s.tp := rfl
@[simp] theorem setService_memory (r : Row) (v : Service) (s : State) : (setService r v s).memory = s.memory := rfl
@[simp] theorem setService_hold (r : Row) (v : Service) (s : State) : (setService r v s).hold = s.hold := rfl
@[simp] theorem setService_straps (r : Row) (v : Service) (s : State) : (setService r v s).straps = s.straps := rfl
@[simp] theorem setService_free (r : Row) (v : Service) (s : State) : (setService r v s).free = s.free := rfl
@[simp] theorem setService_pending (r : Row) (v : Service) (s : State) : (setService r v s).pending = s.pending := rfl

@[simp] theorem setSlot_tk (i : Fin 4) (rd : Option Round) (s : State) : (setSlot i rd s).tk = s.tk := rfl
@[simp] theorem setSlot_slc (i : Fin 4) (rd : Option Round) (s : State) : (setSlot i rd s).slc = s.slc := rfl
@[simp] theorem setSlot_ft (i : Fin 4) (rd : Option Round) (s : State) : (setSlot i rd s).ft = s.ft := rfl
@[simp] theorem setSlot_clu (i : Fin 4) (rd : Option Round) (s : State) : (setSlot i rd s).clu = s.clu := rfl
@[simp] theorem setSlot_au (i : Fin 4) (rd : Option Round) (s : State) : (setSlot i rd s).au = s.au := rfl
@[simp] theorem setSlot_rmi (i : Fin 4) (rd : Option Round) (s : State) : (setSlot i rd s).rmi = s.rmi := rfl
@[simp] theorem setSlot_tp (i : Fin 4) (rd : Option Round) (s : State) : (setSlot i rd s).tp = s.tp := rfl
@[simp] theorem setSlot_memory (i : Fin 4) (rd : Option Round) (s : State) : (setSlot i rd s).memory = s.memory := rfl
@[simp] theorem setSlot_hold (i : Fin 4) (rd : Option Round) (s : State) : (setSlot i rd s).hold = s.hold := rfl
@[simp] theorem setSlot_straps (i : Fin 4) (rd : Option Round) (s : State) : (setSlot i rd s).straps = s.straps := rfl
@[simp] theorem setSlot_free (i : Fin 4) (rd : Option Round) (s : State) : (setSlot i rd s).free = s.free := rfl
@[simp] theorem setSlot_pending (i : Fin 4) (rd : Option Round) (s : State) : (setSlot i rd s).pending = s.pending := rfl

@[simp] theorem setAccount_tk (n : Fin 4096) (f : Account → Account) (s : State) : (setAccount n f s).tk = s.tk := rfl
@[simp] theorem setAccount_slc (n : Fin 4096) (f : Account → Account) (s : State) : (setAccount n f s).slc = s.slc := rfl
@[simp] theorem setAccount_ft (n : Fin 4096) (f : Account → Account) (s : State) : (setAccount n f s).ft = s.ft := rfl
@[simp] theorem setAccount_clu (n : Fin 4096) (f : Account → Account) (s : State) : (setAccount n f s).clu = s.clu := rfl
@[simp] theorem setAccount_rm (n : Fin 4096) (f : Account → Account) (s : State) : (setAccount n f s).rm = s.rm := rfl
@[simp] theorem setAccount_rmi (n : Fin 4096) (f : Account → Account) (s : State) : (setAccount n f s).rmi = s.rmi := rfl
@[simp] theorem setAccount_tp (n : Fin 4096) (f : Account → Account) (s : State) : (setAccount n f s).tp = s.tp := rfl
@[simp] theorem setAccount_memory (n : Fin 4096) (f : Account → Account) (s : State) : (setAccount n f s).memory = s.memory := rfl
@[simp] theorem setAccount_hold (n : Fin 4096) (f : Account → Account) (s : State) : (setAccount n f s).hold = s.hold := rfl
@[simp] theorem setAccount_straps (n : Fin 4096) (f : Account → Account) (s : State) : (setAccount n f s).straps = s.straps := rfl
@[simp] theorem setAccount_free (n : Fin 4096) (f : Account → Account) (s : State) : (setAccount n f s).free = s.free := rfl
@[simp] theorem setAccount_pending (n : Fin 4096) (f : Account → Account) (s : State) : (setAccount n f s).pending = s.pending := rfl

@[simp] theorem setDeposit_tk (r : Row) (d : Option OpenDeposit) (s : State) : (setDeposit r d s).tk = s.tk := rfl
@[simp] theorem setDeposit_slc (r : Row) (d : Option OpenDeposit) (s : State) : (setDeposit r d s).slc = s.slc := rfl
@[simp] theorem setDeposit_ft (r : Row) (d : Option OpenDeposit) (s : State) : (setDeposit r d s).ft = s.ft := rfl
@[simp] theorem setDeposit_clu (r : Row) (d : Option OpenDeposit) (s : State) : (setDeposit r d s).clu = s.clu := rfl
@[simp] theorem setDeposit_rm (r : Row) (d : Option OpenDeposit) (s : State) : (setDeposit r d s).rm = s.rm := rfl
@[simp] theorem setDeposit_rmi (r : Row) (d : Option OpenDeposit) (s : State) : (setDeposit r d s).rmi = s.rmi := rfl
@[simp] theorem setDeposit_tp (r : Row) (d : Option OpenDeposit) (s : State) : (setDeposit r d s).tp = s.tp := rfl
@[simp] theorem setDeposit_memory (r : Row) (d : Option OpenDeposit) (s : State) : (setDeposit r d s).memory = s.memory := rfl
@[simp] theorem setDeposit_hold (r : Row) (d : Option OpenDeposit) (s : State) : (setDeposit r d s).hold = s.hold := rfl
@[simp] theorem setDeposit_straps (r : Row) (d : Option OpenDeposit) (s : State) : (setDeposit r d s).straps = s.straps := rfl
@[simp] theorem setDeposit_free (r : Row) (d : Option OpenDeposit) (s : State) : (setDeposit r d s).free = s.free := rfl
@[simp] theorem setDeposit_pending (r : Row) (d : Option OpenDeposit) (s : State) : (setDeposit r d s).pending = s.pending := rfl

@[simp] theorem queueReply_tk (kind tag : Byte) (status : Status) (detail : Detail) (s : State) : (queueReply kind tag status detail s).tk = s.tk := rfl
@[simp] theorem queueReply_slc (kind tag : Byte) (status : Status) (detail : Detail) (s : State) : (queueReply kind tag status detail s).slc = s.slc := rfl
@[simp] theorem queueReply_ft (kind tag : Byte) (status : Status) (detail : Detail) (s : State) : (queueReply kind tag status detail s).ft = s.ft := rfl
@[simp] theorem queueReply_clu (kind tag : Byte) (status : Status) (detail : Detail) (s : State) : (queueReply kind tag status detail s).clu = s.clu := rfl
@[simp] theorem queueReply_au (kind tag : Byte) (status : Status) (detail : Detail) (s : State) : (queueReply kind tag status detail s).au = s.au := rfl
@[simp] theorem queueReply_rm (kind tag : Byte) (status : Status) (detail : Detail) (s : State) : (queueReply kind tag status detail s).rm = s.rm := rfl
@[simp] theorem queueReply_rmi (kind tag : Byte) (status : Status) (detail : Detail) (s : State) : (queueReply kind tag status detail s).rmi = s.rmi := rfl
@[simp] theorem queueReply_memory (kind tag : Byte) (status : Status) (detail : Detail) (s : State) : (queueReply kind tag status detail s).memory = s.memory := rfl
@[simp] theorem queueReply_hold (kind tag : Byte) (status : Status) (detail : Detail) (s : State) : (queueReply kind tag status detail s).hold = s.hold := rfl
@[simp] theorem queueReply_straps (kind tag : Byte) (status : Status) (detail : Detail) (s : State) : (queueReply kind tag status detail s).straps = s.straps := rfl
@[simp] theorem queueReply_free (kind tag : Byte) (status : Status) (detail : Detail) (s : State) : (queueReply kind tag status detail s).free = s.free := rfl
@[simp] theorem queueReply_pending (kind tag : Byte) (status : Status) (detail : Detail) (s : State) : (queueReply kind tag status detail s).pending = s.pending := rfl

@[simp] theorem queueWrite_tk (body : WriteBody) (reply : Option ReplyTo) (s : State) : (queueWrite body reply s).tk = s.tk := rfl
@[simp] theorem queueWrite_slc (body : WriteBody) (reply : Option ReplyTo) (s : State) : (queueWrite body reply s).slc = s.slc := rfl
@[simp] theorem queueWrite_ft (body : WriteBody) (reply : Option ReplyTo) (s : State) : (queueWrite body reply s).ft = s.ft := rfl
@[simp] theorem queueWrite_clu (body : WriteBody) (reply : Option ReplyTo) (s : State) : (queueWrite body reply s).clu = s.clu := rfl
@[simp] theorem queueWrite_au (body : WriteBody) (reply : Option ReplyTo) (s : State) : (queueWrite body reply s).au = s.au := rfl
@[simp] theorem queueWrite_rm (body : WriteBody) (reply : Option ReplyTo) (s : State) : (queueWrite body reply s).rm = s.rm := rfl
@[simp] theorem queueWrite_tp (body : WriteBody) (reply : Option ReplyTo) (s : State) : (queueWrite body reply s).tp = s.tp := rfl
@[simp] theorem queueWrite_memory (body : WriteBody) (reply : Option ReplyTo) (s : State) : (queueWrite body reply s).memory = s.memory := rfl
@[simp] theorem queueWrite_hold (body : WriteBody) (reply : Option ReplyTo) (s : State) : (queueWrite body reply s).hold = s.hold := rfl
@[simp] theorem queueWrite_straps (body : WriteBody) (reply : Option ReplyTo) (s : State) : (queueWrite body reply s).straps = s.straps := rfl
@[simp] theorem queueWrite_free (body : WriteBody) (reply : Option ReplyTo) (s : State) : (queueWrite body reply s).free = s.free := rfl
@[simp] theorem queueWrite_pending (body : WriteBody) (reply : Option ReplyTo) (s : State) : (queueWrite body reply s).pending = s.pending := rfl

@[simp] theorem rebuildQueue_tk (s : State) : (rebuildQueue s).tk = s.tk := rfl
@[simp] theorem rebuildQueue_slc (s : State) : (rebuildQueue s).slc = s.slc := rfl
@[simp] theorem rebuildQueue_clu (s : State) : (rebuildQueue s).clu = s.clu := rfl
@[simp] theorem rebuildQueue_au (s : State) : (rebuildQueue s).au = s.au := rfl
@[simp] theorem rebuildQueue_rm (s : State) : (rebuildQueue s).rm = s.rm := rfl
@[simp] theorem rebuildQueue_rmi (s : State) : (rebuildQueue s).rmi = s.rmi := rfl
@[simp] theorem rebuildQueue_tp (s : State) : (rebuildQueue s).tp = s.tp := rfl
@[simp] theorem rebuildQueue_memory (s : State) : (rebuildQueue s).memory = s.memory := rfl
@[simp] theorem rebuildQueue_hold (s : State) : (rebuildQueue s).hold = s.hold := rfl
@[simp] theorem rebuildQueue_straps (s : State) : (rebuildQueue s).straps = s.straps := rfl
@[simp] theorem rebuildQueue_free (s : State) : (rebuildQueue s).free = s.free := rfl
@[simp] theorem rebuildQueue_pending (s : State) : (rebuildQueue s).pending = s.pending := rfl

@[simp] theorem reevaluate_tk (r : Row) (s : State) : (reevaluate r s).tk = s.tk := rfl
@[simp] theorem reevaluate_slc (r : Row) (s : State) : (reevaluate r s).slc = s.slc := rfl
@[simp] theorem reevaluate_clu (r : Row) (s : State) : (reevaluate r s).clu = s.clu := rfl
@[simp] theorem reevaluate_au (r : Row) (s : State) : (reevaluate r s).au = s.au := rfl
@[simp] theorem reevaluate_rm (r : Row) (s : State) : (reevaluate r s).rm = s.rm := rfl
@[simp] theorem reevaluate_rmi (r : Row) (s : State) : (reevaluate r s).rmi = s.rmi := rfl
@[simp] theorem reevaluate_tp (r : Row) (s : State) : (reevaluate r s).tp = s.tp := rfl
@[simp] theorem reevaluate_memory (r : Row) (s : State) : (reevaluate r s).memory = s.memory := rfl
@[simp] theorem reevaluate_hold (r : Row) (s : State) : (reevaluate r s).hold = s.hold := rfl
@[simp] theorem reevaluate_straps (r : Row) (s : State) : (reevaluate r s).straps = s.straps := rfl
@[simp] theorem reevaluate_free (r : Row) (s : State) : (reevaluate r s).free = s.free := rfl
@[simp] theorem reevaluate_pending (r : Row) (s : State) : (reevaluate r s).pending = s.pending := rfl

@[simp] theorem refillAccounts_tk (s : State) : (refillAccounts s).tk = s.tk := rfl
@[simp] theorem refillAccounts_slc (s : State) : (refillAccounts s).slc = s.slc := rfl
@[simp] theorem refillAccounts_ft (s : State) : (refillAccounts s).ft = s.ft := rfl
@[simp] theorem refillAccounts_clu (s : State) : (refillAccounts s).clu = s.clu := rfl
@[simp] theorem refillAccounts_rm (s : State) : (refillAccounts s).rm = s.rm := rfl
@[simp] theorem refillAccounts_rmi (s : State) : (refillAccounts s).rmi = s.rmi := rfl
@[simp] theorem refillAccounts_tp (s : State) : (refillAccounts s).tp = s.tp := rfl
@[simp] theorem refillAccounts_memory (s : State) : (refillAccounts s).memory = s.memory := rfl
@[simp] theorem refillAccounts_hold (s : State) : (refillAccounts s).hold = s.hold := rfl
@[simp] theorem refillAccounts_straps (s : State) : (refillAccounts s).straps = s.straps := rfl
@[simp] theorem refillAccounts_free (s : State) : (refillAccounts s).free = s.free := rfl
@[simp] theorem refillAccounts_pending (s : State) : (refillAccounts s).pending = s.pending := rfl

@[simp] theorem freePort_tk (s : State) : (freePort s).tk = s.tk := rfl
@[simp] theorem freePort_slc (s : State) : (freePort s).slc = s.slc := rfl
@[simp] theorem freePort_ft (s : State) : (freePort s).ft = s.ft := rfl
@[simp] theorem freePort_clu (s : State) : (freePort s).clu = s.clu := rfl
@[simp] theorem freePort_au (s : State) : (freePort s).au = s.au := rfl
@[simp] theorem freePort_rm (s : State) : (freePort s).rm = s.rm := rfl
@[simp] theorem freePort_tp (s : State) : (freePort s).tp = s.tp := rfl
@[simp] theorem freePort_memory (s : State) : (freePort s).memory = s.memory := rfl
@[simp] theorem freePort_hold (s : State) : (freePort s).hold = s.hold := rfl
@[simp] theorem freePort_straps (s : State) : (freePort s).straps = s.straps := rfl
@[simp] theorem freePort_free (s : State) : (freePort s).free = s.free := rfl
@[simp] theorem freePort_pending (s : State) : (freePort s).pending = s.pending := rfl

@[simp] theorem endPoll_tk (s : State) : (endPoll s).tk = s.tk := rfl
@[simp] theorem endPoll_ft (s : State) : (endPoll s).ft = s.ft := rfl
@[simp] theorem endPoll_clu (s : State) : (endPoll s).clu = s.clu := rfl
@[simp] theorem endPoll_au (s : State) : (endPoll s).au = s.au := rfl
@[simp] theorem endPoll_rm (s : State) : (endPoll s).rm = s.rm := rfl
@[simp] theorem endPoll_rmi (s : State) : (endPoll s).rmi = s.rmi := rfl
@[simp] theorem endPoll_tp (s : State) : (endPoll s).tp = s.tp := rfl
@[simp] theorem endPoll_memory (s : State) : (endPoll s).memory = s.memory := rfl
@[simp] theorem endPoll_hold (s : State) : (endPoll s).hold = s.hold := rfl
@[simp] theorem endPoll_straps (s : State) : (endPoll s).straps = s.straps := rfl
@[simp] theorem endPoll_free (s : State) : (endPoll s).free = s.free := rfl
@[simp] theorem endPoll_pending (s : State) : (endPoll s).pending = s.pending := rfl

@[simp] theorem endSlot_tk (contention : Bool) (s : State) : (endSlot contention s).tk = s.tk := rfl
@[simp] theorem endSlot_ft (contention : Bool) (s : State) : (endSlot contention s).ft = s.ft := rfl
@[simp] theorem endSlot_clu (contention : Bool) (s : State) : (endSlot contention s).clu = s.clu := rfl
@[simp] theorem endSlot_au (contention : Bool) (s : State) : (endSlot contention s).au = s.au := rfl
@[simp] theorem endSlot_rm (contention : Bool) (s : State) : (endSlot contention s).rm = s.rm := rfl
@[simp] theorem endSlot_rmi (contention : Bool) (s : State) : (endSlot contention s).rmi = s.rmi := rfl
@[simp] theorem endSlot_tp (contention : Bool) (s : State) : (endSlot contention s).tp = s.tp := rfl
@[simp] theorem endSlot_memory (contention : Bool) (s : State) : (endSlot contention s).memory = s.memory := rfl
@[simp] theorem endSlot_hold (contention : Bool) (s : State) : (endSlot contention s).hold = s.hold := rfl
@[simp] theorem endSlot_straps (contention : Bool) (s : State) : (endSlot contention s).straps = s.straps := rfl
@[simp] theorem endSlot_free (contention : Bool) (s : State) : (endSlot contention s).free = s.free := rfl
@[simp] theorem endSlot_pending (contention : Bool) (s : State) : (endSlot contention s).pending = s.pending := rfl

@[simp] theorem emptyDown_tk (a : Station) (s : State) : (emptyDown a s).tk = s.tk := rfl
@[simp] theorem emptyDown_ft (a : Station) (s : State) : (emptyDown a s).ft = s.ft := rfl
@[simp] theorem emptyDown_clu (a : Station) (s : State) : (emptyDown a s).clu = s.clu := rfl
@[simp] theorem emptyDown_au (a : Station) (s : State) : (emptyDown a s).au = s.au := rfl
@[simp] theorem emptyDown_rm (a : Station) (s : State) : (emptyDown a s).rm = s.rm := rfl
@[simp] theorem emptyDown_rmi (a : Station) (s : State) : (emptyDown a s).rmi = s.rmi := rfl
@[simp] theorem emptyDown_tp (a : Station) (s : State) : (emptyDown a s).tp = s.tp := rfl
@[simp] theorem emptyDown_memory (a : Station) (s : State) : (emptyDown a s).memory = s.memory := rfl
@[simp] theorem emptyDown_hold (a : Station) (s : State) : (emptyDown a s).hold = s.hold := rfl
@[simp] theorem emptyDown_straps (a : Station) (s : State) : (emptyDown a s).straps = s.straps := rfl
@[simp] theorem emptyDown_free (a : Station) (s : State) : (emptyDown a s).free = s.free := rfl
@[simp] theorem emptyDown_pending (a : Station) (s : State) : (emptyDown a s).pending = s.pending := rfl

@[simp] theorem countErrors_tk (n : Nat) (s : State) : (countErrors n s).tk = s.tk := rfl
@[simp] theorem countErrors_slc (n : Nat) (s : State) : (countErrors n s).slc = s.slc := rfl
@[simp] theorem countErrors_ft (n : Nat) (s : State) : (countErrors n s).ft = s.ft := rfl
@[simp] theorem countErrors_au (n : Nat) (s : State) : (countErrors n s).au = s.au := rfl
@[simp] theorem countErrors_rm (n : Nat) (s : State) : (countErrors n s).rm = s.rm := rfl
@[simp] theorem countErrors_rmi (n : Nat) (s : State) : (countErrors n s).rmi = s.rmi := rfl
@[simp] theorem countErrors_tp (n : Nat) (s : State) : (countErrors n s).tp = s.tp := rfl
@[simp] theorem countErrors_memory (n : Nat) (s : State) : (countErrors n s).memory = s.memory := rfl
@[simp] theorem countErrors_hold (n : Nat) (s : State) : (countErrors n s).hold = s.hold := rfl
@[simp] theorem countErrors_straps (n : Nat) (s : State) : (countErrors n s).straps = s.straps := rfl
@[simp] theorem countErrors_free (n : Nat) (s : State) : (countErrors n s).free = s.free := rfl
@[simp] theorem countErrors_pending (n : Nat) (s : State) : (countErrors n s).pending = s.pending := rfl

@[simp] theorem countRecord_tk (t : RecordTarget) (f : RecordCounts → RecordCounts) (s : State) : (countRecord t f s).tk = s.tk := rfl
@[simp] theorem countRecord_slc (t : RecordTarget) (f : RecordCounts → RecordCounts) (s : State) : (countRecord t f s).slc = s.slc := rfl
@[simp] theorem countRecord_ft (t : RecordTarget) (f : RecordCounts → RecordCounts) (s : State) : (countRecord t f s).ft = s.ft := rfl
@[simp] theorem countRecord_clu (t : RecordTarget) (f : RecordCounts → RecordCounts) (s : State) : (countRecord t f s).clu = s.clu := rfl
@[simp] theorem countRecord_au (t : RecordTarget) (f : RecordCounts → RecordCounts) (s : State) : (countRecord t f s).au = s.au := rfl
@[simp] theorem countRecord_rm (t : RecordTarget) (f : RecordCounts → RecordCounts) (s : State) : (countRecord t f s).rm = s.rm := rfl
@[simp] theorem countRecord_tp (t : RecordTarget) (f : RecordCounts → RecordCounts) (s : State) : (countRecord t f s).tp = s.tp := rfl
@[simp] theorem countRecord_memory (t : RecordTarget) (f : RecordCounts → RecordCounts) (s : State) : (countRecord t f s).memory = s.memory := rfl
@[simp] theorem countRecord_hold (t : RecordTarget) (f : RecordCounts → RecordCounts) (s : State) : (countRecord t f s).hold = s.hold := rfl
@[simp] theorem countRecord_straps (t : RecordTarget) (f : RecordCounts → RecordCounts) (s : State) : (countRecord t f s).straps = s.straps := rfl
@[simp] theorem countRecord_free (t : RecordTarget) (f : RecordCounts → RecordCounts) (s : State) : (countRecord t f s).free = s.free := rfl
@[simp] theorem countRecord_pending (t : RecordTarget) (f : RecordCounts → RecordCounts) (s : State) : (countRecord t f s).pending = s.pending := rfl

@[simp] theorem writeParams_tk (values : List (ParamId × Nat)) (s : State) : (writeParams values s).tk = s.tk := rfl
@[simp] theorem writeParams_slc (values : List (ParamId × Nat)) (s : State) : (writeParams values s).slc = s.slc := rfl
@[simp] theorem writeParams_ft (values : List (ParamId × Nat)) (s : State) : (writeParams values s).ft = s.ft := rfl
@[simp] theorem writeParams_clu (values : List (ParamId × Nat)) (s : State) : (writeParams values s).clu = s.clu := rfl
@[simp] theorem writeParams_au (values : List (ParamId × Nat)) (s : State) : (writeParams values s).au = s.au := rfl
@[simp] theorem writeParams_rm (values : List (ParamId × Nat)) (s : State) : (writeParams values s).rm = s.rm := rfl
@[simp] theorem writeParams_rmi (values : List (ParamId × Nat)) (s : State) : (writeParams values s).rmi = s.rmi := rfl
@[simp] theorem writeParams_memory (values : List (ParamId × Nat)) (s : State) : (writeParams values s).memory = s.memory := rfl
@[simp] theorem writeParams_hold (values : List (ParamId × Nat)) (s : State) : (writeParams values s).hold = s.hold := rfl
@[simp] theorem writeParams_straps (values : List (ParamId × Nat)) (s : State) : (writeParams values s).straps = s.straps := rfl
@[simp] theorem writeParams_free (values : List (ParamId × Nat)) (s : State) : (writeParams values s).free = s.free := rfl
@[simp] theorem writeParams_pending (values : List (ParamId × Nat)) (s : State) : (writeParams values s).pending = s.pending := rfl

@[simp] theorem startPoll_tk (a : Station) (s : State) : (startPoll a s).tk = s.tk := rfl
@[simp] theorem startPoll_ft (a : Station) (s : State) : (startPoll a s).ft = s.ft := rfl
@[simp] theorem startPoll_clu (a : Station) (s : State) : (startPoll a s).clu = s.clu := rfl
@[simp] theorem startPoll_au (a : Station) (s : State) : (startPoll a s).au = s.au := rfl
@[simp] theorem startPoll_rm (a : Station) (s : State) : (startPoll a s).rm = s.rm := rfl
@[simp] theorem startPoll_rmi (a : Station) (s : State) : (startPoll a s).rmi = s.rmi := rfl
@[simp] theorem startPoll_tp (a : Station) (s : State) : (startPoll a s).tp = s.tp := rfl
@[simp] theorem startPoll_memory (a : Station) (s : State) : (startPoll a s).memory = s.memory := rfl
@[simp] theorem startPoll_hold (a : Station) (s : State) : (startPoll a s).hold = s.hold := rfl
@[simp] theorem startPoll_straps (a : Station) (s : State) : (startPoll a s).straps = s.straps := rfl
@[simp] theorem startPoll_free (a : Station) (s : State) : (startPoll a s).free = s.free := rfl
@[simp] theorem startPoll_pending (a : Station) (s : State) : (startPoll a s).pending = s.pending := rfl

@[simp] theorem grantWrite_tk (s : State) : (grantWrite s).tk = s.tk := rfl
@[simp] theorem grantWrite_slc (s : State) : (grantWrite s).slc = s.slc := rfl
@[simp] theorem grantWrite_ft (s : State) : (grantWrite s).ft = s.ft := rfl
@[simp] theorem grantWrite_clu (s : State) : (grantWrite s).clu = s.clu := rfl
@[simp] theorem grantWrite_au (s : State) : (grantWrite s).au = s.au := rfl
@[simp] theorem grantWrite_rm (s : State) : (grantWrite s).rm = s.rm := rfl
@[simp] theorem grantWrite_tp (s : State) : (grantWrite s).tp = s.tp := rfl
@[simp] theorem grantWrite_memory (s : State) : (grantWrite s).memory = s.memory := rfl
@[simp] theorem grantWrite_hold (s : State) : (grantWrite s).hold = s.hold := rfl
@[simp] theorem grantWrite_straps (s : State) : (grantWrite s).straps = s.straps := rfl
@[simp] theorem grantWrite_free (s : State) : (grantWrite s).free = s.free := rfl
@[simp] theorem grantWrite_pending (s : State) : (grantWrite s).pending = s.pending := rfl

@[simp] theorem hunt_tk (s : State) : (hunt s).tk = s.tk := rfl
@[simp] theorem hunt_slc (s : State) : (hunt s).slc = s.slc := rfl
@[simp] theorem hunt_ft (s : State) : (hunt s).ft = s.ft := rfl
@[simp] theorem hunt_clu (s : State) : (hunt s).clu = s.clu := rfl
@[simp] theorem hunt_au (s : State) : (hunt s).au = s.au := rfl
@[simp] theorem hunt_rm (s : State) : (hunt s).rm = s.rm := rfl
@[simp] theorem hunt_rmi (s : State) : (hunt s).rmi = s.rmi := rfl
@[simp] theorem hunt_memory (s : State) : (hunt s).memory = s.memory := rfl
@[simp] theorem hunt_hold (s : State) : (hunt s).hold = s.hold := rfl
@[simp] theorem hunt_straps (s : State) : (hunt s).straps = s.straps := rfl
@[simp] theorem hunt_free (s : State) : (hunt s).free = s.free := rfl
@[simp] theorem hunt_pending (s : State) : (hunt s).pending = s.pending := rfl

/-! ### The fields an update changes -/

@[simp] theorem setStation_rows (a : Station) (f : StationRow → StationRow) (s : State) :
    (setStation a f s).slc.rows = s.slc.rows.update a f := rfl
@[simp] theorem setStation_turn (a : Station) (f : StationRow → StationRow) (s : State) :
    (setStation a f s).slc.turn = s.slc.turn := rfl
@[simp] theorem setFill_rows (r : Row) (f : Fill → Fill) (s : State) :
    (setFill r f s).ft.rows = s.ft.rows.update r fun row => { row with fill := f row.fill } := rfl
@[simp] theorem setFill_profiles (r : Row) (f : Fill → Fill) (s : State) : (setFill r f s).ft.profiles = s.ft.profiles := rfl
@[simp] theorem setFill_queue (r : Row) (f : Fill → Fill) (s : State) : (setFill r f s).ft.queue = s.ft.queue := rfl
@[simp] theorem setService_service (r : Row) (v : Service) (s : State) :
    (setService r v s).rm.service = s.rm.service.set r v := rfl
@[simp] theorem setService_slots (r : Row) (v : Service) (s : State) : (setService r v s).rm.slots = s.rm.slots := rfl
@[simp] theorem setSlot_slots (i : Fin 4) (rd : Option Round) (s : State) :
    (setSlot i rd s).rm.slots = s.rm.slots.set i rd := rfl
@[simp] theorem setSlot_service (i : Fin 4) (rd : Option Round) (s : State) : (setSlot i rd s).rm.service = s.rm.service := rfl
@[simp] theorem setAccount_accounts (n : Fin 4096) (f : Account → Account) (s : State) :
    (setAccount n f s).au.accounts = s.au.accounts.update n f := rfl
@[simp] theorem setAccount_deposits (n : Fin 4096) (f : Account → Account) (s : State) :
    (setAccount n f s).au.deposits = s.au.deposits := rfl
@[simp] theorem setAccount_requests (n : Fin 4096) (f : Account → Account) (s : State) :
    (setAccount n f s).au.requests = s.au.requests := rfl
@[simp] theorem setDeposit_deposits (r : Row) (d : Option OpenDeposit) (s : State) :
    (setDeposit r d s).au.deposits = s.au.deposits.set r d := rfl
@[simp] theorem setDeposit_accounts (r : Row) (d : Option OpenDeposit) (s : State) :
    (setDeposit r d s).au.accounts = s.au.accounts := rfl
@[simp] theorem setDeposit_requests (r : Row) (d : Option OpenDeposit) (s : State) :
    (setDeposit r d s).au.requests = s.au.requests := rfl
@[simp] theorem reevaluate_rows (r : Row) (s : State) : (reevaluate r s).ft.rows = s.ft.rows := rfl
@[simp] theorem reevaluate_profiles (r : Row) (s : State) : (reevaluate r s).ft.profiles = s.ft.profiles := rfl
@[simp] theorem rebuildQueue_rows (s : State) : (rebuildQueue s).ft.rows = s.ft.rows := rfl
@[simp] theorem rebuildQueue_profiles (s : State) : (rebuildQueue s).ft.profiles = s.ft.profiles := rfl
@[simp] theorem queueWrite_queue (body : WriteBody) (reply : Option ReplyTo) (s : State) :
    (queueWrite body reply s).rmi.queue = s.rmi.queue ++ [{ body := body, reply := reply, inProgress := false }] := rfl
@[simp] theorem freePort_port (s : State) : (freePort s).rmi.port = none := rfl
@[simp] theorem freePort_queue (s : State) : (freePort s).rmi.queue = s.rmi.queue := rfl
@[simp] theorem endPoll_turn (s : State) : (endPoll s).slc.turn = none := rfl
@[simp] theorem endPoll_rows (s : State) : (endPoll s).slc.rows = s.slc.rows := rfl
@[simp] theorem endSlot_rows (contention : Bool) (s : State) : (endSlot contention s).slc.rows = s.slc.rows := rfl
@[simp] theorem endSlot_contention (contention : Bool) (s : State) : (endSlot contention s).slc.contention = contention := rfl
@[simp] theorem configOf_setFill (r x : Row) (f : Fill → Fill) (s : State) :
    configOf (setFill r f s) x = configOf s x := by
  unfold configOf setFill
  by_cases h : x = r
  · subst h; simp [Table.update]
  · simp [Table.update, h]
@[simp] theorem fillOf_setFill_self (r : Row) (f : Fill → Fill) (s : State) : fillOf (setFill r f s) r = f (fillOf s r) := by
  simp [fillOf, setFill]
theorem fillOf_setFill_ne {r x : Row} (h : x ≠ r) (f : Fill → Fill) (s : State) : fillOf (setFill r f s) x = fillOf s x := by
  simp [fillOf, setFill, h]
@[simp] theorem serviceOf_setService_self (r : Row) (v : Service) (s : State) : serviceOf (setService r v s) r = v := by
  simp [serviceOf]
theorem serviceOf_setService_ne {r x : Row} (h : x ≠ r) (v : Service) (s : State) :
    serviceOf (setService r v s) x = serviceOf s x := by simp [serviceOf, h]

/-! ### COLD -/

@[simp] theorem cold_memory (c : ResetCause) (h : Hold) (p : Straps) (s : State) : (s.cold c h p).memory = s.memory := rfl
@[simp] theorem cold_pending (c : ResetCause) (h : Hold) (p : Straps) (s : State) : (s.cold c h p).pending = s.pending := rfl
@[simp] theorem cold_free (c : ResetCause) (h : Hold) (p : Straps) (s : State) : (s.cold c h p).free = s.free := rfl
@[simp] theorem cold_hold (c : ResetCause) (h : Hold) (p : Straps) (s : State) : (s.cold c h p).hold = h := rfl

end Sys2Proof.Machine
end

