-- ==== Sys2Proof/Laws/Ops.lean ====
section
/-! SUPPORT. What each shared operation can do, said once. -/

namespace Sys2Proof.Machine

/-! ### Taking an event -/

@[simp] theorem whenRunning_running {f : State → State} {s : State} (h : s.hold = .running) :
    whenRunning f s = .next (f s) := by simp [whenRunning, h]

theorem whenRunning_held {f : State → State} {s : State} (h : s.hold ≠ .running) : whenRunning f s = .next s := by
  simp [whenRunning, h]

/-! ### The upstream queue -/

theorem absorb_isNone_or (new : DepositReport) (es : List UpEntry) : absorb new es = none ∨ ∃ es', absorb new es = some es' := by
  cases absorb new es <;> simp

/-- A report that finds a place takes the next sequence number at the tail (R200, R202). -/
theorem placeReport_entered {r : Report} {s : State} (h : s.tp.occupancy < Config.reportPlaces) :
    placeReport r s = { s with tp := { s.tp with reportSeq := s.tp.reportSeq + 1 }.enqueue (.report s.tp.reportSeq r) } := by
  simp [placeReport, h]

/-- A report that finds none is dropped and counted, and uses its number (R200, R202). -/
theorem placeReport_dropped {r : Report} {s : State} (h : ¬s.tp.occupancy < Config.reportPlaces) :
    placeReport r s =
      { s with tp := { s.tp with reportSeq := s.tp.reportSeq + 1, droppedReports := bump s.tp.droppedReports } } := by
  simp [placeReport, h]

theorem placeReport_tp (r : Report) (s : State) : placeReport r s = { s with tp := (placeReport r s).tp } := by
  by_cases h : s.tp.occupancy < Config.reportPlaces
  · rw [placeReport_entered h]
  · rw [placeReport_dropped h]

/-- A posted report changes the Trunk Port alone. -/
theorem postReport_tp (r : Report) (s : State) : postReport r s = { s with tp := (postReport r s).tp } := by
  cases r with
  | deposit d =>
    simp only [postReport]
    cases absorb d s.tp.waiting with
    | none => exact placeReport_tp _ _
    | some w => rfl
  | _ => exact placeReport_tp _ _

@[simp] theorem postReport_tk (r : Report) (s : State) : (postReport r s).tk = s.tk := by rw [postReport_tp]
@[simp] theorem postReport_slc (r : Report) (s : State) : (postReport r s).slc = s.slc := by rw [postReport_tp]
@[simp] theorem postReport_ft (r : Report) (s : State) : (postReport r s).ft = s.ft := by rw [postReport_tp]
@[simp] theorem postReport_clu (r : Report) (s : State) : (postReport r s).clu = s.clu := by rw [postReport_tp]
@[simp] theorem postReport_au (r : Report) (s : State) : (postReport r s).au = s.au := by rw [postReport_tp]
@[simp] theorem postReport_rm (r : Report) (s : State) : (postReport r s).rm = s.rm := by rw [postReport_tp]
@[simp] theorem postReport_rmi (r : Report) (s : State) : (postReport r s).rmi = s.rmi := by rw [postReport_tp]
@[simp] theorem postReport_memory (r : Report) (s : State) : (postReport r s).memory = s.memory := by rw [postReport_tp]
@[simp] theorem postReport_hold (r : Report) (s : State) : (postReport r s).hold = s.hold := by rw [postReport_tp]
@[simp] theorem postReport_straps (r : Report) (s : State) : (postReport r s).straps = s.straps := by rw [postReport_tp]
@[simp] theorem postReport_free (r : Report) (s : State) : (postReport r s).free = s.free := by rw [postReport_tp]
@[simp] theorem postReport_pending (r : Report) (s : State) : (postReport r s).pending = s.pending := by rw [postReport_tp]

/-- The places an entry takes: one, however the transmitter stands. -/
theorem TrunkPort.occupancy_enqueue (t : TrunkPort) (e : UpEntry) : (t.enqueue e).occupancy = t.occupancy + 1 := by
  unfold TrunkPort.enqueue TrunkPort.occupancy
  cases h : t.line <;> simp <;> omega

/-! ### Trunk commands (R190) -/

/-- What a command can come to (R190): an overrun, a length or state refusal, or its own rule. -/
theorem takeCommand_cases {α : Type} (kind : CommandKind) (tag : Byte) (args : Option α) (restoring : Bool)
    (body : α → State → State) (s : State) :
    (¬s.tp.occupancy < Config.upstreamPlaces ∧ takeCommand kind tag args restoring body s =
        { s with tp := { s.tp with receiver := .hunt, commandOverruns := bump s.tp.commandOverruns } }) ∨
    (s.tp.occupancy < Config.upstreamPlaces ∧ args = none ∧
      takeCommand kind tag args restoring body s = refuse kind tag .badLength s.reserved) ∨
    (s.tp.occupancy < Config.upstreamPlaces ∧ ∃ a, args = some a ∧ (s.rmi.restoring && !restoring) = true ∧
      takeCommand kind tag args restoring body s = refuse kind tag .notReady s.reserved) ∨
    (s.tp.occupancy < Config.upstreamPlaces ∧ ∃ a, args = some a ∧ (s.rmi.restoring && !restoring) = false ∧
      takeCommand kind tag args restoring body s = body a s.reserved) := by
  unfold takeCommand reserveReply
  by_cases h : s.tp.occupancy < Config.upstreamPlaces
  · cases args with
    | none => exact .inr (.inl ⟨h, rfl, by simp [h]⟩)
    | some a =>
      cases hr : (s.rmi.restoring && !restoring) with
      | true => exact .inr (.inr (.inl ⟨h, a, rfl, rfl, by simp [h, State.reserved, hr]⟩))
      | false => exact .inr (.inr (.inr ⟨h, a, rfl, rfl, by simp [h, State.reserved, hr]⟩))
  · exact .inl ⟨h, by simp [h]⟩

/-- A command that is taken, fits its kind and meets the part in a state that serves it reaches its own rule. -/
theorem takeCommand_body {α : Type} {kind : CommandKind} {tag : Byte} {a : α} {restoring : Bool} {body : α → State → State}
    {s : State} (h : s.tp.occupancy < Config.upstreamPlaces) (hr : (s.rmi.restoring && !restoring) = false) :
    takeCommand kind tag (some a) restoring body s = body a s.reserved := by
  simp [takeCommand, reserveReply, h, hr, State.reserved]

/-- A REPLY queued in the place just reserved. -/
theorem queueReply_reserved (kind tag : Byte) (status : Status) (detail : Detail) (s : State) :
    queueReply kind tag status detail s.reserved =
      { s with tp := { s.tp with receiver := .hunt }.enqueue (.reply kind tag status detail) } := by
  simp [queueReply, State.reserved]

@[simp] theorem reserved_rmi (s : State) : s.reserved.rmi = s.rmi := rfl
@[simp] theorem reserved_slc (s : State) : s.reserved.slc = s.slc := rfl
@[simp] theorem reserved_ft (s : State) : s.reserved.ft = s.ft := rfl
@[simp] theorem reserved_clu (s : State) : s.reserved.clu = s.clu := rfl
@[simp] theorem reserved_au (s : State) : s.reserved.au = s.au := rfl
@[simp] theorem reserved_rm (s : State) : s.reserved.rm = s.rm := rfl
@[simp] theorem reserved_tk (s : State) : s.reserved.tk = s.tk := rfl
@[simp] theorem reserved_hold (s : State) : s.reserved.hold = s.hold := rfl
@[simp] theorem reserved_memory (s : State) : s.reserved.memory = s.memory := rfl

/-! ### Downstream queues (R32, R48) -/

/-- What a post can come to: queued at the tail with the row's next number, or not at all. -/
theorem postDown_cases (a : Station) (c : DownCommand) (s : State) :
    ((s.slc.rows.get a).accepts c = .queued ∧ postDown a c s = (.queued, setStation a (StationRow.push c) s)) ∨
    ((s.slc.rows.get a).accepts c ≠ .queued ∧ postDown a c s = ((s.slc.rows.get a).accepts c, s)) := by
  unfold postDown
  cases h : (s.slc.rows.get a).accepts c <;> simp

/-- A post changes nothing but the row's queue and its next sequence number. -/
theorem sendDown_eq (a : Station) (c : DownCommand) (s : State) :
    sendDown a c s = s ∨ sendDown a c s = setStation a (StationRow.push c) s := by
  rcases postDown_cases a c s with ⟨_, h⟩ | ⟨_, h⟩ <;> simp [sendDown, h]

/-! ### The service queue (R94, R95) -/

theorem mem_queueInsert (s : State) (r x : Row) : ∀ q : List Row, x ∈ queueInsert s r q ↔ x = r ∨ x ∈ q
  | [] => by simp [queueInsert]
  | y :: rest => by
    unfold queueInsert
    split
    · simp
    · simp only [List.mem_cons, mem_queueInsert s r x rest]; tauto

/-- Re-evaluation decides the container it names, and leaves every other's membership as it was (R95). -/
theorem mem_reevaluate (r x : Row) (s : State) :
    x ∈ (reevaluate r s).ft.queue ↔ if x = r then qualifies s r = true else x ∈ s.ft.queue := by
  unfold reevaluate
  by_cases hq : qualifies s r = true
  · by_cases hx : x = r
    · simp [hq, hx, mem_queueInsert]
    · simp [hq, hx, mem_queueInsert]
  · by_cases hx : x = r
    · simp [hq, hx]
    · simp [hq, hx]

theorem mem_foldl_queueInsert (s : State) (x : Row) : ∀ (l q : List Row),
    x ∈ l.foldl (fun q r => queueInsert s r q) q ↔ x ∈ l ∨ x ∈ q
  | [], q => by simp
  | y :: rest, q => by
    rw [List.foldl_cons, mem_foldl_queueInsert s x rest, mem_queueInsert, List.mem_cons]; tauto

/-- The rebuilt queue holds exactly the containers that qualify (R94, R96). -/
theorem mem_rebuildQueue (s : State) (x : Row) : x ∈ (rebuildQueue s).ft.queue ↔ qualifies s x = true := by
  unfold rebuildQueue
  simp [mem_foldl_queueInsert, List.mem_finRange]

/-! ### Pending requests -/

theorem dropRequest_requests (r : Row) (s : State) :
    (dropRequest r s).au.requests = s.au.requests.filter (·.row != r) := rfl

theorem mem_dropRequest {r : Row} {q : Request} {s : State} :
    q ∈ (dropRequest r s).au.requests ↔ q ∈ s.au.requests ∧ q.row ≠ r := by
  simp [dropRequest]

end Sys2Proof.Machine
end

