-- ==== Sys2Proof/Laws/Frame.lean ====
section
/-! SUPPORT. What no block's work touches: the record memory's contents, whether the part is held, the straps and the queue of waiting
commands. One lemma for each operation, so that a whole command is a chain of them. -/

namespace Sys2Proof.Machine

/-- The record memory, the hold, the straps and the waiting commands are as they were. -/
structure Kept (s t : State) : Prop where
  memory : t.memory = s.memory
  hold : t.hold = s.hold
  straps : t.straps = s.straps
  pending : t.pending = s.pending

theorem Kept.rfl' {s : State} : Kept s s := ⟨rfl, rfl, rfl, rfl⟩

theorem Kept.trans {s t u : State} (h : Kept s t) (k : Kept t u) : Kept s u :=
  ⟨k.memory.trans h.memory, k.hold.trans h.hold, k.straps.trans h.straps, k.pending.trans h.pending⟩

theorem Kept.foldl {α : Type} {f : State → α → State} (h : ∀ s x, Kept s (f s x)) : ∀ (l : List α) (s : State),
    Kept s (l.foldl f s)
  | [], _ => Kept.rfl'
  | x :: rest, s => (h s x).trans (Kept.foldl h rest (f s x))

theorem Kept.ite {s : State} {t u : State} {p : Prop} [Decidable p] (h : Kept s t) (k : Kept s u) :
    Kept s (if p then t else u) := by split <;> assumption

/-! ### Ops -/

theorem kept_postReport (r : Report) (s : State) : Kept s (postReport r s) := ⟨by simp, by simp, by simp, by simp⟩

theorem kept_placeReport (r : Report) (s : State) : Kept s (placeReport r s) := by
  rw [placeReport_tp]; exact ⟨rfl, rfl, rfl, rfl⟩

theorem kept_queueReply (k t : Byte) (st : Status) (d : Detail) (s : State) : Kept s (queueReply k t st d s) :=
  ⟨rfl, rfl, rfl, rfl⟩

theorem kept_answer (k : CommandKind) (t : Byte) (st : Status) (s : State) : Kept s (answer k t st s) := kept_queueReply _ _ _ _ _

theorem kept_refuseRound (t : Byte) (st : Status) (n : Nat) (s : State) : Kept s (refuseRound t st n s) := ⟨rfl, rfl, rfl, rfl⟩

theorem kept_refuse (k : CommandKind) (t : Byte) (st : Status) (s : State) : Kept s (refuse k t st s) := by
  cases k <;> first | exact kept_refuseRound _ _ _ _ | exact kept_answer _ _ _ _

theorem kept_reserved (s : State) : Kept s s.reserved := ⟨rfl, rfl, rfl, rfl⟩

theorem kept_reserveReply {body : State → State} (h : ∀ s, Kept s (body s)) (s : State) : Kept s (reserveReply body s) := by
  unfold reserveReply
  split
  · exact (kept_reserved s).trans (h _)
  · exact ⟨rfl, rfl, rfl, rfl⟩

theorem kept_takeCommand {α : Type} {k : CommandKind} {t : Byte} {args : Option α} {w : Bool} {body : α → State → State}
    (h : ∀ a s, Kept s (body a s)) (s : State) : Kept s (takeCommand k t args w body s) := by
  refine kept_reserveReply (fun s => ?_) s
  cases args with
  | none => exact kept_refuse _ _ _ _
  | some a => exact Kept.ite (kept_refuse _ _ _ _) (h a s)

theorem kept_setStation (a : Station) (f : StationRow → StationRow) (s : State) : Kept s (setStation a f s) := ⟨rfl, rfl, rfl, rfl⟩

theorem kept_setFill (r : Row) (f : Fill → Fill) (s : State) : Kept s (setFill r f s) := ⟨rfl, rfl, rfl, rfl⟩

theorem kept_setService (r : Row) (v : Service) (s : State) : Kept s (setService r v s) := ⟨rfl, rfl, rfl, rfl⟩

theorem kept_setSlot (i : Fin 4) (rd : Option Round) (s : State) : Kept s (setSlot i rd s) := ⟨rfl, rfl, rfl, rfl⟩

theorem kept_setAccount (n : Fin 4096) (f : Account → Account) (s : State) : Kept s (setAccount n f s) := ⟨rfl, rfl, rfl, rfl⟩

theorem kept_setDeposit (r : Row) (d : Option OpenDeposit) (s : State) : Kept s (setDeposit r d s) := ⟨rfl, rfl, rfl, rfl⟩

theorem kept_reevaluate (r : Row) (s : State) : Kept s (reevaluate r s) := ⟨rfl, rfl, rfl, rfl⟩

theorem kept_rebuildQueue (s : State) : Kept s (rebuildQueue s) := ⟨rfl, rfl, rfl, rfl⟩

theorem kept_dropRequest (r : Row) (s : State) : Kept s (dropRequest r s) := ⟨rfl, rfl, rfl, rfl⟩

theorem kept_queueWrite (b : WriteBody) (r : Option ReplyTo) (s : State) : Kept s (queueWrite b r s) := ⟨rfl, rfl, rfl, rfl⟩

theorem kept_emptyDown (a : Station) (s : State) : Kept s (emptyDown a s) := ⟨rfl, rfl, rfl, rfl⟩

theorem kept_sendDown (a : Station) (c : DownCommand) (s : State) : Kept s (sendDown a c s) := by
  rcases sendDown_eq a c s with h | h <;> rw [h] <;> exact ⟨rfl, rfl, rfl, rfl⟩

theorem kept_postDown (a : Station) (c : DownCommand) (s : State) : Kept s (postDown a c s).2 := kept_sendDown a c s

theorem kept_writeThrough (k : CommandKind) (t : Byte) (r : RecordTarget) (s : State) : Kept s (writeThrough k t r s) :=
  Kept.ite (kept_queueReply _ _ _ _ _) (kept_queueWrite _ _ _)

theorem kept_reportChange (r : Row) (c : StatusCause) (b s : State) : Kept s (reportChange r c b s) := by
  unfold reportChange
  split
  · exact Kept.rfl'
  · exact Kept.ite (kept_postReport _ _) Kept.rfl'

/-! ### Fill Tracker -/

theorem kept_insertOverflow (r : Row) (s : State) : Kept s (insertOverflow r s) := by
  unfold insertOverflow
  split
  · exact Kept.rfl'
  · split
    · exact Kept.rfl'
    · split
      · exact Kept.rfl'
      · exact (kept_setSlot _ _ s).trans (kept_postReport _ _)

theorem kept_changeFill (r : Row) (f : Fill) (s : State) : Kept s (changeFill r f s) := by
  unfold changeFill
  exact (kept_setFill r _ s).trans ((Kept.ite (kept_insertOverflow _ _) Kept.rfl').trans (kept_reevaluate _ _))

theorem kept_sampleEvent (r : Row) (e : Nat) (t : Int) (l : Bool) (s : State) : Kept s (sampleEvent r e t l s) := by
  unfold sampleEvent
  split
  · exact Kept.rfl'
  · split
    · exact Kept.rfl'
    · exact (Kept.ite (kept_setFill _ _ _) (kept_changeFill _ _ _)).trans (kept_reportChange _ _ _ _)

theorem kept_creditDeposit (r : Row) (s : State) : Kept s (creditDeposit r s) := kept_changeFill _ _ _

theorem kept_completeService (r : Row) (s : State) : Kept s (completeService r s) := kept_setFill _ _ _

theorem kept_countDown (s : State) : Kept s (countDown s) := by
  unfold countDown
  exact Kept.ite Kept.rfl' ⟨rfl, rfl, rfl, rfl⟩

theorem kept_watchStale (r : Row) (s : State) : Kept s (watchStale r s) := by
  unfold watchStale
  exact Kept.ite ((kept_setFill _ _ _).trans (kept_reportChange _ _ _ _)) Kept.rfl'

/-! ### Admission Unit -/

theorem kept_sendDeny (a : Station) (b t : Byte) (d : DenyReason) (x : Option Redirect) (s : State) :
    Kept s (sendDeny a b t d x s) := Kept.trans (kept_sendDown _ _ s) ⟨rfl, rfl, rfl, rfl⟩

theorem kept_denyRequest (q : Request) (d : DenyReason) (x : Option Redirect) (s : State) : Kept s (denyRequest q d x s) :=
  (kept_sendDeny _ _ _ _ _ s).trans (kept_dropRequest _ _)

theorem kept_grantRequest (q : Request) (c : CardRecord) (k : GrantKind) (n : Nat) (s : State) :
    Kept s (grantRequest q c k n s) := by
  unfold grantRequest
  simp only
  generalize hs : dropRequest q.row (setDeposit q.row _ (setAccount c.account _ s)) = u
  have hu : Kept s u := by rw [← hs]; exact ⟨rfl, rfl, rfl, rfl⟩
  have hp := kept_postDown q.station (.grant q.bay q.tag) u
  split <;> rename_i h <;> rw [h] at hp
  · exact (hu.trans hp).trans ⟨rfl, rfl, rfl, rfl⟩
  · exact (hu.trans hp).trans ⟨rfl, rfl, rfl, rfl⟩
  · exact hu.trans hp

theorem kept_alertCard (q : Request) (c : ContainerConfig) (k : CardRecord) (s : State) : Kept s (alertCard q c k s) :=
  Kept.ite (kept_postReport _ _) Kept.rfl'

theorem kept_decideFound (q : Request) (c : ContainerConfig) (k : CardRecord) (s : State) : Kept s (decideFound q c k s) := by
  unfold decideFound
  split
  · exact Kept.ite ((kept_denyRequest _ _ _ _).trans (kept_alertCard _ _ _ _)) (kept_denyRequest _ _ _ _)
  · split
    · exact kept_denyRequest _ _ _ _
    · exact kept_grantRequest _ _ _ _ _

theorem kept_decideRequest (q : Request) (a : CardAnswer) (l : Bool) (s : State) : Kept s (decideRequest q a l s) := by
  unfold decideRequest
  split
  · exact kept_denyRequest _ _ _ _
  · split
    · exact kept_denyRequest _ _ _ _
    · split
      · exact kept_denyRequest _ _ _ _
      · exact kept_denyRequest _ _ _ _
      · exact kept_decideFound _ _ _ _

theorem kept_sendRelease (c : ContainerConfig) (s : State) : Kept s (sendRelease c s) := kept_sendDown _ _ _

theorem kept_sendReply (a : Station) (v : VehicleAnswer) (n : Short) (m : Number) (s : State) : Kept s (sendReply a v n m s) :=
  kept_sendDown _ _ _

theorem kept_depositEnded (r : Row) (s : State) : Kept s (depositEnded r s) := by
  unfold depositEnded
  split
  · have h1 := fun (v : Service) (c : ContainerConfig) => (kept_setService r v s).trans (kept_sendRelease c (setService r v s))
    simp only
    split
    · exact (h1 _ _).trans (kept_sendReply _ _ _ _ _)
    · exact h1 _ _
  · exact Kept.rfl'

theorem kept_commitDeposit (b : Bool) (r : Row) (s : State) : Kept s (commitDeposit b r s) := by
  unfold commitDeposit
  split
  · simp only
    refine Kept.trans ?_ (kept_reportChange _ _ _ _)
    refine Kept.trans ?_ (kept_depositEnded _ _)
    refine Kept.trans ?_ (kept_creditDeposit _ _)
    refine Kept.trans ?_ (kept_postReport _ _)
    exact (Kept.ite (kept_setAccount _ _ _) Kept.rfl').trans (kept_setDeposit _ _ _)
  · exact Kept.rfl'

theorem kept_releaseDeposit (r : Row) (s : State) : Kept s (releaseDeposit r s) := by
  unfold releaseDeposit
  split
  · simp only
    refine Kept.trans ?_ (kept_reportChange _ _ _ _)
    refine Kept.trans ?_ (kept_depositEnded _ _)
    rename_i d _
    have h : Kept s (if d.kind = .charged then setAccount d.account (Account.letGo d.cost) s else s) :=
      Kept.ite (kept_setAccount _ _ _) Kept.rfl'
    exact h.trans ⟨rfl, rfl, rfl, rfl⟩
  · exact Kept.rfl'

theorem kept_settleRow (b : Bool) (r : Row) (s : State) : Kept s (settleRow b r s) := by
  unfold settleRow
  simp only
  split
  · exact (kept_dropRequest r s).trans (Kept.ite (kept_commitDeposit _ _ _) (kept_releaseDeposit _ _))
  · exact kept_dropRequest r s

theorem kept_settleStation (b : Bool) (a : Station) (s : State) : Kept s (settleStation b a s) :=
  Kept.foldl (fun s r => kept_settleRow b r s) _ s

theorem kept_expireDeposits (s : State) : Kept s (expireDeposits s) := by
  refine Kept.foldl (fun s r => ?_) _ s
  split
  · exact Kept.ite (kept_commitDeposit _ _ _) Kept.rfl'
  · exact Kept.rfl'

theorem kept_expireRequests (s : State) : Kept s (expireRequests s) := Kept.foldl (fun s q => kept_denyRequest q _ _ s) _ s

theorem kept_grantDelivered (a : Station) (b : Bay) (t : Byte) (s : State) : Kept s (grantDelivered a b t s) := by
  unfold grantDelivered
  split
  · exact Kept.rfl'
  · split
    · exact Kept.ite (kept_setDeposit _ _ _) Kept.rfl'
    · exact Kept.rfl'

theorem kept_commitAll (s : State) : Kept s (commitAll s) := Kept.foldl (fun s r => kept_commitDeposit false r s) _ s

/-! ### Card Lookup Unit -/

theorem kept_setPhase (r : Row) (p : Phase) (s : State) : Kept s (setPhase r p s) := ⟨rfl, rfl, rfl, rfl⟩

theorem kept_placeMiss (w : Waiter) (s : State) : Kept s (placeMiss w s) := by
  unfold placeMiss
  simp only
  split
  · exact ⟨rfl, rfl, rfl, rfl⟩
  · split <;> exact ⟨rfl, rfl, rfl, rfl⟩

theorem kept_lookupCard (q : Request) (s : State) : Kept s (lookupCard q s) := by
  unfold lookupCard
  split
  · exact kept_decideRequest _ _ _ _
  · split
    · refine Kept.trans ?_ (kept_decideRequest _ _ _ _)
      exact ⟨rfl, rfl, rfl, rfl⟩
    · split
      · simp only
        split
        · refine Kept.trans ?_ (kept_decideRequest _ _ _ _)
          exact ⟨rfl, rfl, rfl, rfl⟩
        · exact ⟨rfl, rfl, rfl, rfl⟩
      · refine Kept.trans ?_ (kept_placeMiss _ _)
        exact ⟨rfl, rfl, rfl, rfl⟩

theorem kept_answerWaiter (f : Number → CardAnswer) (w : Waiter) (s : State) : Kept s (answerWaiter f w s) := by
  unfold answerWaiter
  split
  · exact kept_decideRequest _ _ _ _
  · exact Kept.rfl'

theorem kept_placeSlotWaiting : ∀ (n : Nat) (s : State), Kept s (placeSlotWaiting n s)
  | 0, _ => Kept.rfl'
  | n + 1, s => by
    unfold placeSlotWaiting
    split
    · exact Kept.rfl'
    · split
      · exact Kept.rfl'
      · split
        · refine Kept.trans (t := answerWaiter _ _ _) ?_ (kept_placeSlotWaiting n _)
          refine Kept.trans ?_ (kept_answerWaiter _ _ _)
          exact ⟨rfl, rfl, rfl, rfl⟩
        · refine Kept.trans ?_ (Kept.foldl (fun s (v : Waiter) => kept_setPhase v.row .waitFetch s) _ _)
          exact ⟨rfl, rfl, rfl, rfl⟩

theorem kept_serveSlotWait (s : State) : Kept s (serveSlotWait s) := kept_placeSlotWaiting _ _

theorem kept_completeFetch (b : Bucket) (x : Option (List Byte)) (s : State) : Kept s (completeFetch b x s) := by
  unfold completeFetch
  split
  · exact Kept.rfl'
  · simp only
    refine Kept.trans ?_ (kept_serveSlotWait _)
    refine Kept.trans (t := List.foldl _ _ _) ?_ ⟨rfl, rfl, rfl, rfl⟩
    refine Kept.trans ?_ (Kept.foldl (fun s w => kept_answerWaiter _ w s) _ _)
    split <;> exact ⟨rfl, rfl, rfl, rfl⟩

theorem kept_judgeCardWrite (n : Number) (b : WriteBody) (k : CommandKind) (t : Byte) (s : State) :
    Kept s (judgeCardWrite n b k t s) := by
  unfold judgeCardWrite
  exact Kept.ite (kept_answer _ _ _ _) (Kept.ite (kept_answer _ _ _ _) ⟨rfl, rfl, rfl, rfl⟩)

theorem kept_depositRequest (a : Station) (b : Byte) (c : Number) (t : Byte) (s : State) : Kept s (depositRequest a b c t s) := by
  unfold depositRequest
  split
  · exact kept_sendDeny _ _ _ _ _ _
  · split
    · exact Kept.rfl'
    · split
      · exact kept_sendDeny _ _ _ _ _ _
      · refine Kept.ite (kept_sendDeny _ _ _ _ _ _) (Kept.ite (kept_sendDeny _ _ _ _ _ _) ?_)
        unfold admitRequest
        refine Kept.ite (kept_sendDeny _ _ _ _ _ _) ?_
        refine Kept.trans ?_ (kept_lookupCard _ _)
        exact ⟨rfl, rfl, rfl, rfl⟩

theorem kept_depositClose (a : Station) (b : Byte) (o : CloseOutcome) (s : State) : Kept s (depositClose a b o s) := by
  unfold depositClose
  simp only
  split
  · exact ⟨rfl, rfl, rfl, rfl⟩
  · cases o
    · exact kept_commitDeposit _ _ _
    · exact kept_releaseDeposit _ _

theorem kept_changeTable {k : CommandKind} {t : Byte} {r : RecordTarget} {f : State → State} {s : State} (h : Kept s (f s)) :
    Kept s (changeTable k t r f s) := by
  unfold changeTable
  exact Kept.ite (kept_answer _ _ _ _) (h.trans (kept_writeThrough _ _ _ _))

/-! ### Round Manager -/

theorem kept_setStep (p : StepRef) (f : Step → Step) (s : State) : Kept s (setStep p f s) := by
  unfold setStep
  split
  · exact kept_setSlot _ _ _
  · exact Kept.rfl'

theorem kept_reevaluateSteps (l : List Step) (s : State) : Kept s (reevaluateSteps l s) :=
  Kept.foldl (fun s (st : Step) => kept_reevaluate st.row s) _ s

theorem kept_freeSlotAt (i : Fin 4) (s : State) : Kept s (freeSlotAt i s) := by
  unfold freeSlotAt
  split
  · exact Kept.rfl'
  · simp only
    refine Kept.trans ?_ (kept_reevaluateSteps _ _)
    exact ⟨by simp, by simp, by simp, by simp⟩

theorem kept_freeIfClosed (i : Fin 4) (s : State) : Kept s (freeIfClosed i s) := by
  unfold freeIfClosed
  split
  · exact Kept.ite (kept_freeSlotAt _ _) Kept.rfl'
  · exact Kept.rfl'

theorem kept_endRound (c : EndCause) (i : Fin 4) (s : State) : Kept s (endRound c i s) := by
  unfold endRound
  split
  · exact Kept.rfl'
  · simp only
    exact Kept.trans ((kept_setSlot _ _ _).trans (kept_reevaluateSteps _ _))
      (Kept.ite (kept_setSlot _ _ _) (kept_freeSlotAt _ _))

theorem kept_sendRoundReply (a : Station) (v : VehicleAnswer) (n r : Short) (s : State) : Kept s (sendRoundReply a v n r s) := by
  unfold sendRoundReply
  simp only [drawByte]
  refine Kept.trans ?_ (kept_sendDown _ _ _)
  exact ⟨rfl, rfl, rfl, rfl⟩

theorem kept_denyForLift (r : Row) (c : ContainerConfig) (s : State) : Kept s (denyForLift r c s) := by
  unfold denyForLift
  split
  · exact kept_denyRequest _ _ _ _
  · exact Kept.rfl'

theorem kept_acceptLift (a : Station) (v : Short) (r : Row) (c : ContainerConfig) (p : StepRef) (b s : State) :
    Kept s (acceptLift a v r c p b s) := by
  unfold acceptLift
  simp only
  refine Kept.trans ?_ (kept_reportChange _ _ _ _)
  refine Kept.trans ?_ (kept_reevaluate _ _)
  refine Kept.trans (Kept.trans (kept_setStep p _ s) (u := { setStep p (Step.lift v (fillOf s r).i) s with
    rm.slots := (setStep p (Step.lift v (fillOf s r).i) s).rm.slots.update p.slot (Option.map Round.run) }) ⟨rfl, rfl, rfl, rfl⟩) ?_
  split
  · exact (kept_setService _ _ _).trans (kept_sendReply _ _ _ _ _)
  · exact ((kept_setService _ _ _).trans (kept_denyForLift _ _ _)).trans ((kept_sendRelease _ _).trans (kept_sendReply _ _ _ _ _))

theorem kept_repeatLift (a : Station) (v : Short) (r : Row) (c : ContainerConfig) (s : State) : Kept s (repeatLift a v r c s) := by
  unfold repeatLift
  split
  · exact (kept_setService _ _ _).trans (kept_sendReply _ _ _ _ _)
  · exact ((kept_setService _ _ _).trans (kept_sendRelease _ _)).trans (kept_sendReply _ _ _ _ _)
  · exact Kept.rfl'

theorem kept_liftRequest (a : Station) (v r : Short) (n : Number) (s : State) : Kept s (liftRequest a v r n s) := by
  unfold liftRequest
  simp only
  split
  · exact kept_sendReply _ _ _ _ _
  · split
    · exact kept_sendReply _ _ _ _ _
    · split
      · exact kept_sendReply _ _ _ _ _
      · exact kept_repeatLift _ _ _ _ _
      · exact kept_acceptLift _ _ _ _ _ _ _
      · exact ((kept_setSlot _ _ _).trans (kept_reevaluate _ _)).trans (kept_acceptLift _ _ _ _ _ _ _)

theorem kept_roundEnd (a : Station) (v r : Short) (s : State) : Kept s (roundEnd a v r s) := by
  unfold roundEnd
  split
  · exact kept_sendRoundReply _ _ _ _ _
  · exact Kept.ite (kept_sendRoundReply _ _ _ _ _)
      (Kept.ite (kept_sendRoundReply _ _ _ _ _) ((kept_endRound _ _ _).trans (kept_sendRoundReply _ _ _ _ _)))

theorem kept_completeLift (a : Station) (v w : Short) (l : LockState) (r : Row) (c : ContainerConfig) (p : StepRef) (s : State) :
    Kept s (completeLift a v w l r c p s) := by
  unfold completeLift
  simp only
  refine Kept.trans ?_ (kept_freeIfClosed _ _)
  refine Kept.trans ?_ (kept_sendReply _ _ _ _ _)
  refine Kept.trans ?_ (kept_reportChange _ _ _ _)
  refine Kept.trans ?_ (kept_reevaluate _ _)
  refine Kept.trans ?_ (kept_postReport _ _)
  refine Kept.trans ?_ (kept_setService _ _ _)
  refine Kept.trans ?_ (kept_completeService _ _)
  exact (kept_setStep p _ s).trans ⟨rfl, rfl, rfl, rfl⟩

theorem kept_completeLate (a : Station) (v w : Short) (l : LockState) (r : Row) (c : ContainerConfig) (p : Option StepRef)
    (s : State) : Kept s (completeLate a v w l r c p s) := by
  unfold completeLate
  simp only
  refine Kept.trans ?_ (kept_sendReply _ _ _ _ _)
  refine Kept.trans ?_ (kept_reportChange _ _ _ _)
  refine Kept.trans ?_ (kept_reevaluate _ _)
  refine Kept.trans ?_ (kept_postReport _ _)
  refine Kept.trans ?_ (kept_setService _ _ _)
  refine Kept.trans ?_ (kept_completeService _ _)
  split
  · exact kept_setStep _ _ _
  · exact Kept.rfl'

theorem kept_liftDone (a : Station) (v : Short) (n : Number) (w : Short) (l : LockState) (s : State) :
    Kept s (liftDone a v n w l s) := by
  unfold liftDone
  split
  · exact kept_sendReply _ _ _ _ _
  · split
    · exact kept_completeLate _ _ _ _ _ _ _ _
    · exact Kept.ite (kept_completeLift _ _ _ _ _ _ _ _) (kept_sendReply _ _ _ _ _)
    · exact kept_sendReply _ _ _ _ _
    · exact kept_sendReply _ _ _ _ _

theorem kept_timeOutLift (r : Row) (c : ContainerConfig) (p : StepRef) (s : State) : Kept s (timeOutLift r c p s) := by
  unfold timeOutLift
  simp only
  refine Kept.trans ?_ (kept_freeIfClosed _ _)
  refine Kept.trans ?_ (kept_reportChange _ _ _ _)
  refine Kept.trans ?_ (kept_reevaluate _ _)
  refine Kept.trans ?_ (kept_postReport _ _)
  refine Kept.trans ?_ (kept_sendDown _ _ _)
  refine Kept.trans ?_ (kept_setService _ _ _)
  exact kept_setStep _ _ _

theorem kept_timeService (r : Row) (s : State) : Kept s (timeService r s) := by
  unfold timeService
  split
  · exact Kept.ite (kept_timeOutLift _ _ _ _) Kept.rfl'
  · exact Kept.rfl'

theorem kept_expireRound (i : Fin 4) (s : State) : Kept s (expireRound i s) := by
  unfold expireRound
  split
  · exact Kept.ite (kept_endRound _ _ _) Kept.rfl'
  · exact Kept.rfl'

/-! ### Tables -/

theorem kept_applyParams (v : List (ParamId × Nat)) (s : State) : Kept s (applyParams v s) := by
  unfold applyParams
  simp only
  have h : ∀ (a b : Nat) (u : State), Kept u (applyHorizon a b u) := fun a b u => Kept.ite Kept.rfl' (kept_rebuildQueue _)
  have k : ∀ (a b : Nat) (u : State), Kept u (applyRejoinLimit a b u) := fun a b u => Kept.ite Kept.rfl' ⟨rfl, rfl, rfl, rfl⟩
  refine Kept.trans ?_ (h _ _ _)
  refine Kept.trans ?_ (k _ _ _)
  exact ⟨rfl, rfl, rfl, rfl⟩

theorem kept_putProfile (n : Fin 16) (p : Profile) (s : State) : Kept s (putProfile n p s) := by
  unfold putProfile
  simp only
  refine Kept.trans ?_ (Kept.foldl (fun s r => ?_) _ _)
  · exact ⟨rfl, rfl, rfl, rfl⟩
  · unfold reprofileRow
    split
    · exact Kept.rfl'
    · refine Kept.ite Kept.rfl' ?_
      simp only
      split <;> exact ⟨rfl, rfl, rfl, rfl⟩

theorem kept_releaseStation (a : Station) (s : State) : Kept s (releaseStation a s) :=
  Kept.ite Kept.rfl' ((kept_emptyDown a s).trans (kept_setStation _ _ _))

theorem kept_putContainer (r : Row) (c : ContainerConfig) (s : State) : Kept s (putContainer r c s) := by
  have h : ∀ (old : Option ContainerConfig) (u : State),
      Kept u (match old with
        | some o => releaseStation o.station u
        | none => u) := by
    intro old u
    cases old
    · exact Kept.rfl'
    · exact kept_releaseStation _ _
  unfold putContainer
  refine Kept.trans ?_ (kept_reevaluate _ _)
  refine Kept.trans ?_ (h _ _)
  refine Kept.trans ?_ (kept_setStation _ _ _)
  exact Kept.ite ⟨rfl, rfl, rfl, rfl⟩ ⟨rfl, rfl, rfl, rfl⟩

theorem kept_dropContainer (r : Row) (c : ContainerConfig) (s : State) : Kept s (dropContainer r c s) := by
  unfold dropContainer
  simp only
  refine Kept.trans ?_ (kept_releaseStation _ _)
  exact ⟨rfl, rfl, rfl, rfl⟩

/-! ### Timekeeper -/

theorem kept_evaluateRefill (d : Nat) (s : State) : Kept s (evaluateRefill d s) := Kept.ite ⟨rfl, rfl, rfl, rfl⟩ Kept.rfl'

theorem kept_minuteEvent (s : State) : Kept s (minuteEvent s) := by
  unfold minuteEvent
  refine Kept.ite Kept.rfl' ?_
  refine Kept.trans ?_ (kept_countDown _)
  exact ⟨rfl, rfl, rfl, rfl⟩

theorem kept_refillTrigger (s : State) : Kept s (refillTrigger s) := by
  have h : ∀ u : State, Kept u (if u.tk.told.close = true then expireDeposits { u with tk.told.close := false } else u) := by
    intro u
    refine Kept.ite ?_ Kept.rfl'
    refine Kept.trans ?_ (kept_expireDeposits _)
    exact ⟨rfl, rfl, rfl, rfl⟩
  unfold refillTrigger
  refine Kept.ite Kept.rfl' ?_
  refine Kept.trans (t := { s with tk.told.refill := false }) ⟨rfl, rfl, rfl, rfl⟩ ?_
  exact (h _).trans (Kept.ite (kept_evaluateRefill _ _) Kept.rfl')

theorem kept_setWall (w : WallTime) (s : State) : Kept s (setWall w s) := by
  unfold setWall
  refine Kept.trans (t := { s with tk.wall := w }) ⟨rfl, rfl, rfl, rfl⟩ ?_
  exact Kept.ite (kept_evaluateRefill _ _) Kept.rfl'

end Sys2Proof.Machine
end

