-- ==== Sys2Proof/Laws/Memory.lean ====
section
/-! SUPPORT. The record memory: a read after a write, and the canonical form kept by every operation. -/

namespace Sys2Proof.Machine

theorem Memory.read_of_lt {a : Nat} : ∀ {m : Memory} {bound : Nat}, Memory.wfFrom bound m = true → a < bound →
    m.read a = Memory.blank
  | [], _, _, _ => rfl
  | (x, b) :: rest, bound, h, ha => by
    simp only [Memory.wfFrom, Bool.and_eq_true, decide_eq_true_eq] at h
    have hx : ¬a = x := by omega
    simp only [Memory.read, hx, if_false]
    exact Memory.read_of_lt h.2 (by omega)

/-- A read after a write to the same place gives the byte written. -/
theorem Memory.read_write_self {a : Nat} {b : Byte} : ∀ {m : Memory} {bound : Nat}, Memory.wfFrom bound m = true →
    (m.write a b).read a = b
  | [], _, _ => by
    by_cases hb : b = Memory.blank <;> simp [Memory.write, hb, Memory.read]
  | (x, c) :: rest, bound, h => by
    have h' := h
    simp only [Memory.wfFrom, Bool.and_eq_true, decide_eq_true_eq] at h'
    by_cases h1 : a < x
    · by_cases hb : b = Memory.blank
      · have hx : ¬a = x := by omega
        simp only [Memory.write, h1, if_true, hb, Memory.read, hx, if_false]
        exact Memory.read_of_lt h'.2 (by omega)
      · simp [Memory.write, h1, hb, Memory.read]
    · by_cases h2 : a = x
      · subst h2
        by_cases hb : b = Memory.blank
        · simp only [Memory.write, lt_irrefl, if_false, hb, if_true]
          exact Memory.read_of_lt h'.2 (by omega)
        · simp [Memory.write, hb, Memory.read]
      · simp only [Memory.write, h1, if_false, h2, Memory.read]
        exact Memory.read_write_self h'.2

/-- A write leaves every other place alone. -/
theorem Memory.read_write_ne {a x : Nat} (b : Byte) (hx : x ≠ a) : ∀ (m : Memory), (m.write a b).read x = m.read x
  | [] => by by_cases hb : b = Memory.blank <;> simp [Memory.write, hb, Memory.read, hx]
  | (y, c) :: rest => by
    have ih := Memory.read_write_ne b hx rest
    by_cases h1 : a < y
    · by_cases hb : b = Memory.blank <;> simp [Memory.write, h1, hb, Memory.read, hx]
    · by_cases h2 : a = y
      · subst h2
        by_cases hb : b = Memory.blank <;> simp [Memory.write, hb, Memory.read, hx]
      · simp only [Memory.write, h1, if_false, h2, Memory.read, ih]

theorem Memory.wfFrom_mono : ∀ {m : Memory} {lo hi : Nat}, Memory.wfFrom hi m = true → lo ≤ hi → Memory.wfFrom lo m = true
  | [], _, _, _, _ => rfl
  | (x, b) :: rest, lo, hi, h, hle => by
    simp only [Memory.wfFrom, Bool.and_eq_true, decide_eq_true_eq] at h ⊢
    exact ⟨⟨by omega, h.1.2⟩, h.2⟩

theorem Memory.write_wfFrom {a : Nat} {b : Byte} : ∀ {m : Memory} {bound : Nat}, Memory.wfFrom bound m = true → bound ≤ a →
    Memory.wfFrom bound (m.write a b) = true
  | [], bound, _, ha => by
    by_cases hb : b = Memory.blank <;> simp [Memory.write, hb, Memory.wfFrom, ha]
  | (x, c) :: rest, bound, h, ha => by
    have h' := h
    simp only [Memory.wfFrom, Bool.and_eq_true, decide_eq_true_eq] at h'
    by_cases h1 : a < x
    · by_cases hb : b = Memory.blank
      · simp only [Memory.write, h1, if_true, hb]; exact h
      · simp only [Memory.write, h1, if_true, hb, if_false, Memory.wfFrom, Bool.and_eq_true, decide_eq_true_eq]
        exact ⟨⟨ha, hb⟩, ⟨by omega, h'.1.2⟩, h'.2⟩
    · by_cases h2 : a = x
      · subst h2
        by_cases hb : b = Memory.blank
        · simp only [Memory.write, lt_irrefl, if_false, hb, if_true]
          exact Memory.wfFrom_mono h'.2 (by omega)
        · simp only [Memory.write, lt_irrefl, if_false, hb, if_true, Memory.wfFrom, Bool.and_eq_true, decide_eq_true_eq]
          exact ⟨⟨ha, hb⟩, h'.2⟩
      · simp only [Memory.write, h1, if_false, h2, Memory.wfFrom, Bool.and_eq_true, decide_eq_true_eq]
        exact ⟨h'.1, Memory.write_wfFrom h'.2 (by omega)⟩

/-- A write keeps the canonical form. -/
theorem Memory.write_wf {m : Memory} (h : m.wf = true) (a : Nat) (b : Byte) : (m.write a b).wf = true :=
  Memory.write_wfFrom h (Nat.zero_le a)

theorem Memory.writeBytes_wf : ∀ {bytes : List Byte} {m : Memory}, m.wf = true → ∀ a, (m.writeBytes a bytes).wf = true
  | [], _, h, _ => h
  | _ :: _, _, h, a => Memory.writeBytes_wf (Memory.write_wf h a _) (a + 1)

theorem Memory.writeUnits_wf : ∀ {units : List MemUnit} {m : Memory}, m.wf = true → (m.writeUnits units).wf = true
  | [], _, h => h
  | _ :: rest, _, h => Memory.writeUnits_wf (units := rest) (Memory.writeBytes_wf h _)

theorem Memory.writeCut_wf {m : Memory} (h : m.wf = true) (units : List MemUnit) (r : Residue) :
    (m.writeCut units r).wf = true := by
  have h1 : (m.writeUnits (units.take r.completed)).wf = true := Memory.writeUnits_wf h
  unfold Memory.writeCut
  split
  · exact h1
  · exact Memory.writeBytes_wf h1 _

theorem Memory.writeCompared_wf : ∀ {units : List MemUnit} {returned : List (List Byte)} {m : Memory}, m.wf = true →
    (m.writeCompared units returned).1.wf = true
  | [], _, _, h => h
  | u :: units, [], _, h => Memory.writeUnits_wf (units := u :: units) h
  | u :: units, b :: returned, m, h => by
    unfold Memory.writeCompared
    split
    · exact Memory.writeCompared_wf (Memory.writeBytes_wf h _)
    · exact Memory.writeBytes_wf h _

/-- Read-backs that return every unit as it was written are a completed operation (R174, R210). -/
theorem Memory.writeCompared_same : ∀ (units : List MemUnit) (m : Memory),
    m.writeCompared units (units.map (·.bytes)) = (m.writeUnits units, true)
  | [], _ => rfl
  | u :: units, m => by
    have same : u.agrees u.bytes = true := by simp [MemUnit.agrees, padTo]
    simp only [List.map_cons, Memory.writeCompared, same, if_true, Memory.writeCompared_same units]
    rfl

theorem Memory.access_wf {m : Memory} (h : m.wf = true) (a size : Nat) (read : MemRead) : (m.access a size read).1.wf = true := by
  cases read with
  | asHeld => exact h
  | other bytes => exact Memory.writeBytes_wf h a
  | failed => exact h

/-- A read that the device returns as it holds it changes nothing. -/
theorem Memory.access_asHeld (m : Memory) (a size : Nat) : m.access a size .asHeld = (m, some (m.readBytes a size)) := rfl

theorem Memory.access_failed (m : Memory) (a size : Nat) : m.access a size .failed = (m, none) := rfl

theorem Memory.length_readBytes (m : Memory) : ∀ (size a : Nat), (m.readBytes a size).length = size
  | 0, _ => rfl
  | size + 1, a => by simp [Memory.readBytes, Memory.length_readBytes m size]

theorem Memory.read_writeBytes_outside {x : Nat} : ∀ {bytes : List Byte} {m : Memory} {a : Nat},
    (x < a ∨ a + bytes.length ≤ x) → (m.writeBytes a bytes).read x = m.read x
  | [], _, _, _ => rfl
  | b :: rest, m, a, h => by
    simp only [List.length_cons] at h
    have ih := Memory.read_writeBytes_outside (bytes := rest) (m := m.write a b) (a := a + 1) (x := x) (by omega)
    simp only [Memory.writeBytes, ih]
    exact Memory.read_write_ne b (by omega) m

theorem Memory.readBytes_writeBytes : ∀ {bytes : List Byte} {m : Memory} {a : Nat}, m.wf = true →
    (m.writeBytes a bytes).readBytes a bytes.length = bytes
  | [], _, _, _ => rfl
  | b :: rest, m, a, h => by
    have h1 := Memory.write_wf h a b
    simp only [List.length_cons, Memory.readBytes, Memory.writeBytes]
    rw [Memory.readBytes_writeBytes h1, Memory.read_writeBytes_outside (Or.inl (Nat.lt_succ_self a)),
      Memory.read_write_self (bound := 0) h]

end Sys2Proof.Machine
end

