-- ==== Sys2Proof/Laws/Posted.lean ====
section
/-! SUPPORT. The shared operations that post to a queue or settle a container, each equal to the form in which the statements say it. -/

namespace Sys2Proof.Machine

/-- A command other than a PASS_DOWN that a block sends is offered to its row (R32, R48). -/
theorem sendDown_offered {c : DownCommand} (h : c.isPassDown = false) (a : Station) (s : State) :
    sendDown a c s = s.offered a c := by
  have row : (s.slc.rows.get a).accepts c = .queued ∧ StationRow.offered c (s.slc.rows.get a) = (s.slc.rows.get a).push c ∨
      (s.slc.rows.get a).accepts c ≠ .queued ∧ StationRow.offered c (s.slc.rows.get a) = s.slc.rows.get a := by
    by_cases room : (s.slc.rows.get a).queue.length < 5
    all_goals
      have full : (5 ≤ (s.slc.rows.get a).queue.length) = ¬(s.slc.rows.get a).queue.length < 5 := by simp
      cases state : (s.slc.rows.get a).state <;>
        simp [StationRow.accepts, StationRow.offered, StationRow.posted, StationRow.push, Config.downPlaces, state, room, full, h]
  rcases row with ⟨yes, put⟩ | ⟨no, kept⟩
  · simp [sendDown, postDown, yes, State.offered, StreetLoop.offered, setStation, Table.update, put]
  · have same : s.slc.rows.update a (StationRow.offered c) = s.slc.rows := by
      rw [Table.update, kept]
      exact Table.ext_get fun b => by by_cases h : b = a <;> simp [h]
    rcases postDown_cases a c s with ⟨yes, _⟩ | ⟨_, post⟩
    · exact absurd yes no
    · simp [sendDown, post, State.offered, StreetLoop.offered, same]

/-- A report that becomes a new entry is reported (R200, R202). -/
theorem placeReport_reported (r : Report) (s : State) : placeReport r s = { s with tp := s.tp.reported r } := by
  by_cases h : s.tp.occupancy < Config.reportPlaces
  · rw [placeReport_entered h]; exact congrArg (fun tp => { s with tp := tp }) (if_pos h).symm
  · rw [placeReport_dropped h]; exact congrArg (fun tp => { s with tp := tp }) (if_neg h).symm

/-- A container settled (R20, R29, R143). -/
theorem settleRow_settle (restarted : Bool) (r : Row) (s : State) : settleRow restarted r s = s.settle restarted r := rfl

/-- A station settled, its containers in row index order (R143). -/
theorem settleStation_settle (restarted : Bool) (a : Station) (s : State) :
    settleStation restarted a s = (boundTo s a).foldl (State.settle restarted) s := rfl

end Sys2Proof.Machine
end

