-- ==== Sys2Proof/Laws/Record.lean ====
section
/-! SUPPORT. What the end of a memory operation can do to the device and to the write queue, said once. -/

namespace Sys2Proof.Machine

/-- However the write accesses end, the canonical form is kept. -/
theorem Memory.perform_wf {m : Memory} (h : m.wf = true) (units : List MemUnit) : ∀ write : MemWrite, (m.perform units write).1.wf = true
  | .done => Memory.writeUnits_wf h
  | .readBack _ => Memory.writeCompared_wf h
  | .failed r => Memory.writeCut_wf h units r

/-- With no entry owed and due there is nothing to make (R182). -/
theorem remakeOwn_idle {s : State} (h : ∀ w, s.rmi.remake ≠ some { kind := w, due := true }) : remakeOwn s = s := by
  unfold remakeOwn
  split
  · rename_i w e; exact absurd e (h w)
  · rfl

/-- An owed entry that is due and finds a place is made at the end of the queue (R182). -/
theorem remakeOwn_made {s : State} {w : OwnWrite} (h : s.rmi.remake = some { kind := w, due := true })
    (place : s.rmi.queue.length < Config.writePlaces) :
    remakeOwn s = { s with rmi := { s.rmi with
      remake := none, queue := s.rmi.queue ++ [{ body := w.body, reply := none, inProgress := false }] } } := by
  simp [remakeOwn, h, place, queueOwn, queueWrite]

/-- The end of a write with no entry owed (R175). -/
theorem endWrite_plain {s : State} (h : s.rmi.remake = none) :
    endWrite s = { s with rmi := { s.rmi with queue := s.rmi.queue.tail, port := none } } := by
  rw [endWrite, remakeOwn_idle (by simp [h])]
  simp [h]

/-- The end of a write with an entry owed and a place for it (R175, R182). -/
theorem endWrite_owed {s : State} {r : Remake} (h : s.rmi.remake = some r) (place : s.rmi.queue.tail.length < Config.writePlaces) :
    endWrite s = { s with rmi := { s.rmi with
      port := none, remake := none
      queue := s.rmi.queue.tail ++ [{ body := r.kind.body, reply := none, inProgress := false }] } } := by
  rw [endWrite, remakeOwn_made (w := r.kind) (by simp [h]) place]

end Sys2Proof.Machine
end

