-- ==== Sys2Proof/Tests/Slice0.lean ====
section
/-! SUPPORT. The model's own tests: the spec's worked values, the smoke test of WellFormed, and the witnesses
that meet the hypotheses of the statements. Expected values come from the section each docstring names. -/

namespace Sys2Proof.Tests

/- Each test is checked before the next begins: so many at once would each hold a thread of their own. -/
set_option Elab.async false

open Sys2Proof Sys2Proof.Machine

/-! ### Small states -/

/-- READY with a GOOD header and nothing put. -/
def ready : State :=
  { State.reset with rmi := { State.reset.rmi with restoring := false, progress := .ended, header := some .good } }

/-- The state after a command. -/
def after (c : Instr) (s : State) : State :=
  match exec c s with
  | .next t => t
  | .fault _ => s
  | .refused _ => s

/-- Container 1000 + `r` in row `r`, at a station and bay, of cluster 5. -/
def withContainer (r : Row) (a : Station) (bay : Bay) (s : State) : State :=
  let config : ContainerConfig :=
    { number := BitVec.ofNat 32 (1000 + r.val), station := a, bay := bay, fraction := 0, cluster := 5, profile := 0, empty := 2400,
      full := 400, enabled := true }
  { s with ft.rows := s.ft.rows.set r { config := some config, fill := Fill.cold } }

/-- A station row in a state, with a serial. -/
def withStation (a : Station) (state : StationState) (s : State) : State :=
  let row : StationRow :=
    { StationRow.cold with serial := some (BitVec.ofNat 48 (a.val + 1)), state := state, awakeSince := true }
  { s with slc.rows := s.slc.rows.set a row }

/-- A poll turn to an address that carries nothing, with no retry left. -/
def polled (a : Station) (s : State) : State :=
  { s with slc.turn := some (.poll { address := a, load := .nothing, standing := true, retries := 0 }) }

/-- A block: containers 1010 and 1011 at station 5 (row index 4), AWAKE and polled. -/
def block : State := polled 4 (withStation 4 .awake (withContainer 11 4 1 (withContainer 10 4 0 ready)))

/-- A card that passes every check, on account 9. -/
def card777 : CardRecord :=
  { number := 777, status := .active, account := 9, cls := 0, rights := 0xFF, expiry := none, start := none, home := none }

/-- The block with card 777 in the cache and account 9 loaded with 5 units. -/
def paying : State :=
  { block with
    clu := { block.clu with entries := block.clu.entries.set 0 (some card777), recency := [0] }
    au.accounts := block.au.accounts.set 9
      { loaded := true, blocked := false, balance := 5, held := 0, limit := 10, refill := 40, cap := 60 } }

/-- An open deposit of card 777 that costs 3 units, its grant not delivered. -/
def deposit777 : OpenDeposit :=
  { card := 777, account := 9, cost := 3, kind := .charged, tag := 7, delivered := false, granted := 0 }

/-- The block with that deposit open in row 10 and its cost held. -/
def open10 : State :=
  { paying with au := { paying.au with
    deposits := paying.au.deposits.set 10 (some deposit777)
    accounts := paying.au.accounts.set 9
      { loaded := true, blocked := false, balance := 5, held := 3, limit := 10, refill := 40, cap := 60 } } }

/-- A request of card 777 pending at row 10 since second 0. -/
def request10 : Request := { row := 10, station := 4, bay := 0, tag := 7, card := 777, arrival := 0, phase := .waitFetch }

/-- A step of a container. -/
def stepOf (r : Row) (state : StepState) : Step := { Step.fresh r .planned with state := state, vehicle := some 305 }

/-- Round 4711 of vehicle 305 with one step of row 10 and one of row 11. -/
def round4711 (state : RoundState) (x y : StepState) : Round :=
  { state := state, number := 4711, vehicle := 305, load := 0, duration := 240, allowance := 2, adHoc := false, lastLift := none,
    endCause := none, steps := [stepOf 10 x, stepOf 11 y] }

/-- The block with that round in slot 0. -/
def onRound (state : RoundState) (x y : StepState) : State :=
  { block with rm.slots := block.rm.slots.set 0 (some (round4711 state x y)) }

/-- A station whose queue has no room left. -/
def crowded (a : Station) (s : State) : State :=
  { s with slc.rows := s.slc.rows.update a fun r => { r with queue := List.replicate 5 ⟨1, .liftHold 0⟩ } }

/-! ### Worked values of the spec -/

/-- R207 and R209 on the nine characters "123456789"; R210's check byte. -/
theorem test_checks :
    trunkCrc [0x31, 0x32, 0x33, 0x34, 0x35, 0x36, 0x37, 0x38, 0x39] = 0x29B1 ∧
      loopCrc [0x31, 0x32, 0x33, 0x34, 0x35, 0x36, 0x37, 0x38, 0x39] = 0xFEE8 ∧ unitSum headerUnit = 0x5A ∧
      unitSum (slotOf card777) = 0x5A ∧ unitSum freeSlot = 0x5A := by decide +kernel

/-- Section 11.1: most significant byte first, signed numbers in two's complement. -/
theorem test_byte_order : bytesOf 2 4711 = [0x12, 0x67] ∧ bytesOfInt 2 (-8) = [0xFF, 0xF8] ∧ intOf [0x80, 0x00] = -32768 := by
  decide +kernel

/-- Section 11.2: a TIME_SET frame written out byte by byte is taken as TIME_SET of day 406, minute 10010, second 0. -/
theorem test_time_set_frame :
    trunkFrameBytes 0x01 0x2A [0x01, 0x96, 0x27, 0x1A, 0x00] =
        [0xC3, 0x07, 0x01, 0x2A, 0x01, 0x96, 0x27, 0x1A, 0x00] ++
          crcBytes (trunkCrc [0x07, 0x01, 0x2A, 0x01, 0x96, 0x27, 0x1A, 0x00]) ∧
      (after (.timeSet 0x2A [0x01, 0x96, 0x27, 0x1A, 0x00]) ready).tk.wall =
        { valid := true, day := 406, minute := 10010, second := 0 } := by decide +kernel

/-- Section 1.8: second by second and jump by jump over the refill minute 10020. -/
theorem test_wall_time :
    (WallTime.tick ⟨true, 406, 10019, 59⟩) = ⟨true, 406, 10020, 0⟩ ∧ (WallTime.tick ⟨true, 7, 10079, 59⟩) = ⟨true, 8, 0, 0⟩ ∧
      (WallTime.tick ⟨true, 65535, 10079, 59⟩).valid = false ∧ jumpPassed ⟨true, 420, 10015, 30⟩ ⟨true, 420, 10025, 0⟩ 10020 = true ∧
      forwardJump ⟨true, 406, 10020, 0⟩ ⟨true, 406, 10010, 0⟩ = false ∧ refillDue (some 400) 406 = true ∧
      refillDue (some 406) 406 = false := by decide

/-- Sections 4.13 and 4.15: distances, levels and clamps. -/
theorem test_distances :
    distanceOf 10000 15 = 1701 ∧ distanceOf 12000 97 = 2293 ∧ distanceOf 12000 (-52) = 1843 ∧ distanceOf 500 15 = 85 ∧
      distanceOf 7924 20 = 1360 := by decide +kernel

/-- The container of section 4.13. -/
def cafe : ContainerConfig :=
  { number := 1, station := 0, bay := 0, fraction := 0, cluster := 0, profile := 0, empty := 2400, full := 400, enabled := true }

/-- Its profile. -/
def cafeProfile : Profile := { n := 700, fu := 900, o := 1000, h := 50, d := 2, k := 4, increment := 6 }

/-- Its dynamic part before the sample. -/
def cafeFill : Fill :=
  { Fill.cold with lf := 330, i := 330, r := 200, ref := some (300, 1000), health := .good, fresh := false }

/-- Section 4.13: one sample, stage by stage. -/
theorem test_sample :
    cafeFill.takeSample cafe cafeProfile 1090 1701 =
      { cafeFill with lf := 339, i := 339, r := 215, ref := some (339, 1090), ttf := 1565, lastPlausible := 1090 } := by
  decide +kernel

/-- Section 4.15: the filter's forced steps, the drop flag, the heap and the implausible counts. -/
theorem test_awkward_cases :
    filterStep 501 500 4 = 1 ∧ filterStep 499 500 4 = -1 ∧ filterStep 100 800 4 = -350 ∧
      (({ cafeFill with lf := 800 }).filter 100 4).drop = true ∧ (({ cafeFill with lf := 800 }).filter 200 4).drop = false ∧
      levelOf { cafe with empty := 6000, full := 5800 } 150 = 1200 ∧ isImplausible cafe 9000 2551 = true ∧
      isImplausible cafe 9000 2520 = false ∧ ({ cafeFill with implausible := 2 }).failSample 12 =
        { cafeFill with implausible := 3, health := .suspect } ∧
      (({ cafeFill with implausible := 11 }).failSample 12).health = .fault ∧ timeToFull 900 300 0 = 10080 := by decide +kernel

/-- Section 4.14: the 46th credit rises to NEAR_FULL at once. -/
theorem test_credit :
    (({ cafeFill with lf := 429, i := 699, r := 386 }).credit cafeProfile) =
      { cafeFill with lf := 429, i := 705, r := 386, ttf := 303, fill := .nearFull } := by decide +kernel

/-- The windows of section 7.14 at a minute-of-week. -/
def weekend (minute : Nat) : State :=
  { ready with
    tk.wall := { valid := true, day := 10, minute := minute, second := 0 }
    au.windows := (ready.au.windows.set 0 ⟨true, 0x30, 1320, 360, 1, 3⟩).set 1 ⟨true, 0x7F, 420, 1320, 1, 3⟩ }

/-- Section 7.14: a weekend window across midnight. -/
theorem test_windows :
    windowCovers (weekend 8610) 0 0 = true ∧ windowCovers (weekend 8820) 0 0 = true ∧ windowCovers (weekend 7380) 0 1 = true ∧
      windowCovers (weekend 5880) 0 0 = false ∧ windowCovers (weekend 120) 0 0 = false ∧
      windowCovers (weekend 7920) 0 2 = false ∧ windowCovers (weekend 8610) 2 0 = false := by decide +kernel

/-- Section 7.12: grants and refusals of account 2210 by its balance, held amount and limit. -/
theorem test_account_verdict :
    let s (balance : Int) (held : Nat) : State := { ready with au := { ready.au with
      costs := ready.au.costs.set 0 3
      accounts := ready.au.accounts.set 9
        { loaded := true, blocked := false, balance := balance, held := held, limit := 10, refill := 40, cap := 60 } } }
    (accountVerdict (s 5 6) cafe card777).toOption = some (.charged, 3) ∧
      (accountVerdict (s (-8) 3) cafe card777).toOption = none ∧
      (Account.topUp { loaded := true, blocked := false, balance := -11, held := 0, limit := 10, refill := 40, cap := 60 }).balance = 29 := by
  decide +kernel

/-- Section 3.10, turn 1: the first attention member after row 12 is 9, whose poll carries GRANT 41. -/
theorem test_attention_turn :
    let s : State := withStation 4 .awake (withStation 11 .awake ready)
    let s : State := { s with slc := { s.slc with
      rows := s.slc.rows.set 8 { StationRow.cold with state := .awake, queue := [⟨41, .grant 1 3⟩], nextSeq := 42 }
      sinceOpen := 5, lastAttention := 11, lastRoutine := 11 } }
    (after .loopTurnStart s).slc.turn =
      some (.poll { address := 8, load := .command ⟨41, .grant 1 3⟩, standing := true, retries := 1 }) := by decide +kernel

/-- Section 9.11: after three fetches a waiting write goes first. -/
theorem test_write_after_three_fetches :
    let e : WriteEntry := { body := .cardDrop 5, reply := some ⟨0x0D, 1⟩, inProgress := false }
    let m : MissEntry := { bucket := 9, waiting := [], wanted := [], granted := false, stale := false }
    let s : State := { ready with rmi := { ready.rmi with queue := [e], fetchRun := 3 }, clu.missList := [m] }
    (after .portGrant s).rmi.port = some .write ∧ (after .portGrant { s with rmi.fetchRun := 2 }).rmi.port = some (.fetch 9 false) := by
  decide +kernel

/-- Section 11.3: an upward NOTHING frame from address 5 with the more-pending flag, and one with a wrong CRC. -/
theorem test_loop_frame :
    readUpward ([0x69, 0x05, 0x01, 0x00, 0x00] ++ crcBytes (loopCrc [0x05, 0x01, 0x00, 0x00])) =
        .frame { address := 5, flags := 1, item := .nothing } ∧
      readUpward [0x69, 0x05, 0x01, 0x00, 0x00, 0x00, 0x00] = .garbled := by decide +kernel

/-- The memory after reset is in its canonical form, and reads as a never-written device (R103). -/
theorem test_reset_memory : State.reset.memory.wf = true ∧ State.reset.memory.read 0x012345 = 0xFF := by decide

/-- A byte written is read back, and FFh leaves no entry. -/
theorem test_memory_write :
    (Memory.write [] 0x40 7).read 0x40 = 7 ∧ Memory.write [(0x40, 7)] 0x40 0xFF = [] ∧
      (Memory.write [(0x40, 7)] 0x20 9) = [(0x20, 9), (0x40, 7)] := by decide

/-- R210: a read-back that agrees in every byte completes the write; one that differs in the check byte alone fails it, and the units
after it are not written. -/
theorem test_read_back :
    let u : MemUnit := { address := 0x20, bytes := [1, 2] }
    let v : MemUnit := { address := 0x40, bytes := [3] }
    Memory.perform [] [u, v] (.readBack [[1, 2], [3]]) = Memory.perform [] [u, v] .done ∧
      (Memory.perform [] [u, v] (.readBack [[1, 9], [3]])) = ([(0x20, 1), (0x21, 9)], false) := by decide +kernel

/-- Slots and records read back as they were written (11.4). -/
theorem test_record_forms :
    readSlot (slotOf card777) = .card card777 ∧ containerFields (containerBytes cafe) = some cafe ∧
      profileFields (profileBytes cafeProfile) = cafeProfile ∧
      readRecord (.window 3) (some (emptyRecord (.window 3))) = .empty := by decide +kernel

/-- The table gives its rows no bits, so no word spells a command. -/
theorem test_no_word : decodeTableWord 8 0x55 = none ∧ State.reset.withFetchWord 8 0x55 = State.reset := ⟨rfl, rfl⟩

/-! ### WellFormed -/

/-- Each check of `Instr.wf` refuses an ill-formed command. -/
theorem test_wf_refuses :
    Instr.wf (.trunkGapTimeout []) = false ∧ Instr.wf (.trunkCrcError [0xC3, 2, 1, 1]) = false ∧
      Instr.wf (.unknownKind 0x15 0 []) = false ∧ Instr.wf (.unknownKind 0x16 0 (List.replicate 249 0)) = false ∧
      Instr.wf (.timeSet 0 (List.replicate 249 0)) = false ∧ Instr.wf (.queryStatus 0 (List.replicate 248 0)) = false ∧
      Instr.wf (.resetTraffic 0 (List.replicate 248 0)) = false ∧
      Instr.wf (.resetFull 0 (List.replicate 248 0) ⟨0, []⟩) = false ∧ Instr.wf (.pollAnswerGarbled []) = false ∧
      Instr.wf (.openSlotGarbled []) = false ∧ Instr.wf (.liftRequest 0 1 1 0xFFFFFFFF) = false ∧ Instr.wf (.passUp 0 []) = false ∧
      Instr.wf (.passUp 0 (List.replicate 33 0)) = false ∧ Instr.wf (.trunkBadLength [0xC3, 2]) = false ∧
      Instr.wf (.openSlotSilentFrame [1]) = false ∧ Instr.wf (.identificationReadComplete (some [1, 2])) = false ∧
      Instr.wf (.headerReadComplete (.other [0])) = false ∧ Instr.wf (.bucketFetchComplete (.other (List.replicate 63 0))) = false ∧
      Instr.wf (.cardWriteComplete .asHeld (.readBack [[0]])) = false ∧ Instr.wf (.headerWriteComplete (.readBack [[0]])) = false := by
  decide +kernel

/-- A whole frame with a good CRC is no CRC error, and a good frame no garbled slot. -/
theorem test_wf_refuses_frames :
    Instr.wf (.trunkCrcError (trunkFrameBytes 0x01 0 [])) = false ∧
      Instr.wf (.openSlotGarbled ([0x69, 5, 0, 0, 0] ++ crcBytes (loopCrc [5, 0, 0, 0]))) = false ∧
      Instr.wf (.openSlotSilentFrame ([0x69, 5, 0, 7, 0] ++ crcBytes (loopCrc [5, 0, 7, 0]))) = false := by decide +kernel

/-- Commands at the edges of their ranges are well-formed. -/
theorem test_wf_accepts :
    Instr.wf (.timeSet 0 (List.replicate 248 0)) = true ∧ Instr.wf (.queryStatus 0 (List.replicate 247 0)) = true ∧
      Instr.wf (.trunkBadLength [0xC3, 251]) = true ∧ Instr.wf (.passUp 0 (List.replicate 32 0)) = true ∧
      Instr.wf (.unknownKind 0x16 0 []) = true ∧ Instr.wf (.headerReadComplete (.other (List.replicate 32 0))) = true ∧
      Instr.wf (.openSlotSilentFrame ([0x69, 63, 0, 7, 0] ++ crcBytes (loopCrc [63, 0, 7, 0]))) = true := by decide +kernel

/-! ### Witnesses

Each theorem shows states and operands that meet the hypotheses of one obligation together, clause by clause. A hypothesis
`∀ d, o = some d → P d` is written `∀ d ∈ o, P d`, which is the same. -/

theorem serves_iff (s : State) : s.serves ↔ s.hold = .running ∧ s.rmi.restoring = false ∧ s.tp.occupancy < 128 :=
  ⟨fun h => ⟨h.running, h.ready, h.place⟩, fun h => ⟨h.1, h.2.1, h.2.2⟩⟩

theorem queueLaw_iff (s : State) :
    s.queueLaw ↔ (∀ r, r ∈ s.ft.queue ↔ qualifies s r = true) ∧ s.ft.queue.Pairwise fun a b => queueBefore s a b = true :=
  ⟨fun h => ⟨h.exact, h.sorted⟩, fun h => ⟨h.1, h.2⟩⟩

theorem polling_of {s : State} {a : Station} {retries : Nat} {standing : Bool}
    (h : s.slc.turn = some (.poll { address := a, load := .nothing, standing := standing, retries := retries })) : s.polling a :=
  ⟨retries, standing, h⟩

/-- READY with nothing put serves commands and can write; so does a state with 127 places of the upstream queue taken and seven
entries waiting on the write queue. -/
def busy : State :=
  { ready with
    tp.reserved := 127
    rmi.queue := List.replicate 7 { body := .cardDrop 5, reply := none, inProgress := false } }

theorem test_witness_serves : ready.serves ∧ ready.canWrite ∧ busy.serves ∧ busy.canWrite := by
  simp only [serves_iff, State.canWrite]; decide +kernel

/-- A part whose upstream queue has no place left for a command. -/
def overrun : State := { ready with tp.reserved := 128 }

theorem test_witness_StepRunsFront :
    ({ ready with pending := [.secondEvent, .portGrant] } : State).pending = .secondEvent :: [.portGrant] ∧ ready.pending = [] := ⟨rfl, rfl⟩

theorem test_witness_ColdResetAndRelease : (after (.coldReset ⟨0, []⟩) ready).hold = .pin := by decide +kernel

theorem test_witness_SecondEventAdvancesTheClocks :
    ready.hold = .running ∧ ({ ready with tk.subMinute := 59 } : State).hold = .running := ⟨rfl, rfl⟩

/-- INVALID time; the last second of the week, of the last day, and the first second of all. -/
theorem test_witness_WallTimeAdvances :
    ready.tk.wall.valid = false ∧ (WallTime.tick ⟨true, 7, 10079, 59⟩).valid = true ∧
      (WallTime.tick ⟨true, 65535, 10079, 59⟩).valid = false ∧ (WallTime.tick ⟨true, 65535, 10079, 58⟩).valid = true ∧
      (WallTime.tick ⟨true, 0, 0, 0⟩).valid = true ∧ (10079 : Nat) ≤ 10079 := by decide +kernel

theorem test_witness_MinuteEventCountsDown :
    let s : State := { block with tk.told := { block.tk.told with minutes := 1 } }
    s.hold = .running ∧ s.rmi.restoring = false ∧ s.tk.told.minutes ≠ 0 ∧ (configOf s 10).isSome = true ∧
      (configOf s 12).isSome = false := by decide +kernel

/-- A refill minute with no refill day held, six days after one, and five days after one. -/
theorem test_witness_RefillTriggerRefills :
    let s (last : Option Nat) : State := { paying with tk := { paying.tk with
      wall := ⟨true, 406, 0, 0⟩, lastRefill := last, told := { paying.tk.told with refill := true, close := false } } }
    ∀ last ∈ [none, some 400, some 401],
      (s last).hold = .running ∧ (s last).tk.told.refill = true ∧ (s last).tk.told.close = false ∧
        (s last).tk.wall.valid = true := by decide +kernel

/-- A request and a deposit at any second, those of their limits among them. -/
theorem test_witness_AdmissionLimitsExpire :
    let s (now : Clock) : State := { paying with
      tk := { paying.tk with seconds := now, told := { paying.tk.told with decision := true } }, au.requests := [request10] }
    let u (now : Clock) : State := { open10 with tk := { open10.tk with seconds := now, told := { open10.tk.told with close := true } } }
    (∀ now, (s now).hold = .running ∧ (s now).tk.told.decision = true ∧ ((s now).au.requests.map (·.row)).Nodup ∧
      (s now).au.denials ≤ 65535) ∧ elapsed 3 0 = 3 ∧
    (∀ now, (u now).hold = .running ∧ (u now).tk.told.close = true ∧ (u now).au.deposits.get 10 = some deposit777 ∧
      (configOf (u now) 10).isSome = true ∧ (u now).au.deposits.get 11 = none) ∧
    ((s 3).tp.effective.decisionLimit ≤ elapsed (s 3).tk.seconds request10.arrival ∧
      ((s 3).slc.rows.get request10.station).state = .awake ∧ ((s 3).slc.rows.get request10.station).queue.length < 5 ∧
      elapsed (s 2).tk.seconds request10.arrival < (s 2).tp.effective.decisionLimit) :=
  ⟨fun _ => ⟨rfl, rfl, List.nodup_singleton _, Nat.zero_le _⟩, rfl, fun _ => ⟨rfl, rfl, rfl, rfl, rfl⟩, by decide +kernel⟩

/-- A container in SERVICE and a round at their limits. -/
theorem test_witness_ServiceAndRoundLimitsExpire :
    let s := onRound .running .lifting .pending
    let s : State := { s with
      tk := { s.tk with seconds := 900, uptime := 240, told := { s.tk.told with service := true, roundExpiry := true } }
      rm.service := s.rm.service.set 10 (.service ⟨0, 0⟩ 4 0) }
    s.hold = .running ∧ s.tk.told.service = true ∧ s.tk.told.roundExpiry = true ∧ serviceOf s 10 = .service ⟨0, 0⟩ 4 0 ∧
      s.rm.slots.get 0 = some (round4711 .running .lifting .pending) := by decide +kernel

/-- The last lift of a CLOSING round at the service limit, beside a container whose hold names a step of the same round. -/
theorem test_witness_ServiceAndRoundLimitsExpire_late :
    let s := onRound .closing .lifting .missed
    let s : State := { s with
      tk := { s.tk with seconds := 900, told := { s.tk.told with service := true } }
      rm.service := (s.rm.service.set 10 (.service ⟨0, 0⟩ 4 0)).set 11 (.held .timedOut (some ⟨0, 1⟩)) }
    s.hold = .running ∧ s.tk.told.service = true ∧ (∀ r, (serviceOf s r).refersTo s r) ∧ serviceOf s 10 = .service ⟨0, 0⟩ 4 0 ∧
      s.tp.effective.serviceLimit ≤ elapsed s.tk.seconds 0 ∧ (configOf s 10).isSome = true ∧ s.tp.occupancy + 2 < 120 ∧
      (∀ r, r = 10 ∨ (serviceOf s r).name ≠ .service) ∧
      s.rm.slots.get 0 = some (round4711 .closing .lifting .missed) ∧
      (round4711 .closing .lifting .missed).steps[0]? = some (stepOf 10 .lifting) := by
  intro _ s
  have rows : ∀ r, r = 10 ∨ r = 11 ∨ serviceOf s r = .inUse := by decide +kernel
  have ten : serviceOf s 10 = .service ⟨0, 0⟩ 4 0 := by decide +kernel
  have eleven : serviceOf s 11 = .held .timedOut (some ⟨0, 1⟩) := by decide +kernel
  refine ⟨rfl, rfl, fun r => ?_, by decide +kernel⟩
  rcases rows r with rfl | rfl | h
  · rw [ten]; exact ⟨stepOf 10 .lifting, by decide +kernel, rfl, rfl⟩
  · rw [eleven]; exact ⟨stepOf 11 .missed, by decide +kernel, rfl, by decide⟩
  · rw [h]; trivial

/-- A DOZING row at its wake second, a stable row, and a container whose last sample is as old as the window. -/
theorem test_witness_WatchesOfTheMinute :
    let s := withStation 4 .dozing block
    let s : State := { s with
      tk := { s.tk with seconds := 60, uptime := 2000, told := { s.tk.told with doze := true, stableClear := true, stale := true } }
      slc.rows := s.slc.rows.update 4 fun r => { r with wake := 60, rejoin := 2 }
      ft.rows := s.ft.rows.update 10 fun r => { r with fill := { r.fill with health := .good } } }
    s.hold = .running ∧ s.rmi.restoring = false ∧ s.tk.told.doze = true ∧ s.tk.told.stableClear = true ∧ s.tk.told.stale = true ∧
      (s.slc.rows.get 4).state = .dozing ∧ (fillOf s 10).health = .good := by decide +kernel

/-- A SUMMARY due with a place, without one, and not due; an entry on the line with and without one behind it. -/
theorem test_witness_SummaryAndTransmitter :
    let s (since reserved : Nat) : State := { ready with
      tk.told := { ready.tk.told with summary := true }, tp := { ready.tp with sinceSummary := since, reserved := reserved } }
    let e : UpEntry := .reply 1 1 .ok .none
    (∀ p ∈ [(60, 119), (60, 120), (59, 0)], (s p.1 p.2).hold = .running ∧ (s p.1 p.2).tk.told.summary = true) ∧
    (let u : State := { ready with tp := { ready.tp with line := some e, waiting := [e] } }
     u.hold = .running ∧ u.tp.line = some e ∧ u.tp.waiting = e :: []) ∧
    (let u : State := { ready with tp.line := some e }
     u.hold = .running ∧ u.tp.line = some e ∧ u.tp.waiting = []) := by decide +kernel

/-- The longest and the shortest payload. -/
theorem test_witness_TrunkFrameIsTaken :
    ready.hold = .running ∧ ready.tp.receiver = .hunt ∧ (List.replicate 248 (0 : Byte)).length ≤ 248 ∧ ([] : List Byte).length ≤ 248 := by
  decide +kernel

theorem test_witness_TrunkReceiverAndChecks :
    (ready.hold = .running ∧ ready.tp.receiver = .hunt ∧ (List.replicate 248 (0 : Byte)).length ≤ 248 ∧
      253 < (trunkFrameBytes 1 1 (List.replicate 248 0)).length ∧ 0 < (trunkFrameBytes 1 1 []).length) ∧
    ((1 : Byte).toNat < 2 ∧ 250 < (251 : Byte).toNat) ∧
    (0 : BitVec 16) ≠ trunkCrc (bytesOf 1 2 ++ [1, 1]) ∧
    ((0 : Byte).toNat = 0 ∧ 0x15 < (0x16 : Byte).toNat ∧ busy.tp.occupancy < 128) ∧
    (overrun.hold = .running ∧ 128 ≤ overrun.tp.occupancy) ∧
    ((List.replicate 4 (0 : Byte)).length ≠ 5 ∧ (List.replicate 5 (0 : Byte)).length = 5) ∧
    (State.reset.hold = .running ∧ State.reset.tp.occupancy < 128 ∧ State.reset.rmi.restoring = true) := by decide +kernel

/-- A command of the first and of the last kind whose payload does not fit, and of other kinds whose payload does, while RESTORING. -/
theorem test_witness_TrunkReceiverAndChecks_kinds :
    (1 ≤ (0x01 : Byte).toNat ∧ (0x15 : Byte).toNat ≤ 0x15) ∧ payloadFits 0x01 [] = false ∧ payloadFits 0x15 [] = false ∧
      payloadFits 0x12 [0] = false ∧ payloadFits 0x12 [] = true ∧ payloadFits 0x02 [1, 5, 0, 1] = true ∧
      payloadFits 0x14 [0x01, 0, 0, 0, 5] = true ∧ (0x14 : Byte).toNat ≠ 0x15 ∧ ([0x01, 0, 0, 0, 5] : List Byte) ≠ [0x00] := by
  decide +kernel

/-- The last second of the week and of the day numbers, the two refused edges, and the ranges of passed minutes. -/
theorem test_witness_TimeSetWritesWallTime :
    ready.serves ∧ (65535 ≤ 65535 ∧ 10079 ≤ 65535 ∧ 59 ≤ 255) ∧ (10079 < 10080 ∧ 59 < 60) ∧ (10080 ≤ 65535 ∧ 60 ≤ 255) ∧
      minutePassed 10070 10 10079 = true ∧ minutePassed 10070 10 11 = false ∧ minutePassed 5 10 5 = false ∧
      minutePassed 5 10 10 = true := by
  simp only [serves_iff]; decide +kernel

/-- The parameters at the ends of their ranges, one of each. -/
theorem test_witness_ParametersAreWrittenAndTakeEffect :
    let values (edge : Nat × Nat → Nat) : List (ParamId × Nat) := ParamId.all.map fun p => (p, edge p.range)
    ready.serves ∧ ready.canWrite ∧ ∀ v ∈ [values (·.1), values (·.2)],
      v ≠ [] ∧ (v.map (·.1)).Nodup ∧ ∀ x ∈ v, x.1.range.1 ≤ x.2 ∧ x.2 ≤ x.1.range.2 := by
  simp only [serves_iff, State.canWrite]; decide +kernel

theorem test_witness_ProfilePutReplaces :
    ready.serves ∧ ready.canWrite ∧ profileValid cafeProfile = true ∧ profileValid ⟨2, 3, 1200, 1, 7, 8, 50⟩ = true ∧
      ready.queueLaw := by
  simp only [serves_iff, State.canWrite, queueLaw_iff]; decide +kernel

/-- An empty row, and the row that holds the container already. -/
theorem test_witness_ContainerPutEnters :
    let c : ContainerConfig := { cafe with number := 1010, station := 4, bay := 0, empty := 300, full := 100 }
    c.number ≠ 0 ∧ c.number ≠ 0xFFFFFFFF ∧ 100 ≤ c.full ∧ c.empty ≤ 6000 ∧ c.full + 200 ≤ c.empty ∧
    (ready.serves ∧ ready.canWrite ∧ (∀ q, ∀ d ∈ configOf ready q, q ≠ (10 : Row) → d.number ≠ c.number ∧ (d.station = c.station → d.bay ≠ c.bay)) ∧
      (∀ d ∈ configOf ready 10, d.number = c.number ∧ hasTraffic ready 10 = false) ∧ ready.queueLaw) ∧
    (block.serves ∧ block.canWrite ∧ (configOf block 10).isSome = true ∧
      (∀ q, ∀ d ∈ configOf block q, q ≠ (10 : Row) → d.number ≠ c.number ∧ (d.station = c.station → d.bay ≠ c.bay)) ∧
      (∀ d ∈ configOf block 10, d.number = c.number ∧ hasTraffic block 10 = false)) := by
  simp only [serves_iff, State.canWrite, queueLaw_iff]; decide +kernel

/-- A container put at another station, while a poll of the row it leaves, its last and without a serial, is on the loop; and one whose
new station is its old one. -/
theorem test_witness_ContainerPutEnters_moved :
    let bare := withContainer 10 4 0 ready
    let s : State := polled 4 { bare with slc.rows := bare.slc.rows.set 4 { StationRow.cold with state := .silent } }
    s.hold = .running ∧ s.rmi.restoring = false ∧ s.tp.occupancy < 128 ∧ s.rmi.queue.length < 8 ∧
      (configOf s 10).map (fun d => (d.number, d.station)) = some (1010, 4) ∧ hasTraffic s 10 = false ∧
      (∀ q, q ≠ (10 : Row) → configOf s q = none) ∧ (s.slc.rows.get 4).serial = none ∧ (5 : Station) ≠ 4 ∧
      (s.slc.rows.get 5).state = .unbound ∧
      s.slc.turn = some (.poll { address := 4, load := .nothing, standing := true, retries := 0 }) := by decide +kernel

/-- A container whose row has a serial, one beside another of its station, and one that is its row's last, with no turn on the loop and with
a poll of that row and of another. -/
theorem test_witness_ContainerDropEmpties :
    let last := withContainer 10 4 0 (withStation 4 .awake ready)
    let bare : State := { last with slc.rows := last.slc.rows.update 4 fun r => { r with serial := none } }
    let two := withContainer 11 4 1 bare
    (∀ s ∈ [last, bare, two, polled 4 bare, polled 5 bare], s.hold = .running ∧ s.rmi.restoring = false ∧ s.tp.occupancy < 128 ∧ s.rmi.queue.length < 8 ∧
      (1010 : Number) ≠ 0 ∧ (1010 : Number) ≠ 0xFFFFFFFF ∧ containerOf s 1010 = some 10 ∧
      (configOf s 10).map (·.station) = some 4 ∧ hasTraffic s 10 = false ∧
      ((s.slc.rows.get 4).serial.isSome = true ∨ (configOf s 11).map (·.station) = some 4 ∨
        ((s.slc.rows.get 4).serial = none ∧ ∀ q, ∀ d ∈ configOf s q, q ≠ (10 : Row) → d.station ≠ 4))) ∧
    (polled 4 bare).slc.turn = some (.poll { address := 4, load := .nothing, standing := true, retries := 0 }) ∧
    (polled 5 bare).slc.turn = some (.poll { address := 5, load := .nothing, standing := true, retries := 0 }) ∧
    bare.slc.turn = none := by decide +kernel

/-- A new serial, the same serial in service, and no serial for a row out of service. -/
theorem test_witness_StationPutAndDrop :
    let lost := withStation 4 .lost ready
    (ready.serves ∧ ready.canWrite ∧ (∀ b, b ≠ (4 : Station) → (ready.slc.rows.get b).serial ≠ some 5) ∧
      (ready.slc.rows.get 4).state = .unbound) ∧
    (block.serves ∧ block.canWrite ∧ (block.slc.rows.get 4).serial = some 5 ∧
      (∀ b, b ≠ (4 : Station) → (block.slc.rows.get b).serial ≠ some 5)) ∧
    (lost.serves ∧ lost.canWrite ∧ (lost.slc.rows.get 4).state ∈ [StationState.unbound, .absent, .lost, .barred]) := by
  simp only [serves_iff, State.canWrite]; decide +kernel

/-- The addresses on either side of 1 to 62, a RESTORING part, and a row that its RETURN would bar. -/
theorem test_witness_StationClearClears :
    (State.reset.hold = .running ∧ State.reset.tp.occupancy < 128 ∧ State.reset.rmi.restoring = true) ∧ ready.serves ∧
      (0 : Byte).toNat = 0 ∧ 62 < (63 : Byte).toNat ∧ (62 : Byte).toNat ≤ 62 ∧
      (let r : StationRow := { StationRow.cold with state := .joining, awakeSince := true, joinPrior := some .lost }
       r.state = .joining ∧ r.rejoin = 0 ∧ r.awakeSince = true ∧ r.joinPrior = some .lost) := by
  simp only [serves_iff]; decide +kernel

theorem test_witness_AdmissionTablesPut :
    ready.serves ∧ ready.canWrite ∧ (1439 ≤ 1439 ∧ 0 ≤ 1439) ∧ 255 ≤ 255 ∧
      ((-32768 : Int) ≤ -32768 ∧ (32767 : Int) ≤ 32767 ∧ 32767 ≤ 32767) := by
  simp only [serves_iff, State.canWrite]; decide +kernel

/-- A card with both dates at their last day, and the write queue with one place left. -/
theorem test_witness_CardCommandsAccepted :
    let card : CardRecord := { card777 with expiry := some 65535, start := some 65535 }
    busy.serves ∧ busy.rmi.absent = false ∧ busy.rmi.queue.length < 8 ∧ card.number ≠ 0 ∧ card.number ≠ 0xFFFFFFFF ∧
      (∀ d ∈ card.expiry, d ≤ 65535) ∧ (∀ d ∈ card.start, d ≤ 65535) := by
  simp only [serves_iff]; decide +kernel

/-- A cache with one card keeps the law; so does an empty one. -/
theorem test_witness_CacheServesWhatWasRead : paying.cacheLaw ∧ ready.cacheLaw ∧ paying.clu = paying.clu := by
  have h (i : Fin 32) : paying.clu.entries.get i = if i = 0 then some card777 else none := by
    simp [paying, block, polled, withStation, withContainer, ready, State.reset, CardLookup.cold, Table.get_set]
  have e (i : Fin 32) : ready.clu.entries.get i = none := by simp [ready, State.reset, CardLookup.cold]
  refine ⟨⟨?_, ?_, by decide +kernel⟩, ⟨?_, ?_, by decide +kernel⟩, rfl⟩
  · intro i j a b hi hj _
    rw [h] at hi hj
    by_cases i0 : i = 0 <;> by_cases j0 : j = 0 <;> simp_all
  · intro i
    rw [h]
    by_cases i0 : i = 0 <;> simp [i0, paying]
  · intro i j a b hi
    simp [e] at hi
  · intro i
    simp [e, show ready.clu.recency = [] from rfl]

/-- The longest and the shortest duration; slot 0 free, and slot 1 the lowest free. -/
theorem test_witness_RoundLoadTakesASlot :
    let taken : State := { block with rm.slots := block.rm.slots.set 0 (some { round4711 .running .done .done with steps := [] }) }
    (block.serves ∧ (4711 : Short) ≠ 0 ∧ (305 : Short) ≠ 0 ∧ (305 : Short) ≠ 0xFFFF ∧ 1 ≤ 1440 ∧ 8 ≤ 8 ∧
      ([1010, 1011] : List Number).length ≤ 48 ∧ ([1010, 1011] : List Number).Nodup ∧
      containerOf block 1010 = some 10 ∧ containerOf block 1011 = some 11 ∧ onActiveRound block 10 = false ∧
      onActiveRound block 11 = false ∧
      (∀ j, ∀ rd ∈ block.rm.slots.get j, rd.vehicle ≠ 305 ∧ rd.number ≠ 4711) ∧ block.rm.slots.get 0 = none) ∧
    (taken.serves ∧ (∀ j, ∀ rd ∈ taken.rm.slots.get j, rd.vehicle ≠ 306 ∧ rd.number ≠ 4712) ∧ taken.rm.slots.get 1 = none ∧
      ∀ j, j < (1 : Fin 4) → (taken.rm.slots.get j).isSome = true) := by
  simp only [serves_iff]; decide +kernel

/-- A LOADED round without a lift, a RUNNING one with one, and a block with no round. -/
theorem test_witness_RoundsAreEnded :
    (∀ p ∈ [(RoundState.loaded, StepState.pending), (.running, .lifting)],
      let s := onRound p.1 p.2 .pending
      let rd := round4711 p.1 p.2 .pending
      s.hold = .running ∧ s.rmi.restoring = false ∧ s.tp.occupancy < 128 ∧ s.rm.slots.get 0 = some rd ∧ rd.number ≠ 0 ∧
        (∀ j, ∀ other ∈ s.rm.slots.get j, other.number = rd.number → j = 0) ∧
        (∀ j, ∀ other ∈ s.rm.slots.get j, other.vehicle = 305 → j = 0) ∧ rd.state ≠ .closing ∧ rd.vehicle = 305 ∧
        (s.slc.rows.get 4).state = .awake ∧ (s.slc.rows.get 4).queue.length < 5 ∧ s.tp.waiting = []) ∧
    (∀ i, ∀ rd ∈ block.rm.slots.get i, rd.vehicle ≠ 305) ∧
    block.polling 4 ∧ (onRound .running .lifting .pending).polling 4 :=
  ⟨by decide +kernel, by decide +kernel, polling_of (retries := 0) (standing := true) rfl,
    polling_of (retries := 0) (standing := true) rfl⟩

/-- A round of the vehicle that is CLOSING already, and a ROUND_END that names another round. -/
theorem test_witness_RoundsAreEnded_closing :
    let s := onRound .closing .lifting .missed
    s.polling 4 ∧ s.hold = .running ∧ (s.slc.rows.get 4).state = .awake ∧
      s.rm.slots.get 0 = some (round4711 .closing .lifting .missed) ∧ (round4711 .closing .lifting .missed).vehicle = 305 ∧
      (round4711 .closing .lifting .missed).number = 4711 ∧ (4711 : Short) ≠ 4712 ∧
      (∀ j, ∀ other ∈ s.rm.slots.get j, other.vehicle = 305 → j = 0) :=
  ⟨polling_of (retries := 0) (standing := true) rfl, by decide +kernel⟩

theorem test_witness_HoldClearReleases :
    let s : State := { block with rm.service := block.rm.service.set 10 (.held .timedOut none) }
    s.serves ∧ (1010 : Number) ≠ 0 ∧ (1010 : Number) ≠ 0xFFFFFFFF ∧ containerOf s 1010 = some 10 ∧ (configOf s 10).isSome = true ∧
      serviceOf s 10 = .held .timedOut none ∧ (s.tp.line = none → s.tp.waiting = []) ∧ s.tp.occupancy + 1 < 120 := by
  simp only [serves_iff]; decide +kernel

/-- One byte and 32 bytes. -/
theorem test_witness_PassDownEntersTheQueue :
    block.serves ∧ (1010 : Number) ≠ 0 ∧ (1010 : Number) ≠ 0xFFFFFFFF ∧ containerOf block 1010 = some 10 ∧
      (configOf block 10).map (·.station) = some 4 ∧ ([0] : List Byte).length ≤ 32 ∧ (List.replicate 32 (0 : Byte)).length ≤ 32 ∧
      (block.slc.rows.get 4).state ∈ [StationState.awake, .dozing, .silent] ∧ (block.slc.rows.get 4).queue.length < 5 ∧
      (∀ q ∈ (block.slc.rows.get 4).queue, q.command.isPassDown = false) := by
  simp only [serves_iff]; decide +kernel

/-- A number that no row holds, a LOST station, a queue of five, and one that holds a PASS_DOWN. -/
theorem test_witness_PassDownEntersTheQueue_refused :
    let lost := withStation 4 .lost block
    let one : State := { block with slc.rows := block.slc.rows.update 4 fun r => { r with queue := [⟨1, .passDown 0 [1]⟩] } }
    (∀ s ∈ [block, lost, crowded 4 block, one], s.hold = .running ∧ s.rmi.restoring = false ∧ s.tp.occupancy < 128 ∧
      containerOf s 1010 = some 10 ∧ (configOf s 10).map (·.station) = some 4 ∧ containerOf s 99 = none) ∧
    (lost.slc.rows.get 4).state ∉ [StationState.awake, .dozing, .silent] ∧
    ((crowded 4 block).slc.rows.get 4).state = .awake ∧ ¬((crowded 4 block).slc.rows.get 4).queue.length < 5 ∧
    (one.slc.rows.get 4).state = .awake ∧ (one.slc.rows.get 4).queue.any (·.command.isPassDown) = true := by decide +kernel

theorem test_witness_QueriesAnswer :
    let s := onRound .running .lifting .pending
    State.reset.hold = .running ∧ State.reset.tp.occupancy < 128 ∧ s.serves ∧ (1010 : Number) ≠ 0 ∧ (1010 : Number) ≠ 0xFFFFFFFF ∧
      containerOf s 1010 = some 10 ∧ (configOf s 10).isSome = true ∧
      s.rm.slots.get 0 = some (round4711 .running .lifting .pending) ∧ (4711 : Short) ≠ 0 ∧ 47 ≤ 47 ∧
      (∀ j, ∀ other ∈ s.rm.slots.get j, other.number = 4711 → j = 0) ∧ 1 ≤ 16 ∧ 16 ≤ 16 := by
  simp only [serves_iff]; decide +kernel

/-- The refused queries at the ends of their ranges: a number and a round that nothing holds, address 63, account 4096, offset 48, 17
rows. -/
theorem test_witness_QueriesAnswer_refused :
    block.serves ∧ containerOf block 99 = none ∧ (99 : Number) ≠ 0 ∧ (99 : Number) ≠ 0xFFFFFFFF ∧ (62 < 63 ∧ 63 ≤ 255) ∧
      (4096 ≤ 4096 ∧ 4096 ≤ 65535) ∧ (47 < 48 ∧ 48 ≤ 255) ∧ (9 : Short) ≠ 0 ∧ 47 ≤ 47 ∧ (16 < 17 ∧ 17 ≤ 255) ∧
      (∀ i, ∀ rd ∈ block.rm.slots.get i, rd.number ≠ 9) := by
  simp only [serves_iff]; decide +kernel

/-- For ResetTrafficClears and ResetFullHoldsAndRestarts: traffic to clear, a part in RESTORING, and the REPLY of a FULL reset on the
line. -/
theorem test_witness_Resets :
    open10.serves ∧ (State.reset.hold = .running ∧ State.reset.tp.occupancy < 128 ∧ State.reset.rmi.restoring = true) ∧
      (let s := onRound .running .pending .missed
       s.serves ∧ s.rm.slots.get 0 = some (round4711 .running .pending .missed) ∧ s.rm.slots.get 3 = none ∧
         ∀ r, (serviceOf s r).name ≠ .serviceWait) ∧
      (let s := after (.resetFull 1 [] ⟨0, []⟩) open10
       s.hold = .trunkFull ∧ s.tp.line = some (.reply 0x15 1 .ok .none) ∧ s.tp.waiting = []) := by
  simp only [serves_iff]; decide +kernel

/-- A TRAFFIC reset with no deposit open, and with reports and REPLYs waiting. -/
theorem test_witness_ResetTrafficClears :
    let s : State := { block with tp := { block.tp with
      line := some (.reply 1 1 .ok .none), waiting := [.reply 2 2 .ok .none, .report 0 (.passUp ⟨4, none, [], [1], none⟩)] } }
    s.serves ∧ ∀ r, s.au.deposits.get r = none := by
  simp only [serves_iff]; decide +kernel

/-- RESTORING; a waiting write with a fetch run of 3 and with no fetch asked; an asked fetch behind a granted one, with a card write
to its bucket and a fetch run of 2; nothing to do. -/
theorem test_witness_PortArbiterGrants :
    let e : WriteEntry := { body := .cardDrop 9, reply := some ⟨0x0D, 1⟩, inProgress := false }
    let m (b : Bucket) (granted : Bool) : MissEntry := { bucket := b, waiting := [], wanted := [], granted := granted, stale := false }
    let s (queue : List WriteEntry) (run : Nat) (missList : List MissEntry) : State :=
      { ready with rmi := { ready.rmi with queue := queue, fetchRun := run }, clu.missList := missList }
    (State.reset.hold = .running ∧ State.reset.rmi.port = none ∧ State.reset.rmi.restoring = true) ∧
    (let t := s [e] 3 [m 9 false]
     t.hold = .running ∧ t.rmi.port = none ∧ t.rmi.restoring = false ∧ t.rmi.queue = e :: [] ∧ t.rmi.fetchRun = 3) ∧
    (let t := s [e] 0 []
     t.rmi.restoring = false ∧ t.rmi.queue = e :: [] ∧ ∀ m ∈ t.clu.missList, m.granted = true) ∧
    (let t := s [e] 2 [m 8 true, m 9 false]
     t.rmi.restoring = false ∧ t.rmi.fetchRun ≠ 3 ∧ t.clu.missList = [m 8 true] ++ m 9 false :: [] ∧
       (∀ x ∈ [m 8 true], x.granted = true) ∧ (m 9 false).granted = false ∧ (t.clu.missList.map (·.bucket)).Nodup) ∧
    (ready.rmi.restoring = false ∧ ready.rmi.queue = [] ∧ ∀ m ∈ ready.clu.missList, m.granted = true) := by decide +kernel

/-- A restore at a place, with an operation on the port and a memory. -/
def restoringAt (progress : RestoreProgress) (port : PortOp) (memory : Memory) : State :=
  { State.reset with rmi := { State.reset.rmi with progress := progress, port := some port }, memory := memory }

/-- The three attempts; a GOOD, a BAD, a FOREIGN and a BLANK header. -/
theorem test_witness_RestoreOpens :
    let h (bytes : List Byte) := restoringAt .header .header (Memory.writeBytes [] 0 bytes)
    let foreign : List Byte := 0x5A :: List.replicate 31 0
    (∀ n ∈ [0, 2], (restoringAt (.identify n) .identification []).hold = .running ∧
      (restoringAt (.identify n) .identification []).rmi.port = some .identification ∧
      (restoringAt (.identify n) .identification []).rmi.progress = .identify n) ∧
    ((0x01 : Byte) ≠ 0x00 ∧ (0x01 : Byte) ≠ 0xFF ∧ isIdentified none = false ∧ isIdentified (some [0x01, 0x20, 0x14]) = false) ∧
    ((h headerUnit).hold = .running ∧ (h headerUnit).rmi.port = some .header ∧ (h headerUnit).rmi.absent = false) ∧
    (let u := (h headerUnit).memory.readBytes 0 32
     unitSum u = 0x5A ∧ u.take 6 = [0x4E, 0x4C, 0x41, 0x42, 0x01, 0x2F]) ∧
    (let u := (h [0x00]).memory.readBytes 0 32
     unitSum u ≠ 0x5A ∧ ∃ b ∈ u, b ≠ 0xFF) ∧
    (let u := (h foreign).memory.readBytes 0 32
     unitSum u = 0x5A ∧ u.take 6 ≠ [0x4E, 0x4C, 0x41, 0x42, 0x01, 0x2F]) ∧
    (∀ b ∈ (h []).memory.readBytes 0 32, b = 0xFF) := by decide +kernel

/-- R14, R13 and R183: a restored serial makes its UNBOUND row ABSENT at once; a restored pin alone leaves it UNBOUND. -/
theorem test_restored_serial_binds :
    let s (serial : Option Serial) : State := after (.restoreRecordReadComplete .asHeld)
      (restoringAt (.records 213) .record (Memory.writeBytes [] (32 + 32 * 213) (recordUnit (.station 4) 1 (stationBytes serial true))))
    ((s (some 5)).slc.rows.get 4).state = .absent ∧ ((s (some 5)).slc.rows.get 4).serial = some 5 ∧
      ((s none).slc.rows.get 4).state = .unbound ∧ ((s none).slc.rows.get 4).pinned = true := by decide +kernel

/-- A good profile record at either end of the table, an erased record, a damaged one, and the last record. -/
theorem test_witness_RestoreRecords :
    let s (n : Nat) (bytes : List Byte) := restoringAt (.records n) .record (Memory.writeBytes [] (32 + 32 * n) bytes)
    let u (n : Nat) (bytes : List Byte) := (s n bytes).memory.readBytes (32 + 32 * n) 32
    let good (k : Fin 16) := recordUnit (.profile k) 1 (profileBytes cafeProfile)
    ((s 1 []).hold = .running ∧ (s 1 []).rmi.port = some .record ∧ (s 1 []).rmi.progress = .records 1 ∧ 1 < 302) ∧
    (u 1 (good 0) = good 0 ∧ u 16 (good 15) = good 15 ∧ profileValid cafeProfile = true) ∧
    ((targetAt 0).isSome = true ∧ (targetAt 301).isSome = true ∧ (∀ b ∈ u 0 [], b = 0xFF) ∧ (∀ b ∈ u 301 [], b = 0xFF)) ∧
    ((∃ b ∈ u 301 [0], b ≠ 0xFF) ∧ unitSum (u 301 [0]) ≠ 0x5A) ∧
    (∀ h ∈ [HeaderCondition.good, .bad], let t : State := { s 302 [] with rmi.header := some h }
      t.hold = .running ∧ t.rmi.port = some .record ∧ t.rmi.progress = .records 302 ∧ t.rmi.absent = false ∧
        t.rmi.header = some h) := by decide +kernel

/-- A record of each kind with good contents at its place, each refused range and each number, address and serial that a row already
holds, a clear present mark, and a wrong kind code and present mark. -/
theorem test_witness_RestoreRecords_kinds :
    let u (n : Nat) (bytes : List Byte) := (Memory.writeBytes [] (32 + 32 * n) bytes).readBytes (32 + 32 * n) 32
    let kept (n : Nat) (bytes : List Byte) : Bool := u n bytes == bytes
    let p : Params := { Params.default with summaryInterval := 0 }
    let c : ContainerConfig := { cafe with empty := 6000, full := 5800 }
    let w : Window := ⟨true, 0x7F, 1439, 1439, 255, 255⟩
    (kept 0 (recordUnit .parameter 1 (paramsBytes p)) = true ∧
      (∀ i ∈ ParamId.all, p.get i ≤ 65535 ∧ i.range.1 ≤ p.get i ∧ p.get i ≤ i.range.2) ∧
      ParamId.range .rejoinLimit = (1, 15) ∧ (p.enter [(.rejoinLimit, 16)]).get .rejoinLimit = 16) ∧
    (profileValid { cafeProfile with fu := 699 } = false) ∧
    (kept 17 (recordUnit (.container 0) 1 (containerBytes c)) = true ∧ kept 208 (recordUnit (.container 191) 1 (containerBytes c)) = true ∧
      c.number ≠ 0 ∧ c.number ≠ 0xFFFFFFFF ∧ 100 ≤ c.full ∧ c.empty ≤ 6000 ∧ c.full + 200 ≤ c.empty ∧
      (∀ q, configOf State.reset q = none) ∧ (configOf block 10).map (fun d => (d.number, d.station, d.bay)) = some (1010, 4, 0)) ∧
    (kept 17 (recordUnit (.container 0) 1 [0, 0, 0, 1, 63, 0, 0, 0, 0, 0, 0, 0, 0, 0]) = true ∧ 62 < (63 : Byte).toNat) ∧
    (kept 209 (recordUnit (.station 0) 1 (stationBytes (some 5) true)) = true ∧
      kept 270 (recordUnit (.station 61) 1 (stationBytes none false)) = true ∧
      (∀ b, (State.reset.slc.rows.get b).serial ≠ some 5) ∧ (block.slc.rows.get 4).serial = some 5) ∧
    (kept 271 (recordUnit (.window 0) 1 (windowBytes w)) = true ∧ kept 286 (recordUnit (.window 15) 1 (windowBytes { w with stop := 1440 })) = true ∧
      kept 287 (recordUnit (.cls 0) 1 [classByte ⟨true, true⟩]) = true ∧ kept 295 (recordUnit (.cost 0) 1 (bytesOf 1 255)) = true ∧
      kept 301 (recordUnit (.cost 6) 1 (bytesOf 1 0)) = true ∧ kept 302 (recordUnit (.cost 7) 1 (bytesOf 1 255)) = true) ∧
    (kept 301 (recordUnit (.cost 6) 0 [9]) = true ∧ targetAt 301 = some (.cost 6)) ∧
    (unitSum (u 0 (recordUnit (.profile 0) 1 [])) = 0x5A ∧ ((u 0 (recordUnit (.profile 0) 1 [])).getD 0 0).toNat ≠ (RecordTarget.parameter).kind.val + 1 ∧
      unitSum (u 0 (recordUnit .parameter 2 [])) = 0x5A ∧ 1 < ((u 0 (recordUnit .parameter 2 [])).getD 1 0).toNat) := by decide +kernel

/-- A fetch with a request waiting in it; and a request first in the slot-wait order with one place free. -/
theorem test_witness_MissListIsServed :
    let e : MissEntry := { bucket := 777, waiting := [⟨10, 777⟩], wanted := [777], granted := true, stale := false }
    let s : State := { block with
      rmi.port := some (.fetch 777 false), clu := { block.clu with missList := [e] }, au.requests := [request10] }
    let w : Waiter := ⟨10, 777⟩
    let u : State := { block with clu := { block.clu with slotWait := [w] }, au.requests := [{ request10 with phase := .waitMissSlot }] }
    (s.hold = .running ∧ s.rmi.port = some (.fetch 777 false) ∧ e ∈ s.clu.missList ∧ e.bucket = 777 ∧ e.granted = true ∧
      (s.clu.missList.map (·.bucket)).Nodup ∧ s.clu.slotWait = []) ∧
    (u.hold = .running ∧ u.clu.slotWait = w :: [] ∧ u.clu.missList.length < 8 ∧ cacheFind u.clu w.card = none) := by decide +kernel

/-- The request that waits in a fetch decided by a bucket that holds its card, and by a failed read. -/
theorem test_witness_MissListIsServed_decided :
    let e : MissEntry := { bucket := 777, waiting := [⟨10, 777⟩], wanted := [777], granted := true, stale := false }
    let s : State := { block with
      memory := Memory.writeBytes [] (slotAddress 777 3) (slotOf card777)
      rmi.port := some (.fetch 777 false), clu := { block.clu with missList := [e] }, au.requests := [request10] }
    (s.hold = .running ∧ s.rmi.port = some (.fetch 777 false) ∧ e ∈ s.clu.missList ∧ e.granted = true ∧
      (s.clu.missList.map (·.bucket)).Nodup ∧ s.clu.slotWait = [] ∧ e.waiting = [⟨10, 777⟩] ∧ e.wanted = [777] ∧
      request10 ∈ s.au.requests ∧ (∀ x ∈ s.au.requests, x.row = 10 → x = request10) ∧ (configOf s 10).isSome = true ∧
      (s.slc.rows.get 4).state = .awake ∧ (s.slc.rows.get 4).queue.length < 5 ∧ e.stale = false ∧
      cardIn (heldSlots s.memory 777) 777 = some card777 ∧ searchBucket (List.replicate 4 .bad) 777 = .memoryFault) ∧
    ready.cacheLaw := ⟨by decide +kernel, test_witness_CacheServesWhatWasRead.2.1⟩

/-- A full miss list whose oldest fetch fails, or ends stale, with a request of another bucket in the slot-wait order; and a
slot-waiting request whose card is in the cache. -/
theorem test_witness_MissListIsServed_places :
    let e (b : Bucket) (granted : Bool) : MissEntry := { bucket := b, waiting := [], wanted := [], granted := granted, stale := granted }
    let w : Waiter := ⟨10, 777⟩
    let waiting : State := { block with au.requests := [{ request10 with phase := .waitMissSlot }] }
    let s : State := { waiting with
      rmi.port := some (.fetch 1 false)
      clu := { block.clu with missList := e 1 true :: [2, 3, 4, 5, 6, 7, 8].map (e · false), slotWait := [w] } }
    let u : State := { waiting with clu := { paying.clu with slotWait := [w] } }
    (s.hold = .running ∧ s.rmi.port = some (.fetch 1 false) ∧ e 1 true ∈ s.clu.missList ∧ (e 1 true).stale = true ∧
      (s.clu.missList.map (·.bucket)).Nodup ∧ s.clu.missList.length ≤ 8 ∧ s.clu.slotWait = w :: [] ∧ (e 1 true).waiting = [] ∧
      cacheFind s.clu w.card = none) ∧
    (u.hold = .running ∧ u.clu.slotWait = [w] ∧ u.clu.missList.length < 8 ∧ cacheFind u.clu 777 = some 0 ∧
      u.clu.entries.get 0 = some card777 ∧ { request10 with phase := .waitMissSlot } ∈ u.au.requests ∧
      (∀ x ∈ u.au.requests, x.row = 10 → x = { request10 with phase := .waitMissSlot }) ∧ (configOf u 10).isSome = true ∧
      (u.slc.rows.get 4).state = .awake ∧ (u.slc.rows.get 4).queue.length < 5) := by decide +kernel

/-- A request decided while its station has no room, and while its row discards what is posted. -/
theorem test_witness_MissListIsServed_noRoom :
    let e : MissEntry := { bucket := 777, waiting := [⟨10, 777⟩], wanted := [777], granted := true, stale := false }
    let s : State := { paying with
      memory := Memory.writeBytes [] (slotAddress 777 0) (slotOf card777)
      rmi.port := some (.fetch 777 false), clu := { block.clu with missList := [e] }, au := { paying.au with requests := [request10] } }
    let lost : State := { s with slc.rows := s.slc.rows.update 4 fun r => { r with state := .lost } }
    ∀ t ∈ [crowded 4 s, lost], t.hold = .running ∧ t.rmi.port = some (.fetch 777 false) ∧ e ∈ t.clu.missList ∧
      (t.clu.missList.map (·.bucket)).Nodup ∧ t.clu.slotWait = [] ∧ request10 ∈ t.au.requests ∧
      (∀ x ∈ t.au.requests, x.row = 10 → x = request10) ∧ (configOf t 10).isSome = true ∧
      cardIn (heldSlots t.memory 777) 777 = some card777 ∧
      ((t.slc.rows.get 4).queue.length = 5 ∨ (t.slc.rows.get 4).state ∉ [StationState.awake, .dozing, .silent, .absent]) := by
  decide +kernel

/-- A write at the head of the queue and on the port. -/
def writing (body : WriteBody) (reply : Option ReplyTo) (memory : Memory) : State :=
  { ready with
    rmi := { ready.rmi with port := some .write, queue := [{ body := body, reply := reply, inProgress := true }] }, memory := memory }

/-- A card put and a card dropped; a memory with the card's slot taken and one without. -/
theorem test_witness_CardWriteCompletes :
    let s := writing (.cardPut card777) (some ⟨0x0C, 1⟩) []
    (s.hold = .running ∧ s.rmi.port = some .write ∧ s.rmi.queue = [⟨.cardPut card777, some ⟨0x0C, 1⟩, true⟩] ∧
      (WriteBody.cardPut card777).bucket = some 777 ∧ (WriteBody.cardDrop 777).bucket = some 777 ∧ s.rmi.remake = none) ∧
    Memory.wf [] = true ∧ (Memory.writeBytes [] (0x010000 + 64 * 777) (slotOf card777)).wf = true ∧
    (card777.number ≠ 0 ∧ card777.number ≠ 0xFFFFFFFF ∧ (∀ d ∈ card777.expiry, d ≤ 65535) ∧ (∀ d ∈ card777.start, d ≤ 65535)) := by
  decide +kernel

/-- Buckets that hold the card in the first and the last slot, in none with the first or only the last free of cards, and in none
with four other cards; and a card write on the port that has slots to write. -/
theorem test_witness_CardWriteCompletes_slots :
    let other : CardRecord := { card777 with number := 777 + 4096 }
    let m (slots : List CardRecord) : Memory := Memory.writeBytes [] (bucketAddress 777) (slots.flatMap slotOf)
    let held (slots : List CardRecord) := heldSlots (m slots) 777
    (∀ slots ∈ [[], [card777, other, other, card777], [other, other, other], [other, other, other, other]], (m slots).wf = true) ∧
    ((held [card777, other, other, card777])[0]? = some (.card card777) ∧ (held [card777, other, other, card777])[3]? = some (.card card777) ∧
      (held [card777, other, other, card777])[1]? = some (.card other)) ∧
    ((held [])[0]? = some .free ∧ (held [other, other, other])[2]? = some (.card other) ∧ (held [other, other, other])[3]? = some .free) ∧
    (held [other, other, other, other] = List.replicate 4 (.card other) ∧ other.number ≠ card777.number) ∧
    (cardWrites (.cardPut card777) (held [])).2 ≠ [] := by decide +kernel

/-- For RecordWriteCompletes and OwnWritesComplete: record, header and format writes on the port, and a remake that waits for a
place. -/
theorem test_witness_Writes :
    let record : WriteBody := .record (.cost 3) (recordUnit (.cost 3) 1 [2]) []
    (∀ body ∈ [record, .header, .format], (writing body none []).hold = .running ∧ (writing body none []).rmi.port = some .write ∧
      (writing body none []).rmi.remake = none ∧ (writing body none []).rmi.queue = [⟨body, none, true⟩] ∧
      (writing body none []).memory.wf = true) ∧
    (writing record (some ⟨0x0B, 1⟩) []).rmi.queue = [⟨record, some ⟨0x0B, 1⟩, true⟩] ∧
    (let s : State := { busy with rmi.remake := some { kind := .format, due := true } }
     s.hold = .running ∧ s.rmi.remake = some { kind := .format, due := true } ∧ s.rmi.queue.length < 8) := by decide +kernel

/-- An own write that fails with the queue full and with one place beside it; and one owed while the next entry, a card write or a
record write, leaves. -/
theorem test_witness_OwnWritesComplete_owed :
    let card : WriteEntry := { body := .cardDrop 5, reply := some ⟨0x0D, 1⟩, inProgress := true }
    let record : WriteEntry := { body := .record (.cost 3) (recordUnit (.cost 3) 1 [2]) [], reply := some ⟨0x0B, 1⟩, inProgress := true }
    let s (first : WriteEntry) (others : Nat) (remake : Option (Remake)) : State := { ready with rmi := { ready.rmi with
      port := some .write, queue := first :: List.replicate others { card with inProgress := false }, remake := remake } }
    (∀ kind ∈ [OwnWrite.header, .format], ∀ n ∈ [6, 7], let u := s ⟨kind.body, none, true⟩ n none
      u.hold = .running ∧ u.rmi.port = some .write ∧ u.rmi.remake = none ∧
        u.rmi.queue = ⟨kind.body, none, true⟩ :: List.replicate n { card with inProgress := false }) ∧
    (6 < 7 ∧ (List.replicate 7 { card with inProgress := false }).length = 7 ∧ (⟨302, []⟩ : Residue).completed < 303) ∧
    (∀ e ∈ [card, record], let u := s e 7 (some { kind := .format, due := false })
      u.hold = .running ∧ u.rmi.port = some .write ∧ u.rmi.queue = e :: List.replicate 7 { card with inProgress := false } ∧
        u.rmi.remake = some { kind := .format, due := false }) ∧
    card.body.bucket.isSome = true ∧ record.body = .record (.cost 3) (recordUnit (.cost 3) 1 [2]) [] := by decide +kernel

/-- Each read on the port in time to fail, the second identification and the first and last record among them; a fetch, discarded and
not; a card write, a record write and the part's own writes. -/
theorem test_witness_AccessTimeoutFails :
    ready.rmi.port = none ∧ (restoringAt (.identify 1) .identification []).rmi.port = some .identification ∧
      (restoringAt (.identify 1) .identification []).rmi.progress = .identify 1 ∧
      (restoringAt .header .header []).rmi.port = some .header ∧ (restoringAt (.records 301) .record []).rmi.port = some .record ∧
      (targetAt 0).isSome = true ∧ (targetAt 301).isSome = true ∧
      (let s : State := { ready with rmi.port := some (.fetch 777 true) }
       s.hold = .running ∧ s.rmi.port = some (.fetch 777 true)) ∧
      (let e : MissEntry := { bucket := 777, waiting := [⟨10, 777⟩], wanted := [777], granted := true, stale := false }
       let s : State := { block with rmi.port := some (.fetch 777 false), clu := { block.clu with missList := [e] } }
       s.hold = .running ∧ s.rmi.port = some (.fetch 777 false) ∧ e ∈ s.clu.missList ∧ (s.clu.missList.map (·.bucket)).Nodup) ∧
      (let s := writing (.cardPut card777) (some ⟨0x0C, 1⟩) []
       s.rmi.queue = ⟨.cardPut card777, some ⟨0x0C, 1⟩, true⟩ :: [] ∧ s.rmi.remake = none ∧
         (cardWrites (.cardPut card777) (heldSlots s.memory 777)).2 ≠ [] ∧
         (cardWrites (.cardDrop 777) (heldSlots s.memory 777)).2 = []) ∧
      (∀ kind ∈ [OwnWrite.header, .format], (writing kind.body none []).rmi.queue = [⟨kind.body, none, true⟩] ∧
        (writing kind.body none []).rmi.port = some .write) ∧
      (⟨0, [1]⟩ : Residue).completed = 0 := by decide +kernel

/-- The slot when the spacing is reached; one attention member; none, with a due row, with a ring row, and with neither. -/
theorem test_witness_ArbiterChoosesTheTurn :
    let idle : State := { ready with slc := { ready.slc with sinceOpen := 0 } }
    let calling : State := { idle with slc.rows := idle.slc.rows.set 8 { StationRow.cold with state := .awake, raised := true } }
    let dozing : State := { idle with slc.rows := idle.slc.rows.set 8 { StationRow.cold with state := .dozing, due := true } }
    let ring : State := { idle with slc.rows := idle.slc.rows.set 8 { StationRow.cold with state := .awake } }
    (∀ s ∈ [ready, idle, calling, dozing, ring], s.hold = .running ∧ s.rmi.restoring = false ∧ s.slc.turn = none) ∧
    8 ≤ ready.slc.sinceOpen ∧ idle.slc.sinceOpen < 8 ∧
    ((calling.slc.rows.get 8).member = true ∧ (∀ b, (calling.slc.rows.get b).member = true → b = 8) ∧
      calling.slc.streak < calling.tp.effective.streakLimit) ∧
    ((∀ b, (dozing.slc.rows.get b).member = false) ∧ (dozing.slc.rows.get 8).due = true ∧
      ∀ b, (dozing.slc.rows.get b).state = .dozing → b = 8) ∧
    ((∀ b, (ring.slc.rows.get b).member = false) ∧ (ring.slc.rows.get 8).state = .awake ∧
      ∀ b, (ring.slc.rows.get b).state = .unbound ∨ b = 8) ∧
    (∀ b, (idle.slc.rows.get b).member = false ∧ (idle.slc.rows.get b).state = .unbound) := by decide +kernel

/-- A poll with a retry and without, to an ABSENT row, to one below and one at the miss limit, and to a JOINING one. -/
theorem test_witness_PollsFailOrMiss :
    let s (state : StationState) (miss : Nat) : State :=
      let t := polled 4 (withStation 4 state block)
      { t with slc.rows := t.slc.rows.update 4 fun r => { r with miss := miss } }
    let p : Poll := { address := 4, load := .nothing, standing := true, retries := 0 }
    (∀ state ∈ [StationState.absent, .awake, .joining], (s state 2).hold = .running ∧ (s state 2).slc.turn = some (.poll p) ∧
      ((s state 2).slc.rows.get 4).state = state ∧ (s state 2).tp.occupancy < 120) ∧ p.retries = 0 ∧
    ((s .awake 2).slc.rows.get 4).miss + 1 < (s .awake 2).tp.effective.missLimit ∧
    (s .awake 3).tp.effective.missLimit ≤ ((s .awake 3).slc.rows.get 4).miss + 1 ∧
    ({ p with retries := 1 } : Poll).retries = 0 + 1 ∧ (∀ f, readUpward [0] = .frame f → f.item = .attention) := by
  refine ⟨by decide +kernel, rfl, by decide +kernel, by decide +kernel, rfl, ?_⟩
  intro f h
  have e : readUpward [0] = .garbled := by decide +kernel
  cases e.symm.trans h

/-- A miss at the limit with a deposit open at the station, its grant delivered and not, and with a request pending. -/
theorem test_witness_PollsFailOrMiss_lost :
    let p : Poll := { address := 4, load := .nothing, standing := true, retries := 0 }
    let s (delivered : Bool) : State := { open10 with
      slc.rows := open10.slc.rows.update 4 fun r => { r with miss := 3 }
      au := { open10.au with
        deposits := open10.au.deposits.set 10 (some { deposit777 with delivered := delivered })
        requests := [{ request10 with row := 11, bay := 1 }] } }
    ∀ delivered, (s delivered).hold = .running ∧ (s delivered).slc.turn = some (.poll p) ∧ p.retries = 0 ∧
      ((s delivered).slc.rows.get 4).state = .awake ∧
      (s delivered).tp.effective.missLimit ≤ ((s delivered).slc.rows.get 4).miss + 1 ∧ boundTo (s delivered) 4 = [10, 11] := by
  decide +kernel

/-- An open slot, a garbled reception, and the addresses about the ends of the range. -/
theorem test_witness_OpenSlotsEnd :
    let s : State := { block with slc := { block.slc with turn := some .openSlot } }
    s.hold = .running ∧ s.slc.turn = some .openSlot ∧ ([0] : List Byte) ≠ [] ∧ readUpward [0] = .garbled ∧
      isSilentFrame ([0x69, 63, 0, 7, 0] ++ crcBytes (loopCrc [63, 0, 7, 0])) = true ∧ (s.slc.rows.get 4).state = .awake ∧
      (s.slc.rows.get 61).state = .unbound ∧ (0 : Byte).toNat = 0 ∧ 62 < (63 : Byte).toNat := by decide +kernel

/-- A known serial in each kind of state, and one that no row holds with no row to bind. -/
theorem test_witness_JoinAnnounceIsTaken :
    let s (state : StationState) : State :=
      let t := withStation 4 state block
      { t with slc := { t.slc with turn := some .openSlot } }
    (∀ state ∈ [StationState.absent, .barred, .awake], (s state).hold = .running ∧ (s state).slc.turn = some .openSlot ∧
      ((s state).slc.rows.get 4).serial = some 5 ∧ (∀ b, ((s state).slc.rows.get b).serial = some 5 → b = 4) ∧
      ((s state).slc.rows.get 4).state = state) ∧
    ((∀ a, ((s .awake).slc.rows.get a).serial ≠ some 6) ∧
      (∀ a, ((s .awake).slc.rows.get a).serial.isSome = true ∨ boundTo (s .awake) a = []) ∧ (s .awake).tp.occupancy < 120) := by
  decide +kernel

/-- A row in JOINING; and an unknown serial with two rows that it could bind, the memory present with a place and absent. -/
theorem test_witness_JoinAnnounceIsTaken_bound :
    let joining := withStation 4 .joining block
    let bare (a : Station) (state : StationState) (s : State) : State :=
      { s with slc.rows := s.slc.rows.set a { StationRow.cold with state := state } }
    let s : State := { bare 5 .absent (bare 4 .lost (withContainer 12 5 0 block)) with slc.turn := some .openSlot }
    (({ joining with slc.turn := some .openSlot } : State).slc.turn = some .openSlot ∧ (joining.slc.rows.get 4).state = .joining ∧
      (joining.slc.rows.get 4).serial = some 5 ∧ ∀ b, (joining.slc.rows.get b).serial = some 5 → b = 4) ∧
    (∀ t ∈ [s, { s with rmi.absent := true }], t.hold = .running ∧ t.slc.turn = some .openSlot ∧
      (∀ b, (t.slc.rows.get b).serial ≠ some 6) ∧ (t.slc.rows.get 4).pinned = false ∧ (t.slc.rows.get 4).serial = none ∧
      (configOf t 10).map (·.station) = some 4 ∧ (t.slc.rows.get 4).state = .lost ∧ (t.slc.rows.get 5).state = .absent ∧
      ∀ b, b < (4 : Station) → (t.slc.rows.get b).state = .unbound) := by decide +kernel

/-- A known serial announced by a row in service with a deposit open at it. -/
theorem test_witness_JoinAnnounceIsTaken_settled :
    let s (state : StationState) : State := { open10 with slc := { open10.slc with
      rows := open10.slc.rows.update 4 fun r => { r with state := state }, turn := some .openSlot } }
    ∀ state ∈ [StationState.awake, .dozing, .silent], (s state).hold = .running ∧ (s state).slc.turn = some .openSlot ∧
      ((s state).slc.rows.get 4).serial = some 5 ∧ (∀ b, ((s state).slc.rows.get b).serial = some 5 → b = 4) ∧
      ((s state).slc.rows.get 4).state = state ∧ (s state).au.deposits.get 10 = some deposit777 := by decide +kernel

/-- A first join, a RETURN below the limit and one that reaches it. -/
theorem test_witness_JoinCompletes :
    let s (since : Bool) (rejoin : Nat) : State := { block with slc := { block.slc with
      rows := block.slc.rows.update 4 fun r =>
        { r with state := .joining, awakeSince := since, rejoin := rejoin, joinPrior := some .lost, joinCause := some .powerOn }
      turn := some (.poll { address := 4, load := .accept 5, standing := true, retries := 0 }) } }
    ∀ p ∈ [(false, 0), (true, 1), (true, 2)], (s p.1 p.2).hold = .running ∧
      (s p.1 p.2).slc.turn = some (.poll { address := 4, load := .accept 5, standing := true, retries := 0 }) ∧
      ((s p.1 p.2).slc.rows.get 4).state = .joining ∧ (s p.1 p.2).tp.occupancy < 120 := by decide +kernel

/-- For AnswerNothingTakesTheRow and DozeNoticeAndPassUp: a polled row in each state that answers NOTHING; the row is AWAKE for the
statements on handed-on answers. -/
theorem test_witness_Polling :
    (∀ state, (polled 4 (withStation 4 state block)).polling 4) ∧
    (∀ state ∈ [StationState.awake, .silent, .dozing, .absent], let s := polled 4 (withStation 4 state block)
      s.hold = .running ∧ (s.slc.rows.get 4).state = state ∧ s.tp.occupancy < 120 ∧ (s.slc.rows.get 4).queue.length < 5) ∧
    (0 : Byte).getLsbD 0 = false ∧ (1 : Byte).getLsbD 0 = true ∧ (List.replicate 32 (0 : Byte)).length ≤ 32 :=
  ⟨fun _ => polling_of (retries := 0) (standing := true) rfl, by decide +kernel, by decide +kernel, by decide +kernel, by decide +kernel⟩

/-- Items other than NOTHING from a SILENT, an ABSENT, a JOINING (first, and back at the rejoin limit), a DOZING and an UNBOUND row. -/
theorem test_witness_AnswerNothingTakesTheRow_items :
    let s (state : StationState) (rejoin : Nat) : State :=
      let t := polled 4 (withStation 4 state block)
      { t with slc.rows := t.slc.rows.update 4 fun r => { r with rejoin := rejoin, awakeSince := decide (rejoin ≠ 0) } }
    (∀ p ∈ [(StationState.silent, 0, StationState.awake), (.absent, 0, .awake), (.joining, 0, .awake), (.joining, 2, .barred)],
      ((s p.1 p.2.1).hold = .running ∧ ((s p.1 p.2.1).slc.rows.get 4).state = p.1) ∧
        ((after (.answerNothing 1) (s p.1 p.2.1)).slc.rows.get 4).state = p.2.2) ∧
    (∀ state ∈ [StationState.dozing, .unbound], ((s state 0).slc.rows.get 4).state = state) ∧
    (∀ state rejoin, (s state rejoin).polling 4) ∧
    (IsAnswer 1 (.depositRequest 1 0 777 7) ∧ IsAnswer 1 (.dozeNotice 1 60) ∧ IsAnswer 1 (.passUp 1 [0])) :=
  ⟨by decide +kernel, by decide +kernel, fun _ _ => polling_of (retries := 0) (standing := true) rfl,
    .depositRequest 0 777 7, .dozeNotice 60, .passUp [0] (by decide) (by decide)⟩

/-- A poll that carries the GRANT of an open deposit. -/
theorem test_witness_PollsCarryAndDeliver :
    let q : Queued := ⟨9, .grant 0 7⟩
    let s : State := { open10 with slc := { open10.slc with
      rows := open10.slc.rows.update 4 fun r => { r with queue := [q] }
      turn := some (.poll { address := 4, load := .command q, standing := true, retries := 0 }) } }
    s.hold = .running ∧ s.slc.turn = some (.poll { address := 4, load := .command q, standing := true, retries := 0 }) ∧
      (s.slc.rows.get 4).state = .awake ∧ (s.slc.rows.get 4).queue = q :: [] ∧ containerAt s 4 0 = some 10 ∧
      s.au.deposits.get 10 = some deposit777 ∧ deposit777.tag = 7 ∧
      (let joining : StationRow := { StationRow.cold with state := .joining, serial := some 5 }
       joining.state = .joining ∧ joining.serial = some 5) := by decide +kernel

/-- Items on polls that carried a GRANT whose tag is the open deposit's, one whose tag is not, one that no longer stands in the queue,
and a JOIN_ACCEPT. -/
theorem test_witness_PollsCarryAndDeliver_items :
    let q (tag : Byte) : Queued := ⟨9, .grant 0 tag⟩
    let s (load : PollLoad) (standing : Bool) (state : StationState) : State := { open10 with slc := { open10.slc with
      rows := open10.slc.rows.update 4 fun r => { r with state := state, queue := [q 7] }
      turn := some (.poll { address := 4, load := load, standing := standing, retries := 0 }) } }
    (∀ p ∈ [(PollLoad.command (q 7), true, StationState.awake), (.command (q 8), true, .silent), (.command (q 7), false, .absent),
        (.accept 5, true, .joining)],
      let t := s p.1 p.2.1 p.2.2
      t.hold = .running ∧ t.slc.turn = some (.poll { address := 4, load := p.1, standing := p.2.1, retries := 0 }) ∧
        (t.slc.rows.get 4).state = p.2.2 ∧ containerAt t 4 0 = some 10 ∧ t.au.deposits.get 10 = some deposit777) ∧
    deposit777.tag = 7 ∧ (7 : Byte) ≠ 8 ∧ IsAnswer 0 (.liftRequest 0 305 4711 1010) :=
  ⟨by decide +kernel, rfl, by decide, .liftRequest 305 4711 1010⟩

/-- A card in the cache that passes every check, one that is not in the cache, a request pending, and each container check. -/
theorem test_witness_DepositRequestIsJudged :
    (paying.polling 4 ∧ open10.polling 4) ∧
    (paying.hold = .running ∧ (paying.slc.rows.get 4).state = .awake ∧ (paying.slc.rows.get 4).queue.length < 5 ∧
      containerAt paying 4 0 = some 10 ∧ (configOf paying 10).map (·.enabled) = some true ∧ serviceOf paying 10 = .inUse ∧
      paying.au.requests = [] ∧ paying.au.deposits.get 10 = none ∧ (fillOf paying 10).fill = .low ∧
      (fillOf paying 10).i < (paying.ft.profiles.get 0).fu) ∧
    ((777 : Number) ≠ 0 ∧ (777 : Number) ≠ 0xFFFFFFFF ∧ paying.rmi.absent = false ∧ cacheFind paying.clu 777 = some 0 ∧
      paying.clu.entries.get 0 = some card777 ∧ card777.status = .active ∧ inMask card777.rights 0 = true ∧
      card777.expiry = none ∧ card777.start = none ∧ card777.home = none ∧ windowsEnforced paying = false ∧
      (let account := paying.au.accounts.get 9
       account.loaded = true ∧ account.blocked = false ∧ (paying.au.classes.get 0).exempt = false ∧
         -(account.limit : Int) ≤ account.balance - account.held - paying.au.costs.get 0)) ∧
    (cacheFind paying.clu 778 = none ∧ paying.clu.missList = []) ∧
    (16 ≤ ({ paying with au.requests := List.replicate 16 { request10 with row := 11 } } : State).au.requests.length) ∧
    (open10.au.deposits.get 10 = some deposit777) := by
  refine ⟨⟨polling_of (retries := 0) (standing := true) rfl, polling_of (retries := 0) (standing := true) rfl⟩, ?_⟩
  decide +kernel

/-- Cards and accounts on both sides of each check: the two numbers of no card, an absent memory, a LOST card, days on either side of
its dates, a mask without the fraction, another home, an account blocked, unknown with and without a provisional class, short of one
unit and exempt. -/
theorem test_witness_DepositRequestIsJudged_card :
    let put (card : CardRecord) (account : Account) (cls : CardClass) : State := { paying with
      tk.wall := ⟨true, 10, 0, 0⟩
      clu.entries := paying.clu.entries.set 0 (some card)
      au := { paying.au with accounts := paying.au.accounts.set 9 account, classes := paying.au.classes.set 0 cls } }
    let poor : Account := { loaded := true, blocked := false, balance := -10, held := 0, limit := 10, refill := 40, cap := 60 }
    (∀ p ∈ [({ card777 with status := .lost }, poor, ⟨false, false⟩), ({ card777 with expiry := some 9 }, poor, ⟨false, false⟩),
        ({ card777 with start := some 11 }, poor, ⟨false, false⟩), ({ card777 with rights := 0 }, poor, ⟨false, false⟩),
        ({ card777 with home := some 6 }, poor, ⟨false, false⟩), (card777, { poor with blocked := true }, ⟨false, false⟩),
        (card777, { poor with loaded := false }, ⟨false, false⟩), (card777, { poor with loaded := false }, ⟨false, true⟩),
        (card777, poor, ⟨false, false⟩), (card777, poor, ⟨true, false⟩)],
      let s := put p.1 p.2.1 p.2.2
      s.hold = .running ∧ (s.slc.rows.get 4).state = .awake ∧ containerAt s 4 0 = some 10 ∧ s.au.requests.length < 16 ∧
        s.rmi.absent = false ∧ cacheFind s.clu 777 = some 0 ∧ s.clu.entries.get 0 = some p.1 ∧ s.tp.occupancy < 120) ∧
    (poor.balance - poor.held - paying.au.costs.get 0 < -(poor.limit : Int)) ∧ inMask 0 0 = false ∧
    ((0 : Number) = 0 ∧ (0xFFFFFFFF : Number) ≠ 0) ∧ ({ paying with rmi.absent := true } : State).rmi.absent = true := by
  decide +kernel

/-- A bay with no container, and a station whose queue takes neither a GRANT nor a DENY. -/
theorem test_witness_DepositRequestIsJudged_noRoom :
    block.polling 4 ∧ containerAt block 4 2 = none ∧ (crowded 4 paying).polling 4 ∧
    (let s := crowded 4 paying
     s.hold = .running ∧ (s.slc.rows.get 4).state = .awake ∧ ¬(s.slc.rows.get 4).queue.length < 5 ∧ containerAt s 4 0 = some 10 ∧
       (configOf s 10).map (·.enabled) = some true ∧ serviceOf s 10 = .inUse ∧ s.au.requests = [] ∧ s.au.deposits.get 10 = none ∧
       cacheFind s.clu 777 = some 0 ∧ s.clu.entries.get 0 = some card777) :=
  ⟨polling_of (retries := 0) (standing := true) rfl, by decide +kernel, polling_of (retries := 0) (standing := true) rfl,
    by decide +kernel⟩

/-- A close of an open deposit, and one where none is open. -/
theorem test_witness_DepositCloseEndsTheDeposit :
    open10.polling 4 ∧ (open10.hold = .running ∧ (open10.slc.rows.get 4).state = .awake ∧ containerAt open10 4 0 = some 10 ∧
      (configOf open10 10).isSome = true ∧ open10.au.deposits.get 10 = some deposit777 ∧ deposit777.kind = .charged ∧
      (∀ r ∈ containerAt open10 4 1, open10.au.deposits.get r = none)) :=
  ⟨polling_of (retries := 0) (standing := true) rfl, by decide +kernel⟩

/-- A PROVISIONAL deposit, one at the close limit, and a waiting report of the account, container and outcome with 254 commits, behind
one with 255. -/
theorem test_witness_DepositCloseEndsTheDeposit_reports :
    let d : OpenDeposit := { deposit777 with kind := .provisional, cost := 0 }
    let late : State := { open10 with tk := { open10.tk with seconds := 120, told := { open10.tk.told with close := true } } }
    let old (count : Nat) : DepositReport :=
      { account := 9, number := 1010, row := 10, outcome := .committed, count := count, cost := 3, first := none, last := none }
    let s : State := { open10 with tp := { open10.tp with
      line := some (.reply 1 1 .ok .none), waiting := [.report 1 (.deposit (old 255)), .report 2 (.deposit (old 254))] } }
    (let u : State := { open10 with au.deposits := open10.au.deposits.set 10 (some d) }
     u.au.deposits.get 10 = some d ∧ d.kind ≠ .charged ∧ containerAt u 4 0 = some 10) ∧
    (late.hold = .running ∧ late.tk.told.close = true ∧ late.tp.effective.closeLimit ≤ elapsed late.tk.seconds deposit777.granted ∧
      ∀ q, q = (10 : Row) ∨ late.au.deposits.get q = none) ∧
    (s.tp.waiting = [.report 1 (.deposit (old 255))] ++ .report 2 (.deposit (old 254)) :: [] ∧ (old 254).count < 255 ∧
      ¬(old 255).count < 255 ∧ s.au.deposits.get 10 = some deposit777 ∧ open10.tp.waiting = [] ∧ open10.tp.occupancy < 120) := by
  decide +kernel

/-- A commit and a release of a container in SERVICE_WAIT, whose lifting step has a vehicle, and of one in use. -/
theorem test_witness_DepositCloseEndsTheDeposit_movesOn :
    let s : State := { onRound .running .lifting .pending with
      au := open10.au, rm := { (onRound .running .lifting .pending).rm with service := block.rm.service.set 10 (.serviceWait ⟨0, 0⟩ 4) } }
    (configOf s 10).map (·.number) = some 1010 ∧ s.au.deposits.get 10 = some deposit777 ∧ serviceOf s 10 = .serviceWait ⟨0, 0⟩ 4 ∧
      (stepAt s ⟨0, 0⟩).bind (·.vehicle) = some 305 ∧ (configOf open10 10).isSome = true ∧ serviceOf open10 10 = .inUse ∧
      stepAt open10 ⟨0, 0⟩ = none := by decide +kernel

/-- A plausible and an implausible echo, at 20 degrees; the lid open is an operand; a bay without a container. -/
theorem test_witness_LevelSampleIsTaken :
    block.polling 4 ∧ block.hold = .running ∧ (block.slc.rows.get 4).state = .awake ∧ containerAt block 4 2 = none ∧
      containerAt block 4 0 = some 10 ∧ (configOf block 10).map (·.empty) = some 2400 ∧ (serviceOf block 10).name ≠ .service ∧
      distanceOf 7924 20 = 1360 ∧ (100 ≤ 1360 ∧ 1360 ≤ 2400 + 150) ∧ (7924 ≠ 0 ∧ 7924 ≠ 65535) ∧
      (serviceOf ({ block with rm.service := block.rm.service.set 10 (.service ⟨0, 0⟩ 4 0) } : State) 10).name = .service := by
  refine ⟨polling_of (retries := 0) (standing := true) rfl, ?_⟩
  decide +kernel

/-- A sample that brings a container into OVERFLOW, with two RUNNING rounds that had a lift in its cluster, the later one taking it,
and with none. -/
theorem test_witness_LevelSampleIsTaken_overflow :
    let rd (number : Short) (lift : Clock) : Round :=
      { round4711 .running .done .done with number := number, lastLift := some (lift, 5), steps := [], allowance := 1 }
    let s : State := { block with
      tk.uptime := 100
      ft.profiles := block.ft.profiles.map fun p => { p with d := 1 }
      rm.slots := (block.rm.slots.set 0 (some (rd 1 40))).set 1 (some (rd 2 90)) }
    let t := after (.levelSample 0 0 2200 20 false) s
    (distanceOf 2200 20 = 377 ∧ 100 ≤ 377 ∧ (fillOf s 10).fill ≠ .overflow ∧ (fillOf t 10).fill = .overflow ∧
      (s.rm.slots.get 1 ≠ t.rm.slots.get 1) ∧ serviceOf s 10 = .inUse ∧ onActiveRound s 10 = false) ∧
    (s.rm.slots.get 1 = some (rd 2 90) ∧ (rd 2 90).state = .running ∧ 0 < (rd 2 90).allowance ∧ (rd 2 90).steps.length < 48 ∧
      (rd 2 90).lastLift = some (90, 5) ∧ (s.tk.uptime - 90).toNat < (s.tk.uptime - 40).toNat) ∧
    (∀ i, ∀ other ∈ block.rm.slots.get i, other.state ≠ .running) := by decide +kernel

/-- The closest legal lines, and the weights at the ends of their range with a level above, at and below the filtered level. -/
theorem test_witness_LevelAndFilter :
    (let c : ContainerConfig := { cafe with empty := 300, full := 100 }
     c.full + 200 ≤ c.empty ∧ c.empty ≤ 300 ∧ 299 < c.empty) ∧ Fill.cold.fresh = true ∧ cafeFill.fresh = false ∧
      (1 ≤ 8 ∧ 8 ≤ 8 ∧ 1 ≤ 1) ∧ cafeFill.lf < 1200 ∧ 0 < cafeFill.lf ∧ 330 = cafeFill.lf := by decide +kernel

/-- A denied container with a neighbour of its cluster that is a candidate, and one without. -/
theorem test_witness_RedirectIsChosen :
    (configOf block 10).map (·.cluster) = some 5 ∧
      (let c : ContainerConfig :=
        { number := 1011, station := 4, bay := 1, fraction := 0, cluster := 5, profile := 0, empty := 2400, full := 400, enabled := true }
       configOf block 11 = some c ∧ (11 : Row) ≠ 10 ∧ serviceOf block 11 = .inUse ∧
         (block.slc.rows.get 4).state ∈ [StationState.awake, .dozing, .silent] ∧ (fillOf block 11).fill ∈ [FillState.low, .nearFull] ∧
         (fillOf block 11).i < (block.ft.profiles.get 0).fu ∧ (fillOf block 11).health ≠ .fault ∧
         ∀ q, (configOf block q).isSome = true → q = 10 ∨ q = 11) := by decide +kernel

/-- A lift of a PENDING step with and without an open deposit, and none for another round. -/
theorem test_witness_LiftRequestIsJudged :
    let s := onRound .loaded .pending .pending
    let u : State := { s with au := open10.au }
    let rd := round4711 .loaded .pending .pending
    (s.polling 4 ∧ u.polling 4) ∧ (1010 : Number) ≠ 0xFFFFFFFF ∧
    (∀ t ∈ [s, u], t.hold = .running ∧ (t.slc.rows.get 4).state = .awake ∧ (t.slc.rows.get 4).queue.length < 5 ∧
      t.rm.slots.get 0 = some rd ∧ rd.state ≠ .closing ∧ rd.vehicle = 305 ∧ rd.number = 4711 ∧
      (∀ j, ∀ other ∈ t.rm.slots.get j, other.vehicle = 305 → j = 0) ∧ containerOf t 1010 = some 10 ∧
      (configOf t 10).map (·.station) = some 4 ∧ rd.steps[0]? = some (stepOf 10 .pending) ∧ (serviceOf t 10).name ≠ .held ∧
      (∀ q ∈ t.au.requests, q.row ≠ 10)) ∧
    (s.au.deposits.get 10 = none ∧ (u.au.deposits.get 10).isSome = true) ∧
    (∀ i, ∀ other ∈ s.rm.slots.get i, other.state = .closing ∨ other.vehicle ≠ 305 ∨ other.number ≠ 4712) := by
  refine ⟨⟨polling_of (retries := 0) (standing := true) rfl, polling_of (retries := 0) (standing := true) rfl⟩, ?_⟩
  decide +kernel

/-- A container that no row holds, a HELD one on the round, one LIFTING in SERVICE_WAIT and in SERVICE, one on another active round,
and one on none, with the round ad hoc and not, HELD and not. -/
theorem test_witness_LiftRequestIsJudged_other :
    let on (x : StepState) (service : Service) : State :=
      { onRound .running x .missed with rm.service := block.rm.service.set 10 service }
    let adHoc (steps : List Step) (service : Service) : State := { block with rm := { block.rm with
      slots := block.rm.slots.set 0 (some { round4711 .running .done .done with adHoc := true, steps := steps })
      service := block.rm.service.set 10 service } }
    let second : Round := { round4711 .running .pending .done with vehicle := 306, number := 4712 }
    let elsewhere : State := { adHoc [] .inUse with rm.slots := (adHoc [] .inUse).rm.slots.set 1 (some second) }
    (∀ s ∈ [on .pending (.held .timedOut none), on .lifting (.serviceWait ⟨0, 0⟩ 4), on .lifting (.service ⟨0, 0⟩ 4 0),
        on .done .inUse, on .done (.held .unlocked none), adHoc [] .inUse, elsewhere],
      s.hold = .running ∧ (s.slc.rows.get 4).state = .awake ∧ (s.slc.rows.get 4).queue.length < 4 ∧ s.au.requests = [] ∧
        ((s.rm.slots.get 0).map fun rd => (rd.state, rd.vehicle, rd.number)) = some (RoundState.running, 305, 4711) ∧
        (∀ j, ∀ other ∈ s.rm.slots.get j, other.vehicle = 305 → j = 0) ∧ containerOf s 99 = none ∧ containerOf s 1010 = some 10) ∧
    (onActiveRound elsewhere 10 = true ∧ onActiveRound (adHoc [] .inUse) 10 = false ∧ onActiveRound (on .done .inUse) 10 = false ∧
      (round4711 .running .done .missed).adHoc = false) ∧
    ((List.replicate 47 (stepOf 11 .missed)).length < 48 ∧ 48 ≤ (List.replicate 48 (stepOf 11 .missed)).length) := by decide +kernel

/-- A lift of a PENDING step whose container has a request pending. -/
theorem test_witness_LiftRequestIsJudged_pending :
    let s : State := { onRound .loaded .pending .pending with au.requests := [request10] }
    s.polling 4 ∧ s.hold = .running ∧ (s.slc.rows.get 4).state = .awake ∧ containerOf s 1010 = some 10 ∧
      (configOf s 10).map (·.cluster) = some 5 ∧ s.rm.slots.get 0 = some (round4711 .loaded .pending .pending) ∧
      (serviceOf s 10).name ≠ .held ∧ s.au.deposits.get 10 = none ∧ request10 ∈ s.au.requests ∧
      (∀ x ∈ s.au.requests, x.row = 10 → x = request10) :=
  ⟨polling_of (retries := 0) (standing := true) rfl, by decide +kernel⟩

/-- The last lift of a CLOSING round and one of a RUNNING round; a container that no row holds. -/
theorem test_witness_LiftDoneCompletes :
    (∀ state, ({ onRound state .lifting .pending with
      rm.service := (onRound state .lifting .pending).rm.service.set 10 (.service ⟨0, 0⟩ 4 0) } : State).polling 4) ∧
    (∀ state ∈ [RoundState.running, .closing],
      let s : State := { onRound state .lifting .missed with
        rm.service := (onRound state .lifting .missed).rm.service.set 10 (.service ⟨0, 0⟩ 4 0) }
      s.hold = .running ∧ (s.slc.rows.get 4).state = .awake ∧ (s.slc.rows.get 4).queue.length < 5 ∧ containerOf s 1010 = some 10 ∧
        (configOf s 10).isSome = true ∧ serviceOf s 10 = .service ⟨0, 0⟩ 4 0 ∧
        s.rm.slots.get 0 = some (round4711 state .lifting .missed) ∧
        (round4711 state .lifting .missed).steps[0]? = some (stepOf 10 .lifting) ∧ (stepOf 10 .lifting).vehicle = some 305 ∧
        containerOf s 99 = none ∧ s.tp.occupancy < 120) :=
  ⟨fun _ => polling_of (retries := 0) (standing := true) rfl, by decide +kernel⟩

/-- A HELD container with its timed-out step still on its round, and one without a step. -/
theorem test_witness_LiftDoneCompletes_late :
    ∀ held ∈ [none, some (⟨0, 0⟩ : StepRef)],
      let s : State := { onRound .running .missed .pending with
        rm.service := (onRound .running .missed .pending).rm.service.set 10 (.held .timedOut held) }
      s.hold = .running ∧ (s.slc.rows.get 4).state = .awake ∧ containerOf s 1010 = some 10 ∧ (configOf s 10).isSome = true ∧
        serviceOf s 10 = .held .timedOut held ∧ s.rm.slots.get 0 = some (round4711 .running .missed .pending) ∧
        (round4711 .running .missed .pending).steps[0]? = some (stepOf 10 .missed) ∧ s.tp.occupancy < 120 := by decide +kernel

/-- A LIFT_DONE for a container in SERVICE_WAIT and in SERVICE, by the vehicle of its lifting step (305) and by another (306), and for one
in use that vehicle 305 has completed and that 306 has not. -/
theorem test_witness_LiftDoneCompletes_answered :
    let on (x : StepState) (service : Service) : State :=
      { onRound .running x .pending with rm.service := block.rm.service.set 10 service }
    (∀ p ∈ [(StepState.lifting, Service.serviceWait ⟨0, 0⟩ 4), (.lifting, .service ⟨0, 0⟩ 4 0), (.done, .inUse)],
      let s := on p.1 p.2
      s.hold = .running ∧ (s.slc.rows.get 4).state = .awake ∧ containerOf s 1010 = some 10 ∧ (configOf s 10).isSome = true ∧
        serviceOf s 10 = p.2 ∧ s.rm.slots.get 0 = some (round4711 .running p.1 .pending) ∧
        (round4711 .running p.1 .pending).steps[0]? = some (stepOf 10 p.1) ∧
        (∀ j, ∀ other ∈ s.rm.slots.get j, other.vehicle = 305 ∧ j = 0)) ∧
    ((stepOf 10 .lifting).vehicle = some 305 ∧ (305 : Short) ≠ 306 ∧ stepOf 10 .done ∈ (round4711 .running .done .pending).steps ∧
      (stepOf 10 .done).state = .done) ∧
    ∀ x service, (on x service).polling 4 :=
  ⟨by decide +kernel, by decide +kernel, fun _ _ => polling_of (retries := 0) (standing := true) rfl⟩

/-- The block with a deposit open and a second event waiting. -/
def ticking : State := { open10 with pending := [.secondEvent] }

/-- A round with a lift under way; card 777 in the cache and in the record memory, with a write of another card and a record write waiting
and a fetch granted; a BARRED row beside one below the limit; and a second event waiting. -/
def lawful : State :=
  let s := onRound .running .lifting .pending
  { s with
    rm.service := s.rm.service.set 10 (.service ⟨0, 0⟩ 4 0)
    memory := Memory.writeBytes [] (slotAddress 777 2) (slotOf card777)
    clu := { paying.clu with missList := [{ bucket := 5, waiting := [], wanted := [5], granted := true, stale := false }] }
    rmi.queue := [{ body := .cardDrop 778, reply := none, inProgress := false },
      { body := .record .parameter (emptyRecord .parameter) [(.rejoinLimit, 15)], reply := none, inProgress := false }]
    slc.rows := (s.slc.rows.update 4 fun r => { r with rejoin := 2 }).set 5
      { StationRow.cold with serial := some 6, state := .barred, rejoin := 3 }
    pending := [.secondEvent] }

theorem lawful_steps (p : StepRef) (x : Step) (h : stepAt lawful p = some x) :
    (p = ⟨0, 0⟩ ∧ x = stepOf 10 .lifting) ∨ (p = ⟨0, 1⟩ ∧ x = stepOf 11 .pending) := by
  obtain ⟨slot, position⟩ := p
  have slots : ∀ i, lawful.rm.slots.get i = if i = 0 then some (round4711 .running .lifting .pending) else none := by decide +kernel
  simp only [stepAt, slots] at h
  by_cases i0 : slot = 0
  · subst i0
    match position with
    | 0 | 1 => simp_all [round4711]
    | n + 2 => simp [round4711] at h
  · simp [i0] at h

/-- For StepKeepsTheMemoryCanonical and StepKeepsTheUpstreamQueue, and for the lists of StepKeepsTheCacheAndLists: the laws of the
memory, the upstream queue, the counts and the lists hold of it, and its step gives a next state. -/
theorem test_witness_StepKeepsLaws :
    ticking.memoryWf ∧ ticking.upstreamLaw ∧ ticking.countsInRange ∧ ticking.listLaw ∧ ∃ t, step ticking = .next t := by
  refine ⟨rfl, ⟨by decide +kernel, rfl, by decide +kernel, by decide +kernel, by decide +kernel⟩, ?_, ?_, ⟨_, rfl⟩⟩
  · constructor <;> decide +kernel
  · constructor <;> decide +kernel

/-- Account 9 holds the 3 units of the open deposit, and no other account holds anything. -/
theorem test_witness_StepKeepsHeldAmounts : ticking.heldLaw := by
  have rows : ticking.au.deposits.rows.filterMap id = [deposit777] := by decide +kernel
  refine ⟨fun n => ?_, ?_, fun q h => absurd h (by simp [show ticking.au.requests = [] from rfl])⟩
  · have account : (ticking.au.accounts.get n).held = if n = 9 then 3 else 0 := by
      by_cases h : n = 9 <;>
        simp [h, ticking, open10, paying, block, polled, withStation, withContainer, ready, State.reset, AdmissionUnit.cold, Account.cold]
    rw [account, State.charges, rows]
    by_cases h : n = 9
    · subst h; decide
    · simp [h, deposit777, Ne.symm h]
  · have kinds : ∀ r, ∀ d ∈ ticking.au.deposits.get r, d.kind = .charged := by decide +kernel
    exact fun r d h k => absurd (kinds r d h) k

theorem test_witness_StepKeepsTheServiceQueue : ticking.serviceLaw := by
  have inUse : ∀ r, serviceOf ticking r = .inUse := by decide +kernel
  refine ⟨fun _ => ?_, fun r => by rw [inUse]; trivial, by decide +kernel⟩
  rw [queueLaw_iff]; decide +kernel

theorem test_witness_StepKeepsTheServiceQueue_rounds : lawful.serviceLaw ∧ lawful.roundsLaw := by
  have slots : ∀ i, lawful.rm.slots.get i = if i = 0 then some (round4711 .running .lifting .pending) else none := by decide +kernel
  have rows : ∀ r, r = 10 ∨ serviceOf lawful r = .inUse := by decide +kernel
  have ten : serviceOf lawful 10 = .service ⟨0, 0⟩ 4 0 := by decide +kernel
  refine ⟨⟨fun _ => ?_, fun r => ?_, by decide +kernel⟩, ⟨?_, ?_, ?_, ?_, ?_⟩⟩
  · rw [queueLaw_iff]; decide +kernel
  · rcases rows r with rfl | h
    · rw [ten]; exact ⟨stepOf 10 .lifting, by decide +kernel, rfl, rfl⟩
    · rw [h]; trivial
  · intro i j a b hi hj _
    rw [slots] at hi hj
    by_cases i0 : i = 0 <;> by_cases j0 : j = 0 <;> simp_all
  · intro i j a b hi hj _
    rw [slots] at hi hj
    by_cases i0 : i = 0 <;> by_cases j0 : j = 0 <;> simp_all
  · intro p q x y hp hq same _ _
    rcases lawful_steps p x hp with ⟨rfl, rfl⟩ | ⟨rfl, rfl⟩ <;> rcases lawful_steps q y hq with ⟨rfl, rfl⟩ | ⟨rfl, rfl⟩ <;>
      first | rfl | exact absurd same (by decide)
  · intro p x hp lifting
    rcases lawful_steps p x hp with ⟨rfl, rfl⟩ | ⟨rfl, rfl⟩
    · exact .inr ⟨4, 0, ten⟩
    · exact absurd lifting (by decide)
  · intro p x hp
    rcases lawful_steps p x hp with ⟨rfl, rfl⟩ | ⟨rfl, rfl⟩ <;> decide +kernel

theorem test_witness_StepKeepsTheCacheAndLists : ticking.cacheLaw :=
  ⟨test_witness_CacheServesWhatWasRead.1.single, test_witness_CacheServesWhatWasRead.1.listed,
    test_witness_CacheServesWhatWasRead.1.once⟩

theorem test_witness_StepKeepsTheCacheAndLists_cached :
    lawful.cachedLaw ∧ lawful.memoryWf ∧ lawful.hold = .running ∧ (∀ c rest, lawful.pending = c :: rest → keepsBuckets c) ∧
      keepsBuckets (.cardWriteComplete .asHeld .done) ∧ keepsBuckets (.bucketFetchComplete .failed) := by
  have entries : ∀ i, lawful.clu.entries.get i = if i = 0 then some card777 else none := by decide +kernel
  refine ⟨⟨fun i r h => ?_, by decide +kernel, fun m hm n hn => ?_, fun e he target contents values hb => ?_⟩,
    (by decide +kernel : lawful.memory.wf = true), rfl, fun c rest h => ?_, ⟨by simp, .inl rfl⟩, by simp [keepsBuckets]⟩
  · rw [entries] at h
    by_cases i0 : i = 0
    · rw [if_pos i0] at h
      cases h
      exact ⟨by decide +kernel, by decide +kernel⟩
    · simp [i0] at h
  · simp [lawful] at hm
    subst hm
    simp at hn
    subst hn
    decide
  · simp [lawful] at he
    rcases he with rfl | rfl
    · simp at hb
    · cases hb; decide +kernel
  · cases h; trivial

theorem test_witness_StepKeepsStationsSettled : ticking.settledLaw := by
  have live : ∀ r, ∀ c ∈ configOf ticking r, (ticking.slc.rows.get c.station).state.live = true := by decide +kernel
  have free : ∀ r, configOf ticking r = none → ticking.au.deposits.get r = none := by decide +kernel
  refine ⟨fun r c h l => ?_, fun r h => ⟨fun q hq => ?_, free r h⟩, fun h => absurd h (by decide +kernel), by decide +kernel⟩
  · simp [live r c h] at l
  · simp [show ticking.au.requests = [] from rfl] at hq

theorem test_witness_StepKeepsStationsSettled_rejoin : lawful.rejoinLaw ∧ lawful.serialLaw := by
  have serials : ∀ a, (lawful.slc.rows.get a).serial = if a = 4 then some 5 else if a = 5 then some 6 else none := by decide +kernel
  refine ⟨⟨by decide +kernel, by decide +kernel, by decide +kernel, fun e he target contents values hb => ?_,
    fun h => absurd h (by decide +kernel), by decide +kernel⟩, fun a b some_ same => ?_⟩
  · simp [lawful] at he
    rcases he with rfl | rfl
    · simp at hb
    · cases hb; decide
  · rw [serials] at some_ same
    rw [serials] at same
    by_cases a4 : a = 4 <;> by_cases b4 : b = 4 <;> by_cases a5 : a = 5 <;> by_cases b5 : b = 5 <;> simp_all

end Sys2Proof.Tests
end

