-- ==== Sys2Proof/Proofs/WallTime.lean ====
section
/-! Proofs about wall time (R3): where a second event takes it, one equation for each of the four ways it can advance, and what
these say together about the second of the week, the day number and the validity. -/

namespace Sys2Proof.Machine

/-! ### The ways a second event advances wall time -/

theorem WallTime.tick_of_invalid {w : WallTime} (invalid : w.valid = false) : w.tick = w := by
  simp [WallTime.tick, invalid]

/-- Within a minute. -/
theorem WallTime.tick_of_second_lt {w : WallTime} (valid : w.valid = true) (hs : w.second < 59) :
    w.tick = { w with second := w.second + 1 } := by
  simp [WallTime.tick, valid, hs]

/-- The end of a minute that does not end a day; such a minute cannot end the week, 10080 being a multiple of 1440. -/
theorem WallTime.tick_of_minute_end {w : WallTime} (valid : w.valid = true) (hm : w.minute ≤ 10079) (hs : w.second = 59)
    (inside : (w.minute + 1) % 1440 ≠ 0) : w.tick = { w with minute := w.minute + 1, second := 0 } := by
  have short_of_week : w.minute + 1 < 10080 := by omega
  simp [WallTime.tick, valid, hs, short_of_week, inside]

/-- At a day boundary the new minute-of-week is a multiple of 1440, also where the week wraps to 0. -/
theorem minute_wrap_mod_day {m : Nat} (boundary : (m + 1) % 1440 = 0) :
    (if m + 1 < 10080 then m + 1 else 0) % 1440 = 0 := by
  split
  · exact boundary
  · rfl

/-- The end of a day other than day 65535. -/
theorem WallTime.tick_of_day_end {w : WallTime} (valid : w.valid = true) (hs : w.second = 59)
    (boundary : (w.minute + 1) % 1440 = 0) (hd : w.day ≠ 65535) :
    w.tick = { w with day := w.day + 1, minute := if w.minute + 1 < 10080 then w.minute + 1 else 0, second := 0 } := by
  simp [WallTime.tick, valid, hs, minute_wrap_mod_day boundary, hd]

/-- The end of day 65535: INVALID, with the day number and the minute-of-week left as they were. -/
theorem WallTime.tick_of_last_day_end {w : WallTime} (valid : w.valid = true) (hs : w.second = 59)
    (boundary : (w.minute + 1) % 1440 = 0) (hd : w.day = 65535) : w.tick = { w with valid := false, second := 0 } := by
  simp [WallTime.tick, valid, hs, minute_wrap_mod_day boundary, hd]

/-! ### What they say together -/

theorem WallTime.tick_valid_eq_false_iff {w : WallTime} (valid : w.valid = true) (hm : w.minute ≤ 10079) (hs : w.second ≤ 59) :
    w.tick.valid = false ↔ w.day = 65535 ∧ w.second = 59 ∧ (w.minute + 1) % 1440 = 0 := by
  rcases Nat.lt_or_eq_of_le hs with within | atEnd
  · simp [tick_of_second_lt valid within, valid, within.ne]
  by_cases boundary : (w.minute + 1) % 1440 = 0
  · by_cases hd : w.day = 65535
    · simp [tick_of_last_day_end valid atEnd boundary hd, hd, atEnd, boundary]
    · simp [tick_of_day_end valid atEnd boundary hd, valid, hd]
  · simp [tick_of_minute_end valid hm atEnd boundary, valid, boundary]

theorem WallTime.tick_keeps_day_minute_of_becomes_invalid {w : WallTime} (valid : w.valid = true) (hm : w.minute ≤ 10079)
    (hs : w.second ≤ 59) (invalid : w.tick.valid = false) : w.tick.day = w.day ∧ w.tick.minute = w.minute := by
  obtain ⟨hd, atEnd, boundary⟩ := (tick_valid_eq_false_iff valid hm hs).mp invalid
  simp [tick_of_last_day_end valid atEnd boundary hd]

/-- The wall time `t` is the one a second after `w`, its fields in the ranges of R3: the second of the week is one further, modulo the
604800 seconds of a week, and the day number rises exactly when `t` is the first second of a day. -/
def WallTime.IsSecondAfter (w t : WallTime) : Prop :=
  t.day ≤ 65535 ∧ t.minute ≤ 10079 ∧ t.second ≤ 59 ∧
    t.minute * 60 + t.second = (w.minute * 60 + w.second + 1) % 604800 ∧
    t.day = w.day + (if t.second = 0 ∧ t.minute % 1440 = 0 then 1 else 0)

theorem WallTime.isSecondAfter_tick {w : WallTime} (valid : w.valid = true) (hd : w.day ≤ 65535) (hm : w.minute ≤ 10079)
    (hs : w.second ≤ 59) (stays : w.tick.valid = true) : w.IsSecondAfter w.tick := by
  rcases Nat.lt_or_eq_of_le hs with within | atEnd
  · rw [tick_of_second_lt valid within]
    simp only [IsSecondAfter, Nat.succ_ne_zero, false_and, if_false]
    omega
  by_cases boundary : (w.minute + 1) % 1440 = 0
  · have not_last : w.day ≠ 65535 := fun last =>
      absurd ((tick_valid_eq_false_iff valid hm hs).mpr ⟨last, atEnd, boundary⟩) (by simp [stays])
    rw [tick_of_day_end valid atEnd boundary not_last]
    simp only [IsSecondAfter, minute_wrap_mod_day boundary, and_self, if_true, and_true]
    split <;> omega
  · rw [tick_of_minute_end valid hm atEnd boundary]
    simp only [IsSecondAfter, boundary, and_false, if_false]
    omega

/-! ### The two derived values -/

theorem minuteOfDay_le (m : Nat) : minuteOfDay m ≤ 1439 :=
  Nat.le_of_lt_succ (Nat.mod_lt m (by decide))

theorem dayOfWeek_le {m : Nat} (hm : m ≤ 10079) : dayOfWeek m ≤ 6 :=
  Nat.div_le_div_right (c := 1440) hm

/-- Settles O6, by the four ways a second event can advance a VALID wall time. -/
theorem wallTimeAdvances : Obligations.WallTimeAdvances := by
  refine ⟨fun w => WallTime.tick_of_invalid, fun w valid hd hm hs => ⟨?_, ?_, ?_⟩, fun m hm => ?_⟩
  · exact WallTime.isSecondAfter_tick valid hd hm hs
  · exact WallTime.tick_valid_eq_false_iff valid hm hs
  · exact WallTime.tick_keeps_day_minute_of_becomes_invalid valid hm hs
  · exact ⟨rfl, minuteOfDay_le m, rfl, dayOfWeek_le hm⟩

end Sys2Proof.Machine
end

