-- ==== Sys2Proof/Proofs/Replies.lean ====
section
/-! Trunk commands that are answered at once (R190, R191): what the common checks come to, and the REPLY that takes the place reserved
for it. -/

namespace Sys2Proof.Machine

/-! ### The place reserved for a REPLY -/

theorem queueReply_reserved_eq_replied (kind tag : Byte) (status : Status) (detail : Detail) (s : State) :
    queueReply kind tag status detail s.reserved = s.replied kind tag status detail :=
  queueReply_reserved kind tag status detail s

theorem answer_reserved {kind : CommandKind} (plain : kind.configures = false) (tag : Byte) (status : Status) (s : State) :
    answer kind tag status s.reserved = s.replied kind.code tag status .none := by
  rw [answer, plain]
  exact queueReply_reserved_eq_replied kind.code tag status .none s

theorem setStation_reserved (a : Station) (f : StationRow → StationRow) (s : State) :
    setStation a f s.reserved = (setStation a f s).reserved := rfl

/-! ### The common checks -/

/-- A command that fits its kind and is not served while RESTORING, taken by a RESTORING part. -/
theorem takeCommand_notReady {α : Type} {kind : CommandKind} {tag : Byte} {a : α} {body : α → State → State} {s : State}
    (place : s.tp.occupancy < Config.upstreamPlaces) (restoring : s.rmi.restoring = true) :
    takeCommand kind tag (some a) false body s = refuse kind tag .notReady s.reserved := by
  simp [takeCommand, reserveReply, place, restoring]

/-- A command of any kind that fits it reaches its own rule in a part that serves. -/
theorem takeCommand_of_serves {α : Type} {kind : CommandKind} {tag : Byte} {a : α} {whileRestoring : Bool}
    {body : α → State → State} {s : State} (serves : s.serves) :
    takeCommand kind tag (some a) whileRestoring body s = body a s.reserved :=
  takeCommand_body serves.place (by simp [serves.ready])

/-! ### The address of a command -/

theorem station?_eq_none_iff {k : Nat} : station? k = none ↔ k = 0 ∨ 62 < k := by
  simp only [station?, dite_eq_right_iff, reduceCtorEq, imp_false]
  omega

theorem addressArgs_singleton (address : Byte) : addressArgs [address] = some (station? address.toNat) := by
  simp [addressArgs, fixed, fieldAt, slice, natOf]

theorem addressArgs_addressOf (a : Station) : addressArgs (bytesOf 1 (addressOf a)) = some (some a) := by
  have fits : addressOf a < 256 ^ 1 := by have := a.isLt; simp only [addressOf]; omega
  rw [addressArgs, fixed_eq_some (length_bytesOf 1 _), fieldAt, slice_whole (length_bytesOf 1 _), natOf_bytesOf 1 _ fits,
    station?_addressOf]

end Sys2Proof.Machine
end

