-- ==== Sys2Proof/Proofs/StationClear.lean ====
section
/-! Proofs about STATION_CLEAR (R24): what it does to the row, its three outcomes in a running part, and the RETURN
that follows. -/

namespace Sys2Proof.Machine

/-! ### The row -/

theorem StationRow.clearRejoin_eq (r : StationRow) :
    r.clearRejoin = { r with rejoin := 0, state := if r.state = .barred then .lost else r.state } := by
  cases h : r.state <;> simp [clearRejoin, h]

/-- A RETURN (R21): a row that has been AWAKE since reset joins from a state out of service. -/
theorem joinKindOf_eq_comeback_of_lost {r : StationRow} (since : r.awakeSince = true) (prior : r.joinPrior = some .lost) :
    joinKindOf r = .comeback := by
  simp [joinKindOf, since, prior]

/-- A RETURN is recorded and counted, whether the count then bars the row or not (R21). -/
theorem StationRow.completeJoin_of_comeback {r : StationRow} (kind : joinKindOf r = .comeback) (uptime : Clock) (limit : Nat) :
    (r.completeJoin uptime limit).lastJoin = some .comeback ∧ (r.completeJoin uptime limit).rejoin = r.rejoin + 1 := by
  by_cases bars : r.rejoin + 1 = limit
  · simp [completeJoin, kind, bars]
  · simp [completeJoin, kind, bars, wake']

/-! ### The command -/

theorem exec_stationClear {s : State} (running : s.hold = .running) (tag : Byte) (payload : List Byte) :
    exec (.stationClear tag payload) s = .next (stationClearCommand tag payload s) :=
  whenRunning_running running

theorem stationClear_notReady {s : State} (place : s.tp.occupancy < Config.upstreamPlaces) (restoring : s.rmi.restoring = true)
    (tag address : Byte) : stationClearCommand tag [address] s = s.replied 0x08 tag .notReady .none := by
  rw [stationClearCommand, addressArgs_singleton, takeCommand_notReady place restoring]
  exact answer_reserved rfl tag .notReady s

theorem stationClear_badField {s : State} (serves : s.serves) {address : Byte} (outside : address.toNat = 0 ∨ 62 < address.toNat)
    (tag : Byte) : stationClearCommand tag [address] s = s.replied 0x08 tag .badField .none := by
  rw [stationClearCommand, addressArgs_singleton, station?_eq_none_iff.mpr outside, takeCommand_of_serves serves]
  exact answer_reserved rfl tag .badField s

theorem stationClear_ok {s : State} (serves : s.serves) (tag : Byte) (a : Station) :
    stationClearCommand tag (bytesOf 1 (addressOf a)) s = (setStation a StationRow.clearRejoin s).replied 0x08 tag .ok .none := by
  rw [stationClearCommand, addressArgs_addressOf, takeCommand_of_serves serves]
  exact answer_reserved rfl tag .ok (setStation a StationRow.clearRejoin s)

/-- Settles O21, by the outcomes of the command and the RETURN of the row it has made LOST. -/
theorem stationClearClears : Obligations.StationClearClears := by
  refine ⟨fun tag address s running place restoring => ?_, fun tag address s serves outside => ?_, fun tag a s serves => ?_,
    fun r uptime limit _ cleared since prior => ?_⟩
  · rw [exec_stationClear running, stationClear_notReady place restoring]
  · rw [exec_stationClear serves.running, stationClear_badField serves outside]
  · refine ⟨setStation a StationRow.clearRejoin s, ?_, ?_⟩
    · rw [exec_stationClear serves.running, stationClear_ok serves]
    · rw [← StationRow.clearRejoin_eq, setStation, Table.update]
  · have counted := StationRow.completeJoin_of_comeback (joinKindOf_eq_comeback_of_lost since prior) uptime limit
    rwa [cleared] at counted

end Sys2Proof.Machine
end

