-- ==== Sys2Proof/Proofs/FillLevel.lean ====
section
/-! Proofs about the fill level: the level of a distance (R64), and the filter, whose step toward that level is a number of ‰ that
depends on the gap and the weight alone, up or down (R65). -/

namespace Sys2Proof.Machine

/-! ### The level of a distance -/

theorem levelOf_of_empty_le {c : ContainerConfig} {d : Nat} (below : c.empty ≤ d) : levelOf c d = 0 := if_pos below

theorem levelOf_of_lt_empty {c : ContainerConfig} {d : Nat} (above : d < c.empty) :
    levelOf c d = min 1200 ((c.empty - d) * 1000 / (c.empty - c.full)) := if_neg (Nat.not_le.mpr above)

theorem levelOf_le (c : ContainerConfig) (d : Nat) : levelOf c d ≤ 1200 := by
  rcases Nat.lt_or_ge d c.empty with above | below
  · rw [levelOf_of_lt_empty above]
    exact Nat.min_le_left _ _
  · simp [levelOf_of_empty_le below]

theorem levelOf_mul_le {c : ContainerConfig} {d : Nat} (above : d < c.empty) :
    levelOf c d * (c.empty - c.full) ≤ (c.empty - d) * 1000 := by
  rw [levelOf_of_lt_empty above]
  exact Nat.mul_le_of_le_div _ _ _ (Nat.min_le_right _ _)

/-- Short of the cap the quotient is the level, so one more would be too much. -/
theorem lt_levelOf_succ_mul {c : ContainerConfig} {d : Nat} (above : d < c.empty) (depth : c.full < c.empty)
    (uncapped : levelOf c d < 1200) : (c.empty - d) * 1000 < (levelOf c d + 1) * (c.empty - c.full) := by
  rw [levelOf_of_lt_empty above] at uncapped ⊢
  rw [← Nat.div_lt_iff_lt_mul (Nat.sub_pos_of_lt depth)]
  omega

/-! ### How far the filter moves -/

/-- The size of the filter's step over a gap that is not zero: the truncated share of the weight, and at least one. -/
def filterMove (gap k : Nat) : Nat := max 1 (gap * k / 8)

theorem filterMove_pos (gap k : Nat) : 0 < filterMove gap k := Nat.le_max_left 1 _

theorem filterMove_le {gap k : Nat} (apart : 0 < gap) (weight : k ≤ 8) : filterMove gap k ≤ gap :=
  Nat.max_le.mpr ⟨apart, Nat.div_le_of_le_mul (Nat.mul_comm 8 gap ▸ Nat.mul_le_mul_left gap weight)⟩

theorem filterMove_eight {gap : Nat} (apart : 0 < gap) : filterMove gap 8 = gap := by
  rw [filterMove, Nat.mul_div_cancel gap (by decide), Nat.max_eq_right apart]

theorem mul_lt_filterMove_succ (gap k : Nat) : gap * k < 8 * (filterMove gap k + 1) := by
  rw [filterMove]
  omega

theorem filterMove_truncated_or_forced (gap k : Nat) : 8 * filterMove gap k ≤ gap * k ∨ filterMove gap k = 1 := by
  rw [filterMove]
  omega

/-! ### The signed step -/

theorem filterStep_self (l k : Nat) : filterStep l l k = 0 := by simp [filterStep]

theorem filterStep_of_lt {l lf k : Nat} (rising : lf < l) : filterStep l lf k = filterMove (l - lf) k := by
  have quotient : (((l : Int) - lf) * k).tdiv 8 = ((l - lf) * k / 8 : Nat) := by
    rw [← Int.ofNat_sub rising.le]
    rfl
  rw [filterStep, quotient, filterMove]
  split <;> omega

theorem filterStep_of_gt {l lf k : Nat} (falling : l < lf) : filterStep l lf k = -(filterMove (lf - l) k : Int) := by
  have quotient : (((l : Int) - lf) * k).tdiv 8 = -((lf - l) * k / 8 : Nat) := by
    rw [← Int.neg_sub, ← Int.ofNat_sub falling.le, Int.neg_mul, Int.neg_tdiv]
    rfl
  rw [filterStep, quotient, filterMove]
  split <;> omega

/-! ### The filter -/

theorem Fill.filter_of_fresh {f : Fill} (fresh : f.fresh = true) (l k : Nat) :
    f.filter l k = { f with lf := l, fresh := false, drop := false } := if_pos fresh

/-- Outside a fresh start the filter changes the filtered level and the drop flag only. -/
theorem Fill.filter_frame {f : Fill} (later : f.fresh = false) (l k : Nat) :
    f.filter l k = { f with lf := (f.filter l k).lf, drop := (f.filter l k).drop } := by
  simp [Fill.filter, later]

theorem Fill.filter_lf {f : Fill} (later : f.fresh = false) (l k : Nat) :
    (f.filter l k).lf = ((f.lf : Int) + filterStep l f.lf k).toNat := by
  simp [Fill.filter, later]

theorem Fill.filter_lf_self {f : Fill} (later : f.fresh = false) (k : Nat) : (f.filter f.lf k).lf = f.lf := by
  simp [filter_lf later, filterStep_self]

theorem Fill.filter_lf_of_lt {f : Fill} {l : Nat} (later : f.fresh = false) (rising : f.lf < l) (k : Nat) :
    (f.filter l k).lf = f.lf + filterMove (l - f.lf) k := by
  rw [filter_lf later, filterStep_of_lt rising]
  omega

theorem Fill.filter_lf_of_gt {f : Fill} {l : Nat} (later : f.fresh = false) (falling : l < f.lf) (k : Nat) :
    (f.filter l k).lf = f.lf - filterMove (f.lf - l) k := by
  rw [filter_lf later, filterStep_of_gt falling]
  omega

/-- The weight 8 takes the new level whole. -/
theorem Fill.filter_lf_eight {f : Fill} (later : f.fresh = false) (l : Nat) : (f.filter l 8).lf = l := by
  rcases Nat.lt_trichotomy f.lf l with rising | rfl | falling
  · rw [filter_lf_of_lt later rising, filterMove_eight (Nat.sub_pos_of_lt rising)]
    omega
  · exact filter_lf_self later 8
  · rw [filter_lf_of_gt later falling, filterMove_eight (Nat.sub_pos_of_lt falling)]
    omega

/-- Toward a higher level the filter rises, by the truncated share or by one, and does not pass it. -/
theorem Fill.filter_rises {f : Fill} {l k : Nat} (later : f.fresh = false) (weight : k ≤ 8) (rising : f.lf < l) :
    f.lf < (f.filter l k).lf ∧ (f.filter l k).lf ≤ l ∧ (l - f.lf) * k < 8 * ((f.filter l k).lf - f.lf + 1) ∧
      (8 * ((f.filter l k).lf - f.lf) ≤ (l - f.lf) * k ∨ (f.filter l k).lf = f.lf + 1) := by
  have moves := filterMove_pos (l - f.lf) k
  have within := filterMove_le (Nat.sub_pos_of_lt rising) weight
  rw [filter_lf_of_lt later rising, Nat.add_sub_cancel_left]
  refine ⟨by omega, by omega, mul_lt_filterMove_succ _ _, ?_⟩
  exact (filterMove_truncated_or_forced _ _).imp_right (congrArg (f.lf + ·))

/-- Toward a lower level the filter falls, by the truncated share or by one, and does not pass it. -/
theorem Fill.filter_falls {f : Fill} {l k : Nat} (later : f.fresh = false) (weight : k ≤ 8) (falling : l < f.lf) :
    l ≤ (f.filter l k).lf ∧ (f.filter l k).lf < f.lf ∧ (f.lf - l) * k < 8 * (f.lf - (f.filter l k).lf + 1) ∧
      (8 * (f.lf - (f.filter l k).lf) ≤ (f.lf - l) * k ∨ (f.filter l k).lf + 1 = f.lf) := by
  have moves := filterMove_pos (f.lf - l) k
  have within := filterMove_le (Nat.sub_pos_of_lt falling) weight
  have moved : f.lf - (f.lf - filterMove (f.lf - l) k) = filterMove (f.lf - l) k := by omega
  rw [filter_lf_of_gt later falling, moved]
  refine ⟨by omega, by omega, mul_lt_filterMove_succ _ _, ?_⟩
  exact (filterMove_truncated_or_forced _ _).imp_right fun forced => by omega

/-- Settles O51: the level by the bounds of a truncated quotient, the filter by the direction in which it moves. -/
theorem levelAndFilter : Obligations.LevelAndFilter := by
  refine ⟨fun c d depth => ⟨levelOf_of_empty_le, fun above => ⟨levelOf_le c d, levelOf_mul_le above, ?_⟩⟩,
    fun l k f fresh => Fill.filter_of_fresh fresh l k, fun l k f later _ weight => ⟨Fill.filter_frame later l k, ?_, ?_,
      Fill.filter_rises later weight, Fill.filter_falls later weight⟩⟩
  · exact lt_levelOf_succ_mul above (by omega)
  · rintro rfl
    exact Fill.filter_lf_self later k
  · rintro rfl
    exact Fill.filter_lf_eight later l

end Sys2Proof.Machine
end

