-- ==== Sys2Proof/Proofs/Redirect.lean ====
section
/-! Proofs about the redirect (R99): what makes a row a candidate, and that the selection is the first row of lowest interim level among
the candidates in row index order. -/

namespace Sys2Proof.Machine

/-! ### The candidates -/

theorem StationState.live_iff (st : StationState) : st.live = true ↔ st ∈ [StationState.awake, .dozing, .silent] := by
  cases st <;> decide

theorem FillState.closed_eq_false_iff (f : FillState) : f.closed = false ↔ f ∈ [FillState.low, .nearFull] := by
  cases f <;> decide

theorem Service.name_eq_inUse_iff (v : Service) : v.name = .inUse ↔ v = .inUse := by
  cases v <;> simp [Service.name]

/-- The conditions of R99 on an occupied row and its container. -/
def RedirectCandidate (s : State) (denied : Row) (d : ContainerConfig) (cluster : Fin 64) (r : Row) (c : ContainerConfig) : Prop :=
  configOf s r = some c ∧ r ≠ denied ∧ c.cluster = cluster ∧ c.fraction = d.fraction ∧ c.enabled = true ∧
    serviceOf s r = .inUse ∧ (s.slc.rows.get c.station).state ∈ [StationState.awake, .dozing, .silent] ∧
    (fillOf s r).fill ∈ [FillState.low, .nearFull] ∧ (fillOf s r).i < (s.ft.profiles.get c.profile).fu ∧
    (fillOf s r).health ≠ .fault

section
variable {s : State} {denied r : Row} {d : ContainerConfig} {cluster : Fin 64}

theorem isCandidate_iff (known : configOf s denied = some d) :
    isCandidate s denied cluster r = true ↔ ∃ c, RedirectCandidate s denied d cluster r c := by
  cases occupied : configOf s r with
  | none => simp [isCandidate, RedirectCandidate, known, occupied]
  | some c =>
    simp [isCandidate, RedirectCandidate, known, occupied, StationState.live_iff, FillState.closed_eq_false_iff,
      Service.name_eq_inUse_iff, and_assoc]

/-! ### The selection -/

/-- The candidates in row index order. -/
def redirectCandidates (s : State) (denied : Row) (cluster : Fin 64) : List Row :=
  (List.finRange 192).filter (isCandidate s denied cluster)

theorem mem_redirectCandidates : r ∈ redirectCandidates s denied cluster ↔ isCandidate s denied cluster r = true := by
  simp [redirectCandidates]

theorem sortedLT_redirectCandidates (s : State) (denied : Row) (cluster : Fin 64) :
    (redirectCandidates s denied cluster).SortedLT :=
  ((List.sortedLT_finRange 192).pairwise.filter _).sortedLT

/-- A list in strictly rising order holds its members at rising positions. -/
theorem le_of_idxOf_le {l : List Row} (sorted : l.SortedLT) {q : Row} (hr : r ∈ l) (hq : q ∈ l) (before : l.idxOf r ≤ l.idxOf q) :
    r ≤ q := by
  have rising : l[l.idxOf r]'(List.idxOf_lt_length_of_mem hr) ≤ l[l.idxOf q]'(List.idxOf_lt_length_of_mem hq) :=
    sorted.strictMono_get.monotone (Fin.mk_le_mk.mpr before)
  simpa only [List.getElem_idxOf] using rising

theorem redirectRow_eq_argmin (s : State) (denied : Row) (cluster : Fin 64) :
    redirectRow s denied cluster = (redirectCandidates s denied cluster).argmin fun r => (fillOf s r).i := by
  have same : betterRedirect s = List.argAux fun b c => (fillOf s b).i < (fillOf s c).i := by
    funext best r
    cases best <;> rfl
  rw [redirectRow, same]
  rfl

theorem redirectRow_eq_none_iff : redirectRow s denied cluster = none ↔ ∀ r, ¬isCandidate s denied cluster r = true := by
  simp [redirectRow_eq_argmin, List.eq_nil_iff_forall_not_mem, mem_redirectCandidates]

/-- The selected row is a candidate, no candidate has a lower level, and none of its own level stands before it. -/
theorem redirectRow_spec (chosen : redirectRow s denied cluster = some r) :
    isCandidate s denied cluster r = true ∧ ∀ q, isCandidate s denied cluster q = true →
      (fillOf s r).i ≤ (fillOf s q).i ∧ ((fillOf s q).i ≤ (fillOf s r).i → r ≤ q) := by
  rw [redirectRow_eq_argmin, List.argmin_eq_some_iff] at chosen
  obtain ⟨member, lowest, first⟩ := chosen
  refine ⟨mem_redirectCandidates.mp member, fun q candidate => ?_⟩
  have other := mem_redirectCandidates.mpr candidate
  exact ⟨lowest q other, fun tie => le_of_idxOf_le (sortedLT_redirectCandidates s denied cluster) member other (first q other tie)⟩

/-- A candidate that comes before every other, by level and then by row index, is the row selected. -/
theorem redirectRow_eq_some (candidate : isCandidate s denied cluster r = true)
    (best : ∀ q, isCandidate s denied cluster q = true →
      (fillOf s r).i < (fillOf s q).i ∨ ((fillOf s r).i = (fillOf s q).i ∧ r ≤ q)) :
    redirectRow s denied cluster = some r := by
  cases chosen : redirectRow s denied cluster with
  | none => exact absurd candidate (redirectRow_eq_none_iff.mp chosen r)
  | some q =>
    obtain ⟨rival, least⟩ := redirectRow_spec chosen
    obtain ⟨lowest, first⟩ := least r candidate
    rcases best q rival with lower | ⟨tie, before⟩
    · exact absurd lowest (Nat.not_le.mpr lower)
    · rw [le_antisymm (first tie.le) before]

/-! ### The redirect of a DENY -/

/-- The selected row is occupied, so the redirect is none only where no row is selected. -/
theorem redirectFor_eq_none_iff (known : configOf s denied = some d) :
    redirectFor s denied cluster = none ↔ redirectRow s denied cluster = none := by
  cases chosen : redirectRow s denied cluster with
  | none => simp [redirectFor, chosen]
  | some r =>
    obtain ⟨candidate, -⟩ := redirectRow_spec chosen
    obtain ⟨c, occupied, -⟩ := (isCandidate_iff known).mp candidate
    simp [redirectFor, chosen, occupied]

theorem redirectFor_eq_some {c : ContainerConfig} (chosen : redirectRow s denied cluster = some r) (occupied : configOf s r = some c) :
    redirectFor s denied cluster = some { number := c.number, station := c.station, bay := c.bay } := by
  simp [redirectFor, chosen, occupied]

end

/-- Settles O52: the selection is the `argmin` of the interim level over the candidates in row index order. -/
theorem redirectIsChosen : Obligations.RedirectIsChosen := by
  intro s denied d cluster known candidate
  have candidate_iff (r : Row) : isCandidate s denied cluster r = true ↔ ∃ c, candidate r c := isCandidate_iff known
  refine ⟨?_, fun r c eligible best => ?_⟩
  · simp only [redirectFor_eq_none_iff known, redirectRow_eq_none_iff, candidate_iff, not_exists]
  · have chosen : redirectRow s denied cluster = some r :=
      redirectRow_eq_some ((candidate_iff r).mpr ⟨c, eligible⟩) fun q rival => by
        obtain ⟨e, fit⟩ := (candidate_iff q).mp rival
        exact best q e fit
    obtain ⟨occupied, -⟩ := eligible
    exact redirectFor_eq_some chosen occupied

end Sys2Proof.Machine
end

