-- ==== Sys2Proof/Proofs/Reset.lean ====
section
/-! Proofs about the step's dispatch, the reset state and a second event (chapter 1; R1, R12, R181). -/

namespace Sys2Proof.Machine

/-- Settles O1, by the two branches of `step`. -/
theorem stepRunsFront : Obligations.StepRunsFront :=
  ⟨fun _ _ _ front => by rw [step, front], fun _ none_waiting => by rw [step, none_waiting]⟩

/-- Settles O2: every table of the reset state is a replicated COLD row. -/
theorem resetValues : Obligations.ResetValues := by
  refine ⟨rfl, rfl, rfl, rfl, rfl, fun a => ?_, rfl, rfl, rfl, fun r => ?_, rfl, rfl, rfl, fun n => ?_, rfl, fun i => ?_, rfl, rfl,
    fun r => ?_, fun n => ?_, fun f => ?_, fun i => ?_, fun r => ?_, rfl, rfl, rfl, rfl, rfl, rfl, rfl, rfl, rfl⟩
  · simp [State.reset, StreetLoop.cold, StationRow.cold]
  · simp [State.reset, FillTracker.cold, ContainerRow.cold]
  · simp [State.reset, FillTracker.cold, Profile.default]
  · simp [State.reset, CardLookup.cold]
  · simp [State.reset, AdmissionUnit.cold]
  · simp [State.reset, AdmissionUnit.cold, Account.cold]
  · simp [State.reset, AdmissionUnit.cold]
  · simp [State.reset, RoundManager.cold]
  · simp [State.reset, RoundManager.cold]

/-- Settles O4: what is left of the device is `abandonPort`'s, everything else is `State.cold`'s. -/
theorem coldResetAndRelease : Obligations.ColdResetAndRelease := by
  refine ⟨fun cut s => ?_, fun straps s pinned => ?_⟩
  · show Host.Outcome.next (holdCold cut s) = _
    cases active : activeWrite s <;> simp [holdCold, abandonPort, active, State.cold, State.reset]
  · show Host.Outcome.next (releaseCold straps s) = _
    simp [releaseCold, pinned]

/-- Settles O5, by the return of the sub-minute count. -/
theorem secondEventAdvancesTheClocks : Obligations.SecondEventAdvancesTheClocks := by
  intro s running
  show whenRunning secondEvent s = _
  rw [whenRunning_running running]
  by_cases back : 59 ≤ s.tk.subMinute <;>
    simp [secondEvent, Told.second, atRefillMinute, back]

/-! ### The laws after reset -/

theorem reset_row (a : Station) : State.reset.slc.rows.get a = StationRow.cold := by simp [State.reset, StreetLoop.cold]

theorem reset_configOf (r : Row) : configOf State.reset r = none := by
  simp [configOf, State.reset, FillTracker.cold, ContainerRow.cold]

theorem reset_serviceOf (r : Row) : serviceOf State.reset r = .inUse := by simp [serviceOf, State.reset, RoundManager.cold]

theorem reset_stepAt (p : StepRef) : stepAt State.reset p = none := by simp [stepAt, State.reset, RoundManager.cold]

theorem reset_entry (i : Fin 32) : State.reset.clu.entries.get i = none := by simp [State.reset, CardLookup.cold]

theorem reset_deposit (r : Row) : State.reset.au.deposits.get r = none := by simp [State.reset, AdmissionUnit.cold]

theorem reset_idle (r : Row) : State.reset.idle r := ⟨by simp [State.reset, AdmissionUnit.cold], reset_deposit r⟩

theorem reset_heldLaw : State.reset.heldLaw where
  held n := by
    have none_open : State.reset.au.deposits.rows.filterMap id = [] :=
      List.filterMap_eq_nil_iff.mpr fun d hd => by
        obtain ⟨r, rfl⟩ := Table.mem_rows.mp hd
        exact reset_deposit r
    rw [State.charges, none_open]
    simp [State.reset, AdmissionUnit.cold, Account.cold]
  free r d h := by simp [reset_deposit] at h
  one q h := reset_deposit _

theorem reset_listLaw : State.reset.listLaw where
  down a := by simp [reset_row, StationRow.cold]
  passDown a := by simp [reset_row, StationRow.cold]
  requests := Nat.zero_le _
  single := List.nodup_nil
  missList := Nat.zero_le _
  buckets := List.nodup_nil
  full h := absurd rfl h
  apart w h := absurd h (List.not_mem_nil)

theorem reset_serviceLaw : State.reset.serviceLaw where
  queue h := absurd h (by decide)
  steps r := by rw [reset_serviceOf]; trivial
  restore h := absurd h (by decide)

theorem reset_roundsLaw : State.reset.roundsLaw where
  vehicle i j a b h := by simp [State.reset, RoundManager.cold] at h
  number i j a b h := by simp [State.reset, RoundManager.cold] at h
  single p q x y h := by simp [reset_stepAt] at h
  lifting p x h := by simp [reset_stepAt] at h
  occupied p x h := by simp [reset_stepAt] at h

theorem reset_rejoinLaw : State.reset.rejoinLaw where
  count a := by simp [reset_row, StationRow.cold]
  barred a := by rw [reset_row]; decide
  limit := by decide
  coming e h := absurd h (List.not_mem_nil)
  restore _ := ⟨rfl, fun a => by simp [reset_row, StationRow.cold]⟩
  port h := absurd h (by decide)

/-- Settles O3, law by law: at reset every list is empty, every table holds its COLD rows and the part is RESTORING. -/
theorem resetMeetsTheLaws : Obligations.ResetMeetsTheLaws := by
  refine ⟨rfl, ⟨fun _ => rfl, rfl, fun e h => absurd h (List.not_mem_nil), by decide, by decide⟩, reset_heldLaw, ?_, reset_serviceLaw, ?_,
    reset_listLaw, ?_, reset_roundsLaw, ?_, reset_rejoinLaw, ?_⟩
  · constructor <;> decide
  · exact ⟨fun i j a b h => by simp [reset_entry] at h, fun i => by rw [reset_entry]; simp [State.reset, CardLookup.cold], List.nodup_nil⟩
  · exact ⟨fun r _ _ _ => reset_idle r, fun r _ => reset_idle r, fun _ => ⟨rfl, reset_idle⟩, fun h => absurd h (by decide)⟩
  · exact ⟨fun i r h => by simp [reset_entry] at h, fun m h => absurd h (List.not_mem_nil), fun m h => absurd h (List.not_mem_nil),
      fun e h => absurd h (List.not_mem_nil)⟩
  · intro a b h
    simp [reset_row, StationRow.cold] at h

end Sys2Proof.Machine
end

