-- ==== Sys2Proof/Proofs/ServiceQueue.lean ====
section
/-! The service queue's law (R94 to R97): what membership and order depend on, and what re-evaluating one container or all of them
makes of the law. -/

namespace Sys2Proof.Machine

/-! ### The order -/

theorem queueBefore_iff {s : State} {a b : Row} : queueBefore s a b = true ↔
    (fillOf s a).ttf < (fillOf s b).ttf ∨ (fillOf s a).ttf = (fillOf s b).ttf ∧ a < b := by
  simp [queueBefore]

theorem queueBefore_trans {s : State} {a b c : Row} (ab : queueBefore s a b = true) (bc : queueBefore s b c = true) :
    queueBefore s a c = true := by
  rw [queueBefore_iff] at ab bc ⊢
  rcases ab with ab | ⟨ab, lt⟩ <;> rcases bc with bc | ⟨bc, lt'⟩
  · exact .inl (ab.trans bc)
  · exact .inl (bc ▸ ab)
  · exact .inl (ab ▸ bc)
  · exact .inr ⟨ab.trans bc, lt.trans lt'⟩

theorem queueBefore_of_not {s : State} {a b : Row} (ne : a ≠ b) (not : ¬queueBefore s a b = true) : queueBefore s b a = true := by
  rw [queueBefore_iff] at not ⊢
  rw [not_or, not_and, not_lt, not_lt] at not
  obtain ⟨le, later⟩ := not
  exact le.lt_or_eq.imp_right fun eq => ⟨eq, lt_of_le_of_ne (later eq.symm) ne.symm⟩

theorem queueBefore_congr {s t : State} {a b : Row} (ha : (fillOf t a).ttf = (fillOf s a).ttf)
    (hb : (fillOf t b).ttf = (fillOf s b).ttf) : queueBefore t a b = queueBefore s a b := by
  simp [queueBefore, ha, hb]

/-- A container inserted into a queue in order that does not hold it leaves the queue in order (R95). -/
theorem pairwise_queueInsert {s : State} {r : Row} : ∀ {q : List Row}, q.Pairwise (fun a b => queueBefore s a b = true) → r ∉ q →
    (queueInsert s r q).Pairwise fun a b => queueBefore s a b = true
  | [], _, _ => by simp [queueInsert]
  | x :: rest, sorted, absent => by
    obtain ⟨least, sorted'⟩ := List.pairwise_cons.mp sorted
    have ne : r ≠ x := fun e => absent (e ▸ List.mem_cons_self)
    unfold queueInsert
    split
    · rename_i first
      refine List.pairwise_cons.mpr ⟨fun b hb => ?_, sorted⟩
      rcases List.mem_cons.mp hb with rfl | hb
      · exact first
      · exact queueBefore_trans first (least b hb)
    · rename_i later
      refine List.pairwise_cons.mpr ⟨fun b hb => ?_, pairwise_queueInsert sorted' fun h => absent (List.mem_cons_of_mem _ h)⟩
      rcases (mem_queueInsert s r b rest).mp hb with rfl | hb
      · exact queueBefore_of_not ne later
      · exact least b hb

theorem pairwise_foldl_queueInsert {s : State} : ∀ {l q : List Row}, q.Pairwise (fun a b => queueBefore s a b = true) →
    l.Nodup → (∀ r ∈ l, r ∉ q) →
    (l.foldl (fun q r => queueInsert s r q) q).Pairwise fun a b => queueBefore s a b = true
  | [], _, sorted, _, _ => sorted
  | x :: rest, q, sorted, once, fresh => by
    obtain ⟨notIn, once'⟩ := List.nodup_cons.mp once
    refine pairwise_foldl_queueInsert (l := rest) (q := queueInsert s x q) (pairwise_queueInsert sorted (fresh x List.mem_cons_self)) once' fun r hr hq => ?_
    rcases (mem_queueInsert s x r q).mp hq with rfl | hq
    · exact notIn hr
    · exact fresh r (List.mem_cons_of_mem _ hr) hq

/-! ### Membership -/

theorem onActiveRound_congr {s t : State} (slots : t.rm.slots = s.rm.slots) (r : Row) : onActiveRound t r = onActiveRound s r := by
  simp [onActiveRound, slots]

/-- What decides whether a container qualifies (R94). -/
theorem qualifies_congr {s t : State} {r : Row} (config : configOf t r = configOf s r) (fill : (fillOf t r).fill = (fillOf s r).fill)
    (ttf : (fillOf t r).ttf = (fillOf s r).ttf) (active : onActiveRound t r = onActiveRound s r)
    (horizon : t.tp.effective.horizon = s.tp.effective.horizon) : qualifies t r = qualifies s r := by
  simp [qualifies, config, fill, ttf, active, horizon]

theorem qualifies_of_blocks {s t : State} (rows : t.ft.rows = s.ft.rows) (slots : t.rm.slots = s.rm.slots)
    (horizon : t.tp.effective.horizon = s.tp.effective.horizon) (r : Row) : qualifies t r = qualifies s r :=
  qualifies_congr (by simp [configOf, rows]) (by simp [fillOf, rows]) (by simp [fillOf, rows]) (onActiveRound_congr slots r) horizon

/-- The law depends on the container rows, the rounds, the horizon and the queue alone. -/
theorem State.queueLaw.of_blocks {s t : State} (law : s.queueLaw) (ft : t.ft.rows = s.ft.rows) (queue : t.ft.queue = s.ft.queue)
    (slots : t.rm.slots = s.rm.slots) (horizon : t.tp.effective.horizon = s.tp.effective.horizon) : t.queueLaw where
  exact r := by rw [queue, qualifies_of_blocks ft slots horizon r]; exact law.exact r
  sorted := by
    have same : queueBefore t = queueBefore s := by
      funext a b; exact queueBefore_congr (by simp [fillOf, ft]) (by simp [fillOf, ft])
    rw [queue, same]; exact law.sorted

/-- The place a container takes depends on the container rows alone. -/
theorem queueInsert_congr {s t : State} (rows : t.ft.rows = s.ft.rows) (r : Row) (q : List Row) :
    queueInsert t r q = queueInsert s r q := by
  have same : queueBefore t = queueBefore s := by
    funext a b; exact queueBefore_congr (by simp [fillOf, rows]) (by simp [fillOf, rows])
  induction q with
  | nil => rfl
  | cons x rest ih => simp only [queueInsert, same, ih]

/-! ### All containers re-evaluated (R96, R97) -/

theorem rebuildQueue_queue_congr {s t : State} (rows : t.ft.rows = s.ft.rows) (slots : t.rm.slots = s.rm.slots)
    (horizon : t.tp.effective.horizon = s.tp.effective.horizon) : (rebuildQueue t).ft.queue = (rebuildQueue s).ft.queue := by
  have same : qualifies t = qualifies s := funext (qualifies_of_blocks rows slots horizon)
  have place : (fun q r => queueInsert t r q) = fun q r => queueInsert s r q := by
    funext q r; exact queueInsert_congr rows r q
  simp only [rebuildQueue, same, place]

theorem queueLaw_rebuildQueue (s : State) : (rebuildQueue s).queueLaw where
  exact r := by
    rw [mem_rebuildQueue, qualifies_of_blocks (s := s) (t := rebuildQueue s) rfl rfl rfl r]
  sorted := pairwise_foldl_queueInsert (s := s) List.Pairwise.nil ((List.nodup_finRange 192).filter _) fun _ _ => List.not_mem_nil

/-! ### One container re-evaluated (R95) -/

theorem reevaluate_queue_congr {s t : State} (ft : t.ft = s.ft) (slots : t.rm.slots = s.rm.slots)
    (horizon : t.tp.effective.horizon = s.tp.effective.horizon) (r : Row) :
    (Machine.reevaluate r t).ft.queue = (Machine.reevaluate r s).ft.queue := by
  have rows : t.ft.rows = s.ft.rows := congrArg _ ft
  simp only [Machine.reevaluate, qualifies_of_blocks rows slots horizon, queueInsert_congr rows, ft]

/-- The law while some containers wait to be re-evaluated: `off` says whose membership is not settled, and `moved` whose place in the
order may be wrong. -/
structure State.queueLawBut (s : State) (off moved : Row → Prop) : Prop where
  exact : ∀ r, ¬off r → (r ∈ s.ft.queue ↔ qualifies s r = true)
  sorted : s.ft.queue.Pairwise fun a b => ¬moved a → ¬moved b → queueBefore s a b = true

theorem State.queueLaw.but {s : State} (law : s.queueLaw) (off moved : Row → Prop) : s.queueLawBut off moved :=
  ⟨fun r _ => law.exact r, law.sorted.imp fun h _ _ => h⟩

theorem State.queueLawBut.law {s : State} (law : s.queueLawBut (fun _ => False) fun _ => False) : s.queueLaw :=
  ⟨fun r => law.exact r id, law.sorted.imp fun h => h id id⟩

theorem State.queueLawBut.mono {s : State} {off off' moved moved' : Row → Prop} (law : s.queueLawBut off moved)
    (ho : ∀ r, off r → off' r) (hm : ∀ r, moved r → moved' r) : s.queueLawBut off' moved' :=
  ⟨fun r h => law.exact r fun k => h (ho r k), law.sorted.imp fun h ka kb => h (fun k => ka (hm _ k)) fun k => kb (hm _ k)⟩

/-- Rows outside `off` and `moved` unchanged, the law so far is kept. -/
theorem State.queueLawBut.of_rows {s t : State} {off moved : Row → Prop} (law : s.queueLawBut off moved)
    (queue : t.ft.queue = s.ft.queue) (same : ∀ r, ¬off r → qualifies t r = qualifies s r)
    (ttf : ∀ r, ¬moved r → (fillOf t r).ttf = (fillOf s r).ttf) : t.queueLawBut off moved where
  exact r h := by rw [queue, same r h]; exact law.exact r h
  sorted := by
    rw [queue]
    exact law.sorted.imp fun h ka kb => by rw [queueBefore_congr (ttf _ ka) (ttf _ kb)]; exact h ka kb

/-- Re-evaluating a container settles its membership, and its place if no other container's is in doubt. -/
theorem State.queueLawBut.reevaluate {s : State} {off moved : Row → Prop} {r : Row} (law : s.queueLawBut off moved)
    (only : ∀ x, moved x → x = r) : (reevaluate r s).queueLawBut (fun x => off x ∧ x ≠ r) fun _ => False where
  exact x h := by
    rw [mem_reevaluate, qualifies_of_blocks (s := s) (t := Machine.reevaluate r s) rfl rfl rfl x]
    by_cases hx : x = r
    · simp [hx]
    · simp only [hx, if_false]
      exact law.exact x fun k => h ⟨k, hx⟩
  sorted := by
    have others : (s.ft.queue.filter (· != r)).Pairwise fun a b => queueBefore s a b = true := by
      rw [List.pairwise_filter]
      refine law.sorted.imp fun h ha hb => h (fun k => ?_) fun k => ?_
      · simp [only _ k] at ha
      · simp [only _ k] at hb
    have sorted : (Machine.reevaluate r s).ft.queue.Pairwise fun a b => queueBefore s a b = true := by
      unfold Machine.reevaluate
      by_cases hq : qualifies s r = true
      · simp only [hq, if_true]
        exact pairwise_queueInsert others (by simp)
      · simp only [hq]
        exact others
    exact sorted.imp fun h _ _ => h

/-- A change of one container alone, followed by its re-evaluation, keeps the law (R95). -/
theorem State.queueLaw.reevaluate {s t : State} {r : Row} (law : s.queueLaw) (queue : t.ft.queue = s.ft.queue)
    (same : ∀ x, x ≠ r → qualifies t x = qualifies s x) (ttf : ∀ x, x ≠ r → (fillOf t x).ttf = (fillOf s x).ttf) :
    (reevaluate r t).queueLaw :=
  State.queueLawBut.law (((law.but (· = r) (· = r)).of_rows queue same ttf).reevaluate (fun _ h => h) |>.mono
    (fun _ h => h.2 h.1) fun _ h => h)

theorem reevaluateSteps_eq (steps : List Step) (s : State) :
    reevaluateSteps steps s = { s with ft := { s.ft with queue := (reevaluateSteps steps s).ft.queue } } := by
  induction steps generalizing s with
  | nil => rfl
  | cons st rest ih =>
    show reevaluateSteps rest (Machine.reevaluate st.row s) = _
    rw [ih]
    rfl

/-- Re-evaluating the containers of a list of steps settles the membership of each of them. -/
theorem State.queueLawBut.reevaluateSteps {off : Row → Prop} : ∀ {steps : List Step} {s : State},
    s.queueLawBut off (fun _ => False) →
    (reevaluateSteps steps s).queueLawBut (fun x => off x ∧ ∀ st ∈ steps, x ≠ st.row) fun _ => False
  | [], _, law => law.mono (fun _ h => ⟨h, by simp⟩) fun _ h => h
  | st :: rest, s, law => by
    have first := law.reevaluate (r := st.row) (fun _ h => h.elim)
    exact (State.queueLawBut.reevaluateSteps (steps := rest) first).mono
      (fun x h => ⟨h.1.1, by simpa using ⟨h.1.2, h.2⟩⟩) fun _ h => h

end Sys2Proof.Machine
end

