-- ==== Sys2Proof/Proofs/Fields.lean ====
section
/-! The fields of payloads and records, laid out as bytes and read back (11.1, 11.2, 11.4). -/

namespace Sys2Proof.Machine

/-! ### One field -/

theorem fieldAt_here {k n : Nat} (fits : n < 256 ^ k) (rest : List Byte) : fieldAt (bytesOf k n ++ rest) 0 k = n := by
  rw [fieldAt, slice_append_left (length_bytesOf k n), natOf_bytesOf k n fits]

theorem fieldAt_whole {k n : Nat} (fits : n < 256 ^ k) : fieldAt (bytesOf k n) 0 k = n := by
  rw [fieldAt, slice_whole (length_bytesOf k n), natOf_bytesOf k n fits]

theorem fieldAt_later {xs : List Byte} {i : Nat} (behind : xs.length ≤ i) (rest : List Byte) (k : Nat) :
    fieldAt (xs ++ rest) i k = fieldAt rest (i - xs.length) k := by rw [fieldAt, slice_append_right behind, fieldAt]

theorem fieldAt_cons (b : Byte) (rest : List Byte) (i k : Nat) : fieldAt (b :: rest) (i + 1) k = fieldAt rest i k := rfl

theorem byteAt_later {xs : List Byte} {i : Nat} (behind : xs.length ≤ i) (rest : List Byte) :
    byteAt (xs ++ rest) i = byteAt rest (i - xs.length) := by
  simp [byteAt, List.getElem?_append_right behind]

theorem byteAt_zero (b : Byte) (rest : List Byte) : byteAt (b :: rest) 0 = b := rfl

theorem byteAt_succ (b : Byte) (rest : List Byte) (i : Nat) : byteAt (b :: rest) (i + 1) = byteAt rest i := rfl

theorem numberAt_here (n : Number) (rest : List Byte) : numberAt (bytesOf 4 n.toNat ++ rest) 0 = n := by
  rw [numberAt, fieldAt_here n.isLt, BitVec.ofNat_toNat, BitVec.setWidth_eq]

theorem numberAt_whole (n : Number) : numberAt (bytesOf 4 n.toNat) 0 = n := by
  rw [numberAt, fieldAt_whole n.isLt, BitVec.ofNat_toNat, BitVec.setWidth_eq]

theorem numberArgs_bytesOf (n : Number) : numberArgs (bytesOf 4 n.toNat) = some n := by
  rw [numberArgs, fixed_eq_some (length_bytesOf 4 _), numberAt_whole]

theorem drop_bytesOf (k n : Nat) (rest : List Byte) : (bytesOf k n ++ rest).drop k = rest :=
  List.drop_left' (length_bytesOf k n)

theorem validNumber_iff {n : Number} : validNumber n = true ↔ n ≠ 0 ∧ n ≠ 0xFFFFFFFF := by simp [validNumber]

theorem validNumber_eq_false_iff {n : Number} : validNumber n = false ↔ n = 0 ∨ n = 0xFFFFFFFF := by
  rw [← Bool.not_eq_true, validNumber_iff]; tauto

theorem addressOf_fits (a : Station) : addressOf a < 256 ^ 1 := by have := a.isLt; simp only [addressOf]; omega

theorem fin_fits {n k : Nat} (i : Fin n) (small : n ≤ 256 ^ k) : i.val < 256 ^ k := i.isLt.trans_le small

/-! ### The fields of a kind -/

theorem windowFields_windowBytes {w : Window} (start : w.start ≤ 1439) (stop : w.stop ≤ 1439) : windowFields (windowBytes w) = w := by
  have fits {m : Nat} (h : m ≤ 1439) : m < 256 ^ 2 := by omega
  simp [windowFields, windowBytes, byteAt_zero, byteAt_succ, fieldAt_cons, fieldAt_here (fits start), fieldAt_later,
    fieldAt_here (fits stop), byteAt_later]

theorem classFields_classByte (c : CardClass) : classFields (classByte c) = c := by
  obtain ⟨exempt, provisional⟩ := c
  cases exempt <;> cases provisional <;> rfl

theorem profileFields_profileBytes {p : Profile} (valid : profileValid p = true) : profileFields (profileBytes p) = p := by
  simp only [profileValid, Bool.and_eq_true, decide_eq_true_eq] at valid
  obtain ⟨⟨⟨debounce, weight⟩, increment⟩, low, near, full, top⟩ := valid
  have two {m : Nat} (h : m ≤ 1200) : m < 256 ^ 2 := by omega
  have one {m : Nat} (h : m ≤ 50) : m < 256 ^ 1 := by omega
  simp [profileFields, profileBytes, fieldAt_later, fieldAt_here (two (by omega : p.n ≤ 1200)),
    fieldAt_here (two (by omega : p.fu ≤ 1200)), fieldAt_here (two (by omega : p.o ≤ 1200)), fieldAt_here (two (by omega : p.h ≤ 1200)),
    fieldAt_here (one (by omega : p.d ≤ 50)), fieldAt_here (one (by omega : p.k ≤ 50)), fieldAt_whole (one increment)]

/-- A legal container's fields (R81 case 2). -/
structure ContainerConfig.Legal (c : ContainerConfig) : Prop where
  number : validNumber c.number = true
  full : 100 ≤ c.full
  empty : c.empty ≤ 6000
  span : c.full + 200 ≤ c.empty

theorem length_containerBytes (c : ContainerConfig) : (containerBytes c).length = 14 := by simp [containerBytes]

theorem containerFields_containerBytes {c : ContainerConfig} (legal : c.Legal) : containerFields (containerBytes c) = some c := by
  have two {m : Nat} (h : m ≤ 6000) : m < 256 ^ 2 := by omega
  have wide : c.full ≤ 6000 := by have := legal.empty; have := legal.span; omega
  simp [containerFields, containerBytes, fieldAt_later, byteAt_later, byteAt_zero, numberAt_here, fieldAt_here (addressOf_fits c.station),
    fieldAt_here (fin_fits (k := 1) c.bay (by decide)), fieldAt_here (fin_fits (k := 1) c.fraction (by decide)),
    fieldAt_here (fin_fits (k := 1) c.cluster (by decide)), fieldAt_here (fin_fits (k := 1) c.profile (by decide)),
    fieldAt_here (two legal.empty), fieldAt_here (two wide), station?_addressOf, index?_val, legal.number, legal.full, legal.empty,
    legal.span]

theorem length_stationBytes (serial : Option Serial) (pinned : Bool) : (stationBytes serial pinned).length = 8 := by simp [stationBytes]

theorem stationFields_stationBytes (serial : Option Serial) (pinned : Bool) :
    stationFields (stationBytes serial pinned) = (serial, pinned) := by
  have fits : (serial.getD 0).toNat < 256 ^ 6 := (serial.getD 0).isLt
  cases serial with
  | none => simp [stationFields, stationBytes, byteAt_zero, byteAt_succ, byteAt_later]
  | some n =>
    have fits : n.toNat < 256 ^ 6 := n.isLt
    simp [stationFields, stationBytes, byteAt_zero, byteAt_succ, byteAt_later, fieldAt_cons, fieldAt_here fits]

/-- A card slot's 15 bytes before its check byte (11.4). -/
theorem take_slotOf (r : CardRecord) : slotOf r = withCheck ((slotOf r).take 15) := by
  have whole (bytes : List Byte) (h : bytes.length = 15) : (withCheck bytes).take 15 = bytes := by
    rw [withCheck, List.take_left' h]
  unfold slotOf
  rw [whole _ (by simp)]

theorem cardFields_slotOf {r : CardRecord} (valid : validNumber r.number = true) (expiry : ∀ d ∈ r.expiry, d ≤ 65535)
    (start : ∀ d ∈ r.start, d ≤ 65535) (rest : List Byte) : cardFields ((slotOf r).take 15 ++ rest) = some r := by
  obtain ⟨number, status, account, cls, rights, expiry?, start?, home⟩ := r
  have fits {m : Nat} (h : m ≤ 65535) : m < 256 ^ 2 := by omega
  have account_fits : account.val < 256 ^ 2 := fin_fits (k := 2) account (by decide)
  have cls_fits : cls.val < 256 ^ 1 := fin_fits (k := 1) cls (by decide)
  have whole (bytes : List Byte) (h : bytes.length = 15) : (withCheck bytes).take 15 = bytes := by
    rw [withCheck, List.take_left' h]
  have expiry_fits : expiry?.getD 0 < 256 ^ 2 := by
    cases expiry? with
    | none => decide
    | some d => exact fits (expiry d rfl)
  have start_fits : start?.getD 0 < 256 ^ 2 := by
    cases start? with
    | none => decide
    | some d => exact fits (start d rfl)
  have home_fits : (home.map Fin.val).getD 0 < 256 ^ 1 := by
    cases home with
    | none => decide
    | some c => exact fin_fits (k := 1) c (by decide)
  have presence (e s h : Bool) : (flagByte e ||| flagByte s <<< 1 ||| flagByte h <<< 2).getLsbD 0 = e ∧
      (flagByte e ||| flagByte s <<< 1 ||| flagByte h <<< 2).getLsbD 1 = s ∧
      (flagByte e ||| flagByte s <<< 1 ||| flagByte h <<< 2).getLsbD 2 = h := by
    cases e <;> cases s <;> cases h <;> decide
  obtain ⟨has_expiry, has_start, has_home⟩ := presence expiry?.isSome start?.isSome home.isSome
  rw [slotOf, whole _ (by simp)]
  simp only [cardFields, List.append_assoc, List.cons_append, List.nil_append, byteAt_later, fieldAt_later, length_bytesOf, byteAt_zero,
    byteAt_succ, fieldAt_cons, fieldAt_here account_fits, fieldAt_here cls_fits, fieldAt_here expiry_fits, fieldAt_here start_fits,
    fieldAt_here home_fits, numberAt_here, has_expiry, has_start, has_home, index?_val, Nat.reduceLeDiff, Nat.reduceSub, le_refl]
  simp only [Number, BitVec.ofNat_eq_ofNat, valid, if_true]
  cases status <;> cases home <;> cases expiry? <;> cases start? <;> simp [cardStatus?, index?_val]

theorem intOf_bytesOfInt {n : Int} (low : -32768 ≤ n) (high : n ≤ 32767) : intOf (bytesOfInt 2 n) = n := by
  have fits : (BitVec.ofInt 16 n).toNat < 256 ^ 2 := (BitVec.ofInt 16 n).isLt
  have size : (bytesOfInt 2 n).length = 2 := length_bytesOf 2 _
  have back : natOf (bytesOfInt 2 n) = (BitVec.ofInt 16 n).toNat := natOf_bytesOf 2 _ fits
  unfold intOf
  rw [size, back]
  show (BitVec.ofNat 16 (BitVec.ofInt 16 n).toNat).toInt = n
  rw [BitVec.ofNat_toNat, BitVec.setWidth_eq, BitVec.toInt_ofInt]
  simp only [Int.bmod]
  omega

end Sys2Proof.Machine
end

