-- ==== Sys2Proof/Proofs/Commands.lean ====
section
/-! What several commands share: the commands written through (R178), the reports at the end of an event, the container a number or an
address names (R80), and work done row by row. -/

namespace Sys2Proof.Machine

/-! ### Trunk commands that write through -/

theorem serves_takeCommand {α : Type} {kind : CommandKind} {tag : Byte} {args : Option α} {a : α} {whileRestoring : Bool}
    {body : α → State → State} {s : State} (serves : s.serves) (fits : args = some a) :
    whenRunning (takeCommand kind tag args whileRestoring body) s = .next (body a s.reserved) := by
  rw [whenRunning_running serves.running, fits, takeCommand_of_serves serves]

theorem writesFull_eq_false {s : State} (can : s.canWrite) : writesFull s = false := by
  rcases can with absent | place
  · simp [writesFull, absent]
  · simp [writesFull, place]

@[simp] theorem reserved_effective (s : State) : s.reserved.tp.effective = s.tp.effective := rfl

theorem recordOf_reserved (target : RecordTarget) (s : State) : recordOf target s.reserved = recordOf target s := by
  cases target <;> rfl

theorem writeThrough_reserved (kind : CommandKind) (tag : Byte) (target : RecordTarget) (s : State) :
    writeThrough kind tag target s.reserved = s.written kind.code tag target := by
  by_cases absent : s.rmi.absent = true
  · simp [writeThrough, State.written, absent, queueReply_reserved_eq_replied]
  · rw [writeThrough, State.written, reserved_rmi, if_neg absent, if_neg absent, recordOf_reserved]
    rfl

/-- A table change that a place for its write lets through, written through as the table then stands (R178). -/
theorem changeTable_reserved {kind : CommandKind} {tag : Byte} {target : RecordTarget} {change : State → State} {s : State}
    (can : s.canWrite) (apart : change s.reserved = (change s).reserved) :
    changeTable kind tag target change s.reserved = (change s).written kind.code tag target := by
  have place : writesFull s.reserved = false := writesFull_eq_false can
  rw [changeTable, place, if_neg Bool.false_ne_true, apart, writeThrough_reserved]

theorem reevaluate_reserved (r : Row) (s : State) : reevaluate r s.reserved = (reevaluate r s).reserved := by
  have queue := reevaluate_queue_congr (s := s) (t := s.reserved) rfl rfl rfl r
  simp only [reevaluate] at queue ⊢
  simp only [queue]
  rfl

/-! ### Reports -/

theorem enqueue_effective (t : TrunkPort) (e : UpEntry) : (t.enqueue e).effective = t.effective := by
  unfold TrunkPort.enqueue; split <;> rfl

theorem placeReport_effective (r : Report) (s : State) : (placeReport r s).tp.effective = s.tp.effective := by
  by_cases h : s.tp.occupancy < Config.reportPlaces
  · rw [placeReport_entered h]; exact enqueue_effective _ _
  · rw [placeReport_dropped h]

@[simp] theorem postReport_effective (r : Report) (s : State) : (postReport r s).tp.effective = s.tp.effective := by
  cases r with
  | deposit d =>
    simp only [postReport]
    cases absorb d s.tp.waiting with
    | none => exact placeReport_effective _ _
    | some w => rfl
  | _ => exact placeReport_effective _ _

/-- The end of an event at a container changes the Trunk Port alone (R91). -/
theorem reportChange_tp (r : Row) (cause : StatusCause) (before s : State) :
    reportChange r cause before s = { s with tp := (reportChange r cause before s).tp } := by
  unfold reportChange
  split
  · rfl
  · split
    · exact postReport_tp _ _
    · rfl

@[simp] theorem reportChange_effective (r : Row) (cause : StatusCause) (before s : State) :
    (reportChange r cause before s).tp.effective = s.tp.effective := by
  unfold reportChange
  split
  · rfl
  · split <;> simp

@[simp] theorem reportChange_tk (r : Row) (c : StatusCause) (b s : State) : (reportChange r c b s).tk = s.tk := by rw [reportChange_tp]
@[simp] theorem reportChange_slc (r : Row) (c : StatusCause) (b s : State) : (reportChange r c b s).slc = s.slc := by rw [reportChange_tp]
@[simp] theorem reportChange_ft (r : Row) (c : StatusCause) (b s : State) : (reportChange r c b s).ft = s.ft := by rw [reportChange_tp]
@[simp] theorem reportChange_clu (r : Row) (c : StatusCause) (b s : State) : (reportChange r c b s).clu = s.clu := by rw [reportChange_tp]
@[simp] theorem reportChange_au (r : Row) (c : StatusCause) (b s : State) : (reportChange r c b s).au = s.au := by rw [reportChange_tp]
@[simp] theorem reportChange_rm (r : Row) (c : StatusCause) (b s : State) : (reportChange r c b s).rm = s.rm := by rw [reportChange_tp]
@[simp] theorem reportChange_rmi (r : Row) (c : StatusCause) (b s : State) : (reportChange r c b s).rmi = s.rmi := by rw [reportChange_tp]
@[simp] theorem reportChange_memory (r : Row) (c : StatusCause) (b s : State) : (reportChange r c b s).memory = s.memory := by
  rw [reportChange_tp]
@[simp] theorem reportChange_hold (r : Row) (c : StatusCause) (b s : State) : (reportChange r c b s).hold = s.hold := by
  rw [reportChange_tp]
@[simp] theorem reportChange_free (r : Row) (c : StatusCause) (b s : State) : (reportChange r c b s).free = s.free := by
  rw [reportChange_tp]

/-! ### Containers by number and by address -/

theorem containerOf_some {s : State} {n : Number} {r : Row} (found : containerOf s n = some r) :
    ∃ c, configOf s r = some c ∧ c.number = n := by
  have holds : (configOf s r).any (fun c => c.number == n) = true := Table.find_some (t := s.ft.rows) found
  obtain ⟨c, config, number⟩ := Option.any_eq_true _ _ |>.mp holds
  exact ⟨c, config, by simpa using number⟩

theorem containerOf_eq_none_iff {s : State} {n : Number} :
    containerOf s n = none ↔ ∀ r c, configOf s r = some c → c.number ≠ n := by
  rw [containerOf, Table.find_none]
  refine forall_congr' fun r => ?_
  change ((configOf s r).any fun c => c.number == n) = false ↔ _
  cases configOf s r <;> simp

theorem containerAt_some {s : State} {a : Station} {bay : Nat} {r : Row} (found : containerAt s a bay = some r) :
    ∃ c, configOf s r = some c ∧ c.station = a ∧ c.bay.val = bay := by
  have holds : (configOf s r).any (fun c => c.station == a && c.bay.val == bay) = true := Table.find_some (t := s.ft.rows) found
  obtain ⟨c, config, place⟩ := Option.any_eq_true _ _ |>.mp holds
  simp only [Bool.and_eq_true, beq_iff_eq] at place
  exact ⟨c, config, place⟩

theorem containerAt_eq_none_iff {s : State} {a : Station} {bay : Nat} :
    containerAt s a bay = none ↔ ∀ r c, configOf s r = some c → ¬(c.station = a ∧ c.bay.val = bay) := by
  rw [containerAt, Table.find_none]
  refine forall_congr' fun r => ?_
  change ((configOf s r).any fun c => c.station == a && c.bay.val == bay) = false ↔ _
  cases configOf s r <;> simp

theorem mem_boundTo {s : State} {a : Station} {r : Row} : r ∈ boundTo s a ↔ ∃ c, configOf s r = some c ∧ c.station = a := by
  rw [boundTo, Table.mem_indexes]
  change ((configOf s r).any fun c => c.station == a) = true ↔ _
  cases configOf s r <;> simp

theorem boundTo_isEmpty_iff {s : State} {a : Station} :
    (boundTo s a).isEmpty = true ↔ ∀ r c, configOf s r = some c → c.station ≠ a := by
  rw [List.isEmpty_iff, List.eq_nil_iff_forall_not_mem]
  refine forall_congr' fun r => ?_
  rw [mem_boundTo]
  simp

/-! ### Work done row by row -/

/-- Work over distinct indexes, each step of which changes its own index alone by a function of what it finds there, has changed each
of them once, by what was found at the beginning. -/
theorem foldl_pointwise {σ ι α : Type} [DecidableEq ι] {f : σ → ι → σ} {get : σ → ι → α} {keep : σ → Prop} {g : ι → α → α}
    (step : ∀ s i, keep s → keep (f s i) ∧ ∀ x, get (f s i) x = if x = i then g i (get s i) else get s x) :
    ∀ {l : List ι} {s : σ}, l.Nodup → keep s →
      keep (l.foldl f s) ∧ ∀ x, get (l.foldl f s) x = if x ∈ l then g x (get s x) else get s x
  | [], s, _, kept => by simp [kept]
  | i :: rest, s, once, kept => by
    obtain ⟨notIn, once'⟩ := List.nodup_cons.mp once
    obtain ⟨kept', first⟩ := step s i kept
    obtain ⟨kept'', others⟩ := foldl_pointwise step once' kept'
    refine ⟨kept'', fun x => ?_⟩
    rw [List.foldl_cons, others x, first x]
    by_cases hx : x = i
    · subst hx; simp [notIn]
    · simp [hx]

end Sys2Proof.Machine
end

