-- ==== Sys2Proof/Proofs/Time.lean ====
section
/-! Proofs about minute events, the weekly refill, TIME_SET, the watches of a minute, the SUMMARY and the transmitter (chapters 1, 2, 3, 4
and 10). -/

namespace Sys2Proof.Machine

/-! ### The minute event -/

/-- A minute event in READY: the clock, the minutes since the last SUMMARY and the TTFs, with the queue built anew (R2, R72, R96, R204). -/
theorem minuteEvent_ready {s : State} (due : s.tk.told.minutes ≠ 0) (ready : s.rmi.restoring = false) :
    minuteEvent s = rebuildQueue { s with
      tk := { s.tk with uptime := s.tk.uptime + 1, told := s.tk.told.minute }
      tp := s.tp.minute
      ft.rows := s.ft.rows.map fun row =>
        if row.config.isSome then { row with fill := { row.fill with ttf := row.fill.ttf - 1 } } else row } := by
  simp [minuteEvent, due, countDown, ready]

/-- Settles O7: the queue is built anew, so it holds to its law whatever it was. -/
theorem minuteEventCountsDown : Obligations.MinuteEventCountsDown := by
  intro s running ready due
  refine ⟨_, whenRunning_running running, ?_⟩
  rw [minuteEvent_ready due ready]
  exact ⟨rfl, rfl, rfl, fun r => Table.get_map _ _ r, queueLaw_rebuildQueue _, rfl, rfl, rfl, rfl, rfl, rfl, rfl, rfl⟩

/-! ### The refill -/

theorem refillDue_eq (last : Option Nat) (day : Nat) : refillDue last day = last.all fun d => decide (d + 6 ≤ day) := by
  cases last <;> rfl

theorem Account.topUp_eq (a : Account) : a.topUp =
    if a.loaded = true ∧ a.balance < a.cap then { a with balance := min (a.balance + a.refill) a.cap } else a := rfl

/-- Settles O8, by the six-day condition. -/
theorem refillTriggerRefills : Obligations.RefillTriggerRefills := by
  intro s running told close valid
  refine ⟨_, whenRunning_running running, ?_⟩
  by_cases due : (s.tk.lastRefill.all fun d => decide (d + 6 ≤ s.tk.wall.day)) = true
  · have fires : refillTrigger s = refillAccounts { s with
        tk := { s.tk with told := { s.tk.told with refill := false }, lastRefill := some s.tk.wall.day } } := by
      simp [refillTrigger, told, close, valid, evaluateRefill, refillDue_eq, due]
    rw [fires, if_pos due]
    exact ⟨rfl, ⟨rfl, fun n => Table.get_map _ _ n⟩, rfl, rfl, rfl, rfl, rfl, rfl, rfl, rfl, rfl, rfl, rfl, rfl⟩
  · have rests : refillTrigger s = { s with tk.told.refill := false } := by
      simp [refillTrigger, told, close, valid, evaluateRefill, refillDue_eq, due]
    rw [rests, if_neg due]
    exact ⟨rfl, ⟨rfl, rfl⟩, rfl, rfl, rfl, rfl, rfl, rfl, rfl, rfl, rfl, rfl, rfl, rfl⟩

/-! ### TIME_SET -/

theorem timeSetArgs_bytes {day minute second : Nat} (hd : day ≤ 65535) (hm : minute ≤ 65535) (hs : second ≤ 255) :
    timeSetArgs (bytesOf 2 day ++ bytesOf 2 minute ++ bytesOf 1 second) = some { day := day, minute := minute, second := second } := by
  have two {n : Nat} (h : n ≤ 65535) : n < 256 ^ 2 := by omega
  have one : second < 256 ^ 1 := by omega
  rw [timeSetArgs, fixed_eq_some (by simp)]
  simp [fieldAt_here (two hd), fieldAt_here (two hm), fieldAt_whole one, fieldAt_later]

/-- Wall time is written by itself, or with a refill when the jump is forward, has passed the refill minute and six days have gone. -/
theorem setWall_eq (new : WallTime) (s : State) : setWall new s =
    if s.tk.wall.valid && forwardJump s.tk.wall new && jumpPassed s.tk.wall new s.tp.effective.refillMinute &&
        (s.tk.lastRefill.all fun d => decide (d + 6 ≤ new.day)) then
      { s with tk := { s.tk with wall := new, lastRefill := some new.day }, au.accounts := s.au.accounts.map Account.topUp }
    else { s with tk := { s.tk with wall := new } } := by
  have unfolded : setWall new s =
      if (s.tk.wall.valid && forwardJump s.tk.wall new && jumpPassed s.tk.wall new s.tp.effective.refillMinute) = true then
        (if refillDue s.tk.lastRefill new.day = true then
          refillAccounts { s with tk := { s.tk with wall := new, lastRefill := some new.day } }
         else { s with tk := { s.tk with wall := new } })
      else { s with tk := { s.tk with wall := new } } := rfl
  rw [unfolded, ← refillDue_eq]
  generalize (s.tk.wall.valid && forwardJump s.tk.wall new && jumpPassed s.tk.wall new s.tp.effective.refillMinute) = jumps
  generalize refillDue s.tk.lastRefill new.day = due
  cases jumps <;> cases due <;> rfl

theorem setWall_reserved (new : WallTime) (s : State) : setWall new s.reserved = (setWall new s).reserved := by
  by_cases fires : (s.tk.wall.valid && forwardJump s.tk.wall new && jumpPassed s.tk.wall new s.tp.effective.refillMinute &&
      s.tk.lastRefill.all fun d => decide (d + 6 ≤ new.day)) = true
  · rw [setWall_eq new s, if_pos fires]
    exact (setWall_eq new s.reserved).trans (if_pos fires)
  · rw [setWall_eq new s, if_neg fires]
    exact (setWall_eq new s.reserved).trans (if_neg fires)

theorem minutePassed_iff {old new m : Nat} (ho : old ≤ 10079) (hn : new ≤ 10079) (hm : m ≤ 10079) :
    minutePassed old new m = true ↔ (old < new ∧ old < m ∧ m ≤ new) ∨ (new < old ∧ (old < m ∨ m ≤ new)) := by
  simp only [minutePassed, Bool.and_eq_true, decide_eq_true_eq]
  omega

/-- Settles O15: the two field checks, and what `setWall` does to the rest. -/
theorem timeSetWritesWallTime : Obligations.TimeSetWritesWallTime := by
  refine ⟨fun tag day minute second s serves hd hm hs => ?_, fun old new m => minutePassed_iff⟩
  have taken := serves_takeCommand (kind := .timeSet) (tag := tag) (whileRestoring := false)
    (body := fun args s =>
      if 10079 < args.minute ∨ 59 < args.second then answer .timeSet tag .badField s
      else answer .timeSet tag .ok (setWall { valid := true, day := args.day, minute := args.minute, second := args.second } s))
    serves (timeSetArgs_bytes hd hm hs)
  refine taken.trans (congrArg _ ?_)
  by_cases bad : 10079 < minute ∨ 59 < second
  · rw [if_pos bad, if_pos bad]
    exact answer_reserved rfl tag .badField s
  · refine (if_neg bad).trans (Eq.trans ?_ (if_neg bad).symm)
    rw [setWall_reserved, answer_reserved rfl tag .ok, setWall_eq]
    exact apply_ite (State.replied 0x01 tag .ok .none) _ _ _

/-! ### The watches of a minute -/

theorem watchStale_blocks (r : Row) (s : State) :
    (watchStale r s).ft.profiles = s.ft.profiles ∧ (watchStale r s).ft.queue = s.ft.queue ∧ (watchStale r s).tk = s.tk ∧
      (watchStale r s).slc = s.slc ∧ (watchStale r s).clu = s.clu ∧ (watchStale r s).au = s.au ∧ (watchStale r s).rm = s.rm ∧
      (watchStale r s).rmi = s.rmi ∧ (watchStale r s).memory = s.memory ∧ (watchStale r s).tp.effective = s.tp.effective := by
  simp only [watchStale]
  split <;> simp

/-- What the stale watch makes of a row (R73). -/
def staleRow (uptime : Clock) (window : Nat) (row : ContainerRow) : ContainerRow :=
  if row.config.isSome = true ∧ row.fill.health = .good ∧ window ≤ (uptime - row.fill.lastPlausible).toNat then
    { row with fill := { row.fill with health := .suspect } }
  else row

theorem watchStale_rows (r : Row) (s : State) (x : Row) : (watchStale r s).ft.rows.get x =
    if x = r then staleRow s.tk.uptime s.tp.effective.staleWindow (s.ft.rows.get r) else s.ft.rows.get x := by
  by_cases stale : (configOf s r).isSome ∧ (fillOf s r).health = .good ∧
      s.tp.effective.staleWindow ≤ elapsed s.tk.uptime (fillOf s r).lastPlausible
  · have becomes : staleRow s.tk.uptime s.tp.effective.staleWindow (s.ft.rows.get r) =
        { s.ft.rows.get r with fill := { (s.ft.rows.get r).fill with health := .suspect } } := if_pos stale
    rw [watchStale, if_pos stale, becomes]
    by_cases hx : x = r <;> simp [hx]
  · have stays : staleRow s.tk.uptime s.tp.effective.staleWindow (s.ft.rows.get r) = s.ft.rows.get r := if_neg stale
    rw [watchStale, if_neg stale, stays]
    split
    · rename_i e; rw [e]
    · rfl

/-- What the stale watch leaves of a state. -/
structure WatchKeeps (s t : State) : Prop where
  profiles : t.ft.profiles = s.ft.profiles
  queue : t.ft.queue = s.ft.queue
  tk : t.tk = s.tk
  slc : t.slc = s.slc
  clu : t.clu = s.clu
  au : t.au = s.au
  rm : t.rm = s.rm
  rmi : t.rmi = s.rmi
  memory : t.memory = s.memory
  effective : t.tp.effective = s.tp.effective

theorem WatchKeeps.watchStale {s t : State} (k : WatchKeeps s t) (r : Row) : WatchKeeps s (watchStale r t) := by
  obtain ⟨h1, h2, h3, h4, h5, h6, h7, h8, h9, h10⟩ := watchStale_blocks r t
  exact ⟨h1.trans k.profiles, h2.trans k.queue, h3.trans k.tk, h4.trans k.slc, h5.trans k.clu, h6.trans k.au, h7.trans k.rm,
    h8.trans k.rmi, h9.trans k.memory, h10.trans k.effective⟩

theorem watchStale_all (s : State) :
    WatchKeeps s ((List.finRange 192).foldl (fun s r => watchStale r s) s) ∧
    ∀ x, ((List.finRange 192).foldl (fun s r => watchStale r s) s).ft.rows.get x =
      staleRow s.tk.uptime s.tp.effective.staleWindow (s.ft.rows.get x) := by
  have := foldl_pointwise (f := fun s r => watchStale r s) (get := fun s x => s.ft.rows.get x) (keep := WatchKeeps s)
    (g := fun _ => staleRow s.tk.uptime s.tp.effective.staleWindow)
    (fun t r k => ⟨k.watchStale r, fun x => by rw [watchStale_rows, k.tk, k.effective]⟩)
    (List.nodup_finRange 192) (s := s) ⟨rfl, rfl, rfl, rfl, rfl, rfl, rfl, rfl, rfl, rfl⟩
  simpa [List.mem_finRange] using this

theorem StationRow.becomeDue_eq (now : Clock) (r : StationRow) : r.becomeDue now =
    if r.state = .dozing ∧ (now - r.wake).toNat < 2147483648 then { r with due := true } else r := by
  by_cases reached : r.state = .dozing ∧ (now - r.wake).toNat < 2147483648
  · rw [if_pos reached, becomeDue, if_pos ⟨reached.1, decide_eq_true reached.2⟩]
  · rw [if_neg reached, becomeDue, if_neg fun h => reached ⟨h.1, of_decide_eq_true h.2⟩]

/-- Settles O11: two table maps, and the stale watch row by row. -/
theorem watchesOfTheMinute : Obligations.WatchesOfTheMinute := by
  refine ⟨⟨fun s running told => ⟨_, whenRunning_running running, ?_⟩, fun s running told => ⟨_, whenRunning_running running, ?_⟩⟩,
    fun s running ready told => ?_⟩
  · simp only [told, if_true]
    exact ⟨fun a => (Table.get_map _ _ a).trans (StationRow.becomeDue_eq _ _), trivial, trivial⟩
  · simp only [told, if_true]
    exact ⟨fun a => Table.get_map _ _ a, trivial, trivial⟩
  · refine ⟨(List.finRange 192).foldl (fun s r => watchStale r s) { s with tk.told.stale := false }, ?_, ?_⟩
    · rw [show exec .staleWatch s = execStaleWatch s from rfl, execStaleWatch, whenRunning_running running]
      simp [told, ready]
    obtain ⟨kept, rows⟩ := watchStale_all { s with tk.told.stale := false }
    exact ⟨rows, kept.profiles, kept.queue, kept.tk, kept.slc, kept.clu, kept.au, kept.rm, kept.rmi, kept.memory⟩

/-! ### The SUMMARY and the transmitter -/

theorem enqueue_clearCounts (t : TrunkPort) (e : UpEntry) :
    { t.enqueue e with crcErrors := 0, droppedReports := 0, commandOverruns := 0 } =
      { t with crcErrors := 0, droppedReports := 0, commandOverruns := 0 }.enqueue e := by
  unfold TrunkPort.enqueue
  split <;> rfl

/-- Settles O12, by whether the SUMMARY is due and finds a place. -/
theorem summaryAndTransmitter : Obligations.SummaryAndTransmitter := by
  refine ⟨fun s running told => ?_, fun e next rest s running line waiting => ?_, fun e s running line waiting => ?_⟩
  · refine (whenRunning_running running).trans (congrArg _ ?_)
    by_cases due : s.tp.effective.summaryInterval ≠ 0 ∧ s.tp.effective.summaryInterval ≤ s.tp.sinceSummary
    · by_cases place : s.tp.occupancy < 120
      · have enters : ({ s.tp with sinceSummary := 0 } : TrunkPort).occupancy < Config.reportPlaces := place
        simp only [summaryDue, told, due, postSummary, placeReport, enters, place, clearCounts, enqueue_clearCounts, Bool.not_true,
          Bool.false_eq_true, if_false, if_true, decide_true, ne_eq, not_false_eq_true, and_self]
        rfl
      · have full : ¬({ s.tp with sinceSummary := 0 } : TrunkPort).occupancy < Config.reportPlaces := place
        simp only [summaryDue, told, due, postSummary, placeReport, full, place, Bool.not_true, Bool.false_eq_true, if_false, if_true,
          decide_true, decide_false, ne_eq, not_false_eq_true, and_self]
        rfl
    · simp only [summaryDue, told, due, Bool.not_true, Bool.false_eq_true, if_false, decide_false, Bool.not_false, if_true]
  · show Host.Outcome.next (frameSent s) = _
    simp [frameSent, running, TrunkPort.sent, waiting]
  · show Host.Outcome.next (frameSent s) = _
    simp [frameSent, running, TrunkPort.sent, waiting]

end Sys2Proof.Machine
end

