-- ==== Sys2Proof/Proofs/Tables.lean ====
section
/-! Proofs about the tables of the Admission Unit (7.3, 7.5, 7.6), PASS_DOWN (10.5), STATION_PUT and STATION_DROP (2.2) and PARAM_PUT
(10.3). -/

namespace Sys2Proof.Machine

/-! ### WINDOW_PUT, CLASS_PUT, COST_PUT, ACCOUNT_PUT -/

theorem windowPutArgs_bytes (n : Fin 16) {w : Window} (start : w.start ≤ 1439) (stop : w.stop ≤ 1439) :
    windowPutArgs (bytesOf 1 n.val ++ windowBytes w) = some (n.val, w) := by
  rw [windowPutArgs, fixed_eq_some (by simp [windowBytes]), drop_bytesOf, fieldAt_here (fin_fits (k := 1) n (by decide)),
    windowFields_windowBytes start stop]

theorem classPutArgs_bytes (n : Fin 8) (c : CardClass) : classPutArgs (bytesOf 1 n.val ++ [classByte c]) = some (n.val, c) := by
  rw [classPutArgs, fixed_eq_some (by simp), fieldAt_here (fin_fits (k := 1) n (by decide)), byteAt_later (by simp)]
  simp [byteAt_zero, classFields_classByte]

theorem costPutArgs_bytes (n : Fin 8) {cost : Nat} (low : cost ≤ 255) :
    costPutArgs (bytesOf 1 n.val ++ bytesOf 1 cost) = some (n.val, cost) := by
  have fits : cost < 256 ^ 1 := by omega
  rw [costPutArgs, fixed_eq_some (by simp), fieldAt_here (fin_fits (k := 1) n (by decide)), fieldAt_later (by simp)]
  simp [fieldAt_whole fits]

theorem accountPutArgs_bytes (n : Fin 4096) {balance : Int} {limit refill cap : Nat} (blocked : Bool) (low : -32768 ≤ balance)
    (high : balance ≤ 32767) (hl : limit ≤ 32767) (hr : refill ≤ 32767) (hc : cap ≤ 32767) :
    accountPutArgs (bytesOf 2 n.val ++ bytesOfInt 2 balance ++ bytesOf 2 limit ++ bytesOf 2 refill ++ bytesOf 2 cap ++
      [flagByte blocked]) = some { account := n.val, balance := balance, limit := limit, refill := refill, cap := cap,
                                   blocked := blocked } := by
  have two {m : Nat} (h : m ≤ 32767) : m < 256 ^ 2 := by omega
  have size : (bytesOfInt 2 balance).length = 2 := length_bytesOf 2 _
  have field (rest : List Byte) : slice (bytesOf 2 n.val ++ (bytesOfInt 2 balance ++ rest)) 2 2 = bytesOfInt 2 balance := by
    rw [slice_append_right (by simp), length_bytesOf, slice_append_left size]
  rw [accountPutArgs, fixed_eq_some (by simp [size])]
  simp [fieldAt_here (fin_fits (k := 2) n (by decide)), field, intOf_bytesOfInt low high, fieldAt_later, byteAt_later, size,
    fieldAt_here (two hl), fieldAt_here (two hr), fieldAt_here (two hc), byteAt_zero]

/-- Settles O22, command by command: the fields are read back, and the write-through is that of every configuration command. -/
theorem admissionTablesPut : Obligations.AdmissionTablesPut := by
  refine ⟨⟨fun tag n w s serves can start stop => ?_, fun tag n c s serves can => ?_, fun tag n cost s serves can low => ?_⟩,
    fun tag n balance limit refill cap blocked s serves low high hl hr hc => ?_⟩
  · refine (serves_takeCommand serves (windowPutArgs_bytes n start stop)).trans (congrArg _ ?_)
    have valid : windowValid w = true := by simp [windowValid, start, stop]
    simp only [index?_val, valid]
    exact changeTable_reserved can rfl
  · refine (serves_takeCommand serves (classPutArgs_bytes n c)).trans (congrArg _ ?_)
    simp only [index?_val]
    exact changeTable_reserved can rfl
  · refine (serves_takeCommand serves (costPutArgs_bytes n low)).trans (congrArg _ ?_)
    simp only [index?_val]
    exact changeTable_reserved can rfl
  · refine (serves_takeCommand serves (accountPutArgs_bytes n blocked low high hl hr hc)).trans (congrArg _ ?_)
    have inRange : AccountArgs.inRange ⟨n.val, balance, limit, refill, cap, blocked⟩ = true := by
      simp [AccountArgs.inRange, hl, hr, hc]
    simp only [index?_val, inRange]
    exact answer_reserved rfl tag .ok (setAccount n (Account.put _) s)

/-! ### PASS_DOWN -/

theorem passDownArgs_bytes (n : Number) {bytes : List Byte} (least : 1 ≤ bytes.length) (most : bytes.length ≤ 32) :
    passDownArgs (bytesOf 4 n.toNat ++ bytesOf 1 bytes.length ++ bytes) = some (n, bytes) := by
  have fits : bytes.length < 256 ^ 1 := by omega
  have count : fieldAt (bytesOf 4 n.toNat ++ (bytesOf 1 bytes.length ++ bytes)) 4 1 = bytes.length := by
    rw [fieldAt_later (by simp)]
    simp [fieldAt_here fits]
  have rest : (bytesOf 4 n.toNat ++ (bytesOf 1 bytes.length ++ bytes)).drop 5 = bytes := by
    rw [← List.append_assoc]
    exact List.drop_left' (by simp)
  simp only [passDownArgs, List.append_assoc, count, rest, numberAt_here]
  rw [if_pos ⟨least, most, by simp; omega⟩]

theorem live_iff_mem (r : StationRow) : r.state.live = true ↔ r.state ∈ [StationState.awake, .dozing, .silent] :=
  StationState.live_iff r.state

/-- A live row takes a PASS_DOWN when its queue has room and no PASS_DOWN, and otherwise has no room for it (R32, R48). -/
theorem accepts_passDown {r : StationRow} (live : r.state.live = true) (bay : Bay) (bytes : List Byte) :
    r.accepts (.passDown bay bytes) =
      if r.queue.length < 5 ∧ ∀ q ∈ r.queue, q.command.isPassDown = false then .queued else .noRoom := by
  have alive : r.accepts (.passDown bay bytes) =
      if decide (Config.downPlaces ≤ r.queue.length) || (true && r.queue.any fun q => q.command.isPassDown) then .noRoom else .queued := by
    unfold StationRow.accepts
    cases h : r.state <;> simp_all [StationState.live, DownCommand.isPassDown]
  rw [alive]
  by_cases room : r.queue.length < 5 ∧ ∀ q ∈ r.queue, q.command.isPassDown = false
  · have none_down : (r.queue.any fun q => q.command.isPassDown) = false := by simpa using room.2
    have notFull : decide (Config.downPlaces ≤ r.queue.length) = false := decide_eq_false (Nat.not_le.mpr room.1)
    rw [if_pos room, if_neg (by simp [notFull, none_down])]
  · rw [if_neg room, if_pos]
    by_contra h
    simp [Config.downPlaces] at h
    exact room ⟨of_decide_eq_false h.1 |> Nat.not_le.mp, fun q hq => by simpa using h.2 q hq⟩

/-- Settles O28: the checks of R196 in their order. -/
theorem passDownEntersTheQueue : Obligations.PassDownEntersTheQueue := by
  intro tag n bytes s serves least most outcome
  have taken : outcome = .next (if !validNumber n then answer .passDown tag .badField s.reserved
      else match (containerOf s.reserved n).bind (configOf s.reserved) with
      | none => answer .passDown tag .notFound s.reserved
      | some c =>
        if !(s.slc.rows.get c.station).state.live then answer .passDown tag .refusedState s.reserved
        else match postDown c.station (.passDown c.bay bytes) s.reserved with
        | (.queued, s) => answer .passDown tag .ok s
        | (_, s) => answer .passDown tag .busy s) := serves_takeCommand serves (passDownArgs_bytes n least most)
  have lookup : (containerOf s.reserved n).bind (configOf s.reserved) = (containerOf s n).bind (configOf s) := rfl
  have reply (status : Status) (t : State) : answer .passDown tag status t.reserved = t.replied 0x13 tag status .none :=
    answer_reserved rfl tag status t
  refine ⟨fun bad => ?_, fun h0 h1 missing => ?_, fun r c h0 h1 found config => ?_⟩
  · rw [taken, validNumber_eq_false_iff.mpr bad]
    exact congrArg _ (reply .badField s)
  · rw [taken, validNumber_iff.mpr ⟨h0, h1⟩, lookup, missing]
    exact congrArg _ (reply .notFound s)
  · intro row room row'
    have known : (containerOf s n).bind (configOf s) = some c := by rw [found]; exact config
    rw [taken, validNumber_iff.mpr ⟨h0, h1⟩, lookup, known]
    simp only [Bool.not_true, Bool.false_eq_true, if_false]
    have posted (live : row.state.live = true) :
        postDown c.station (.passDown c.bay bytes) s.reserved =
          if room then (.queued, (setStation c.station (StationRow.push (.passDown c.bay bytes)) s).reserved) else (.noRoom, s.reserved) := by
      have accepts := accepts_passDown live c.bay bytes
      have post : postDown c.station (.passDown c.bay bytes) s.reserved = match row.accepts (.passDown c.bay bytes) with
        | .queued => (.queued, setStation c.station (StationRow.push (.passDown c.bay bytes)) s.reserved)
        | p => (p, s.reserved) := rfl
      rw [post, accepts]
      by_cases h : room
      · rw [if_pos h, if_pos h]; rfl
      · rw [if_neg h, if_neg h]
    refine ⟨fun dead => ?_, fun live full => ?_, fun live place => ?_⟩
    · rw [if_pos (by rw [Bool.not_eq_true', ← Bool.not_eq_true, live_iff_mem]; exact dead)]
      exact congrArg _ (reply .refusedState s)
    · have alive := (live_iff_mem _).mpr live
      rw [if_neg (by simpa using alive), posted alive, if_neg full]
      exact congrArg _ (reply .busy s)
    · have alive := (live_iff_mem _).mpr live
      rw [if_neg (by simpa using alive), posted alive, if_pos place]
      exact congrArg _ (reply .ok (setStation c.station (StationRow.push (.passDown c.bay bytes)) s))

/-! ### STATION_PUT and STATION_DROP -/

theorem stationPutArgs_bytes (a : Station) (serial : Option Serial) (pinned : Bool) :
    stationPutArgs (bytesOf 1 (addressOf a) ++ stationBytes serial pinned) = some (some a, serial, pinned) := by
  rw [stationPutArgs, fixed_eq_some (by simp [length_stationBytes]), drop_bytesOf, fieldAt_here (addressOf_fits a),
    station?_addressOf, stationFields_stationBytes]

theorem serialElsewhere_eq_false {s : State} {a : Station} {serial : Option Serial}
    (alone : ∀ b, b ≠ a → serial.isSome = true → (s.slc.rows.get b).serial ≠ serial) : serialElsewhere s a serial = false := by
  by_contra h
  simp [serialElsewhere, List.mem_finRange] at h
  obtain ⟨some_, b, other, same⟩ := h
  exact alone b other some_ same

theorem not_inTraffic {state : StationState} (rest : state ∈ [StationState.unbound, .absent, .lost, .barred]) : state.inTraffic = false := by
  cases state <;> simp_all [StationState.inTraffic]

theorem isBound_setStation (a b : Station) (f : StationRow → StationRow) (s : State) :
    isBound (setStation a f s) b = (((setStation a f s).slc.rows.get b).serial.isSome || !(boundTo s b).isEmpty) := rfl

/-- Settles O20, by whether the serial changes. -/
theorem stationPutAndDrop : Obligations.StationPutAndDrop := by
  refine ⟨fun tag a serial pinned s serves can alone free => ?_, fun tag a s serves can rest => ?_⟩
  · refine ⟨putStation a serial pinned s, ?_, fun b other => ?_, rfl, ?_⟩
    · refine (serves_takeCommand serves (stationPutArgs_bytes a serial pinned)).trans (congrArg _ ?_)
      have clear : serialElsewhere s.reserved a serial = false := serialElsewhere_eq_false alone
      have still : ((s.reserved.slc.rows.get a).serial != serial && (s.reserved.slc.rows.get a).state.inTraffic) = false := by
        rcases free with same | rest
        · simp [same]
        · simp [not_inTraffic rest]
      simp only [clear, still, Bool.false_eq_true, if_false]
      exact changeTable_reserved can rfl
    · simp [putStation, other]
    · by_cases same : (s.slc.rows.get a).serial = serial
      · simp [putStation, same]
      · rw [if_neg same]
        have row : (putStation a serial pinned s).slc.rows.get a =
            { (s.slc.rows.get a).changeSerial serial (serial.isSome || !(boundTo s a).isEmpty) with pinned := pinned } := by
          simp [putStation, same]
        have bound : isBound (putStation a serial pinned s) a = (serial.isSome || !(boundTo s a).isEmpty) := by
          rw [putStation, isBound_setStation]
          simp [same, StationRow.changeSerial]
        rw [row, bound]
        exact ⟨rfl, rfl, rfl, rfl, rfl, rfl, rfl, rfl, rfl, rfl, rfl⟩
  · refine ⟨dropStation a s, ?_, fun b other => ?_, rfl, ?_⟩
    · refine (serves_takeCommand serves (addressArgs_addressOf a)).trans (congrArg _ ?_)
      have still : (s.reserved.slc.rows.get a).state.inTraffic = false := not_inTraffic rest
      simp only [still, Bool.false_eq_true, if_false]
      exact changeTable_reserved can rfl
    · simp [dropStation, other]
    · cases empty : (boundTo s a).isEmpty <;> simp [dropStation, StationRow.changeSerial, empty]

/-! ### PARAM_PUT -/

theorem Params.get_set (s : Params) (v : Nat) (p q : ParamId) : (s.set v q).get p = if p = q then v else s.get p := by
  cases q <;> cases p <;> rfl

theorem Params.get_enter {values : List (ParamId × Nat)} (once : (values.map (·.1)).Nodup) (s : Params) (p : ParamId) :
    (s.enter values).get p = ((values.find? fun v => v.1 == p).map (·.2)).getD (s.get p) := by
  induction values generalizing s with
  | nil => rfl
  | cons v rest ih =>
    obtain ⟨notIn, once'⟩ := List.nodup_cons.mp once
    have later : (s.enter (v :: rest)).get p = ((s.set v.2 v.1).enter rest).get p := rfl
    rw [later, ih once', Params.get_set]
    by_cases here : p = v.1
    · have absent : (rest.find? fun w => w.1 == p) = none := by
        rw [List.find?_eq_none]
        intro w hw e
        exact notIn (List.mem_map.mpr ⟨w, hw, (by simpa using e : w.1 = p).trans here⟩)
      simp [here ▸ absent, here]
    · have other : (v.1 == p) = false := by simpa using Ne.symm here
      simp [here, other]

theorem mem_paramIds (p : ParamId) : p ∈ ParamId.all := by cases p <;> decide

theorem paramOf_idxOf (p : ParamId) : paramOf (BitVec.ofNat 8 (ParamId.all.idxOf p)) = some p := by cases p <;> decide

/-- One pair of a PARAM_PUT's payload. -/
def pairBytes (v : ParamId × Nat) : List Byte := bytesOf 1 (ParamId.all.idxOf v.1) ++ bytesOf 2 v.2

theorem length_flatMap_pairBytes (values : List (ParamId × Nat)) : (values.flatMap pairBytes).length = 3 * values.length := by
  induction values with
  | nil => rfl
  | cons v rest ih => simp only [List.flatMap_cons, List.length_append, ih, pairBytes, length_bytesOf, List.length_cons]; omega

theorem pairsOf_flatMap {values : List (ParamId × Nat)} (range : ∀ v ∈ values, v.1.range.1 ≤ v.2 ∧ v.2 ≤ v.1.range.2) :
    pairsOf (values.flatMap pairBytes) values.length = values.map fun v => (BitVec.ofNat 8 (ParamId.all.idxOf v.1), v.2) := by
  induction values with
  | nil => rfl
  | cons v rest ih =>
    have fits : v.2 < 256 ^ 2 := by
      have high := (range v List.mem_cons_self).2
      have top : v.1.range.2 ≤ 10080 := by cases v.1 <;> decide
      omega
    have next : (pairBytes v ++ rest.flatMap pairBytes).drop 3 = rest.flatMap pairBytes :=
      List.drop_left' (by simp [pairBytes])
    have value : fieldAt (pairBytes v ++ rest.flatMap pairBytes) 1 2 = v.2 := by
      rw [pairBytes, List.append_assoc, fieldAt_later (by simp)]
      simp [fieldAt_here fits]
    have name : byteAt (pairBytes v ++ rest.flatMap pairBytes) 0 = BitVec.ofNat 8 (ParamId.all.idxOf v.1) := rfl
    rw [List.flatMap_cons, List.length_cons, pairsOf, next, value, name, ih fun w hw => range w (List.mem_cons_of_mem _ hw)]
    rfl

theorem paramPairs_map {values : List (ParamId × Nat)} (once : (values.map (·.1)).Nodup)
    (range : ∀ v ∈ values, v.1.range.1 ≤ v.2 ∧ v.2 ≤ v.1.range.2) :
    paramPairs (values.map fun v => (BitVec.ofNat 8 (ParamId.all.idxOf v.1), v.2)) = some values := by
  induction values with
  | nil => rfl
  | cons v rest ih =>
    obtain ⟨notIn, once'⟩ := List.nodup_cons.mp once
    have fresh : (rest.any fun o => o.1 == v.1) = false := by
      rw [List.any_eq_false]
      intro o ho e
      exact notIn (List.mem_map.mpr ⟨o, ho, by simpa using e⟩)
    have inRange : v.1.inRange v.2 = true := by simpa [ParamId.inRange] using range v List.mem_cons_self
    simp [paramPairs, paramOf_idxOf, ih once' fun w hw => range w (List.mem_cons_of_mem _ hw), inRange, fresh]

theorem length_le_of_distinct {values : List (ParamId × Nat)} (once : (values.map (·.1)).Nodup) : values.length ≤ 14 := by
  have := (once.subperm fun p _ => mem_paramIds p).length_le
  simpa [ParamId.all] using this

theorem paramPutArgs_bytes {values : List (ParamId × Nat)} (some_ : values ≠ []) (once : (values.map (·.1)).Nodup)
    (range : ∀ v ∈ values, v.1.range.1 ≤ v.2 ∧ v.2 ≤ v.1.range.2) :
    paramPutArgs (bytesOf 1 values.length ++ values.flatMap pairBytes) =
      some (values.map fun v => (BitVec.ofNat 8 (ParamId.all.idxOf v.1), v.2)) := by
  have most := length_le_of_distinct once
  have least : 1 ≤ values.length := List.length_pos_iff.mpr some_
  have fits : values.length < 256 ^ 1 := by omega
  have drop : (bytesOf 1 values.length ++ values.flatMap pairBytes).drop 1 = values.flatMap pairBytes := drop_bytesOf 1 _ _
  simp only [paramPutArgs, fieldAt_here fits, drop, pairsOf_flatMap range]
  rw [if_pos ⟨least, most, by rw [List.length_append, length_bytesOf, length_flatMap_pairBytes]⟩]

theorem applyRejoinLimit_rows (old new : Nat) (s : State) (a : Station) :
    (applyRejoinLimit old new s).slc.rows.get a =
      if new = old then s.slc.rows.get a else (s.slc.rows.get a).limitRejoin new := by
  by_cases same : new = old
  · rw [if_pos same, applyRejoinLimit, if_pos same.symm]
  · rw [if_neg same, applyRejoinLimit, if_neg (Ne.symm same)]
    exact Table.get_map _ _ a

theorem applyRejoinLimit_eq (old new : Nat) (s : State) :
    applyRejoinLimit old new s = { s with slc := { s.slc with rows := (applyRejoinLimit old new s).slc.rows } } := by
  unfold applyRejoinLimit
  split <;> rfl

theorem applyRejoinLimit_reserved (old new : Nat) (s : State) :
    applyRejoinLimit old new s.reserved = (applyRejoinLimit old new s).reserved := by
  unfold applyRejoinLimit
  split <;> rfl

theorem applyHorizon_eq (old new : Nat) (s : State) :
    applyHorizon old new s = { s with ft := { s.ft with queue := (applyHorizon old new s).ft.queue } } := by
  unfold applyHorizon
  split <;> rfl

theorem applyHorizon_reserved (old new : Nat) (s : State) : applyHorizon old new s.reserved = (applyHorizon old new s).reserved := by
  unfold applyHorizon
  split
  · rfl
  · have queue := rebuildQueue_queue_congr (s := s) (t := s.reserved) rfl rfl rfl
    simp only [rebuildQueue] at queue ⊢
    simp only [queue]
    rfl

theorem applyHorizon_queue (old new : Nat) (s : State) :
    if new = old then applyHorizon old new s = s else (applyHorizon old new s).queueLaw := by
  by_cases same : new = old
  · rw [if_pos same, applyHorizon, if_pos same.symm]
  · rw [if_neg same, applyHorizon, if_neg (Ne.symm same)]
    exact queueLaw_rebuildQueue s

/-- What a changed rejoin limit leaves before the horizon is looked at. -/
def limitedBy (values : List (ParamId × Nat)) (s : State) : State :=
  applyRejoinLimit s.tp.effective.rejoinLimit (s.tp.effective.enter values).rejoinLimit
    { s with tp := s.tp.withEffective (s.tp.effective.enter values) }

theorem limitedBy_eq (values : List (ParamId × Nat)) (s : State) :
    limitedBy values s = { s with
      tp := s.tp.withEffective (s.tp.effective.enter values)
      slc := { s.slc with rows := (limitedBy values s).slc.rows } } := applyRejoinLimit_eq _ _ _

theorem applyParams_eq_applyHorizon (values : List (ParamId × Nat)) (s : State) :
    applyParams values s = applyHorizon s.tp.effective.horizon (s.tp.effective.enter values).horizon (limitedBy values s) := rfl

theorem applyParams_blocks (values : List (ParamId × Nat)) (s : State) :
    applyParams values s = { s with
      tp := s.tp.withEffective (s.tp.effective.enter values)
      slc := { s.slc with rows := (limitedBy values s).slc.rows }
      ft := { s.ft with queue := (applyParams values s).ft.queue } } := by
  rw [applyParams_eq_applyHorizon, applyHorizon_eq, limitedBy_eq]

theorem applyParams_effective (values : List (ParamId × Nat)) (s : State) :
    (applyParams values s).tp.effective = s.tp.effective.enter values := by
  rw [applyParams_blocks]; rfl

theorem applyParams_slc (values : List (ParamId × Nat)) (s : State) : (applyParams values s).slc = (limitedBy values s).slc := by
  rw [applyParams_eq_applyHorizon, applyHorizon_eq]

theorem applyParams_rows (values : List (ParamId × Nat)) (s : State) (a : Station) :
    (applyParams values s).slc.rows.get a =
      if (s.tp.effective.enter values).rejoinLimit = s.tp.effective.rejoinLimit then s.slc.rows.get a
      else (s.slc.rows.get a).limitRejoin (s.tp.effective.enter values).rejoinLimit := by
  rw [applyParams_slc]
  exact applyRejoinLimit_rows _ _ _ a

theorem applyParams_reserved (values : List (ParamId × Nat)) (s : State) :
    applyParams values s.reserved = (applyParams values s).reserved :=
  (congrArg (applyHorizon _ _) (applyRejoinLimit_reserved _ _ { s with tp := s.tp.withEffective (s.tp.effective.enter values) })).trans
    (applyHorizon_reserved _ _ (limitedBy values s))

theorem StationRow.limitRejoin_eq (limit : Nat) (r : StationRow) : r.limitRejoin limit =
    if r.state = .barred then { r with rejoin := limit } else if limit ≤ r.rejoin then { r with rejoin := limit - 1 } else r := by
  cases h : r.state <;> simp [limitRejoin, h]

theorem applyParams_queue (values : List (ParamId × Nat)) (s : State) :
    if (s.tp.effective.enter values).horizon = s.tp.effective.horizon then (applyParams values s).ft = s.ft
    else (applyParams values s).queueLaw ∧ (applyParams values s).ft.rows = s.ft.rows := by
  have queue := applyHorizon_queue s.tp.effective.horizon (s.tp.effective.enter values).horizon (limitedBy values s)
  rw [← applyParams_eq_applyHorizon] at queue
  by_cases same : (s.tp.effective.enter values).horizon = s.tp.effective.horizon
  · rw [if_pos same] at queue ⊢
    rw [queue, limitedBy_eq]
  · rw [if_neg same] at queue ⊢
    exact ⟨queue, by rw [applyParams_blocks]⟩

/-- Settles O16: the pairs are read back, and each effect of a value is read off `applyParams`. -/
theorem parametersAreWrittenAndTakeEffect : Obligations.ParametersAreWrittenAndTakeEffect := by
  refine ⟨fun tag values s serves can filled once range => ?_, fun values s once => ⟨fun p => ?_, ?_, ?_, ?_⟩⟩
  · intro payload u
    refine (serves_takeCommand serves (paramPutArgs_bytes filled once range)).trans (congrArg _ ?_)
    have place : writesFull s.reserved = false := writesFull_eq_false can
    simp only [paramPairs_map once range, place, Bool.false_eq_true, if_false]
    change (if s.rmi.absent = true then queueReply 0x02 tag .ok (.persisted true) (applyParams values u.reserved)
      else _) = _
    by_cases absent : s.rmi.absent = true
    · rw [if_pos absent, if_pos absent, applyParams_reserved]
      exact queueReply_reserved_eq_replied 0x02 tag .ok (.persisted true) (applyParams values u)
    · rw [if_neg absent, if_neg absent]
      rfl
  · rw [applyParams_effective, Params.get_enter once]
  · intro new a
    rw [applyParams_rows, StationRow.limitRejoin_eq, show new = (s.tp.effective.enter values).rejoinLimit by
      rw [← applyParams_effective]]
  · rw [applyParams_effective]
    exact applyParams_queue values s
  · rw [applyParams_effective, applyParams_slc]
    exact applyParams_blocks values s

end Sys2Proof.Machine
end

