-- ==== Sys2Proof/Proofs/Configuration.lean ====
section
/-! Proofs about PROFILE_PUT (5.2), CONTAINER_PUT and CONTAINER_DROP (5.1), and the binding of station rows (2.2). -/

namespace Sys2Proof.Machine

/-! ### PROFILE_PUT (R85) -/

theorem profilePutArgs_bytes (n : Fin 16) {p : Profile} (valid : profileValid p = true) :
    profilePutArgs (bytesOf 1 n.val ++ profileBytes p) = some (n.val, p) := by
  rw [profilePutArgs, fixed_eq_some (by simp [profileBytes]), drop_bytesOf, fieldAt_here (fin_fits (k := 1) n (by decide)),
    profileFields_profileBytes valid]

/-- A container row under a changed profile entry (R85). -/
def ContainerRow.reprofile (n : Fin 16) (p : Profile) (fuChanged : Bool) (row : ContainerRow) : ContainerRow :=
  match row.config with
  | some c =>
    if c.profile = n then
      { row with fill := { row.fill with
          rise := 0, fall := 0, ttf := if fuChanged then timeToFull p.fu row.fill.i row.fill.r else row.fill.ttf } }
    else row
  | none => row

theorem reprofileRow_eq (n : Fin 16) (fuChanged : Bool) (s : State) (r : Row) :
    reprofileRow n fuChanged s r = { s with ft := (reprofileRow n fuChanged s r).ft } := by
  unfold reprofileRow
  split
  · rfl
  · split
    · rfl
    · cases fuChanged <;> rfl

theorem reprofileRow_profiles (n : Fin 16) (fuChanged : Bool) (s : State) (r : Row) :
    (reprofileRow n fuChanged s r).ft.profiles = s.ft.profiles := by
  unfold reprofileRow
  split
  · rfl
  · split
    · rfl
    · cases fuChanged <;> rfl

theorem reprofileRow_rows (n : Fin 16) (fuChanged : Bool) (s : State) (r x : Row) :
    (reprofileRow n fuChanged s r).ft.rows.get x =
      if x = r then (s.ft.rows.get r).reprofile n (s.ft.profiles.get n) fuChanged else s.ft.rows.get x := by
  have config : configOf s r = (s.ft.rows.get r).config := rfl
  by_cases hx : x = r
  · subst hx
    rw [if_pos rfl, ContainerRow.reprofile, reprofileRow, config]
    cases known : (s.ft.rows.get x).config with
    | none => rfl
    | some c =>
      by_cases named : c.profile = n
      · cases fuChanged <;> simp [named, known, Fill.recompute]
      · simp [named]
  · rw [if_neg hx, reprofileRow]
    split
    · rfl
    · split
      · rfl
      · cases fuChanged <;> simp [hx]

theorem reprofileRow_queueLaw (n : Fin 16) (fuChanged : Bool) {s : State} (law : s.queueLaw) (r : Row) :
    (reprofileRow n fuChanged s r).queueLaw := by
  unfold reprofileRow
  split
  · exact law
  · split
    · exact law
    · cases fuChanged
      · change (setFill r (fun f => { f with rise := 0, fall := 0 }) s).queueLaw
        refine (State.queueLawBut.of_rows (t := setFill r (fun f => { f with rise := 0, fall := 0 }) s)
          (law.but (fun _ => False) fun _ => False) rfl
          (fun x _ => qualifies_congr ?_ ?_ ?_ rfl rfl) fun x _ => ?_).law
        · simp
        all_goals by_cases hx : x = r
        all_goals simp [hx, fillOf_setFill_ne]
      · refine law.reevaluate rfl (fun x hx => qualifies_congr ?_ ?_ ?_ rfl rfl) fun x hx => ?_
        all_goals simp [fillOf_setFill_ne hx]

theorem reprofileRow_reserved (n : Fin 16) (fuChanged : Bool) (s : State) (r : Row) :
    reprofileRow n fuChanged s.reserved r = (reprofileRow n fuChanged s r).reserved := by
  have config : configOf s.reserved r = configOf s r := rfl
  unfold reprofileRow
  rw [config]
  cases configOf s r with
  | none => rfl
  | some c =>
    by_cases named : c.profile = n
    · cases fuChanged
      · simp [named]; rfl
      · simp only [named, ne_eq, not_true_eq_false, if_false, if_true]
        exact reevaluate_reserved r (setFill r (Fill.recompute (s.ft.profiles.get n)) (setFill r (fun f => { f with rise := 0, fall := 0 }) s))
    · simp [named]

theorem putProfile_eq (n : Fin 16) (p : Profile) (s : State) : putProfile n p s =
    (List.finRange 192).foldl (reprofileRow n ((s.ft.profiles.get n).fu != p.fu)) { s with ft.profiles := s.ft.profiles.set n p } := rfl

theorem putProfile_reserved (n : Fin 16) (p : Profile) (s : State) : putProfile n p s.reserved = (putProfile n p s).reserved := by
  rw [putProfile_eq, putProfile_eq]
  generalize List.finRange 192 = l
  exact List.foldl_hom State.reserved (init := { s with ft.profiles := s.ft.profiles.set n p })
    fun t r => reprofileRow_reserved n ((s.ft.profiles.get n).fu != p.fu) t r

/-- Rows re-judged one after the other, each by what it holds. -/
theorem foldl_reprofileRow (n : Fin 16) (fuChanged : Bool) (s : State) {l : List Row} (once : l.Nodup) :
    let t := l.foldl (reprofileRow n fuChanged) s
    (t = { s with ft := t.ft } ∧ t.ft.profiles = s.ft.profiles ∧ (s.queueLaw → t.queueLaw)) ∧
      ∀ x, t.ft.rows.get x =
        if x ∈ l then (s.ft.rows.get x).reprofile n (s.ft.profiles.get n) fuChanged else s.ft.rows.get x := by
  refine foldl_pointwise (get := fun (t : State) x => t.ft.rows.get x) (g := fun _ (row : ContainerRow) => row.reprofile n (s.ft.profiles.get n) fuChanged)
    (keep := fun (t : State) => t = { s with ft := t.ft } ∧ t.ft.profiles = s.ft.profiles ∧ (s.queueLaw → t.queueLaw)) ?_ once ⟨rfl, rfl, id⟩
  rintro t r ⟨blocks, profiles, law⟩
  refine ⟨⟨?_, by rw [reprofileRow_profiles, profiles], fun h => reprofileRow_queueLaw n _ (law h) r⟩, fun x => ?_⟩
  · rw [reprofileRow_eq, blocks]
  · rw [reprofileRow_rows, profiles]

/-- Settles O17: the rows are re-judged one by one, each by what it holds. -/
theorem profilePutReplaces : Obligations.ProfilePutReplaces := by
  intro tag n p s serves can valid
  refine ⟨putProfile n p s, ?_, ?_⟩
  · refine (serves_takeCommand serves (profilePutArgs_bytes n valid)).trans (congrArg _ ?_)
    simp only [index?_val, valid]
    exact changeTable_reserved can (putProfile_reserved n p s)
  · have once := List.nodup_finRange 192
    have all (r : Row) := List.mem_finRange r
    rw [putProfile_eq]
    generalize List.finRange 192 = l at once all
    obtain ⟨⟨blocks, profiles, law⟩, rows⟩ := foldl_reprofileRow n ((s.ft.profiles.get n).fu != p.fu)
      { s with ft.profiles := s.ft.profiles.set n p } once
    refine ⟨blocks, profiles, fun r => ?_, fun h => law (h.of_blocks rfl rfl rfl rfl)⟩
    rw [rows r, if_pos (all r), ContainerRow.reprofile, show configOf s r = (s.ft.rows.get r).config from rfl, Table.get_set_self]
    cases known : (s.ft.rows.get r).config with
    | none => rfl
    | some c =>
      by_cases named : c.profile = n
      · by_cases same : (s.ft.profiles.get n).fu = p.fu <;> simp [named, same, fillOf, known]
      · simp [named]

/-! ### Binding of station rows (R17) -/

theorem isBound_iff {s : State} {a : Station} :
    isBound s a = true ↔ (s.slc.rows.get a).serial.isSome = true ∨ ∃ q d, configOf s q = some d ∧ d.station = a := by
  rw [isBound, Bool.or_eq_true, Bool.not_eq_true', ← Bool.not_eq_true, boundTo_isEmpty_iff]
  simp only [not_forall, not_not, exists_prop]

theorem releaseStation_bound {s : State} {a : Station} (bound : isBound s a = true) : releaseStation a s = s := if_pos bound

theorem releaseStation_free {s : State} {a : Station} (free : ¬isBound s a = true) :
    releaseStation a s = setStation a StationRow.unbind (emptyDown a s) := if_neg free

theorem releaseStation_eq (a : Station) (s : State) : releaseStation a s =
    { s with slc := { s.slc with rows := (releaseStation a s).slc.rows, turn := (releaseStation a s).slc.turn } } := by
  unfold releaseStation
  split <;> rfl

theorem releaseStation_reserved (a : Station) (s : State) : releaseStation a s.reserved = (releaseStation a s).reserved := by
  have bound : isBound s.reserved a = isBound s a := rfl
  by_cases h : isBound s a = true
  · rw [releaseStation_bound h, releaseStation_bound (bound.trans h)]
  · rw [releaseStation_free h, releaseStation_free (s := s.reserved) (bound ▸ h)]
    rfl

theorem releaseStation_rows_ne {a b : Station} (other : b ≠ a) (s : State) :
    (releaseStation a s).slc.rows.get b = s.slc.rows.get b := by
  unfold releaseStation
  split
  · rfl
  · simp [emptyDown, other]

/-- The fields of a row that has become UNBOUND, its queue emptied (R17, R49). -/
theorem releaseStation_row {a : Station} {s : State} (free : ¬isBound s a = true) :
    (releaseStation a s).slc.rows.get a = { s.slc.rows.get a with
      state := .unbound, awakeSince := false, miss := 0, rejoin := 0, joinPrior := none, raised := false, due := false
      queue := [] } := by
  rw [releaseStation_free free]
  simp [emptyDown, StationRow.unbind]

theorem emptyDown_turn (a : Station) (s : State) : (emptyDown a s).slc.turn = s.slc.turn.map (Turn.forget a) := rfl

theorem forget_turn_of {a : Station} {turn : Option Turn} {p : Poll} (here : turn = some (.poll p)) (same : p.address = a) :
    turn.map (Turn.forget a) = some (.poll { p with standing := false }) := by
  simp [here, Turn.forget, same]

theorem forget_turn_other {a : Station} {turn : Option Turn} (other : ∀ p, turn = some (.poll p) → p.address ≠ a) :
    turn.map (Turn.forget a) = turn := by
  rcases turn with _ | _ | p
  · rfl
  · rfl
  · simp [Turn.forget, other p rfl]

theorem releaseStation_turn {a : Station} {s : State} (free : ¬isBound s a = true) :
    (releaseStation a s).slc.turn = s.slc.turn.map (Turn.forget a) := by
  rw [releaseStation_free free]
  rfl

theorem bindStation_row (a b : Station) (s : State) : (bindStation a s).slc.rows.get b =
    if b = a ∧ (s.slc.rows.get b).state = .unbound then { s.slc.rows.get b with state := .absent } else s.slc.rows.get b := by
  by_cases h : b = a
  · subst h
    cases state : (s.slc.rows.get b).state <;> simp [bindStation, state]
  · simp [bindStation, h]

theorem bindStation_serial (a b : Station) (s : State) : ((bindStation a s).slc.rows.get b).serial = (s.slc.rows.get b).serial := by
  rw [bindStation_row]
  split <;> rfl

theorem bindStation_eq (a : Station) (s : State) :
    bindStation a s = { s with slc := { s.slc with rows := (bindStation a s).slc.rows } } := rfl

/-! ### CONTAINER_DROP (R83) -/

/-- What CONTAINER_DROP leaves before the station is looked at. -/
def emptiedContainer (r : Row) (s : State) : State :=
  setService r .inUse { s with ft := { s.ft with rows := s.ft.rows.set r ContainerRow.cold, queue := s.ft.queue.filter (· != r) } }

theorem dropContainer_eq (r : Row) (c : ContainerConfig) (s : State) :
    dropContainer r c s = releaseStation c.station (emptiedContainer r s) := rfl

theorem dropContainer_reserved (r : Row) (c : ContainerConfig) (s : State) :
    dropContainer r c s.reserved = (dropContainer r c s).reserved :=
  releaseStation_reserved c.station (emptiedContainer r s)

theorem configOf_emptiedContainer (r q : Row) (s : State) :
    configOf (emptiedContainer r s) q = if q = r then none else configOf s q := by
  simp only [configOf, emptiedContainer, setService_ft, Table.get_set]
  split <;> rfl

theorem isBound_emptiedContainer_iff {r : Row} {s : State} {a : Station} : isBound (emptiedContainer r s) a = true ↔
    (s.slc.rows.get a).serial.isSome = true ∨ ∃ q d, q ≠ r ∧ configOf s q = some d ∧ d.station = a := by
  rw [isBound_iff]
  refine or_congr Iff.rfl (exists_congr fun q => exists_congr fun d => ?_)
  rw [configOf_emptiedContainer]
  by_cases hq : q = r <;> simp [hq]

/-- Settles O19, by whether the station is left with nothing. -/
theorem containerDropEmpties : Obligations.ContainerDropEmpties := by
  intro tag n r c s serves can h0 h1 found config quiet
  refine ⟨dropContainer r c s, ?_, ?_⟩
  · refine (serves_takeCommand serves (numberArgs_bytesOf n)).trans (congrArg _ ?_)
    have known : (containerOf s.reserved n).bind (fun r => (configOf s.reserved r).map fun c => (r, c)) = some (r, c) := by
      rw [show containerOf s.reserved n = some r from found, Option.bind_some, show configOf s.reserved r = some c from config]
      rfl
    have still : hasTraffic s.reserved r = false := quiet
    simp only [validNumber_iff.mpr ⟨h0, h1⟩, known, still, Bool.not_true, Bool.false_eq_true, if_false]
    exact changeTable_reserved can (dropContainer_reserved r c s)
  · rw [dropContainer_eq]
    have blocks := releaseStation_eq c.station (emptiedContainer r s)
    refine ⟨by rw [blocks]; rfl, by rw [blocks]; rfl, by rw [blocks]; rfl, by rw [blocks]; rfl, by rw [blocks]; rfl,
      fun a other => releaseStation_rows_ne other _, fun bound => ?_, fun bare alone => ?_,
      by rw [blocks]; rfl, by rw [blocks]; rfl, by rw [blocks]; rfl, by rw [blocks]; rfl, by rw [blocks]; rfl, by rw [blocks]; rfl,
      by rw [blocks]; rfl⟩
    · rw [releaseStation_bound (isBound_emptiedContainer_iff.mpr bound)]
      rfl
    · have free : ¬isBound (emptiedContainer r s) c.station = true := by
        rw [isBound_emptiedContainer_iff]
        rintro (serial | ⟨q, d, other, occupied, same⟩)
        · simp [bare] at serial
        · exact alone q d other occupied same
      refine ⟨releaseStation_row free, fun p turn here => ?_, fun others => ?_⟩
      · exact (releaseStation_turn free).trans (forget_turn_of turn here)
      · exact (releaseStation_turn free).trans (forget_turn_other others)

/-! ### CONTAINER_PUT (R81, R82) -/

theorem containerPutArgs_bytes (r : Row) {c : ContainerConfig} (legal : c.Legal) :
    containerPutArgs (bytesOf 1 r.val ++ containerBytes c) = some (some (r, c)) := by
  rw [containerPutArgs, fixed_eq_some (by simp [length_containerBytes]), drop_bytesOf, fieldAt_here (fin_fits (k := 1) r (by decide)),
    containerFields_containerBytes legal, index?_val]
  rfl

/-- The three checks of a CONTAINER_PUT that let it through (R81 cases 3 to 5). -/
theorem judgeContainer_eq_none {s : State} {r : Row} {c : ContainerConfig} (can : s.canWrite)
    (alone : ∀ q d, configOf s q = some d → q ≠ r → d.number ≠ c.number ∧ (d.station = c.station → d.bay ≠ c.bay))
    (own : ∀ d, configOf s r = some d → d.number = c.number ∧ hasTraffic s r = false) : judgeContainer s r c = none := by
  have number : (containerOf s c.number).any (· != r) = false := by
    rw [Bool.eq_false_iff, ne_eq, Option.any_eq_true]
    rintro ⟨q, found, other⟩
    obtain ⟨d, config, same⟩ := containerOf_some found
    exact (alone q d config (by simpa using other)).1 same
  have place : (containerAt s c.station c.bay.val).any (· != r) = false := by
    rw [Bool.eq_false_iff, ne_eq, Option.any_eq_true]
    rintro ⟨q, found, other⟩
    obtain ⟨d, config, station, bay⟩ := containerAt_some found
    exact (alone q d config (by simpa using other)).2 station (Fin.ext bay)
  have kept : ((configOf s r).any fun old => old.number != c.number) = false := by
    cases h : configOf s r with
    | none => rfl
    | some d => simp [(own d h).1]
  have quiet : ((configOf s r).isSome && hasTraffic s r) = false := by
    cases h : configOf s r with
    | none => rfl
    | some d => simp [(own d h).2]
  simp [judgeContainer, number, place, kept, quiet, writesFull_eq_false can]

/-- What CONTAINER_PUT leaves before the station that a moved container leaves is looked at, and before its membership is re-evaluated. -/
def enteredContainer (r : Row) (c : ContainerConfig) (s : State) : State :=
  bindStation c.station { s with
    ft := { s.ft with rows := s.ft.rows.update r fun row => { config := some c, fill := row.fill.reconfigure (configOf s r) c } }
    rm := { s.rm with service := if (configOf s r).isNone then s.rm.service.set r .inUse else s.rm.service } }

/-- The entered container, its station left behind where it has moved. -/
def movedContainer (r : Row) (c : ContainerConfig) (s : State) : State :=
  match configOf s r with
  | some o => releaseStation o.station (enteredContainer r c s)
  | none => enteredContainer r c s

theorem putContainer_eq (r : Row) (c : ContainerConfig) (s : State) : putContainer r c s = reevaluate r (movedContainer r c s) := by
  unfold putContainer movedContainer enteredContainer
  cases configOf s r <;> rfl

theorem movedContainer_eq (r : Row) (c : ContainerConfig) (s : State) : movedContainer r c s =
    { enteredContainer r c s with slc := { s.slc with
        rows := (movedContainer r c s).slc.rows, turn := (movedContainer r c s).slc.turn } } := by
  unfold movedContainer
  split
  · rw [releaseStation_eq]; rfl
  · rfl

theorem movedContainer_reserved (r : Row) (c : ContainerConfig) (s : State) :
    movedContainer r c s.reserved = (movedContainer r c s).reserved := by
  have config : configOf s.reserved r = configOf s r := rfl
  unfold movedContainer
  rw [config]
  cases configOf s r with
  | none => rfl
  | some o => exact releaseStation_reserved o.station (enteredContainer r c s)

theorem putContainer_reserved (r : Row) (c : ContainerConfig) (s : State) :
    putContainer r c s.reserved = (putContainer r c s).reserved := by
  rw [putContainer_eq, putContainer_eq, movedContainer_reserved]
  exact reevaluate_reserved r _

theorem enteredContainer_rows (r q : Row) (c : ContainerConfig) (s : State) : (enteredContainer r c s).ft.rows.get q =
    if q = r then { config := some c, fill := (fillOf s r).reconfigure (configOf s r) c } else s.ft.rows.get q := by
  by_cases hq : q = r <;> simp [enteredContainer, bindStation, hq, fillOf]

theorem configOf_enteredContainer (r q : Row) (c : ContainerConfig) (s : State) :
    configOf (enteredContainer r c s) q = if q = r then some c else configOf s q := by
  rw [configOf, enteredContainer_rows]
  split <;> rfl

theorem Fill.reconfigure_some (d c : ContainerConfig) (f : Fill) : f.reconfigure (some d) c =
    { f with
      fresh := f.fresh || decide (d.empty ≠ c.empty ∨ d.full ≠ c.full)
      ref := if d.empty ≠ c.empty ∨ d.full ≠ c.full then none else f.ref
      rise := if d.profile ≠ c.profile then 0 else f.rise
      fall := if d.profile ≠ c.profile then 0 else f.fall } := by
  by_cases span : d.empty ≠ c.empty ∨ d.full ≠ c.full
  all_goals by_cases profile : d.profile ≠ c.profile
  all_goals simp [reconfigure, span, profile]

/-- The row of a station that a moved container leaves with nothing is free (R17). -/
theorem isBound_enteredContainer_iff {r : Row} {c : ContainerConfig} {s : State} {a : Station} :
    isBound (enteredContainer r c s) a = true ↔
      (s.slc.rows.get a).serial.isSome = true ∨ c.station = a ∨ ∃ q d, q ≠ r ∧ configOf s q = some d ∧ d.station = a := by
  rw [isBound_iff]
  refine or_congr (by rw [enteredContainer, bindStation_serial]) ⟨?_, ?_⟩
  · rintro ⟨q, d, config, here⟩
    rw [configOf_enteredContainer] at config
    by_cases hq : q = r
    · rw [if_pos hq] at config
      exact .inl (by rw [Option.some.inj config, here])
    · rw [if_neg hq] at config
      exact .inr ⟨q, d, hq, config, here⟩
  · rintro (here | ⟨q, d, hq, config, here⟩)
    · exact ⟨r, c, by rw [configOf_enteredContainer, if_pos rfl], here⟩
    · exact ⟨q, d, by rw [configOf_enteredContainer, if_neg hq, config], here⟩

/-- A station that the container put at a row leaves with nothing (R17). -/
def leavesStation (r : Row) (c : ContainerConfig) (s : State) (a : Station) : Prop :=
  (∃ d, configOf s r = some d ∧ d.station = a) ∧ a ≠ c.station ∧ (s.slc.rows.get a).serial = none ∧
    ∀ q d, q ≠ r → configOf s q = some d → d.station ≠ a

theorem leavesStation_iff {r : Row} {c : ContainerConfig} {s : State} {a : Station} : leavesStation r c s a ↔
    (∃ d, configOf s r = some d ∧ d.station = a) ∧ ¬isBound (enteredContainer r c s) a = true := by
  rw [isBound_enteredContainer_iff]
  refine and_congr_right fun _ => ⟨?_, fun free => ?_⟩
  · rintro ⟨away, bare, alone⟩ (serial | here | ⟨q, d, other, config, here⟩)
    · simp [bare] at serial
    · exact away here.symm
    · exact alone q d other config here
  · refine ⟨fun here => free (.inr (.inl here.symm)), ?_, fun q d other config here => free (.inr (.inr ⟨q, d, other, config, here⟩))⟩
    simpa using fun serial => free (.inl serial)

theorem movedContainer_slc {r : Row} {c : ContainerConfig} {s : State} {a : Station} (leaves : leavesStation r c s a) :
    movedContainer r c s = releaseStation a (enteredContainer r c s) := by
  obtain ⟨⟨d, config, here⟩, -⟩ := leaves
  rw [movedContainer, config]
  exact congrArg (releaseStation · _) here

/-- With no station left behind, nothing is released. -/
theorem movedContainer_stays {r : Row} {c : ContainerConfig} {s : State} (stays : ∀ a, ¬leavesStation r c s a) :
    movedContainer r c s = enteredContainer r c s := by
  unfold movedContainer
  cases config : configOf s r with
  | none => rfl
  | some o =>
    refine releaseStation_bound ?_
    by_contra free
    exact stays o.station (leavesStation_iff.mpr ⟨⟨o, config, rfl⟩, free⟩)

theorem leavesStation_unique {r : Row} {c : ContainerConfig} {s : State} {a b : Station} (ha : leavesStation r c s a)
    (hb : leavesStation r c s b) : a = b := by
  obtain ⟨⟨d, config, rfl⟩, -⟩ := ha
  obtain ⟨⟨e, config', rfl⟩, -⟩ := hb
  rw [Option.some.inj (config.symm.trans config')]

/-- Settles O18, by whether a station is left with nothing. -/
theorem containerPutEnters : Obligations.ContainerPutEnters := by
  intro tag r c s serves can h0 h1 full empty span alone own leaves
  have legal : c.Legal := ⟨validNumber_iff.mpr ⟨h0, h1⟩, full, empty, span⟩
  have blocks := movedContainer_eq r c s
  refine ⟨putContainer r c s, ?_, ?_⟩
  · refine (serves_takeCommand serves (containerPutArgs_bytes r legal)).trans (congrArg _ ?_)
    have judged : judgeContainer s.reserved r c = none := judgeContainer_eq_none can alone own
    simp only [judged]
    rw [putContainer_reserved, writeThrough_reserved]
    rfl
  · rw [putContainer_eq]
    have rows : (movedContainer r c s).ft.rows = (enteredContainer r c s).ft.rows := by rw [blocks]
    have row_away (a : Station) (other : ∀ b, leavesStation r c s b → a ≠ b) :
        (movedContainer r c s).slc.rows.get a = (enteredContainer r c s).slc.rows.get a := by
      by_cases some_ : ∃ b, leavesStation r c s b
      · obtain ⟨b, hb⟩ := some_
        rw [movedContainer_slc hb, releaseStation_rows_ne (other b hb)]
      · rw [movedContainer_stays fun b hb => some_ ⟨b, hb⟩]
    refine ⟨fun q => ?_, ?_, fun q hq => ?_, fun a ha => ?_, fun a ha => ?_, fun p turn ha => ?_, fun others => ?_, ?_, fun law => ?_,
      ?_, ?_, ?_, ?_, ?_, ?_, ?_, ?_⟩
    · rw [reevaluate_rows, rows, enteredContainer_rows]
      cases configOf s r with
      | none => rfl
      | some d => rw [Fill.reconfigure_some]
    · rw [serviceOf, reevaluate_rm, blocks]
      cases h : configOf s r <;> simp [enteredContainer, bindStation, h, serviceOf]
    · rw [serviceOf, reevaluate_rm, blocks]
      cases h : configOf s r <;> simp [enteredContainer, bindStation, h, serviceOf, hq]
    · have ⟨_, away, _⟩ := ha
      rw [reevaluate_slc, movedContainer_slc ha, releaseStation_row (leavesStation_iff.mp ha).2, enteredContainer, bindStation_row,
        if_neg fun h => away h.1]
    · rw [reevaluate_slc, row_away a fun b hb e => ha (e ▸ hb), enteredContainer, bindStation_row]
    · rw [reevaluate_slc, movedContainer_slc ha, releaseStation_turn (leavesStation_iff.mp ha).2]
      exact forget_turn_of turn rfl
    · rw [reevaluate_slc]
      by_cases some_ : ∃ b, leavesStation r c s b
      · obtain ⟨b, hb⟩ := some_
        rw [movedContainer_slc hb, releaseStation_turn (leavesStation_iff.mp hb).2]
        exact forget_turn_other fun p turn here => others p turn (here ▸ hb)
      · rw [movedContainer_stays fun b hb => some_ ⟨b, hb⟩]
        rfl
    · rw [reevaluate_slc, blocks]
    · refine law.reevaluate (by rw [blocks]; rfl) (fun x hx => qualifies_congr ?_ ?_ ?_ ?_ ?_) fun x hx => ?_
      · rw [configOf, rows, enteredContainer_rows, if_neg hx]; rfl
      · rw [fillOf, rows, enteredContainer_rows, if_neg hx]; rfl
      · rw [fillOf, rows, enteredContainer_rows, if_neg hx]; rfl
      · exact onActiveRound_congr (by rw [blocks]; rfl) x
      · rw [blocks]; rfl
      · rw [fillOf, rows, enteredContainer_rows, if_neg hx]; rfl
    all_goals
      simp only [reevaluate_profiles, reevaluate_rm, reevaluate_tk, reevaluate_clu, reevaluate_au, reevaluate_rmi, reevaluate_tp,
        reevaluate_memory]
      rw [blocks]
      rfl

end Sys2Proof.Machine
end

