-- ==== Sys2Proof/Proofs/Cards.lean ====
section
/-! Proofs about the card cache and the card commands (chapter 6, 6.2 to 6.4). -/

namespace Sys2Proof.Machine

/-! ### Finding a card (R105) -/

theorem cacheFind_some {u : CardLookup} {n : Number} {i : Fin 32} (found : cacheFind u n = some i) :
    ∃ r, u.entries.get i = some r ∧ r.number = n := by
  have holds : (u.entries.get i).any (fun r => r.number == n) = true := Table.find_some (t := u.entries) found
  obtain ⟨r, entry, number⟩ := Option.any_eq_true _ _ |>.mp holds
  exact ⟨r, entry, by simpa using number⟩

theorem cacheFind_eq_none_iff {u : CardLookup} {n : Number} :
    cacheFind u n = none ↔ ∀ i r, u.entries.get i = some r → r.number ≠ n := by
  rw [cacheFind, Table.find_none]
  refine forall_congr' fun i => ?_
  cases u.entries.get i <;> simp

/-- The law of the cache speaks of its entries and their order alone. -/
theorem State.cacheLaw.of_cache {s t : State} (law : s.cacheLaw) (entries : t.clu.entries = s.clu.entries)
    (recency : t.clu.recency = s.clu.recency) : t.cacheLaw where
  single i j a b ha hb := law.single i j a b (entries ▸ ha) (entries ▸ hb)
  listed i := by rw [entries, recency]; exact law.listed i
  once := recency ▸ law.once

/-- Under the law, an entry that holds the card is the one the search finds. -/
theorem cacheFind_of_entry {s : State} (law : s.cacheLaw) {i : Fin 32} {r : CardRecord} (entry : s.clu.entries.get i = some r) :
    cacheFind s.clu r.number = some i := by
  cases found : cacheFind s.clu r.number with
  | none => exact absurd rfl (cacheFind_eq_none_iff.mp found i r entry)
  | some j =>
    obtain ⟨b, other, number⟩ := cacheFind_some found
    rw [law.single j i b r other entry number]

/-! ### Entries used, installed and invalidated -/

theorem mem_touched {l : List (Fin 32)} {i j : Fin 32} : j ∈ i :: l.filter (· != i) ↔ j = i ∨ j ∈ l := by
  by_cases h : j = i <;> simp [h]

theorem nodup_touched {l : List (Fin 32)} (once : l.Nodup) (i : Fin 32) : (i :: l.filter (· != i)).Nodup :=
  List.nodup_cons.mpr ⟨by simp, once.filter _⟩

theorem cacheLaw_touch {s : State} (law : s.cacheLaw) {i : Fin 32} (valid : (s.clu.entries.get i).isSome = true) :
    State.cacheLaw { s with clu := s.clu.touch i } where
  single := law.single
  listed j := by
    change j ∈ i :: s.clu.recency.filter (· != i) ↔ _
    rw [mem_touched, law.listed]
    exact ⟨fun h => h.elim (fun e => e ▸ valid) id, .inr⟩
  once := nodup_touched law.once i

/-- A card is installed in the place of its own number, or in one that no other card of its number holds (R112). -/
theorem installPlace_spec {s : State} (law : s.cacheLaw) (n : Number) :
    ∃ i, installPlace s.clu n = some i ∧ ∀ j r, s.clu.entries.get j = some r → r.number = n → j = i := by
  unfold installPlace
  cases found : cacheFind s.clu n with
  | some i =>
    obtain ⟨a, entry, number⟩ := cacheFind_some found
    exact ⟨i, rfl, fun j r other same => law.single j i r a other entry (same.trans number.symm)⟩
  | none =>
    have absent := cacheFind_eq_none_iff.mp found
    have nowhere (i j : Fin 32) (r : CardRecord) (other : s.clu.entries.get j = some r) (same : r.number = n) : j = i :=
      absurd same (absent j r other)
    cases invalid : s.clu.entries.find fun e => e.isNone with
    | some i => exact ⟨i, rfl, nowhere i⟩
    | none =>
      have valid (i : Fin 32) : i ∈ s.clu.recency := by
        rw [law.listed, ← Option.not_isNone, Table.find_none.mp invalid i]
        rfl
      cases oldest : s.clu.recency.getLast? with
      | some i => exact ⟨i, rfl, nowhere i⟩
      | none => exact absurd (valid 0) (by simp [List.getLast?_eq_none_iff.mp oldest])

theorem install_of_place {u : CardLookup} {r : CardRecord} {i : Fin 32} (place : installPlace u r.number = some i) :
    u.install r = { u with entries := u.entries.set i (some r), recency := i :: u.recency.filter (· != i) } := by
  rw [CardLookup.install, place]
  rfl

theorem cacheLaw_install {s : State} (law : s.cacheLaw) (r : CardRecord) : State.cacheLaw { s with clu := s.clu.install r } := by
  obtain ⟨i, place, own⟩ := installPlace_spec law r.number
  rw [install_of_place place]
  constructor
  · intro j k a b ha hb same
    rw [Table.get_set] at ha hb
    by_cases hj : j = i <;> by_cases hk : k = i
    · rw [hj, hk]
    · rw [if_pos hj] at ha
      rw [if_neg hk] at hb
      exact absurd (own k b hb (by rw [← same, Option.some.inj ha])) hk
    · rw [if_neg hj] at ha
      rw [if_pos hk] at hb
      exact absurd (own j a ha (by rw [same, Option.some.inj hb])) hj
    · rw [if_neg hj] at ha
      rw [if_neg hk] at hb
      exact law.single j k a b ha hb same
  · intro j
    rw [mem_touched, law.listed, Table.get_set]
    by_cases hj : j = i <;> simp [hj]
  · exact nodup_touched law.once i

theorem invalidate_absent {u : CardLookup} {n : Number} (absent : cacheFind u n = none) : u.invalidate n = u := by
  rw [CardLookup.invalidate, absent]

theorem invalidate_found {u : CardLookup} {n : Number} {i : Fin 32} (found : cacheFind u n = some i) :
    u.invalidate n = { u with entries := u.entries.set i none, recency := u.recency.filter (· != i) } := by
  rw [CardLookup.invalidate, found]

/-- What invalidating a card leaves of the entries: those of every other card (R115, R116). -/
theorem get_invalidate {s : State} (law : s.cacheLaw) (n : Number) (i : Fin 32) (r : CardRecord) :
    (s.clu.invalidate n).entries.get i = some r ↔ s.clu.entries.get i = some r ∧ r.number ≠ n := by
  cases found : cacheFind s.clu n with
  | none =>
    rw [invalidate_absent found]
    exact ⟨fun entry => ⟨entry, cacheFind_eq_none_iff.mp found i r entry⟩, And.left⟩
  | some j =>
    obtain ⟨b, entry, number⟩ := cacheFind_some found
    rw [invalidate_found found, Table.get_set]
    by_cases hi : i = j
    · subst hi
      rw [if_pos rfl, entry]
      exact ⟨nofun, fun ⟨same, other⟩ => absurd (Option.some.inj same ▸ number) other⟩
    · rw [if_neg hi]
      exact ⟨fun kept => ⟨kept, fun same => hi (law.single i j r b kept entry (same.trans number.symm))⟩, And.left⟩

theorem cacheLaw_invalidate {s : State} (law : s.cacheLaw) (n : Number) : State.cacheLaw { s with clu := s.clu.invalidate n } where
  single i j a b ha hb :=
    law.single i j a b ((get_invalidate law n i a).mp ha).1 ((get_invalidate law n j b).mp hb).1
  listed i := by
    cases found : cacheFind s.clu n with
    | none =>
      simp only [invalidate_absent found]
      exact law.listed i
    | some j =>
      simp only [invalidate_found found, Table.get_set]
      by_cases hi : i = j <;> simp [hi, law.listed]
  once := by
    cases found : cacheFind s.clu n with
    | none =>
      simp only [invalidate_absent found]
      exact law.once
    | some j =>
      simp only [invalidate_found found]
      exact law.once.filter _

theorem cacheLaw_empty {s : State} (entries : s.clu.entries = Table.replicate 32 none) (recency : s.clu.recency = []) : s.cacheLaw where
  single i j a b ha := by simp [entries] at ha
  listed i := by simp [entries, recency]
  once := by simp [recency]

/-- Settles O24: the search finds the one entry of a number, and an installed or invalidated card moves that entry alone. -/
theorem cacheServesWhatWasRead : Obligations.CacheServesWhatWasRead := by
  refine ⟨fun r u s here law => ?_, fun n u => ⟨fun i found => Table.find_some (t := u.entries) found, Table.find_none⟩,
    fun n s law => ⟨?_, fun i r entry other => (get_invalidate law n i r).mpr ⟨entry, other⟩⟩⟩
  · subst here
    have law' := cacheLaw_install law r
    obtain ⟨i, place, -⟩ := installPlace_spec law r.number
    have entry : (s.clu.install r).entries.get i = some r := by simp [install_of_place place]
    exact ⟨⟨i, cacheFind_of_entry law' entry, entry, by simp [install_of_place place]⟩, law'⟩
  · exact cacheFind_eq_none_iff.mpr fun i r entry => ((get_invalidate law n i r).mp entry).2

/-! ### The card commands (R115, R116, R118) -/

theorem bucket_beq (b : Bucket) (n : Number) : (b == bucketOf n) = (b.val == n.toNat % 4096) := by
  rw [Bool.eq_iff_iff, beq_iff_eq, beq_iff_eq, Fin.ext_iff]
  rfl

/-- An accepted card write invalidates the cache and waits on the write queue (R115, R116). -/
theorem judgeCardWrite_reserved {s : State} {kind : CommandKind} (n : Number) (body : WriteBody) (tag : Byte)
    (present : s.rmi.absent = false) (place : s.rmi.queue.length < 8) :
    judgeCardWrite n body kind tag s.reserved =
      State.awaiting kind.code tag body { s with clu := (s.clu.invalidate n).markStale fun b => b == bucketOf n } := by
  have room : writesFull s.reserved = false := writesFull_eq_false (.inr place)
  rw [judgeCardWrite, room, reserved_rmi, present]
  rfl

theorem cardPutArgs_slotOf {r : CardRecord} (valid : validNumber r.number = true) (expiry : ∀ d ∈ r.expiry, d ≤ 65535)
    (start : ∀ d ∈ r.start, d ≤ 65535) : cardPutArgs ((slotOf r).take 15) = some (some r) := by
  have size : ((slotOf r).take 15).length = 15 := by simp [slotOf, withCheck]
  have back := cardFields_slotOf valid expiry start []
  rw [List.append_nil] at back
  rw [cardPutArgs, fixed_eq_some size, back]

/-- Settles O23: the commands are taken, and the cache gives the card up. -/
theorem cardCommandsAccepted : Obligations.CardCommandsAccepted := by
  unfold Obligations.CardCommandsAccepted
  intro withdrawn
  have withdrawn_eq (n : Number) (u : CardLookup) : (u.invalidate n).markStale (fun b => b == bucketOf n) = withdrawn n u := by
    cases found : cacheFind u n with
    | none => simp [withdrawn, invalidate_absent found, found, CardLookup.markStale, bucket_beq]
    | some i => simp [withdrawn, invalidate_found found, found, CardLookup.markStale, bucket_beq]
  refine ⟨fun tag card s serves present place h0 h1 expiry start => ?_, fun tag n s serves present place h0 h1 => ?_,
    fun tag s serves => ?_⟩
  · refine (serves_takeCommand serves (cardPutArgs_slotOf (validNumber_iff.mpr ⟨h0, h1⟩) expiry start)).trans (congrArg _ ?_)
    rw [← withdrawn_eq]
    exact judgeCardWrite_reserved card.number (.cardPut card) tag present place
  · refine (serves_takeCommand serves (numberArgs_bytesOf n)).trans (congrArg _ ?_)
    rw [← withdrawn_eq]
    simp only [validNumber_iff.mpr ⟨h0, h1⟩, Bool.not_true, Bool.false_eq_true, if_false]
    exact judgeCardWrite_reserved n (.cardDrop n) tag present place
  · refine (serves_takeCommand serves (args := noArgs []) (a := PUnit.unit) rfl).trans (congrArg _ ?_)
    refine (answer_reserved rfl tag .ok { s with clu := s.clu.flush.markStale fun _ => true }).trans ?_
    simp [CardLookup.flush, CardLookup.markStale]
    rfl

end Sys2Proof.Machine
end

