-- ==== Sys2Proof/Proofs/Posting.lean ====
section
/-! What a posted report and a queued REPLY leave of the upstream queue (R191, R200 to R202), for the commands that end with them. -/

namespace Sys2Proof.Machine

/-! ### One entry more -/

theorem mem_entries_enqueue {t : TrunkPort} {e x : UpEntry} : x ∈ (t.enqueue e).entries ↔ x ∈ t.entries ∨ x = e := by
  unfold TrunkPort.enqueue TrunkPort.entries
  cases h : t.line with
  | none => simp [or_comm]
  | some l => simp [or_assoc]

/-- Where an entry waits only behind one on the line, a new entry is the last. -/
theorem getLast_entries_enqueue {t : TrunkPort} (begun : t.line = none → t.waiting = []) (e : UpEntry) :
    (t.enqueue e).entries.getLast? = some e := by
  unfold TrunkPort.enqueue TrunkPort.entries
  cases h : t.line with
  | none => simp [begun h]
  | some l => simp [List.getLast?_append, List.getLast?_cons]

theorem begun_enqueue {t : TrunkPort} (e : UpEntry) (h : (t.enqueue e).line = none) : (t.enqueue e).waiting = [] := by
  unfold TrunkPort.enqueue at h ⊢
  split at h
  · exact absurd h (by simp)
  · rename_i busy
    exact absurd (Option.isNone_iff_eq_none.mpr h) busy

@[simp] theorem queueReply_entries (kind tag : Byte) (status : Status) (detail : Detail) (s : State) :
    (queueReply kind tag status detail s).tp.entries = (s.tp.enqueue (.reply kind tag status detail)).entries := by
  unfold queueReply TrunkPort.enqueue TrunkPort.entries
  split <;> rfl

theorem mem_entries_queueReply {kind tag : Byte} {status : Status} {detail : Detail} {s : State} {x : UpEntry}
    (h : x ∈ s.tp.entries) : x ∈ (queueReply kind tag status detail s).tp.entries := by
  rw [queueReply_entries]
  exact mem_entries_enqueue.mpr (.inl h)

/-! ### Reports that enter as new entries (R200, R202) -/

theorem begun_reported {t : TrunkPort} (begun : t.line = none → t.waiting = []) (r : Report) :
    (t.reported r).line = none → (t.reported r).waiting = [] := by
  unfold TrunkPort.reported
  split
  · exact begun_enqueue _
  · exact begun

theorem entries_reported {t : TrunkPort} {r : Report} {x : UpEntry} (h : x ∈ t.entries) : x ∈ (t.reported r).entries := by
  unfold TrunkPort.reported
  split
  · exact mem_entries_enqueue.mpr (.inl h)
  · exact h

theorem mem_entries_reported {t : TrunkPort} (room : t.occupancy < 120) (r : Report) :
    UpEntry.report t.reportSeq r ∈ (t.reported r).entries := by
  rw [TrunkPort.reported, if_pos room]
  exact mem_entries_enqueue.mpr (.inr rfl)

@[simp] theorem reported_effective (t : TrunkPort) (r : Report) : (t.reported r).effective = t.effective := by
  unfold TrunkPort.reported
  split
  · exact enqueue_effective _ _
  · rfl

@[simp] theorem reported_reserved (t : TrunkPort) (r : Report) : (t.reported r).reserved = t.reserved := by
  unfold TrunkPort.reported TrunkPort.enqueue
  split
  · split <;> rfl
  · rfl

theorem reserved_occupancy (s : State) : s.reserved.tp.occupancy = s.tp.occupancy + 1 := by
  simp [State.reserved, TrunkPort.occupancy, Nat.add_assoc]
  rfl

/-- A report other than a DEPOSIT_REPORT enters as a new entry (R203). -/
theorem postReport_reported {r : Report} (other : ∀ d, r ≠ .deposit d) (s : State) : postReport r s = { s with tp := s.tp.reported r } := by
  cases r with
  | deposit d => exact absurd rfl (other d)
  | _ => exact placeReport_reported _ s

/-- The last REPLY of a command that reported before it. -/
theorem getLast_entries_queueReply {kind tag : Byte} {status : Status} {detail : Detail} {s : State}
    (begun : s.tp.line = none → s.tp.waiting = []) :
    (queueReply kind tag status detail s).tp.entries.getLast? = some (.reply kind tag status detail) := by
  rw [queueReply_entries]
  exact getLast_entries_enqueue begun _

/-! ### CONTAINER_STATUS at the end of an event (R91, R92) -/

/-- The end of an event that changed the container posts its CONTAINER_STATUS. -/
theorem reportChange_changed {r : Row} {c : ContainerConfig} {cause : StatusCause} {before s : State} (config : configOf s r = some c)
    (changed : statusChanged r before s = true) :
    reportChange r cause before s = { s with tp := s.tp.reported (.containerStatus (containerStatus r c cause before s)) } := by
  unfold reportChange
  rw [config]
  exact (if_pos changed).trans (postReport_reported (by simp) s)

/-- An event that changed nothing that CONTAINER_STATUS carries posts none. -/
theorem reportChange_unchanged {r : Row} {cause : StatusCause} {before s : State} (same : statusChanged r before s = false) :
    reportChange r cause before s = s := by
  unfold reportChange
  split
  · rfl
  · simp [same]

theorem begun_reportChange {r : Row} {cause : StatusCause} {before s : State} (begun : s.tp.line = none → s.tp.waiting = []) :
    (reportChange r cause before s).tp.line = none → (reportChange r cause before s).tp.waiting = [] := by
  unfold reportChange
  split
  · exact begun
  · split
    · rw [postReport_reported (by simp)]
      exact begun_reported begun _
    · exact begun

end Sys2Proof.Machine
end

