-- ==== Sys2Proof/Proofs/Answers.lean ====
section
/-! What an answered poll does, in the order of R52: the row's state, the delivery, the raised mark, the item. With it, proofs about
completed joins (2.3), answers (3.7), deliveries (3.6), DOZE_NOTICE and PASS_UP. -/

namespace Sys2Proof.Machine

/-! ### One row of the street loop written -/

theorem Table.set_get_self {α : Type} {n : Nat} (t : Table α n) (i : Fin n) : t.set i (t.get i) = t :=
  Table.ext_get fun j => by by_cases h : j = i <;> simp [h]

@[simp] theorem Table.set_set {α : Type} {n : Nat} (t : Table α n) (i : Fin n) (x y : α) : (t.set i x).set i y = t.set i y :=
  Table.ext_get fun j => by by_cases h : j = i <;> simp [h]

theorem Table.update_eq_set {α : Type} {n : Nat} (t : Table α n) (i : Fin n) (f : α → α) : t.update i f = t.set i (f (t.get i)) := rfl

/-- A station row written. -/
def State.withRow (a : Station) (row : StationRow) (s : State) : State :=
  { s with slc := { s.slc with rows := s.slc.rows.set a row } }

theorem setStation_eq_withRow (a : Station) (f : StationRow → StationRow) (s : State) :
    setStation a f s = s.withRow a (f (s.slc.rows.get a)) := rfl

@[simp] theorem get_withRow (a : Station) (row : StationRow) (s : State) : (s.withRow a row).slc.rows.get a = row :=
  Table.get_set_self _ _ _

@[simp] theorem withRow_withRow (a : Station) (x y : StationRow) (s : State) : (s.withRow a x).withRow a y = s.withRow a y := by
  simp [State.withRow]

theorem withRow_self (a : Station) (s : State) : s.withRow a (s.slc.rows.get a) = s := by
  rw [State.withRow, Table.set_get_self]

/-! ### Station events (R33) -/

/-- A STATION_EVENT about a row as it stands. -/
def stationNews (event : StationEventKind) (a : Station) (kind : Option JoinKind) (cause : Option JoinCause)
    (notPersisted : Option Bool) (row : StationRow) (stamp : Stamp) : Report :=
  .station { event := event, address := some a, serial := row.serial, joinKind := kind, cause := cause, result := some row.state,
             rejoin := some row.rejoin, notPersisted := notPersisted, stamp := stamp }

theorem rowEvent_eq (event : StationEventKind) (a : Station) (kind : Option JoinKind) (cause : Option JoinCause)
    (notPersisted : Option Bool) (s : State) : rowEvent event a kind cause notPersisted s =
      { s with tp := s.tp.reported (stationNews event a kind cause notPersisted (s.slc.rows.get a) s.stamp) } :=
  postReport_reported (r := stationNews event a kind cause notPersisted (s.slc.rows.get a) s.stamp) (by simp [stationNews]) s

/-! ### The row's state at an answer (R21, R27, R31) -/

/-- A polled row once its answer has come: the first part of R52. -/
def StationRow.answered (uptime seconds : Clock) (limit : Nat) (rest : Bool) (row : StationRow) : StationRow :=
  let row := { row with miss := 0, due := false }
  match row.state with
  | .absent | .silent => row.wake' uptime
  | .dozing => row.answerDozing seconds rest
  | .joining => row.completeJoin uptime limit
  | .awake | .unbound | .lost | .barred => row

/-- The report that the row's state makes of an answer. -/
def StationRow.answerNews (a : Station) (stamp : Stamp) (old new : StationRow) : Option Report :=
  match old.state with
  | .absent => some (stationNews .resumed a none none none new stamp)
  | .joining => some (stationNews .joined a new.lastJoin new.joinCause (some new.joinUnwritten) new stamp)
  | _ => none

/-- The Trunk Port after a report that an event may make. -/
def TrunkPort.told (t : TrunkPort) : Option Report → TrunkPort
  | some r => t.reported r
  | none => t

/-- The row that an answer leaves in a state. -/
def State.answeredRow (rest : Bool) (a : Station) (s : State) : StationRow :=
  (s.slc.rows.get a).answered s.tk.uptime s.tk.seconds s.tp.effective.rejoinLimit rest

theorem answerState_eq (rest : Bool) (a : Station) (s : State) : answerState rest a s =
    { s.withRow a (s.answeredRow rest a) with
      tp := s.tp.told ((s.slc.rows.get a).answerNews a s.stamp (s.answeredRow rest a)) } := by
  unfold answerState State.answeredRow StationRow.answered StationRow.answerNews
  simp only [setStation_eq_withRow, get_withRow, withRow_withRow]
  cases state : (s.slc.rows.get a).state with
  | absent => simp only [state]; exact rowEvent_eq _ _ _ _ _ _ |>.trans (by simp only [get_withRow]; rfl)
  | joining =>
    simp only [state, completeJoin, setStation_eq_withRow, get_withRow, withRow_withRow]
    exact rowEvent_eq _ _ _ _ _ _ |>.trans (by simp only [get_withRow]; rfl)
  | _ => simp only [state]; rfl

/-- The queue, the serial and the wake interval of a row are not an answer's to change. -/
theorem answered_queue (uptime seconds : Clock) (limit : Nat) (rest : Bool) (row : StationRow) (queue : List Queued) :
    ({ row with queue := queue }).answered uptime seconds limit rest =
      { row.answered uptime seconds limit rest with queue := queue } := by
  unfold StationRow.answered
  cases state : row.state with
  | dozing => cases rest <;> simp [StationRow.answerDozing]
  | joining =>
    simp only [StationRow.completeJoin, joinKindOf]
    split
    · rfl
    · split <;> rfl
  | _ => simp [StationRow.wake']

theorem answeredRow_queue (rest : Bool) (a : Station) (s : State) : (s.answeredRow rest a).queue = (s.slc.rows.get a).queue := by
  have kept := congrArg StationRow.queue (answered_queue s.tk.uptime s.tk.seconds s.tp.effective.rejoinLimit rest
    (s.slc.rows.get a) (s.slc.rows.get a).queue)
  exact kept

/-! ### The answered poll (R52) -/

/-- An answered poll of a polled row, as the item finds it: the first three parts of R52. -/
def State.answering (p : Poll) (flags : Byte) (rest : Bool) (s : State) : State :=
  markRaised (morePending flags) p.address (deliver p (answerState rest p.address (endPoll s)))

theorem answerPoll_polled {p : Poll} {flags : Byte} {rest : Bool} {item : Station → State → State} {s : State}
    (polled : (s.slc.rows.get p.address).state.polled = true) : answerPoll p flags rest item s =
      if ((s.answering p flags rest).slc.rows.get p.address).state = .barred then s.answering p flags rest
      else item p.address (s.answering p flags rest) := by
  unfold answerPoll
  rw [if_neg (by simpa using polled)]
  rfl

theorem answerPoll_unpolled {p : Poll} {flags : Byte} {rest : Bool} {item : Station → State → State} {s : State}
    (unpolled : (s.slc.rows.get p.address).state.polled = false) : answerPoll p flags rest item s = endPoll s := by
  unfold answerPoll
  rw [if_pos (by simpa using unpolled)]

theorem loopAnswer_poll {s : State} {p : Poll} (turn : s.slc.turn = some (.poll p)) (flags : Byte) (item : UpItem) :
    loopAnswer flags item s = answerPoll p flags (item.rests flags) (handItem item) s := by
  rw [loopAnswer, onTurn, turn]

/-! ### The delivery (R49, R139) -/

/-- A poll that carries no command, or one that no longer stands in the queue, delivers nothing. -/
theorem deliver_still {p : Poll} (still : ∀ q, p.load = .command q → p.standing = false) (s : State) : deliver p s = s := by
  unfold deliver
  split
  · rename_i q load standing
    rw [still q load] at standing
    exact absurd standing (by simp)
  · rfl

/-- The Admission Unit once a command has been delivered to a station (R139). -/
def deliveredTo (a : Station) (c : DownCommand) (s : State) : AdmissionUnit :=
  match c with
  | .grant bay tag => (grantDelivered a bay tag s).au
  | _ => s.au

theorem grantDelivered_eq (a : Station) (bay : Bay) (tag : Byte) (s : State) :
    grantDelivered a bay tag s = { s with au := (grantDelivered a bay tag s).au } := by
  unfold grantDelivered
  split
  · rfl
  · split
    · split <;> rfl
    · rfl

theorem deliveredTo_congr {s t : State} (rows : t.ft.rows = s.ft.rows) (au : t.au = s.au) (a : Station) (c : DownCommand) :
    deliveredTo a c t = deliveredTo a c s := by
  have place (bay : Nat) : containerAt t a bay = containerAt s a bay := by rw [containerAt, containerAt, rows]
  cases c with
  | grant bay tag =>
    cases found : containerAt s a bay.val with
    | none => simp [deliveredTo, grantDelivered, place, found, au]
    | some r =>
      cases held : s.au.deposits.get r with
      | none => simp [deliveredTo, grantDelivered, place, found, au, held]
      | some d => by_cases same : d.tag = tag <;> simp [deliveredTo, grantDelivered, place, found, au, held, same, setDeposit]
  | _ => exact au

theorem deliver_command {p : Poll} {q : Queued} (load : p.load = .command q) (standing : p.standing = true) (s : State) :
    deliver p s =
      { s.withRow p.address { s.slc.rows.get p.address with queue := (s.slc.rows.get p.address).queue.tail } with
        au := deliveredTo p.address q.command s } := by
  have same := deliveredTo_congr (s := s) (t := s.withRow p.address
    { s.slc.rows.get p.address with queue := (s.slc.rows.get p.address).queue.tail }) rfl rfl p.address q.command
  rw [← same]
  simp only [deliver, load, standing, setStation_eq_withRow]
  cases q.command with
  | grant bay tag => exact grantDelivered_eq _ _ _ _
  | _ => rfl

/-- The queue that a delivery leaves its row. -/
def State.deliveredQueue (p : Poll) (s : State) : List Queued := ((deliver p s).slc.rows.get p.address).queue

/-- An answered poll: the row as the answer leaves it, its queue and the Admission Unit as the delivery does, and the report. -/
theorem answering_eq (p : Poll) (flags : Byte) (rest : Bool) (s : State) : s.answering p flags rest =
    { (endPoll s).withRow p.address { s.answeredRow rest p.address with
        queue := s.deliveredQueue p
        raised := morePending flags && (s.answeredRow rest p.address).state != .barred } with
      tp := s.tp.told ((s.slc.rows.get p.address).answerNews p.address s.stamp (s.answeredRow rest p.address))
      au := (deliver p s).au } := by
  have queue := answeredRow_queue rest p.address s
  rw [State.answering, State.deliveredQueue]
  by_cases still : ∀ q, p.load = .command q → p.standing = false
  · rw [deliver_still still, deliver_still still, answerState_eq, markRaised, setStation_eq_withRow, ← queue]
    simp [State.withRow, endPoll, State.answeredRow, State.stamp]
    rfl
  · simp only [not_forall, Bool.not_eq_false] at still
    obtain ⟨q, load, standing⟩ := still
    have ft : (answerState rest p.address (endPoll s)).ft.rows = s.ft.rows := by rw [answerState_eq]; rfl
    have au : (answerState rest p.address (endPoll s)).au = s.au := by rw [answerState_eq]; rfl
    rw [deliver_command load standing, deliver_command load standing, deliveredTo_congr ft au, markRaised, setStation_eq_withRow,
      answerState_eq]
    have queue' : ((endPoll s).answeredRow rest p.address).queue = (s.slc.rows.get p.address).queue := queue
    simp only [get_withRow, queue']
    simp only [State.withRow, Table.set_set, Table.get_set_self]
    rfl

/-- An answer to a poll that delivers nothing. -/
theorem answering_still {p : Poll} (still : ∀ q, p.load = .command q → p.standing = false) (flags : Byte) (rest : Bool) (s : State) :
    s.answering p flags rest =
      { (endPoll s).withRow p.address
          { s.answeredRow rest p.address with raised := morePending flags && (s.answeredRow rest p.address).state != .barred } with
        tp := s.tp.told ((s.slc.rows.get p.address).answerNews p.address s.stamp (s.answeredRow rest p.address)) } := by
  have queue : s.deliveredQueue p = (s.answeredRow rest p.address).queue := by
    rw [State.deliveredQueue, deliver_still still, answeredRow_queue]
  rw [answering_eq, deliver_still still, queue]
  rfl

/-- An AWAKE row's poll that carried nothing, answered: every item finds the row heard (R52). -/
theorem loopAnswer_awake {a : Station} {s : State} (polling : s.polling a) (awake : (s.slc.rows.get a).state = .awake) (flags : Byte)
    (item : UpItem) : loopAnswer flags item s = handItem item a (s.heard a flags) := by
  obtain ⟨retries, standing, turn⟩ := polling
  have row : s.answeredRow (item.rests flags) a = { s.slc.rows.get a with miss := 0, due := false } := by
    simp [State.answeredRow, StationRow.answered, awake]
  have heard : s.answering { address := a, load := .nothing, standing := standing, retries := retries } flags (item.rests flags) =
      s.heard a flags := by
    rw [answering_still (by simp)]
    simp only [row, awake, StationRow.answerNews]
    have fair : (StationState.awake != StationState.barred) = true := rfl
    simp [State.withRow, State.heard, endPoll, Table.update, TrunkPort.told, awake, fair]
  rw [loopAnswer_poll turn, answerPoll_polled (by simp [awake, StationState.polled]), heard, if_neg]
  simp [State.heard, awake]

/-! ### Which items a command brings -/

/-- The item of an answer's command. -/
def answerItem : Instr → UpItem
  | .dozeNotice _ interval => .dozeNotice interval
  | .depositRequest _ bay card tag => .depositRequest bay card tag
  | .depositClose _ bay how => .depositClose bay how
  | .levelSample _ bay echo temperature lid => .levelSample bay echo temperature lid
  | .liftRequest _ vehicle round n => .liftRequest vehicle round n
  | .roundEnd _ vehicle round => .liftRequest vehicle round 0xFFFFFFFF
  | .liftDone _ vehicle n weight lock => .liftDone vehicle n weight lock
  | .passUp _ bytes => .passUp bytes
  | _ => .nothing

theorem exec_answer {flags : Byte} {c : Instr} (answer : IsAnswer flags c) {s : State} (running : s.hold = .running) :
    exec c s = .next (loopAnswer flags (answerItem c) s) := by
  cases answer with
  | passUp bytes least most =>
    refine (whenRunning_running running).trans (congrArg _ ?_)
    rw [if_pos ⟨least, most⟩]
    rfl
  | _ => exact whenRunning_running running

end Sys2Proof.Machine
end

