-- ==== Sys2Proof/Proofs/Street.lean ====
section
/-! Proofs about completed joins (2.3), the row at an answer (3.7), what a poll carries and delivers (3.2, 3.6), DOZE_NOTICE (2.6) and
PASS_UP (10.5). -/

namespace Sys2Proof.Machine

theorem loopAnswer_polled {s : State} {p : Poll} (turn : s.slc.turn = some (.poll p))
    (polled : (s.slc.rows.get p.address).state.polled = true) (flags : Byte) (item : UpItem) : loopAnswer flags item s =
      if ((s.answering p flags (item.rests flags)).slc.rows.get p.address).state = .barred then
        s.answering p flags (item.rests flags)
      else handItem item p.address (s.answering p flags (item.rests flags)) := by
  rw [loopAnswer_poll turn, answerPoll_polled polled]

theorem exec_answerNothing {s : State} {p : Poll} (running : s.hold = .running) (turn : s.slc.turn = some (.poll p))
    (polled : (s.slc.rows.get p.address).state.polled = true) (flags : Byte) :
    exec (.answerNothing flags) s = .next (s.answering p flags (!morePending flags)) := by
  rw [exec_answer .nothing running, loopAnswer_polled turn polled]
  split <;> rfl

@[simp] theorem row_answering (p : Poll) (flags : Byte) (rest : Bool) (s : State) :
    (s.answering p flags rest).slc.rows.get p.address =
      { s.answeredRow rest p.address with
        queue := s.deliveredQueue p
        raised := morePending flags && (s.answeredRow rest p.address).state != .barred } := by
  rw [answering_eq]
  exact get_withRow _ _ _

/-! ### Completed joins (R21) -/

theorem joinKindOf_eq (r : StationRow) : joinKindOf r =
    if r.awakeSince = false then .first
    else if r.joinPrior = some .awake ∨ r.joinPrior = some .dozing then .restart else .comeback := by
  cases first : r.awakeSince with
  | false => simp [joinKindOf, first]
  | true =>
    cases prior : r.joinPrior with
    | none => simp [joinKindOf, first, prior]
    | some state => cases state <;> simp [joinKindOf, first, prior]

/-- A completed join, whatever its kind. -/
theorem completeJoin_eq (uptime : Clock) (limit : Nat) (r : StationRow) :
    let kind := joinKindOf r
    let count := if kind = .first then r.rejoin else r.rejoin + 1
    let barred := decide (kind ≠ .first ∧ count = limit)
    r.completeJoin uptime limit = { r with
      state := if barred then .barred else .awake
      rejoin := count, miss := 0, joinPrior := none, lastJoin := some kind
      awakeSince := if barred then r.awakeSince else true
      stableSince := if barred then r.stableSince else uptime
      raised := r.raised && !barred } := by
  intro kind count barred
  unfold StationRow.completeJoin
  cases found : joinKindOf r with
  | first => simp [count, barred, kind, found, StationRow.wake']
  | _ =>
    by_cases full : r.rejoin + 1 = limit
    all_goals simp [count, barred, kind, found, StationRow.wake', full]

/-- Settles O44: the row is the completed join's, and its report the one event's. -/
theorem joinCompletes : Obligations.JoinCompletes := by
  intro p flags s running turn accept joining before kind count barred
  have polled : (s.slc.rows.get p.address).state.polled = true := by rw [joining]; rfl
  have still : ∀ q, p.load = .command q → p.standing = false := by
    obtain ⟨serial, load⟩ := accept
    simp [load]
  have row (rest : Bool) : s.answeredRow rest p.address = { before with
      state := if barred then .barred else .awake
      rejoin := count, miss := 0, joinPrior := none, lastJoin := some kind, due := false
      awakeSince := if barred then before.awakeSince else true
      stableSince := if barred then before.stableSince else s.tk.uptime
      raised := before.raised && !barred } := by
    have kind_eq : joinKindOf { before with miss := 0, due := false } = kind := joinKindOf_eq _
    have join := completeJoin_eq s.tk.uptime s.tp.effective.rejoinLimit { before with miss := 0, due := false }
    rw [kind_eq] at join
    simp only [State.answeredRow, StationRow.answered, joining]
    exact join
  have more : (morePending flags && (s.answeredRow (!morePending flags) p.address).state != .barred) =
      (flags.getLsbD 0 && !barred) := by
    rw [row]
    cases barred <;> rfl
  refine ⟨_, { s.answeredRow (!morePending flags) p.address with
    raised := morePending flags && (s.answeredRow (!morePending flags) p.address).state != .barred },
    exec_answerNothing running turn polled flags, ?_, ?_, fun room => ?_, ?_⟩
  · rw [answering_still still]
    rfl
  · rw [more, row]
  · rw [answering_still still, row]
    simp only [StationRow.answerNews, joining]
    exact mem_entries_reported room _
  · rw [answering_still still]
    exact ⟨rfl, rfl, rfl, rfl, rfl, rfl, rfl⟩

/-! ### The row at an answer (R27, R31, R52) -/

/-- A completed join leaves its row AWAKE or BARRED. -/
theorem completeJoin_state (uptime : Clock) (limit : Nat) (r : StationRow) :
    (r.completeJoin uptime limit).state = .barred ∨ (r.completeJoin uptime limit).state = .awake := by
  rw [completeJoin_eq]
  cases decide (joinKindOf r ≠ .first ∧ (if joinKindOf r = .first then r.rejoin else r.rejoin + 1) = limit)
  · exact .inr rfl
  · exact .inl rfl

theorem answered_silent {row : StationRow} (uptime seconds : Clock) (limit : Nat) (rest : Bool)
    (state : row.state = .silent ∨ row.state = .absent) : row.answered uptime seconds limit rest =
      { row with miss := 0, due := false, state := .awake, awakeSince := true, stableSince := uptime } := by
  rcases state with h | h <;> simp [StationRow.answered, h, StationRow.wake']

theorem answered_dozing {row : StationRow} (uptime seconds : Clock) (limit : Nat) (rest : Bool) (state : row.state = .dozing) :
    row.answered uptime seconds limit rest =
      if rest then { row with miss := 0, due := false, wake := seconds + BitVec.ofNat 32 row.doze }
      else { row with miss := 0, due := false, state := .awake, awakeSince := true } := by
  cases rest <;> simp [StationRow.answered, state, StationRow.answerDozing]

/-- An answer leaves no missed poll and no due mark. -/
theorem answered_cleared (uptime seconds : Clock) (limit : Nat) (rest : Bool) (row : StationRow) :
    row.answered uptime seconds limit rest = { row.answered uptime seconds limit rest with miss := 0, due := false } := by
  unfold StationRow.answered
  cases state : row.state with
  | dozing => cases rest <;> rfl
  | joining => simp only [completeJoin_eq]
  | _ => rfl

/-- A row that the answer has left heard is heard as it stands. -/
theorem heard_of_heard {a : Station} {flags : Byte} {v : State} {n : Nat} {turn : Option Turn}
    (row : { v.slc.rows.get a with miss := 0, due := false, raised := morePending flags } = v.slc.rows.get a)
    (ended : v.slc.turn = none) (since : v.slc.sinceOpen = min 32 (n + 1)) :
    State.heard a flags { v with slc := { v.slc with turn := turn, sinceOpen := n } } = v := by
  simp only [State.heard, Table.update_eq_set, row, Table.set_get_self, ← ended, ← since]

theorem rests_eq_false {flags : Byte} {c : Instr} (answer : IsAnswer flags c) (other : c ≠ .answerNothing flags)
    (awake : ∀ interval, c ≠ .dozeNotice flags interval) : (answerItem c).rests flags = false := by
  cases answer with
  | nothing => exact absurd rfl other
  | dozeNotice interval => exact absurd rfl (awake interval)
  | _ => rfl

/-- Settles O45, by the state of the row. -/
theorem answerNothingTakesTheRow : Obligations.AnswerNothingTakesTheRow := by
  intro a flags s running polling row ended
  have ⟨retries, standing, turn⟩ := polling
  let p : Poll := { address := a, load := .nothing, standing := standing, retries := retries }
  have still : ∀ q, p.load = .command q → p.standing = false := by simp [p]
  have answered (rest : Bool) : s.answering p flags rest = { (endPoll s).withRow a
        { s.answeredRow rest a with raised := morePending flags && (s.answeredRow rest a).state != .barred } with
      tp := s.tp.told (row.answerNews a s.stamp (s.answeredRow rest a)) } := answering_still still flags rest s
  have nothing (polled : row.state.polled = true) : exec (.answerNothing flags) s = .next (s.answering p flags (!morePending flags)) :=
    exec_answerNothing running turn polled flags
  refine ⟨fun awake => ?_, fun silent => ?_, fun dozing rest => ?_, fun dozing more => ?_, fun absent room => ?_,
    fun c v answer state before => ?_, fun c answer dozing => ?_, fun c answer unbound => ?_⟩
  · rw [exec_answer .nothing running, loopAnswer_awake polling awake]
    rfl
  · have after (rest : Bool) : s.answeredRow rest a = { row with
        miss := 0, due := false, state := .awake, awakeSince := true, stableSince := s.tk.uptime } :=
      answered_silent _ _ _ rest (.inl silent)
    rw [nothing (by rw [silent]; rfl), answered, after, StationRow.answerNews, silent]
    exact congrArg _ (by simp [ended, State.withRow, endPoll, TrunkPort.told, morePending, show (StationState.awake != .barred) = true from rfl])
  · have after : s.answeredRow (!morePending flags) a = { row with
        miss := 0, due := false, wake := s.tk.seconds + BitVec.ofNat 32 row.doze } := by
      rw [State.answeredRow, answered_dozing _ _ _ _ dozing, show morePending flags = false from rest]; rfl
    rw [nothing (by rw [dozing]; rfl), answered, after, StationRow.answerNews, dozing]
    exact congrArg _ (by simp [ended, State.withRow, endPoll, TrunkPort.told, morePending, dozing, show (StationState.dozing != .barred) = true from rfl])
  · have after : s.answeredRow (!morePending flags) a = { row with
        miss := 0, due := false, state := .awake, awakeSince := true } := by
      rw [State.answeredRow, answered_dozing _ _ _ _ dozing, show morePending flags = true from more]; rfl
    rw [nothing (by rw [dozing]; rfl), answered, after, StationRow.answerNews, dozing]
    exact congrArg _ (by simp [ended, State.withRow, endPoll, TrunkPort.told, morePending, show (StationState.awake != .barred) = true from rfl])
  · have after (rest : Bool) : s.answeredRow rest a = { row with
        miss := 0, due := false, state := .awake, awakeSince := true, stableSince := s.tk.uptime } :=
      answered_silent _ _ _ rest (.inr absent)
    rw [nothing (by rw [absent]; rfl), answered, after, StationRow.answerNews, absent]
    have told (r : Report) : s.tp.told (some r) = { s.tp with reportSeq := s.tp.reportSeq + 1 }.enqueue (.report s.tp.reportSeq r) :=
      if_pos room
    simp only [told]
    exact congrArg _ (by simp [ended, State.withRow, endPoll, stationNews, morePending, show (StationState.awake != .barred) = true from rfl])
  · have polled : row.state.polled = true := by
      simp only [List.mem_cons, List.not_mem_nil, or_false] at state
      rcases state with h | h | h <;> rw [h] <;> rfl
    have same (rest : Bool) : s.answering p flags rest = v := by
      have free : s.answeredRow rest a = s.answeredRow (!morePending flags) a := by
        simp only [List.mem_cons, List.not_mem_nil, or_false] at state
        rcases state with h | h | h
        all_goals simp only [State.answeredRow, StationRow.answered, show (s.slc.rows.get a).state = _ from h]
      rw [nothing polled] at before
      injection before with here
      rw [← here, answered, answered, free]
    have row_v := row_answering p flags (!morePending flags) s
    rw [same] at row_v
    have exec_c : exec c s = .next (if (v.slc.rows.get a).state = .barred then v else handItem (answerItem c) a v) := by
      rw [exec_answer answer running, loopAnswer_polled turn polled, same]
    refine ⟨fun barred => by rw [exec_c, if_pos barred], fun fair => ?_⟩
    have awake : (v.slc.rows.get a).state = .awake := by
      rw [row_v] at fair ⊢
      simp only [List.mem_cons, List.not_mem_nil, or_false] at state
      rcases state with h | h | h
      · exact congrArg StationRow.state (answered_silent _ _ _ _ (.inl h))
      · exact congrArg StationRow.state (answered_silent _ _ _ _ (.inr h))
      · simp only [p, State.answeredRow, StationRow.answered, show (s.slc.rows.get a).state = _ from h] at fair ⊢
        exact (completeJoin_state _ _ _).resolve_left fair
    have v_eq := same (!morePending flags)
    rw [answered] at v_eq
    refine ⟨awake, ?_⟩
    have polling' : State.polling { v with slc := { v.slc with turn := s.slc.turn, sinceOpen := s.slc.sinceOpen } } a :=
      ⟨retries, standing, turn⟩
    rw [exec_c, if_neg fair, exec_answer answer (by rw [← v_eq]; exact running), loopAnswer_awake polling' awake]
    have heard : State.heard a flags { v with slc := { v.slc with turn := s.slc.turn, sinceOpen := s.slc.sinceOpen } } = v := by
      refine heard_of_heard ?_ (by rw [← v_eq]; rfl) (by rw [← v_eq]; rfl)
      have fair' : (s.answeredRow (!morePending flags) a).state ≠ .barred := by rw [row_v] at fair; exact fair
      have open_ : ((s.answeredRow (!morePending flags) a).state != .barred) = true := by simpa using fair'
      have cleared : s.answeredRow (!morePending flags) a = { s.answeredRow (!morePending flags) a with miss := 0, due := false } :=
        answered_cleared _ _ _ _ _
      rw [row_v]
      simp only [p, open_, Bool.and_true]
      rw [cleared]
    rw [heard]
  · have polled : (s.slc.rows.get p.address).state.polled = true := by rw [show (s.slc.rows.get p.address).state = _ from dozing]; rfl
    have exec_c : exec c s = .next (loopAnswer flags (answerItem c) s) := exec_answer answer running
    have exec_awake (r : StationRow) (awake : r.state = .awake) :
        exec c (s.withRow a r) = .next (handItem (answerItem c) a ((s.withRow a r).heard a flags)) := by
      rw [exec_answer (s := s.withRow a r) answer running, loopAnswer_awake (s := s.withRow a r) ⟨retries, standing, turn⟩ (by rw [get_withRow]; exact awake)]
    have told (rest : Bool) : s.tp.told (row.answerNews a s.stamp (s.answeredRow rest a)) = s.tp := by
      rw [StationRow.answerNews, dozing]; rfl
    refine ⟨fun ⟨interval, here⟩ => ?_, fun other awake => ?_⟩
    · refine exec_c.trans (Eq.trans ?_ (exec_awake _ rfl).symm)
      have asleep : s.answeredRow true a = { row with miss := 0, due := false, wake := s.tk.seconds + BitVec.ofNat 32 row.doze } := by
        rw [State.answeredRow, answered_dozing _ _ _ _ dozing]; rfl
      rw [loopAnswer_polled turn polled, here, if_neg (by rw [row_answering]; simp [p, asleep, UpItem.rests, answerItem, dozing])]
      have rests : (answerItem (.dozeNotice flags interval)).rests flags = true := rfl
      rw [rests, answered, told, asleep]
      simp [p, handItem, answerItem, dozeNotice, setStation, Table.update_eq_set, State.withRow, State.heard, StationRow.doze', endPoll,
        dozing, show (StationState.dozing != .barred) = true from rfl]
    · refine exec_c.trans (Eq.trans ?_ (exec_awake _ rfl).symm)
      have woken : s.answeredRow false a = { row with miss := 0, due := false, state := .awake, awakeSince := true } := by
        rw [State.answeredRow, answered_dozing _ _ _ _ dozing]; rfl
      have heard : s.answering p flags false = (s.withRow a { row with state := .awake, awakeSince := true }).heard a flags := by
        rw [answered, told, woken]
        simp [State.withRow, State.heard, endPoll, Table.update, show (StationState.awake != .barred) = true from rfl]
      rw [loopAnswer_polled turn polled, rests_eq_false answer other awake, heard, if_neg (by simp [State.heard])]
  · rw [exec_answer answer running, loopAnswer_poll turn, answerPoll_unpolled (by rw [show (s.slc.rows.get a).state = _ from unbound]; rfl)]
    rfl

/-! ### What a poll carries and delivers (R39, R49, R139) -/

theorem pollLoad_serving {r : StationRow} (serving : r.state ≠ .joining) : pollLoad r = match r.queue with
    | q :: _ => .command q
    | [] => .nothing := by
  unfold pollLoad
  split
  · rename_i joining; exact absurd joining serving
  · rfl

/-- A delivery changes the deposits alone. -/
theorem deliveredTo_eq (a : Station) (c : DownCommand) (s : State) :
    deliveredTo a c s = { s.au with deposits := (deliveredTo a c s).deposits } := by
  cases c with
  | grant bay tag =>
    simp only [deliveredTo, grantDelivered]
    split
    · rfl
    · split
      · split <;> rfl
      · rfl
  | _ => rfl

theorem deliveredTo_grant {a : Station} {bay : Bay} {tag : Byte} {r : Row} {d : OpenDeposit} {s : State}
    (found : containerAt s a bay.val = some r) (deposit : s.au.deposits.get r = some d) :
    deliveredTo a (.grant bay tag) s =
      if d.tag = tag then { s.au with deposits := s.au.deposits.set r (some { d with delivered := true }) } else s.au := by
  simp only [deliveredTo, grantDelivered, found, deposit]
  by_cases same : d.tag = tag <;> simp [same, setDeposit]

/-- A deposit that a delivered command marks: that of the GRANT's container, under its tag. -/
def State.marks (s : State) (a : Station) (c : DownCommand) (r : Row) (d : OpenDeposit) : Prop :=
  ∃ bay tag, c = .grant bay tag ∧ containerAt s a bay.val = some r ∧ s.au.deposits.get r = some d ∧ d.tag = tag

theorem deliveredTo_marked {s : State} {a : Station} {c : DownCommand} {r : Row} {d : OpenDeposit} (marks : s.marks a c r d) :
    deliveredTo a c s = { s.au with deposits := s.au.deposits.set r (some { d with delivered := true }) } := by
  obtain ⟨bay, tag, rfl, found, deposit, same⟩ := marks
  rw [deliveredTo_grant found deposit, if_pos same]

theorem deliveredTo_unmarked {s : State} {a : Station} {c : DownCommand} (none_ : ∀ r d, ¬s.marks a c r d) : deliveredTo a c s = s.au := by
  cases c with
  | grant bay tag =>
    cases found : containerAt s a bay.val with
    | none => simp [deliveredTo, grantDelivered, found]
    | some r =>
      cases deposit : s.au.deposits.get r with
      | none => simp [deliveredTo, grantDelivered, found, deposit]
      | some d => rw [deliveredTo_grant found deposit, if_neg fun same => none_ r d ⟨bay, tag, rfl, found, deposit, same⟩]
  | _ => rfl

theorem deliveredQueue_command {p : Poll} {q : Queued} (load : p.load = .command q) (standing : p.standing = true) (s : State) :
    s.deliveredQueue p = (s.slc.rows.get p.address).queue.tail := by
  rw [State.deliveredQueue, deliver_command load standing]
  exact congrArg StationRow.queue (get_withRow _ _ _)

/-- An answered poll has the effect that it has once its delivery has been made: a poll to the same address that carries nothing, from
the state with the row's queue and the Admission Unit as the delivery leaves them. -/
theorem answering_delivered (p : Poll) (flags : Byte) (rest : Bool) (s : State) (queue : List Queued) (au : AdmissionUnit)
    (taken : s.deliveredQueue p = queue) (marked : (deliver p s).au = au) :
    s.answering p flags rest =
      State.answering { p with load := .nothing } flags rest { s with
        slc := { s.slc with
          turn := some (.poll { p with load := .nothing })
          rows := s.slc.rows.set p.address { s.slc.rows.get p.address with queue := queue } }
        au := au } := by
  rw [answering_eq, answering_still (by simp), taken, marked]
  simp only [State.answeredRow, Table.get_set_self, answered_queue]
  simp [State.withRow, endPoll, StationRow.answerNews, stationNews, State.stamp]

theorem polled_of_mem {state : StationState} (h : state ∈ [StationState.awake, .dozing, .silent, .absent, .joining]) :
    state.polled = true := by
  cases state <;> simp_all [StationState.polled]

/-- An answer's command on a poll has the effect it has once the delivery has been made. -/
theorem exec_delivered {flags : Byte} {c : Instr} {p : Poll} {s : State} (running : s.hold = .running) (answer : IsAnswer flags c)
    (turn : s.slc.turn = some (.poll p)) (polled : (s.slc.rows.get p.address).state.polled = true) {queue : List Queued}
    {au : AdmissionUnit} (taken : s.deliveredQueue p = queue) (marked : (deliver p s).au = au) :
    exec c s = exec c { s with
      slc := { s.slc with
        turn := some (.poll { p with load := .nothing })
        rows := s.slc.rows.set p.address { s.slc.rows.get p.address with queue := queue } }
      au := au } := by
  generalize delivered : ({ s with slc := _, au := _ } : State) = t
  have running' : t.hold = .running := by rw [← delivered]; exact running
  rw [exec_answer answer running, exec_answer answer running', ← delivered]
  rw [loopAnswer_polled turn polled, loopAnswer_polled (p := { p with load := .nothing }) rfl (by simpa using polled),
    answering_delivered p flags _ s queue au taken marked]

/-- Settles O46: the frame is read off the turn, and a delivery changes the head of the queue and the deposit it marks alone. -/
theorem pollsCarryAndDeliver : Obligations.PollsCarryAndDeliver := by
  refine ⟨fun r => ⟨fun serial joining known => ?_, fun q rest serving queue => ?_, fun serving queue => ?_,
    fun a seq tag bay standing retries => rfl⟩, fun a flags q rest retries s running turn awake queue => ?_,
    fun flags c p s running answer turn state => ?_⟩
  · simp [pollLoad, joining, known]
  · rw [pollLoad_serving serving, queue]
  · rw [pollLoad_serving serving, queue]
  · let p : Poll := { address := a, load := .command q, standing := true, retries := retries }
    refine ⟨_, exec_answerNothing (p := p) running turn (by simp [p, awake, StationState.polled]) flags, ?_⟩
    have row (rest : Bool) : s.answeredRow rest a = { s.slc.rows.get a with miss := 0, due := false } := by
      simp [State.answeredRow, StationRow.answered, awake]
    have au : (deliver p s).au = deliveredTo a q.command s := by rw [deliver_command rfl rfl]
    rw [answering_eq, deliveredQueue_command rfl rfl, au]
    refine ⟨?_, fun bay tag r d grant found deposit => ?_, fun other => ?_, ?_, ?_, rfl, rfl, rfl, rfl, ?_, rfl⟩
    · simp [p, State.withRow, endPoll, row, queue, awake, morePending, show (StationState.awake != .barred) = true from rfl]
    · rw [grant, deliveredTo_grant found deposit]
      split <;> rfl
    · exact deliveredTo_unmarked fun r d ⟨bay, tag, grant, _⟩ => other bay tag grant
    · rw [deliveredTo_eq]
    · rw [deliveredTo_eq]
    · simp [p, StationRow.answerNews, awake, TrunkPort.told]
  · intro carrying
    have polled := polled_of_mem state
    refine ⟨fun q load standing => ⟨fun r d marked => ?_, fun unmarked => ?_⟩, fun still => ?_⟩
    · refine exec_delivered running answer turn polled (deliveredQueue_command load standing s) ?_
      rw [deliver_command load standing]
      exact deliveredTo_marked marked
    · refine exec_delivered running answer turn polled (deliveredQueue_command load standing s) ?_
      rw [deliver_command load standing]
      exact deliveredTo_unmarked unmarked
    · have same := exec_delivered running answer turn polled (queue := (s.slc.rows.get p.address).queue)
        (by rw [State.deliveredQueue, deliver_still still]) (by rw [deliver_still still])
      have kept : s.slc.rows.set p.address { s.slc.rows.get p.address with queue := (s.slc.rows.get p.address).queue } =
          s.slc.rows := Table.set_get_self _ _
      exact same.trans (congrArg (fun rows => exec c { s with slc := carrying rows }) kept)

/-! ### DOZE_NOTICE and PASS_UP (R30, R197) -/

/-- Settles O47: both items find the row heard. -/
theorem dozeNoticeAndPassUp : Obligations.DozeNoticeAndPassUp := by
  refine ⟨fun a flags interval s running polling awake => ?_, fun a flags bytes s running polling awake least most room => ?_⟩
  · intro seconds
    rw [exec_answer (.dozeNotice interval) running, loopAnswer_awake polling awake]
    have clamped : max 10 (min 3600 interval.toNat) = seconds := by
      show max 10 (min 3600 interval.toNat) = if interval.toNat < 10 then 10 else if 3600 < interval.toNat then 3600 else interval.toNat
      split
      · omega
      · split <;> omega
    simp [handItem, answerItem, dozeNotice, setStation, State.heard, Table.update_eq_set, StationRow.doze', clamped, morePending]
  · rw [exec_answer (.passUp bytes least most) running, loopAnswer_awake polling awake]
    have posted (r : Report) : s.tp.reported r = { s.tp with reportSeq := s.tp.reportSeq + 1 }.enqueue (.report s.tp.reportSeq r) :=
      if_pos room
    rw [← posted]
    have serial : ((s.heard a flags).slc.rows.get a).serial = (s.slc.rows.get a).serial := by simp [State.heard]
    simp only [handItem, answerItem, passUp, serial]
    rw [postReport_reported (by simp)]
    rfl

end Sys2Proof.Machine
end

