-- ==== Sys2Proof/Proofs/Turns.lean ====
section
/-! Proofs about the poll arbiter (3.3, 3.4) and the ends of open slots (3.5). -/

namespace Sys2Proof.Machine

/-! ### The order of the rings (R41, R42) -/

/-- How far an address lies behind another, counted from the next one. -/
def behind (last a : Station) : Nat := (a.val + 61 - last.val) % 62

theorem behind_of_lt {last a : Station} (h : last < a) : behind last a = a.val - last.val - 1 := by
  have := a.isLt
  have := Fin.lt_def.mp h
  unfold behind
  omega

theorem behind_of_le {last a : Station} (h : a ≤ last) : behind last a = a.val + 61 - last.val := by
  have := last.isLt
  have := Fin.le_def.mp h
  unfold behind
  omega

theorem behind_injective {last a b : Station} (h : behind last a = behind last b) : a = b := by
  have := a.isLt; have := b.isLt; have := last.isLt
  unfold behind at h
  ext
  omega

theorem mem_addressesAfter (last a : Station) : a ∈ addressesAfter last := by
  rcases lt_or_ge last a with h | h <;> simp [addressesAfter, List.mem_finRange, h]

theorem addressesAfter_sorted (last : Station) : (addressesAfter last).Pairwise fun a b => behind last a < behind last b := by
  have up : (List.finRange 62).Pairwise fun a b => a < b := List.pairwise_lt_finRange 62
  refine List.pairwise_append.mpr ⟨?_, ?_, fun a ha b hb => ?_⟩
  · refine (List.Pairwise.filter _ up).imp_of_mem fun {a b} ha hb lt => ?_
    have ha : last < a := by simpa using List.of_mem_filter ha
    have hb : last < b := by simpa using List.of_mem_filter hb
    rw [behind_of_lt ha, behind_of_lt hb]
    have := Fin.lt_def.mp lt; have := Fin.lt_def.mp ha
    omega
  · refine (List.Pairwise.filter _ up).imp_of_mem fun {a b} ha hb lt => ?_
    have ha : a ≤ last := by simpa using List.of_mem_filter ha
    have hb : b ≤ last := by simpa using List.of_mem_filter hb
    rw [behind_of_le ha, behind_of_le hb]
    have := Fin.lt_def.mp lt; have := last.isLt
    omega
  · have ha : last < a := by simpa using List.of_mem_filter ha
    have hb : b ≤ last := by simpa using List.of_mem_filter hb
    rw [behind_of_lt ha, behind_of_le hb]
    have := Fin.lt_def.mp ha; have := a.isLt
    omega

/-- In a list in ascending order of a measure, the search finds the element of least measure that passes the test. -/
theorem find?_of_least {α : Type} {l : List α} {p : α → Bool} {m : α → Nat} (sorted : l.Pairwise fun a b => m a < m b) {a : α}
    (mem : a ∈ l) (pass : p a = true) (least : ∀ b, p b = true → m a ≤ m b) : l.find? p = some a := by
  induction l with
  | nil => simp at mem
  | cons x rest ih =>
    obtain ⟨first, sorted'⟩ := List.pairwise_cons.mp sorted
    rcases List.mem_cons.mp mem with rfl | later
    · simp [pass]
    · have fails : p x = false := by
        by_contra h
        exact absurd (first a later) (Nat.not_lt.mpr (least x (by simpa using h)))
      simp [fails, ih sorted' later]

theorem firstAfter_of_least {s : State} {last a : Station} {p : StationRow → Bool} (pass : p (s.slc.rows.get a) = true)
    (least : ∀ b, p (s.slc.rows.get b) = true → behind last a ≤ behind last b) : firstAfter s last p = some a :=
  find?_of_least (addressesAfter_sorted last) (mem_addressesAfter last a) pass least

theorem firstAfter_eq_none_iff {s : State} {last : Station} {p : StationRow → Bool} :
    firstAfter s last p = none ↔ ∀ b, p (s.slc.rows.get b) = false := by
  rw [firstAfter, List.find?_eq_none]
  exact ⟨fun h b => by simpa using h b (mem_addressesAfter last b), fun h b _ => by simp [h b]⟩

/-! ### The due row reached earliest (R42, R43) -/

theorem isDue_iff {r : StationRow} {now : Clock} :
    r.isDue now = true ↔ r.state = .dozing ∧ (r.due = true ∨ (now - r.wake).toNat < 2147483648) := by
  rw [StationRow.isDue, StationRow.wakeReached, elapsed, Bool.and_eq_true, Bool.or_eq_true, beq_iff_eq, decide_eq_true_eq]
  exact Iff.rfl

/-- How long ago a row's next wake second was reached. -/
def dueAge (s : State) (a : Station) : Nat := elapsed s.tk.seconds (s.slc.rows.get a).wake

/-- The choice among the due rows so far and one more. -/
def laterDue (s : State) (best : Option Station) (a : Station) : Option Station :=
  if (s.slc.rows.get a).isDue s.tk.seconds then
    match best with
    | none => some a
    | some b => if dueAge s b < dueAge s a then some a else some b
  else best

/-- The best of the due rows passed so far. -/
def BestDue (s : State) (passed : Station → Prop) : Option Station → Prop
  | none => ∀ b, passed b → (s.slc.rows.get b).isDue s.tk.seconds = false
  | some a => passed a ∧ (s.slc.rows.get a).isDue s.tk.seconds = true ∧
      ∀ b, passed b → (s.slc.rows.get b).isDue s.tk.seconds = true → dueAge s b < dueAge s a ∨ dueAge s b = dueAge s a ∧ a ≤ b

theorem bestDue_laterDue {s : State} {passed : Station → Prop} {best : Option Station} {a : Station} (so_far : BestDue s passed best)
    (later : ∀ b, passed b → b < a) : BestDue s (fun b => passed b ∨ b = a) (laterDue s best a) := by
  unfold laterDue
  by_cases due : (s.slc.rows.get a).isDue s.tk.seconds = true
  · rw [if_pos due]
    cases best with
    | none =>
      refine ⟨.inr rfl, due, fun b hb isDue => ?_⟩
      rcases hb with hb | rfl
      · rw [so_far b hb] at isDue; cases isDue
      · exact .inr ⟨rfl, le_rfl⟩
    | some b =>
      obtain ⟨before, bDue, best⟩ := so_far
      by_cases older : dueAge s b < dueAge s a
      · simp only [older, if_true]
        refine ⟨.inr rfl, due, fun c hc isDue => ?_⟩
        rcases hc with hc | rfl
        · rcases best c hc isDue with lt | ⟨eq, -⟩
          · exact .inl (lt.trans older)
          · exact .inl (eq ▸ older)
        · exact .inr ⟨rfl, le_rfl⟩
      · simp only [older, if_false]
        refine ⟨.inl before, bDue, fun c hc isDue => ?_⟩
        rcases hc with hc | rfl
        · exact best c hc isDue
        · exact (Nat.not_lt.mp older).lt_or_eq.imp_right fun eq => ⟨eq, (later b before).le⟩
  · rw [if_neg due]
    have not : (s.slc.rows.get a).isDue s.tk.seconds = false := by simpa using due
    cases best with
    | none => rintro b (hb | rfl); exacts [so_far b hb, not]
    | some b =>
      obtain ⟨before, bDue, best⟩ := so_far
      refine ⟨.inl before, bDue, ?_⟩
      rintro c (hc | rfl) isDue
      · exact best c hc isDue
      · rw [not] at isDue; cases isDue

theorem bestDue_foldl (s : State) : ∀ {l : List Station} {passed : Station → Prop} {best : Option Station},
    l.Pairwise (· < ·) → (∀ b, passed b → ∀ a ∈ l, b < a) → BestDue s passed best →
    BestDue s (fun b => passed b ∨ b ∈ l) (l.foldl (laterDue s) best)
  | [], _, best, _, _, so_far => by
    cases best <;> simpa [BestDue] using so_far
  | a :: rest, passed, best, sorted, later, so_far => by
    obtain ⟨first, sorted'⟩ := List.pairwise_cons.mp sorted
    have next := bestDue_foldl s (l := rest) sorted' (fun b hb c hc => ?_)
      (bestDue_laterDue so_far fun b hb => later b hb a List.mem_cons_self)
    · have same : (fun b => (passed b ∨ b = a) ∨ b ∈ rest) = fun b => passed b ∨ b ∈ a :: rest := by
        funext b; simp [or_assoc]
      rw [same] at next
      exact next
    · rcases hb with hb | rfl
      · exact later b hb c (List.mem_cons_of_mem _ hc)
      · exact first c hc

theorem bestDue_dueRow (s : State) : BestDue s (fun b => False ∨ b ∈ List.finRange 62) (dueRow s) :=
  bestDue_foldl s (best := none) (List.pairwise_lt_finRange 62) (fun _ h => h.elim) fun _ h => h.elim

theorem dueRow_eq_none {s : State} (none_ : ∀ b, (s.slc.rows.get b).isDue s.tk.seconds = false) : dueRow s = none := by
  have best := bestDue_dueRow s
  cases h : dueRow s with
  | none => rfl
  | some a =>
    rw [h] at best
    obtain ⟨-, due, -⟩ := best
    rw [none_ a] at due
    cases due

theorem dueRow_eq_some {s : State} {a : Station} (due : (s.slc.rows.get a).isDue s.tk.seconds = true)
    (oldest : ∀ b, (s.slc.rows.get b).isDue s.tk.seconds = true → dueAge s b < dueAge s a ∨ dueAge s b = dueAge s a ∧ a ≤ b) :
    dueRow s = some a := by
  have best := bestDue_dueRow s
  cases h : dueRow s with
  | none =>
    rw [h] at best
    rw [best a (.inr (List.mem_finRange a))] at due
    cases due
  | some c =>
    rw [h] at best
    obtain ⟨-, cDue, first⟩ := best
    rcases oldest c cDue with lt | ⟨eq, le⟩
    · rcases first a (.inr (List.mem_finRange a)) due with lt' | ⟨eq', -⟩
      · exact absurd lt (Nat.lt_asymm lt')
      · exact absurd lt (by rw [eq']; exact lt_irrefl _)
    · rcases first a (.inr (List.mem_finRange a)) due with lt' | ⟨-, le'⟩
      · exact absurd lt' (by rw [eq]; exact lt_irrefl _)
      · rw [le_antisymm le le']

/-! ### The turn begun (R40) -/

theorem inRing_iff {r : StationRow} : r.inRing = true ↔ r.state = .awake ∨ r.state = .silent ∨ r.state = .absent := by
  cases h : r.state <;> simp [StationRow.inRing, h]

theorem exec_loopTurnStart {s : State} (running : s.hold = .running) (ready : s.rmi.restoring = false) (idle : s.slc.turn = none) :
    exec .loopTurnStart s = .next (startTurn (chooseTurn s) s) := by
  refine (whenRunning_running running).trans (congrArg _ ?_)
  simp [startNextTurn, ready, idle]

/-- Settles O40: the rings are searched in the order that follows their last address, and the due rows for the oldest. -/
theorem arbiterChoosesTheTurn : Obligations.ArbiterChoosesTheTurn := by
  intro s running ready idle spacing row ring due after age polled
  rw [exec_loopTurnStart running ready idle]
  have spacing_eq : slotSpacing s = spacing := rfl
  have isDue (a : Station) : (s.slc.rows.get a).isDue s.tk.seconds = true ↔ due a := isDue_iff
  have not_due {b : Station} (h : ¬due b) : (s.slc.rows.get b).isDue s.tk.seconds = false := by
    rw [← isDue] at h; simpa using h
  have not_ring {b : Station} (h : ¬ring b) : (s.slc.rows.get b).inRing = false := by
    have h : ¬(s.slc.rows.get b).inRing = true := inRing_iff.not.mpr h
    simpa using h
  have nothing (h : ∀ b, ¬ring b ∧ ¬due b) : chooseRoutine s = none := by
    rw [chooseRoutine, dueRow_eq_none fun b => not_due (h b).2, firstAfter_eq_none_iff.mpr fun b => not_ring (h b).1]
    rfl
  refine ⟨fun enough => ?_, fun few => ⟨fun a member least allowed => ?_, fun idle_ => ⟨fun a isDue_ oldest => ?_,
    fun a noneDue inRing least => ?_⟩, fun noMember none_ => ?_⟩⟩
  · rw [chooseTurn, spacing_eq, if_pos enough]
    rfl
  all_goals have few' : ¬slotSpacing s ≤ s.slc.sinceOpen := Nat.not_le.mpr few
  · have found : firstAfter s s.slc.lastAttention StationRow.member = some a := firstAfter_of_least member least
    have choice : chooseTurn s = .attention a := by
      rw [chooseTurn, if_neg few', found]
      rcases allowed with allowed | none_
      · cases chooseRoutine s <;> simp [allowed]
      · rw [nothing none_]
    rw [choice]
    rfl
  · have routine : chooseRoutine s = some (.due a) := by
      rw [chooseRoutine, dueRow_eq_some ((isDue a).mpr isDue_) fun b h => oldest b ((isDue b).mp h)]
    have choice : chooseTurn s = .due a := by
      rw [chooseTurn, if_neg few', routine]
      rcases idle_ with noMember | streak
      · rw [firstAfter_eq_none_iff.mpr noMember]; rfl
      · cases firstAfter s s.slc.lastAttention StationRow.member <;> simp [Nat.not_lt.mpr streak]
    rw [choice]
    rfl
  · have routine : chooseRoutine s = some (.ring a) := by
      rw [chooseRoutine, dueRow_eq_none fun b => not_due (noneDue b),
        firstAfter_of_least (inRing_iff.mpr inRing) fun b h => least b (inRing_iff.mp h)]
      rfl
    have choice : chooseTurn s = .ring a := by
      rw [chooseTurn, if_neg few', routine]
      rcases idle_ with noMember | streak
      · rw [firstAfter_eq_none_iff.mpr noMember]; rfl
      · cases firstAfter s s.slc.lastAttention StationRow.member <;> simp [Nat.not_lt.mpr streak]
    rw [choice]
    rfl
  · rw [chooseTurn, if_neg few', firstAfter_eq_none_iff.mpr noMember, nothing none_]
    rfl

/-! ### Open slots (R46, R47) -/

theorem onTurn_openSlot {s : State} (turn : s.slc.turn = some .openSlot) (poll : Poll → State → State) (slot : State → State) :
    onTurn poll slot s = slot s := by
  rw [onTurn, turn]

/-- A good frame that an open slot does not take ends it silent. -/
theorem slotBytes_silent {bytes : List Byte} (silent : isSilentFrame bytes = true) (s : State) : slotBytes bytes s = endSlot false s := by
  unfold slotBytes
  split
  · rfl
  · unfold isSilentFrame at silent
    cases reading : readUpward bytes with
    | garbled => simp [reading] at silent
    | unknown => rfl
    | frame f =>
      rw [reading] at silent
      simp only [slotFrame]
      cases item : f.item with
      | attention =>
        simp only [item] at silent
        rw [Option.isNone_iff_eq_none] at silent
        simp [slotAttention, silent]
      | joinAnnounce serial cause =>
        simp only [item] at silent
        have other : f.address ≠ 0 := by simpa using silent
        exact if_neg other
      | _ => rfl

theorem station?_eq_none {n : Nat} (outside : n = 0 ∨ 62 < n) : station? n = none := by
  rw [station?, dif_neg (by omega)]

/-- A row that an ATTENTION finds (R47, R31). -/
def StationRow.attended (row : StationRow) : StationRow :=
  match row.state with
  | .awake | .silent | .absent => { row with raised := true }
  | .dozing => { row with state := .awake, awakeSince := true, raised := true, due := false }
  | .joining | .lost | .barred | .unbound => row

theorem takeAttention_eq (a : Station) (s : State) : takeAttention a s = s.withRow a (s.slc.rows.get a).attended := by
  unfold takeAttention StationRow.attended
  cases state : (s.slc.rows.get a).state with
  | joining | lost | barred | unbound => exact (withRow_self a s).symm
  | _ => simp [setStation, State.withRow, Table.update, state]

/-- Settles O42. -/
theorem openSlotsEnd : Obligations.OpenSlotsEnd := by
  refine ⟨fun s running turn => ⟨?_, ?_, fun bytes some_ reading => ?_, fun bytes silent => ?_⟩, fun a s running turn => ?_,
    fun address s running turn outside => ?_⟩
  · refine (whenRunning_running running).trans (congrArg _ ?_)
    exact onTurn_openSlot turn _ _
  · refine (whenRunning_running running).trans (congrArg _ ?_)
    exact onTurn_openSlot turn _ _
  · refine (whenRunning_running running).trans (congrArg _ ((onTurn_openSlot turn _ _).trans ?_))
    obtain ⟨b, rest, rfl⟩ := List.exists_cons_of_ne_nil some_
    simp only [slotBytes, reading]
    rfl
  · refine (whenRunning_running running).trans (congrArg _ ((onTurn_openSlot turn _ _).trans ?_))
    exact slotBytes_silent silent s
  · have address : station? (BitVec.ofNat 8 (a.val + 1)).toNat = some a := by
      have := a.isLt
      rw [BitVec.toNat_ofNat, Nat.mod_eq_of_lt (by omega)]
      exact station?_addressOf a
    refine ⟨(s.slc.rows.get a).attended, ?_, fun h => ?_, fun h => ?_, fun h => ?_⟩
    · refine (whenRunning_running running).trans (congrArg _ ((onTurn_openSlot turn _ _).trans ?_))
      simp only [slotAttention, address, takeAttention_eq]
      rfl
    · simp only [List.mem_cons, List.not_mem_nil, or_false] at h
      rcases h with h | h | h <;> simp [StationRow.attended, h, StationRow.member]
    · simp [StationRow.attended, h, StationRow.member]
    · simp only [List.mem_cons, List.not_mem_nil, or_false] at h
      rcases h with h | h | h | h <;> simp [StationRow.attended, h]
  · refine (whenRunning_running running).trans (congrArg _ ((onTurn_openSlot turn _ _).trans ?_))
    simp only [slotAttention, station?_eq_none outside]
    rfl

end Sys2Proof.Machine
end

