-- ==== Sys2Proof/Proofs/Deposits.lean ====
section
/-! What the end of a deposit does (7.7, 7.8): the account, the report, the credit with the overflow insertion it may bring, and the
Round Manager's notice. With it, proofs about DEPOSIT_CLOSE and the close limit. -/

namespace Sys2Proof.Machine

/-! ### What reports add to the upstream queue -/

/-- A Trunk Port to which an event has added reports other than DEPOSIT_REPORTs. -/
structure TrunkPort.Gains (t u : TrunkPort) : Prop where
  entries : ∀ e ∈ t.entries, e ∈ u.entries
  waiting : ∃ later, u.waiting = t.waiting ++ later ∧ ∀ x y, UpEntry.report x (.deposit y) ∉ later
  effective : u.effective = t.effective
  written : u.written = t.written

theorem TrunkPort.Gains.refl (t : TrunkPort) : t.Gains t := ⟨fun _ h => h, ⟨[], by simp⟩, rfl, rfl⟩

theorem TrunkPort.Gains.trans {t u v : TrunkPort} (first : t.Gains u) (next : u.Gains v) : t.Gains v := by
  obtain ⟨entries, ⟨later, waiting, none_⟩, effective, written⟩ := first
  obtain ⟨entries', ⟨later', waiting', none_'⟩, effective', written'⟩ := next
  refine ⟨fun e he => entries' e (entries e he), ⟨later ++ later', by rw [waiting', waiting, List.append_assoc], fun x y h => ?_⟩,
    effective'.trans effective, written'.trans written⟩
  exact (List.mem_append.mp h).elim (none_ x y) (none_' x y)

theorem enqueue_written (t : TrunkPort) (e : UpEntry) : (t.enqueue e).written = t.written := by
  unfold TrunkPort.enqueue; split <;> rfl

theorem TrunkPort.gains_reported (t : TrunkPort) {r : Report} (other : ∀ d, r ≠ .deposit d) : t.Gains (t.reported r) where
  entries _ := entries_reported
  waiting := by
    unfold TrunkPort.reported TrunkPort.enqueue
    split
    · split
      · exact ⟨[], by simp⟩
      · exact ⟨[.report t.reportSeq r], rfl, fun x y h => other y (UpEntry.report.inj (List.mem_singleton.mp h)).2.symm⟩
    · exact ⟨[], by simp⟩
  effective := reported_effective t r
  written := by
    unfold TrunkPort.reported
    split
    · exact enqueue_written _ _
    · rfl

theorem reportChange_gains (r : Row) (cause : StatusCause) (before s : State) : s.tp.Gains (reportChange r cause before s).tp := by
  unfold reportChange
  split
  · exact .refl _
  · split
    · rw [postReport_reported (by simp)]
      exact TrunkPort.gains_reported _ (by simp)
    · exact .refl _

/-! ### DEPOSIT_REPORTs (R203) -/

theorem absorbs_iff {old new : DepositReport} : old.absorbs new = true ↔
    old.account = new.account ∧ old.number = new.number ∧ old.outcome = new.outcome ∧ old.count < 255 := by
  simp [DepositReport.absorbs, and_assoc]

theorem absorb_eq_none {new : DepositReport} : ∀ {l : List UpEntry},
    (∀ seq old, UpEntry.report seq (.deposit old) ∈ l → old.absorbs new = false) → absorb new l = none
  | [], _ => rfl
  | e :: rest, none_ => by
    have later : absorb new rest = none := absorb_eq_none fun seq old h => none_ seq old (List.mem_cons_of_mem _ h)
    unfold absorb
    split
    · rename_i l h; cases h
    · rename_i seq old rest' h
      obtain ⟨rfl, rfl⟩ := List.cons.inj h
      rw [none_ seq old List.mem_cons_self, later]
      rfl
    · rename_i e' rest' _ h
      obtain ⟨rfl, rfl⟩ := List.cons.inj h
      rw [later]
      rfl

/-- The first waiting report that takes a new one in. -/
theorem absorb_eq_some {new : DepositReport} {seq : Byte} {old : DepositReport} {after : List UpEntry} (takes : old.absorbs new = true) :
    ∀ {before : List UpEntry}, (∀ x y, UpEntry.report x (.deposit y) ∈ before → y.absorbs new = false) →
      absorb new (before ++ .report seq (.deposit old) :: after) =
        some (before ++ .report seq (.deposit { old with count := old.count + 1, cost := old.cost + new.cost, last := new.last }) :: after)
  | [], _ => by simp [absorb, takes]
  | e :: rest, none_ => by
    have later := absorb_eq_some (seq := seq) (after := after) takes (before := rest) fun x y h => none_ x y (List.mem_cons_of_mem _ h)
    rw [List.cons_append]
    unfold absorb
    split
    · rename_i h; cases h
    · rename_i seq' old' rest' h
      obtain ⟨rfl, rfl⟩ := List.cons.inj h
      rw [none_ seq' old' List.mem_cons_self, later]
      rfl
    · rename_i e' rest' _ h
      obtain ⟨rfl, rfl⟩ := List.cons.inj h
      rw [later]
      rfl

/-- Only a DEPOSIT_REPORT is changed by taking another in. -/
theorem mem_absorb {new : DepositReport} {e : UpEntry} (other : ∀ x y, e ≠ .report x (.deposit y)) : ∀ {l l' : List UpEntry},
    absorb new l = some l' → e ∈ l → e ∈ l'
  | [], _, h, _ => by cases h
  | f :: rest, l', h, mem => by
    unfold absorb at h
    split at h
    · rename_i h'; cases h'
    · rename_i seq old rest' h'
      obtain ⟨rfl, rfl⟩ := List.cons.inj h'
      have mem' : e ∈ rest := (List.mem_cons.mp mem).resolve_left (other seq old)
      split at h
      · rw [← Option.some.inj h]
        exact List.mem_cons_of_mem _ mem'
      · obtain ⟨m, hm, rfl⟩ := Option.map_eq_some_iff.mp h
        exact List.mem_cons_of_mem _ (mem_absorb other hm mem')
    · rename_i f' rest' _ h'
      obtain ⟨rfl, rfl⟩ := List.cons.inj h'
      obtain ⟨m, hm, rfl⟩ := Option.map_eq_some_iff.mp h
      rcases List.mem_cons.mp mem with rfl | mem
      · exact List.mem_cons_self
      · exact List.mem_cons_of_mem _ (mem_absorb other hm mem)

theorem postReport_new {d : DepositReport} {s : State} (fresh : absorb d s.tp.waiting = none) :
    postReport (.deposit d) s = { s with tp := s.tp.reported (.deposit d) } := by
  simp only [postReport, fresh]
  exact placeReport_reported _ s

theorem postReport_absorbed {d : DepositReport} {s : State} {waiting : List UpEntry} (joined : absorb d s.tp.waiting = some waiting) :
    postReport (.deposit d) s = { s with tp := { s.tp with waiting := waiting } } := by
  simp only [postReport, joined]

/-- A DEPOSIT_REPORT leaves every REPLY of the upstream queue and the parameters. -/
theorem postReport_keeps (r : Report) (s : State) :
    (∀ e ∈ s.tp.entries, e.isReply = true → e ∈ (postReport r s).tp.entries) ∧ (postReport r s).tp.written = s.tp.written := by
  by_cases deposit : ∃ d, r = .deposit d
  · obtain ⟨d, rfl⟩ := deposit
    cases joined : absorb d s.tp.waiting with
    | none =>
      rw [postReport_new joined]
      refine ⟨fun e he _ => entries_reported he, ?_⟩
      unfold TrunkPort.reported
      split
      · exact enqueue_written _ _
      · rfl
    | some waiting =>
      rw [postReport_absorbed joined]
      refine ⟨fun e he reply => ?_, rfl⟩
      rcases List.mem_append.mp he with line | waits
      · exact List.mem_append_left _ line
      · refine List.mem_append_right _ (mem_absorb (fun x y h => ?_) joined waits)
        rw [h] at reply
        cases reply
  · rw [postReport_reported fun d h => deposit ⟨d, h⟩]
    have gains := TrunkPort.gains_reported s.tp fun d h => deposit ⟨d, h⟩
    exact ⟨fun e he _ => gains.entries e he, gains.written⟩

/-! ### Overflow insertion (R167) -/

theorem insertOverflow_eq (r : Row) (s : State) : insertOverflow r s =
    { s with rm := { s.rm with slots := (insertOverflow r s).rm.slots }, tp := (insertOverflow r s).tp } := by
  unfold insertOverflow
  split
  · rfl
  · split
    · rfl
    · split
      · rfl
      · rw [postReport_reported (by simp)]; rfl

/-- No step is inserted for a container that is not IN_USE. -/
theorem insertOverflow_not_inUse {r : Row} {s : State} (busy : (serviceOf s r).name ≠ .inUse) : insertOverflow r s = s := by
  unfold insertOverflow
  split
  · rfl
  · exact if_pos (.inl busy)

theorem insertOverflow_gains (r : Row) (s : State) : s.tp.Gains (insertOverflow r s).tp := by
  unfold insertOverflow
  split
  · exact .refl _
  · split
    · exact .refl _
    · split
      · exact .refl _
      · rw [postReport_reported (by simp)]
        exact TrunkPort.gains_reported _ (by simp)

/-- The choice among the slots so far and one more (R167). -/
def laterSlot (s : State) (cluster : Fin 64) (best : Option (Fin 4 × Round)) (i : Fin 4) : Option (Fin 4 × Round) :=
  match s.rm.slots.get i with
  | none => best
  | some rd =>
    if rd.takesInsertion cluster then
      match best with
      | some (_, other) => if rd.liftAge s.tk.uptime < other.liftAge s.tk.uptime then some (i, rd) else best
      | none => some (i, rd)
    else best

theorem insertionSlot_eq (s : State) (cluster : Fin 64) :
    insertionSlot s cluster = (List.finRange 4).foldl (laterSlot s cluster) none := rfl

/-- The best of the candidate slots passed so far. -/
def BestSlot (s : State) (cluster : Fin 64) (passed : Fin 4 → Prop) : Option (Fin 4 × Round) → Prop
  | none => ∀ j rd, passed j → s.rm.slots.get j = some rd → rd.takesInsertion cluster = false
  | some (i, rd) => passed i ∧ s.rm.slots.get i = some rd ∧ rd.takesInsertion cluster = true ∧
      ∀ j other, passed j → s.rm.slots.get j = some other → other.takesInsertion cluster = true →
        rd.liftAge s.tk.uptime < other.liftAge s.tk.uptime ∨ rd.liftAge s.tk.uptime = other.liftAge s.tk.uptime ∧ i ≤ j

theorem bestSlot_laterSlot {s : State} {cluster : Fin 64} {passed : Fin 4 → Prop} {best : Option (Fin 4 × Round)} {i : Fin 4}
    (so_far : BestSlot s cluster passed best) (later : ∀ j, passed j → j < i) :
    BestSlot s cluster (fun j => passed j ∨ j = i) (laterSlot s cluster best i) := by
  have kept (none_ : ∀ rd, s.rm.slots.get i = some rd → rd.takesInsertion cluster = false) :
      BestSlot s cluster (fun j => passed j ∨ j = i) best := by
    cases best with
    | none =>
      rintro j rd (hj | rfl) slot
      · exact so_far j rd hj slot
      · exact none_ rd slot
    | some b =>
      obtain ⟨before, slot, takes, best⟩ := so_far
      refine ⟨.inl before, slot, takes, ?_⟩
      rintro j other (hj | rfl) slot' takes'
      · exact best j other hj slot' takes'
      · rw [none_ other slot'] at takes'; cases takes'
  unfold laterSlot
  cases slot : s.rm.slots.get i with
  | none => exact kept fun rd h => by rw [slot] at h; cases h
  | some rd =>
    by_cases takes : rd.takesInsertion cluster = true
    · simp only [takes, if_true]
      cases best with
      | none =>
        refine ⟨.inr rfl, slot, takes, ?_⟩
        rintro j other (hj | rfl) slot' takes'
        · rw [so_far j other hj slot'] at takes'; cases takes'
        · rw [Option.some.inj (slot.symm.trans slot')]
          exact .inr ⟨rfl, le_rfl⟩
      | some b =>
        obtain ⟨before, slotb, takesb, best⟩ := so_far
        by_cases newer : rd.liftAge s.tk.uptime < b.2.liftAge s.tk.uptime
        · simp only [newer, if_true]
          refine ⟨.inr rfl, slot, takes, ?_⟩
          rintro j other (hj | rfl) slot' takes'
          · rcases best j other hj slot' takes' with lt | ⟨eq, -⟩
            · exact .inl (newer.trans lt)
            · exact .inl (eq ▸ newer)
          · rw [Option.some.inj (slot.symm.trans slot')]
            exact .inr ⟨rfl, le_rfl⟩
        · simp only [newer, if_false]
          refine ⟨.inl before, slotb, takesb, ?_⟩
          rintro j other (hj | rfl) slot' takes'
          · exact best j other hj slot' takes'
          · rw [← Option.some.inj (slot.symm.trans slot')]
            exact (Nat.not_lt.mp newer).lt_or_eq.imp_right fun eq => ⟨eq, (later _ before).le⟩
    · simp only [takes]
      exact kept fun rd' h => by rw [← Option.some.inj (slot.symm.trans h)]; simpa using takes

theorem bestSlot_foldl (s : State) (cluster : Fin 64) : ∀ {l : List (Fin 4)} {passed : Fin 4 → Prop} {best : Option (Fin 4 × Round)},
    l.Pairwise (· < ·) → (∀ b, passed b → ∀ a ∈ l, b < a) → BestSlot s cluster passed best →
    BestSlot s cluster (fun b => passed b ∨ b ∈ l) (l.foldl (laterSlot s cluster) best)
  | [], _, best, _, _, so_far => by
    cases best <;> simpa [BestSlot] using so_far
  | a :: rest, passed, best, sorted, later, so_far => by
    obtain ⟨first, sorted'⟩ := List.pairwise_cons.mp sorted
    have next := bestSlot_foldl s cluster (l := rest) sorted' (fun b hb c hc => ?_)
      (bestSlot_laterSlot so_far fun b hb => later b hb a List.mem_cons_self)
    · have same : (fun b => (passed b ∨ b = a) ∨ b ∈ rest) = fun b => passed b ∨ b ∈ a :: rest := by
        funext b; simp [or_assoc]
      rw [same] at next
      exact next
    · rcases hb with hb | rfl
      · exact later b hb c (List.mem_cons_of_mem _ hc)
      · exact first c hc

theorem bestSlot_insertionSlot (s : State) (cluster : Fin 64) :
    BestSlot s cluster (fun b => False ∨ b ∈ List.finRange 4) (insertionSlot s cluster) :=
  bestSlot_foldl s cluster (best := none) (List.pairwise_lt_finRange 4) (fun _ h => h.elim) fun _ _ h => h.elim

/-- The chosen slot stands in its place. -/
theorem insertionSlot_some {s : State} {cluster : Fin 64} {i : Fin 4} {rd : Round} (chosen : insertionSlot s cluster = some (i, rd)) :
    s.rm.slots.get i = some rd ∧ rd.takesInsertion cluster = true := by
  have best := bestSlot_insertionSlot s cluster
  rw [chosen] at best
  exact ⟨best.2.1, best.2.2.1⟩

/-- A round with an inserted step (R167). -/
def Round.inserting (r : Row) (rd : Round) : Round :=
  { rd with steps := rd.steps ++ [Step.fresh r .inserted], allowance := rd.allowance - 1 }

/-- An inserted step: the slot chosen takes it, and a ROUND_EVENT tells of it. -/
theorem insertOverflow_chosen {r : Row} {c : ContainerConfig} {i : Fin 4} {rd : Round} {s : State} (config : configOf s r = some c)
    (free : (serviceOf s r).name = .inUse) (off : onActiveRound s r = false) (chosen : insertionSlot s c.cluster = some (i, rd)) :
    insertOverflow r s = { s with
      rm := { s.rm with slots := s.rm.slots.set i (some (rd.inserting r)) }
      tp := s.tp.reported (.round { round := rd.number, vehicle := rd.vehicle, slot := i, stamp := s.stamp
                                    news := .inserted c.number r (rd.steps.length + 1) (rd.allowance - 1) }) } := by
  unfold insertOverflow
  simp only [config, free, off, chosen]
  rw [if_neg (by simp), postReport_reported (by simp)]
  simp only [List.length_append, List.length_singleton]
  rfl

theorem insertOverflow_unchosen {r : Row} {c : ContainerConfig} {s : State} (config : configOf s r = some c)
    (none_ : insertionSlot s c.cluster = none) : insertOverflow r s = s := by
  unfold insertOverflow
  simp only [config, none_, ite_self]

theorem insertOverflow_onRound {r : Row} {s : State} (active : onActiveRound s r = true) : insertOverflow r s = s := by
  unfold insertOverflow
  split
  · rfl
  · exact if_pos (.inr active)

/-- The steps that insertions have added to the rounds. -/
def Inserted (old new : Table (Option Round) 4) : Prop :=
  (∀ i, old.get i = none → new.get i = none) ∧
  ∀ i rd, old.get i = some rd → ∃ more : List Step,
    new.get i = some { rd with steps := rd.steps ++ more, allowance := rd.allowance - more.length } ∧
      ∀ st ∈ more, st.origin = .inserted ∧ st.state = .pending

theorem Inserted.refl (slots : Table (Option Round) 4) : Inserted slots slots :=
  ⟨fun _ h => h, fun _ _ h => ⟨[], by simp [h]⟩⟩

theorem Inserted.trans {a b c : Table (Option Round) 4} (first : Inserted a b) (next : Inserted b c) : Inserted a c := by
  refine ⟨fun i h => next.1 i (first.1 i h), fun i rd h => ?_⟩
  obtain ⟨more, h', all⟩ := first.2 i rd h
  obtain ⟨more', h'', all'⟩ := next.2 i _ h'
  refine ⟨more ++ more', ?_, fun st hst => (List.mem_append.mp hst).elim (all st) (all' st)⟩
  rw [h'']
  simp [List.append_assoc, Nat.sub_sub]

theorem insertOverflow_inserted (r : Row) (s : State) : Inserted s.rm.slots (insertOverflow r s).rm.slots := by
  unfold insertOverflow
  split
  · exact .refl _
  · rename_i c config
    split
    · exact .refl _
    · split
      · exact .refl _
      · rename_i i rd chosen
        obtain ⟨slot, -⟩ := insertionSlot_some chosen
        rw [postReport_reported (by simp)]
        refine ⟨fun j h => ?_, fun j other h => ?_⟩
        · have hj : j ≠ i := fun e => by rw [e, slot] at h; cases h
          simp [hj, h]
        · by_cases hj : j = i
          · subst hj
            refine ⟨[Step.fresh r .inserted], ?_, by simp [Step.fresh]⟩
            rw [Option.some.inj (slot.symm.trans h)]
            simp
          · exact ⟨[], by simp [hj, h]⟩

/-! ### A changed dynamic part (R90, R95) -/

theorem changeFill_eq (r : Row) (f : Fill) (s : State) : changeFill r f s = { s with
    ft := { s.ft with rows := s.ft.rows.set r { s.ft.rows.get r with fill := f }, queue := (changeFill r f s).ft.queue }
    rm := { s.rm with slots := (changeFill r f s).rm.slots }
    tp := (changeFill r f s).tp } := by
  unfold changeFill
  simp only
  split
  · rw [insertOverflow_eq]; rfl
  · rfl

theorem changeFill_gains (r : Row) (f : Fill) (s : State) : s.tp.Gains (changeFill r f s).tp := by
  unfold changeFill
  simp only
  split
  · exact insertOverflow_gains r (setFill r (fun _ => f) s)
  · exact .refl _

theorem changeFill_inserted (r : Row) (f : Fill) (s : State) : Inserted s.rm.slots (changeFill r f s).rm.slots := by
  unfold changeFill
  simp only
  split
  · exact insertOverflow_inserted r (setFill r (fun _ => f) s)
  · exact .refl _

/-- For a container that is not IN_USE a changed dynamic part changes its row and its place in the service queue alone. -/
theorem changeFill_not_inUse {r : Row} {s : State} (f : Fill) (busy : (serviceOf s r).name ≠ .inUse) :
    changeFill r f s = reevaluate r (setFill r (fun _ => f) s) := by
  unfold changeFill
  simp only
  split
  · rw [insertOverflow_not_inUse (s := setFill r (fun _ => f) s) busy]
  · rfl

/-! ### The Round Manager's notice (R158) -/

theorem depositEnded_idle {r : Row} {s : State} (other : ∀ step relay, serviceOf s r ≠ .serviceWait step relay) :
    depositEnded r s = s := by
  unfold depositEnded
  split
  · rename_i step relay c waits config
    exact absurd waits (other step relay)
  · rfl

/-- The street loop once the notice has been given (R154, R158). -/
def releasedLoop (c : ContainerConfig) (relay : Station) (vehicle : Option Short) (u : StreetLoop) : StreetLoop :=
  let slc := u.offered c.station (.liftRelease c.bay)
  match vehicle with
  | some v => slc.offered relay (.reply .liftOk v (.container c.number))
  | none => slc

theorem depositEnded_waiting {r : Row} {c : ContainerConfig} {step : StepRef} {relay : Station} {s : State}
    (waits : serviceOf s r = .serviceWait step relay) (config : configOf s r = some c) : depositEnded r s = { s with
      rm := { s.rm with service := s.rm.service.set r (.service step relay s.tk.seconds) }
      slc := releasedLoop c relay ((stepAt s step).bind (·.vehicle)) s.slc } := by
  unfold depositEnded releasedLoop
  simp only [waits, config, sendRelease, sendReply]
  rw [sendDown_offered rfl]
  have vehicle : stepAt ((setService r (.service step relay s.tk.seconds) s).offered c.station (.liftRelease c.bay)) step =
      stepAt s step := rfl
  rw [vehicle]
  cases (stepAt s step).bind (·.vehicle) with
  | none => rfl
  | some v => exact sendDown_offered rfl _ _

theorem depositEnded_eq (r : Row) (s : State) : depositEnded r s =
    { s with rm := { s.rm with service := (depositEnded r s).rm.service }, slc := (depositEnded r s).slc } := by
  by_cases waits : ∃ step relay c, serviceOf s r = .serviceWait step relay ∧ configOf s r = some c
  · obtain ⟨step, relay, c, waits, config⟩ := waits
    rw [depositEnded_waiting waits config]
  · unfold depositEnded
    split
    · rename_i step relay c h config
      exact absurd ⟨step, relay, c, h, config⟩ waits
    · rfl

/-! ### Commits (R141, R145) -/

/-- The Admission Unit once a deposit has been committed (R141). -/
def committedUnit (d : OpenDeposit) (r : Row) (u : AdmissionUnit) : AdmissionUnit :=
  { u with
    deposits := u.deposits.set r none
    accounts := if d.kind = .charged then u.accounts.update d.account (Account.charge d.cost) else u.accounts }

/-- The DEPOSIT_REPORT of a commit (R145). -/
def commitNews (confirmed : Bool) (r : Row) (c : ContainerConfig) (d : OpenDeposit) (s : State) : DepositReport :=
  depositReport r c d (commitOutcome d.kind confirmed) s

/-- A commit up to its credit: the account charged, the slot emptied, the report posted. -/
def chargedDeposit (confirmed : Bool) (r : Row) (c : ContainerConfig) (d : OpenDeposit) (s : State) : State :=
  postReport (.deposit (commitNews confirmed r c d s)) { s with au := committedUnit d r s.au }

theorem chargedDeposit_eq (confirmed : Bool) (r : Row) (c : ContainerConfig) (d : OpenDeposit) (s : State) :
    chargedDeposit confirmed r c d s =
      { s with au := committedUnit d r s.au, tp := (chargedDeposit confirmed r c d s).tp } := postReport_tp _ _

theorem commitDeposit_of {confirmed : Bool} {r : Row} {c : ContainerConfig} {d : OpenDeposit} {s : State}
    (config : configOf s r = some c) (deposit : s.au.deposits.get r = some d) : commitDeposit confirmed r s =
      reportEnding r s (depositEnded r (creditDeposit r (chargedDeposit confirmed r c d s))) := by
  have start : setDeposit r none (if d.kind = .charged then setAccount d.account (Account.charge d.cost) s else s) =
      { s with au := committedUnit d r s.au } := by
    by_cases charged : d.kind = .charged <;> simp [charged, committedUnit, setDeposit, setAccount]
  unfold commitDeposit chargedDeposit
  simp only [deposit, config, start]
  rfl

theorem commitDeposit_none {confirmed : Bool} {r : Row} {s : State} (empty : s.au.deposits.get r = none) :
    commitDeposit confirmed r s = s := by
  unfold commitDeposit
  rw [empty]

theorem commitDeposit_unoccupied {confirmed : Bool} {r : Row} {s : State} (empty : configOf s r = none) :
    commitDeposit confirmed r s = s := by
  unfold commitDeposit
  split
  · rename_i config; rw [empty] at config; cases config
  · rfl

theorem reportEnding_tp (r : Row) (before s : State) : reportEnding r before s = { s with tp := (reportEnding r before s).tp } :=
  reportChange_tp _ _ _ _

theorem reportEnding_gains (r : Row) (before s : State) : s.tp.Gains (reportEnding r before s).tp := reportChange_gains _ _ _ _

/-- The container row that a credit leaves (R71, R89). -/
theorem Fill.credit_eq (p : Profile) (f : Fill) : f.credit p =
    let level := min 1200 (f.i + p.increment)
    let rising := risingTarget p level
    { f with
      i := level, ttf := timeToFull p.fu level f.r
      fill := if f.fill.rank < rising.rank then rising else f.fill
      rise := if f.fill.rank < rising.rank then 0 else f.rise
      fall := if f.fill.rank < rising.rank then 0 else f.fall } := by
  by_cases rises : f.fill.rank < (risingTarget p (min 1200 (f.i + p.increment))).rank
  all_goals simp [Fill.credit, Fill.recompute, rises]

/-- What the blocks are after a commit. -/
theorem commitDeposit_eq {confirmed : Bool} {r : Row} {c : ContainerConfig} {d : OpenDeposit} {s : State}
    (config : configOf s r = some c) (deposit : s.au.deposits.get r = some d) :
    let t := commitDeposit confirmed r s
    t = { s with
      au := committedUnit d r s.au
      ft := { s.ft with
        rows := s.ft.rows.set r { s.ft.rows.get r with fill := (fillOf s r).credit (s.ft.profiles.get c.profile) }, queue := t.ft.queue }
      rm := { s.rm with slots := t.rm.slots, service := t.rm.service }
      slc := t.slc
      tp := t.tp } := by
  have profile : profileOf (chargedDeposit confirmed r c d s) r = s.ft.profiles.get c.profile := by
    have config' : configOf (chargedDeposit confirmed r c d s) r = some c := by rw [chargedDeposit_eq]; exact config
    rw [profileOf, config', chargedDeposit_eq]
  have fill : fillOf (chargedDeposit confirmed r c d s) r = fillOf s r := by rw [chargedDeposit_eq]; rfl
  intro t
  have t_eq : t = reportEnding r s (depositEnded r (creditDeposit r (chargedDeposit confirmed r c d s))) :=
    commitDeposit_of config deposit
  generalize t = t at t_eq
  rw [reportEnding_tp, depositEnded_eq, creditDeposit, profile, fill, changeFill_eq, chargedDeposit_eq] at t_eq
  rw [t_eq]

/-- The street loop and the service records after a commit: the Round Manager's notice, and nothing else. -/
theorem commitDeposit_notice {confirmed : Bool} {r : Row} {c : ContainerConfig} {d : OpenDeposit} {s : State}
    (config : configOf s r = some c) (deposit : s.au.deposits.get r = some d) :
    (commitDeposit confirmed r s).rm.service = (depositEnded r s).rm.service ∧
      (commitDeposit confirmed r s).slc = (depositEnded r s).slc := by
  have blocks : creditDeposit r (chargedDeposit confirmed r c d s) = _ := changeFill_eq _ _ _
  have same : serviceOf (creditDeposit r (chargedDeposit confirmed r c d s)) r = serviceOf s r := by
    rw [blocks, chargedDeposit_eq]; rfl
  rw [commitDeposit_of config deposit, reportEnding_tp]
  by_cases waits : ∃ step relay, serviceOf s r = .serviceWait step relay
  · obtain ⟨step, relay, waits⟩ := waits
    have busy : (serviceOf (chargedDeposit confirmed r c d s) r).name ≠ .inUse := by
      rw [chargedDeposit_eq]
      change (serviceOf s r).name ≠ .inUse
      rw [waits]
      simp [Service.name]
    have credited := changeFill_not_inUse ((fillOf (chargedDeposit confirmed r c d s) r).credit
      (profileOf (chargedDeposit confirmed r c d s) r)) busy
    have config' : configOf (creditDeposit r (chargedDeposit confirmed r c d s)) r = some c := by
      rw [configOf, blocks, chargedDeposit_eq]
      exact (congrArg ContainerRow.config (Table.get_set_self _ _ _)).trans config
    have rm : (creditDeposit r (chargedDeposit confirmed r c d s)).rm = s.rm := by
      rw [creditDeposit, credited, chargedDeposit_eq]; rfl
    have slc : (creditDeposit r (chargedDeposit confirmed r c d s)).slc = s.slc := by
      rw [creditDeposit, credited, chargedDeposit_eq]; rfl
    have tk : (creditDeposit r (chargedDeposit confirmed r c d s)).tk = s.tk := by
      rw [creditDeposit, credited, chargedDeposit_eq]; rfl
    rw [depositEnded_waiting (same.trans waits) config', depositEnded_waiting waits config]
    have vehicle : stepAt (creditDeposit r (chargedDeposit confirmed r c d s)) step = stepAt s step := by
      rw [stepAt, rm]; rfl
    exact ⟨by simp only [rm, tk], by simp only [slc, vehicle]⟩
  · have other (step : StepRef) (relay : Station) : serviceOf s r ≠ .serviceWait step relay := fun h => waits ⟨step, relay, h⟩
    rw [depositEnded_idle fun step relay h => other step relay (same.symm.trans h), depositEnded_idle other, blocks, chargedDeposit_eq]
    exact ⟨rfl, rfl⟩

theorem chargedDeposit_keeps (confirmed : Bool) (r : Row) (c : ContainerConfig) (d : OpenDeposit) (s : State) :
    (∀ e ∈ s.tp.entries, e.isReply = true → e ∈ (chargedDeposit confirmed r c d s).tp.entries) ∧
      (chargedDeposit confirmed r c d s).tp.written = s.tp.written ∧ (chargedDeposit confirmed r c d s).tp.effective = s.tp.effective :=
  have keeps := postReport_keeps (.deposit (commitNews confirmed r c d s)) { s with au := committedUnit d r s.au }
  ⟨keeps.1, keeps.2, postReport_effective _ _⟩

/-- What a commit posts after its DEPOSIT_REPORT: other reports alone. -/
theorem commitDeposit_gains {confirmed : Bool} {r : Row} {c : ContainerConfig} {d : OpenDeposit} {s : State}
    (config : configOf s r = some c) (deposit : s.au.deposits.get r = some d) :
    (chargedDeposit confirmed r c d s).tp.Gains (commitDeposit confirmed r s).tp := by
  rw [commitDeposit_of config deposit]
  have credited := changeFill_gains r ((fillOf (chargedDeposit confirmed r c d s) r).credit
    (profileOf (chargedDeposit confirmed r c d s) r)) (chargedDeposit confirmed r c d s)
  have ended := reportEnding_gains r s (depositEnded r (creditDeposit r (chargedDeposit confirmed r c d s)))
  have same (x : State) : (depositEnded r x).tp = x.tp := by rw [depositEnded_eq]
  rw [same] at ended
  exact credited.trans ended

theorem commitDeposit_inserted {confirmed : Bool} {r : Row} {c : ContainerConfig} {d : OpenDeposit} {s : State}
    (config : configOf s r = some c) (deposit : s.au.deposits.get r = some d) :
    Inserted s.rm.slots (commitDeposit confirmed r s).rm.slots := by
  have added := changeFill_inserted r ((fillOf (chargedDeposit confirmed r c d s) r).credit
    (profileOf (chargedDeposit confirmed r c d s) r)) (chargedDeposit confirmed r c d s)
  rw [commitDeposit_of config deposit, reportEnding_tp, depositEnded_eq]
  have slots : (chargedDeposit confirmed r c d s).rm.slots = s.rm.slots := by rw [chargedDeposit_eq]
  rw [slots] at added
  exact added

/-! ### Releases (R144) -/

/-- The Admission Unit once a deposit has been released (R144). -/
def releasedUnit (d : OpenDeposit) (r : Row) (u : AdmissionUnit) : AdmissionUnit :=
  { u with
    deposits := u.deposits.set r none
    releases := bump u.releases
    accounts := if d.kind = .charged then u.accounts.update d.account (Account.letGo d.cost) else u.accounts }

theorem releaseDeposit_of {r : Row} {d : OpenDeposit} {s : State} (deposit : s.au.deposits.get r = some d) :
    releaseDeposit r s = reportEnding r s { depositEnded r s with au := releasedUnit d r s.au } := by
  unfold releaseDeposit
  have apart : depositEnded r { s with au := releasedUnit d r s.au } = { depositEnded r s with au := releasedUnit d r s.au } := by
    by_cases waits : ∃ step relay c, serviceOf s r = .serviceWait step relay ∧ configOf s r = some c
    · obtain ⟨step, relay, c, waits, config⟩ := waits
      rw [depositEnded_waiting waits config]
      exact depositEnded_waiting (s := { s with au := releasedUnit d r s.au }) waits config
    · have still (t : State) (ht : t.rm = s.rm) (hf : t.ft = s.ft) : depositEnded r t = t := by
        unfold depositEnded
        split
        · rename_i step relay c h config
          exact absurd ⟨step, relay, c, by simpa [serviceOf, ht] using h, by simpa [configOf, hf] using config⟩ waits
        · rfl
      have ended := still { s with au := releasedUnit d r s.au } rfl rfl
      rw [ended, still s rfl rfl]
  simp only [deposit]
  by_cases charged : d.kind = .charged
  all_goals
    rw [← apart]
    simp only [charged, if_true, if_false, releasedUnit]
    rfl

theorem releaseDeposit_none {r : Row} {s : State} (empty : s.au.deposits.get r = none) : releaseDeposit r s = s := by
  unfold releaseDeposit
  rw [empty]

/-- What the blocks are after a release. -/
theorem releaseDeposit_eq {r : Row} {d : OpenDeposit} {s : State} (deposit : s.au.deposits.get r = some d) :
    releaseDeposit r s = { s with
      au := releasedUnit d r s.au
      rm := { s.rm with service := (depositEnded r s).rm.service }
      slc := (depositEnded r s).slc
      tp := (releaseDeposit r s).tp } := by
  have t_eq := releaseDeposit_of deposit
  generalize releaseDeposit r s = t at t_eq
  rw [reportEnding_tp, depositEnded_eq] at t_eq
  rw [t_eq]

theorem releaseDeposit_gains {r : Row} {d : OpenDeposit} {s : State} (deposit : s.au.deposits.get r = some d) :
    s.tp.Gains (releaseDeposit r s).tp := by
  rw [releaseDeposit_of deposit]
  have gains := reportEnding_gains r s { depositEnded r s with au := releasedUnit d r s.au }
  have same : (depositEnded r s).tp = s.tp := by rw [depositEnded_eq]
  exact same ▸ gains

end Sys2Proof.Machine
end

