-- ==== Sys2Proof/Proofs/Admission.lean ====
section
/-! Proofs about DEPOSIT_CLOSE (7.7), and the decision limit and the close limit (7.2, 7.7). -/

namespace Sys2Proof.Machine

/-! ### DEPOSIT_CLOSE (R140) -/

theorem depositClose_none {a : Station} {bay : Byte} {how : CloseOutcome} {s : State}
    (none_ : ∀ r, containerAt s a bay.toNat = some r → s.au.deposits.get r = none) :
    depositClose a bay how s = { s with au := { s.au with ignoredCloses := bump s.au.ignoredCloses } } := by
  unfold depositClose
  have empty : (containerAt s a bay.toNat).filter (fun r => (s.au.deposits.get r).isSome) = none := by
    cases found : containerAt s a bay.toNat with
    | none => rfl
    | some r => simp [Option.filter, none_ r found]
  simp only [empty]

theorem depositClose_some {a : Station} {bay : Byte} {how : CloseOutcome} {r : Row} {d : OpenDeposit} {s : State}
    (found : containerAt s a bay.toNat = some r) (deposit : s.au.deposits.get r = some d) :
    depositClose a bay how s = match how with
      | .used => commitDeposit true r s
      | .unused => releaseDeposit r s := by
  unfold depositClose
  have open_ : (containerAt s a bay.toNat).filter (fun r => (s.au.deposits.get r).isSome) = some r := by
    simp [found, Option.filter, deposit]
  cases how <;> simp only [open_]

/-- The service records once a deposit has ended (R158). -/
theorem depositEnded_service {r : Row} {c : ContainerConfig} {s : State} (config : configOf s r = some c) :
    (depositEnded r s).rm.service = match serviceOf s r with
      | .serviceWait step relay => s.rm.service.set r (.service step relay s.tk.seconds)
      | _ => s.rm.service := by
  cases service : serviceOf s r with
  | serviceWait step relay => rw [depositEnded_waiting service config]
  | _ => rw [depositEnded_idle (by simp [service])]

theorem depositEnded_slc {r : Row} {c : ContainerConfig} {s : State} (config : configOf s r = some c) :
    (depositEnded r s).slc = match serviceOf s r with
      | .serviceWait step relay => releasedLoop c relay ((stepAt s step).bind (·.vehicle)) s.slc
      | _ => s.slc := by
  cases service : serviceOf s r with
  | serviceWait step relay => rw [depositEnded_waiting service config]
  | _ => rw [depositEnded_idle (by simp [service])]

/-- The one CONTAINER_STATUS of a release: a change of the service state, by the notice, is the only one. -/
theorem releaseDeposit_tp {r : Row} {c : ContainerConfig} {d : OpenDeposit} {s : State} (config : configOf s r = some c)
    (deposit : s.au.deposits.get r = some d) : (releaseDeposit r s).tp = match serviceOf s r with
      | .serviceWait _ _ => s.tp.reported (.containerStatus
          { number := c.number, row := r, cause := .service, fill := (fillOf s r).fill, fillBefore := (fillOf s r).fill,
            health := (fillOf s r).health, healthBefore := (fillOf s r).health, service := .service, lf := (fillOf s r).lf,
            i := (fillOf s r).i, ttf := (fillOf s r).ttf, drop := (fillOf s r).drop, member := s.ft.queue.contains r,
            stamp := s.stamp })
      | _ => s.tp := by
  rw [releaseDeposit_of deposit]
  cases service : serviceOf s r with
  | serviceWait step relay =>
    rw [depositEnded_waiting service config]
    let t : State := { s with
      rm := { s.rm with service := s.rm.service.set r (.service step relay s.tk.seconds) }
      slc := releasedLoop c relay ((stepAt s step).bind (·.vehicle)) s.slc
      au := releasedUnit d r s.au }
    change (reportEnding r s t).tp = _
    have now : serviceOf t r = .service step relay s.tk.seconds := Table.get_set_self _ _ _
    have changed : statusChanged r s t = true := by
      have differ : ((serviceOf t r).name != (serviceOf s r).name) = true := by rw [now, service]; rfl
      simp [statusChanged, differ]
    have cause : (if (serviceOf t r).name = (serviceOf s r).name then StatusCause.deposit else .service) = .service := by
      rw [now, service]; rfl
    rw [reportEnding, cause, reportChange_changed (s := t) config changed]
    simp only [containerStatus, now]
    rfl
  | _ =>
    rw [depositEnded_idle (by simp [service])]
    have same : statusChanged r s { s with au := releasedUnit d r s.au } = false := by simp [statusChanged, fillOf, serviceOf]
    rw [reportEnding, reportChange_unchanged same]

/-! ### The close limit (R142) -/

/-- The deposits that the close limit has reached. -/
def depositLate (s : State) (d : OpenDeposit) : Prop := s.tp.effective.closeLimit ≤ elapsed s.tk.seconds d.granted

/-- The close limit at one container. -/
def expireDeposit (s : State) (r : Row) : State :=
  match s.au.deposits.get r with
  | some d => if s.tp.effective.closeLimit ≤ elapsed s.tk.seconds d.granted then commitDeposit false r s else s
  | none => s

theorem expireDeposits_eq (s : State) : expireDeposits s = (List.finRange 192).foldl expireDeposit s := rfl

theorem expireDeposit_late {r : Row} {d : OpenDeposit} {s : State} (deposit : s.au.deposits.get r = some d) (late : depositLate s d) :
    expireDeposit s r = commitDeposit false r s := by
  unfold expireDeposit
  rw [deposit]
  exact if_pos late

theorem expireDeposit_early {r : Row} {s : State} (early : ∀ d, s.au.deposits.get r = some d → ¬depositLate s d) :
    expireDeposit s r = s := by
  unfold expireDeposit
  split
  · rename_i d deposit
    exact if_neg (early d deposit)
  · rfl

/-- A commit leaves the clocks and the parameters. -/
theorem commitDeposit_tk (confirmed : Bool) (r : Row) (s : State) : (commitDeposit confirmed r s).tk = s.tk := by
  cases deposit : s.au.deposits.get r with
  | none => rw [commitDeposit_none deposit]
  | some d =>
    cases config : configOf s r with
    | none => rw [commitDeposit_unoccupied config]
    | some c => rw [commitDeposit_eq config deposit]

theorem commitDeposit_effective (confirmed : Bool) (r : Row) (s : State) :
    (commitDeposit confirmed r s).tp.effective = s.tp.effective := by
  cases deposit : s.au.deposits.get r with
  | none => rw [commitDeposit_none deposit]
  | some d =>
    cases config : configOf s r with
    | none => rw [commitDeposit_unoccupied config]
    | some c => rw [(commitDeposit_gains config deposit).effective, (chargedDeposit_keeps confirmed r c d s).2.2]

theorem commitDeposit_deposits {confirmed : Bool} {r : Row} {c : ContainerConfig} (s : State) (config : configOf s r = some c) :
    (commitDeposit confirmed r s).au.deposits = s.au.deposits.set r none := by
  cases deposit : s.au.deposits.get r with
  | none =>
    rw [commitDeposit_none deposit, ← deposit, Table.set_get_self]
  | some d => rw [commitDeposit_eq config deposit]; rfl

theorem foldl_fixed {σ ι : Type} {f : σ → ι → σ} {s : σ} : ∀ {l : List ι}, (∀ x ∈ l, f s x = s) → l.foldl f s = s
  | [], _ => rfl
  | x :: rest, h => by
    rw [List.foldl_cons, h x List.mem_cons_self]
    exact foldl_fixed fun y hy => h y (List.mem_cons_of_mem _ hy)

/-- The close limit with one deposit that it has reached. -/
theorem expireDeposits_one {r : Row} {c : ContainerConfig} {d : OpenDeposit} {s : State} (config : configOf s r = some c)
    (deposit : s.au.deposits.get r = some d) (late : depositLate s d)
    (alone : ∀ q e, s.au.deposits.get q = some e → depositLate s e → q = r) : expireDeposits s = commitDeposit false r s := by
  have once := List.nodup_finRange 192
  obtain ⟨before, after, split⟩ := List.append_of_mem (List.mem_finRange r)
  rw [expireDeposits_eq]
  rw [split] at once ⊢
  have apart : ∀ q ∈ before, q ≠ r := fun q hq e => by
    subst e
    exact (List.nodup_append.mp once).2.2 q hq q List.mem_cons_self rfl
  rw [List.foldl_append, foldl_fixed fun q hq => expireDeposit_early fun e he le => apart q hq (alone q e he le), List.foldl_cons,
    expireDeposit_late deposit late]
  refine foldl_fixed fun q _ => expireDeposit_early fun e he le => ?_
  rw [depositLate, commitDeposit_effective, commitDeposit_tk] at le
  rw [commitDeposit_deposits s config, Table.get_set] at he
  split at he
  · cases he
  · exact absurd (alone q e he le) ‹_›

/-- Settles O49: each clause is read off what a commit or a release makes of its block. -/
theorem depositCloseEndsTheDeposit : Obligations.DepositCloseEndsTheDeposit := by
  refine ⟨fun a flags bay how s running polling awake => ?_, fun r c d s running told config deposit late alone => ?_,
    fun confirmed r c d s config deposit => ?_, fun r c d s config deposit => ?_⟩
  · intro u
    have outcome : exec (.depositClose flags bay how) s = .next (depositClose a bay how u) := by
      rw [exec_answer (.depositClose bay how) running, loopAnswer_awake polling awake]
      rfl
    rw [outcome]
    refine ⟨fun none_ => congrArg _ (depositClose_none none_), fun r c d found config deposit charged => ?_,
      fun r c d found config deposit => ⟨fun used => ?_, fun unused free => ?_⟩⟩
    · rw [depositClose_some (s := u) found deposit]
      cases how with
      | used =>
        have blocks := commitDeposit_eq (confirmed := true) (s := u) config deposit
        refine ⟨_, rfl, ?_, ?_, ?_, ?_, ?_, ?_, ?_, ?_, ?_, ?_⟩
        · exact commitDeposit_deposits u config
        · rw [blocks]; simp only [committedUnit, charged, if_true]; rfl
        · rw [blocks]; rfl
        · rw [blocks]; rfl
        · rw [blocks]
          simp only [Fill.credit_eq]
          rfl
        · rw [(commitDeposit_notice (s := u) config deposit).1]
          exact depositEnded_service config
        all_goals rw [blocks]; rfl
      | unused =>
        have blocks := releaseDeposit_eq (s := u) deposit
        refine ⟨_, rfl, ?_, ?_, ?_, ?_, ?_, ?_, ?_, ?_, ?_, ?_⟩
        · rw [blocks]; rfl
        · rw [blocks]; simp only [releasedUnit, charged, if_true]; rfl
        · rw [blocks]; rfl
        · rw [blocks]; rfl
        · rw [blocks]; rfl
        · rw [blocks]
          exact depositEnded_service config
        all_goals rw [blocks]; rfl
    · rw [depositClose_some (s := u) found deposit, used]
    · have blocks := releaseDeposit_eq (s := u) deposit
      rw [depositClose_some (s := u) found deposit, unused]
      refine ⟨_, rfl, ?_, ?_, ?_, ?_, ?_, ?_⟩
      · rw [blocks]; simp only [releasedUnit, free, if_false]; rfl
      all_goals rw [blocks]; rfl
  · refine (whenRunning_running running).trans (congrArg _ ((if_pos told).trans ?_))
    exact expireDeposits_one (s := { s with tk := { s.tk with told := { s.tk.told with close := false } } }) config deposit late alone
  · intro t new joins
    have news : commitNews confirmed r c d s = new := by
      cases kind : d.kind <;> simp [commitNews, depositReport, commitOutcome, new, kind]
    have gains := commitDeposit_gains (confirmed := confirmed) config deposit
    have takes_iff (old : DepositReport) : old.absorbs new = true ↔ joins old := absorbs_iff
    have misses {old : DepositReport} (h : ¬joins old) : old.absorbs new = false := by
      rw [← takes_iff] at h; simpa using h
    have blocks := commitDeposit_eq (confirmed := confirmed) config deposit
    refine ⟨?_, fun none_ room => ?_, fun before seq old after waiting joined none_ => ?_, ?_, ?_, ?_, ?_⟩
    · simp only [t]
      rw [blocks]
      rfl
    · have fresh : absorb new s.tp.waiting = none := absorb_eq_none fun seq old h => misses (none_ seq old h)
      refine gains.entries _ ?_
      rw [chargedDeposit, news, postReport_new (s := { s with au := committedUnit d r s.au }) fresh]
      exact mem_entries_reported room _
    · have merged : absorb new s.tp.waiting = _ := waiting ▸ absorb_eq_some ((takes_iff old).mpr joined) fun x y h => misses (none_ x y h)
      obtain ⟨later, grown, others⟩ := gains.waiting
      refine ⟨later, ?_, others⟩
      rw [grown, chargedDeposit, news, postReport_absorbed (s := { s with au := committedUnit d r s.au }) merged]
    all_goals simp only [t]; rw [blocks]
  · intro movedOn
    have moved {t : State} (service : t.rm.service = (depositEnded r s).rm.service) (slc : t.slc = (depositEnded r s).slc) : movedOn t := by
      simp only [movedOn]
      rw [service, slc, depositEnded_service config, depositEnded_slc config]
      cases serviceOf s r with
      | serviceWait step relay => exact ⟨rfl, rfl⟩
      | _ => exact ⟨rfl, rfl⟩
    refine ⟨fun confirmed => ⟨?_, ?_⟩, ?_, ?_, ?_, ?_, fun idle => ?_, fun step relay waits => ?_⟩
    · have notice := commitDeposit_notice (confirmed := confirmed) config deposit
      exact moved notice.1 notice.2
    · rw [commitDeposit_eq (confirmed := confirmed) config deposit]
      simp only [Fill.credit_eq]
    · refine moved ?_ ?_ <;> rw [releaseDeposit_eq deposit]
    · have blocks := releaseDeposit_eq deposit
      rw [blocks]
    · rw [releaseDeposit_eq deposit]
    · rw [releaseDeposit_eq deposit]
      rfl
    · rw [releaseDeposit_tp config deposit]
      cases service : serviceOf s r with
      | serviceWait step relay => exact absurd service (idle step relay)
      | _ => rfl
    · rw [releaseDeposit_tp config deposit, waits]

/-! ### Denials (R125, R130) -/

/-- The Card Lookup Unit once a container's request waits nowhere (R114). -/
def CardLookup.without (r : Row) (u : CardLookup) : CardLookup :=
  { u with
    missList := u.missList.map fun e => { e with waiting := e.waiting.filter (·.row != r) }
    slotWait := u.slotWait.filter (·.row != r) }

/-- The Admission Unit once a pending request has been denied (R130). -/
def AdmissionUnit.denying (r : Row) (u : AdmissionUnit) : AdmissionUnit :=
  { u with requests := u.requests.filter (·.row != r), denials := bump u.denials }

theorem sendDeny_eq (a : Station) (bay tag : Byte) (reason : DenyReason) (redirect : Option Redirect) (s : State) :
    sendDeny a bay tag reason redirect s = { s with
      slc := s.slc.offered a (.deny bay tag reason redirect), au := { s.au with denials := bump s.au.denials } } := by
  unfold sendDeny
  rw [sendDown_offered rfl]
  rfl

theorem denyRequest_eq (q : Request) (reason : DenyReason) (redirect : Option Redirect) (s : State) :
    denyRequest q reason redirect s = { s with
      slc := s.slc.offered q.station (.deny (BitVec.ofNat 8 q.bay.val) q.tag reason redirect)
      au := s.au.denying q.row
      clu := s.clu.without q.row } := by
  rw [denyRequest, sendDeny_eq]
  rfl

theorem without_buckets (r : Row) (u : CardLookup) : (u.without r).missList.map (·.bucket) = u.missList.map (·.bucket) := by
  simp [CardLookup.without]

/-- A count that has been raised `n` times stops at 65535. -/
theorem bump_iterate (n k : Nat) : (fun m => bump m)^[n] k = if n = 0 then k else min 65535 (k + n) := by
  induction n with
  | zero => rfl
  | succ n ih =>
    rw [Function.iterate_succ_apply', ih]
    unfold bump
    split <;> simp <;> omega

/-- A list of requests denied, one after the other. -/
theorem foldl_denyRequest (reason : DenyReason) : ∀ (l : List Request) (s : State),
    let t := l.foldl (fun s q => denyRequest q reason none s) s
    t = { s with slc := t.slc, au := t.au, clu := t.clu } ∧
    t.slc = l.foldl (fun u q => u.offered q.station (.deny (BitVec.ofNat 8 q.bay.val) q.tag reason none)) s.slc ∧
    t.au = { s.au with
      requests := s.au.requests.filter fun x => l.all fun q => x.row != q.row
      denials := (fun m => bump m)^[l.length] s.au.denials } ∧
    t.clu.entries = s.clu.entries ∧ t.clu.missList.map (·.bucket) = s.clu.missList.map (·.bucket)
  | [], s => by simp
  | q :: rest, s => by
    obtain ⟨blocks, slc, au, entries, buckets⟩ := foldl_denyRequest reason rest (denyRequest q reason none s)
    rw [denyRequest_eq] at blocks slc au entries buckets
    simp only [List.foldl_cons]
    rw [denyRequest_eq]
    refine ⟨?_, slc, ?_, entries, buckets.trans (without_buckets q.row s.clu)⟩
    · rw [blocks]
    · rw [au]
      simp [AdmissionUnit.denying, List.filter_filter, Bool.and_comm]

/-- The rows whose request the decision limit has reached are those of no other request. -/
theorem filter_not_late {l : List Request} (once : (l.map (·.row)).Nodup) (late : Request → Bool) :
    (l.filter fun x => (l.filter late).all fun q => x.row != q.row) = l.filter fun x => !late x := by
  refine List.filter_congr fun x hx => ?_
  rw [Bool.eq_iff_iff, List.all_eq_true, Bool.not_eq_true', ← Bool.not_eq_true]
  refine ⟨fun h hlate => ?_, fun h q hq => ?_⟩
  · simpa using h x (List.mem_filter.mpr ⟨hx, hlate⟩)
  · obtain ⟨hq, qlate⟩ := List.mem_filter.mp hq
    have ne : x.row ≠ q.row := fun e => h (List.inj_on_of_nodup_map once hx hq e ▸ qlate)
    simpa using ne

/-- What the close limit leaves of the blocks that it does not touch. -/
structure CloseKeeps (s t : State) : Prop where
  requests : t.au.requests = s.au.requests
  tk : t.tk = s.tk
  effective : t.tp.effective = s.tp.effective
  rmi : t.rmi = s.rmi
  clu : t.clu = s.clu
  memory : t.memory = s.memory
  config : ∀ r, configOf t r = configOf s r

theorem CloseKeeps.refl (s : State) : CloseKeeps s s := ⟨rfl, rfl, rfl, rfl, rfl, rfl, fun _ => rfl⟩

theorem CloseKeeps.trans {s t u : State} (h : CloseKeeps s t) (k : CloseKeeps t u) : CloseKeeps s u :=
  ⟨k.requests.trans h.requests, k.tk.trans h.tk, k.effective.trans h.effective, k.rmi.trans h.rmi, k.clu.trans h.clu,
    k.memory.trans h.memory, fun r => (k.config r).trans (h.config r)⟩

theorem closeKeeps_commitDeposit (confirmed : Bool) (r : Row) (s : State) : CloseKeeps s (commitDeposit confirmed r s) := by
  cases deposit : s.au.deposits.get r with
  | none => rw [commitDeposit_none deposit]; exact .refl s
  | some d =>
    cases config : configOf s r with
    | none => rw [commitDeposit_unoccupied config]; exact .refl s
    | some c =>
      have blocks := commitDeposit_eq (confirmed := confirmed) config deposit
      refine ⟨?_, commitDeposit_tk confirmed r s, commitDeposit_effective confirmed r s, ?_, ?_, ?_, fun x => ?_⟩
      · rw [blocks]; rfl
      · rw [blocks]
      · rw [blocks]
      · rw [blocks]
      · rw [configOf, blocks]
        by_cases hx : x = r <;> simp [hx, configOf]

/-- The deposit slot that the close limit leaves. -/
def slotAfter (s : State) (r : Row) (deposit : Option OpenDeposit) : Option OpenDeposit :=
  match deposit with
  | some d =>
    if s.tp.effective.closeLimit ≤ elapsed s.tk.seconds d.granted ∧ (configOf s r).isSome = true then none else some d
  | none => none

theorem expireDeposit_step {s t : State} (kept : CloseKeeps s t) (r : Row) : CloseKeeps s (expireDeposit t r) ∧
    ∀ x, (expireDeposit t r).au.deposits.get x =
      if x = r then slotAfter s r (t.au.deposits.get r) else t.au.deposits.get x := by
  cases deposit : t.au.deposits.get r with
  | none =>
    rw [expireDeposit_early fun d h => by rw [deposit] at h; cases h]
    exact ⟨kept, fun x => by by_cases hx : x = r <;> simp [hx, deposit, slotAfter]⟩
  | some d =>
    by_cases late : depositLate t d
    · have late' : s.tp.effective.closeLimit ≤ elapsed s.tk.seconds d.granted := by
        rw [depositLate, kept.effective, kept.tk] at late
        exact late
      rw [expireDeposit_late deposit late]
      refine ⟨kept.trans (closeKeeps_commitDeposit false r t), fun x => ?_⟩
      cases config : configOf t r with
      | none =>
        have config' : configOf s r = none := (kept.config r).symm.trans config
        rw [commitDeposit_unoccupied config]
        by_cases hx : x = r <;> simp [hx, deposit, slotAfter, config']
      | some c =>
        have config' : configOf s r = some c := (kept.config r).symm.trans config
        rw [commitDeposit_deposits t config, Table.get_set]
        by_cases hx : x = r <;> simp [hx, slotAfter, late', config']
    · have early : ¬s.tp.effective.closeLimit ≤ elapsed s.tk.seconds d.granted := by
        rw [depositLate, kept.effective, kept.tk] at late
        exact late
      rw [expireDeposit_early fun e h => by rw [← Option.some.inj (deposit.symm.trans h)]; exact late]
      exact ⟨kept, fun x => by by_cases hx : x = r <;> simp [hx, deposit, slotAfter, early]⟩

theorem expireDeposits_spec (s : State) : CloseKeeps s (expireDeposits s) ∧
    ∀ r, (expireDeposits s).au.deposits.get r = slotAfter s r (s.au.deposits.get r) := by
  have once := List.nodup_finRange 192
  have all (r : Row) := List.mem_finRange r
  rw [expireDeposits_eq]
  generalize List.finRange 192 = l at once all
  obtain ⟨kept, slots⟩ := foldl_pointwise (get := fun (t : State) x => t.au.deposits.get x) (g := slotAfter s) (keep := CloseKeeps s)
    (fun t r kept => expireDeposit_step kept r) once (CloseKeeps.refl s)
  exact ⟨kept, fun r => (slots r).trans (if_pos (all r))⟩

/-- Settles O9: the denials one after the other, and each deposit slot by what it holds. -/
theorem admissionLimitsExpire : Obligations.AdmissionLimitsExpire := by
  refine ⟨fun s running told once => ?_, fun s running told => ?_⟩
  · let u : State := { s with tk := { s.tk with told := { s.tk.told with decision := false } } }
    let late (q : Request) : Bool := decide (s.tp.effective.decisionLimit ≤ elapsed s.tk.seconds q.arrival)
    obtain ⟨blocks, slc, au, entries, buckets⟩ := foldl_denyRequest .tryAgain (s.au.requests.filter late) u
    refine ⟨(s.au.requests.filter late).foldl (fun s q => denyRequest q .tryAgain none s) u,
      (whenRunning_running running).trans (congrArg _ (if_pos told)), ?_, fun counted => ?_, ?_, ?_, ?_, ?_, ?_, ?_, ?_, ?_, entries,
      buckets, slc⟩
    · rw [au]
      refine (filter_not_late once late).trans (List.filter_congr fun q _ => ?_)
      simp only [late]
      rw [← decide_not, decide_eq_decide, not_le]
    · rw [au, List.countP_eq_length_filter]
      refine (bump_iterate _ _).trans ?_
      change (if _ then s.au.denials else min 65535 (s.au.denials + _)) = min 65535 (s.au.denials + (s.au.requests.filter late).length)
      split
      next none => rw [none, Nat.add_zero, Nat.min_eq_right counted]
      next => rfl
    · rw [au]
    · rw [au]
    · rw [au]
    all_goals rw [blocks]
  · obtain ⟨kept, slots⟩ := expireDeposits_spec { s with tk := { s.tk with told := { s.tk.told with close := false } } }
    refine ⟨expireDeposits { s with tk := { s.tk with told := { s.tk.told with close := false } } },
      (whenRunning_running running).trans (congrArg _ ?_), fun r d deposit config => ?_, fun r empty => ?_, kept.requests, kept.tk, kept.rmi, kept.clu, kept.memory, kept.config⟩
    · exact if_pos told
    · refine (slots r).trans ?_
      change slotAfter _ r (s.au.deposits.get r) = _
      rw [deposit]
      simp only [slotAfter]
      have config' : (configOf { s with tk := { s.tk with told := { s.tk.told with close := false } } } r).isSome = true := config
      simp only [config', and_true]
    · refine (slots r).trans ?_
      change slotAfter _ r (s.au.deposits.get r) = _
      rw [empty]
      rfl

end Sys2Proof.Machine
end

