-- ==== Sys2Proof/Proofs/Losses.lean ====
section
/-! Proofs about settled stations: missed polls and losses (3.2, 2.5), and announced joins (2.3). -/

namespace Sys2Proof.Machine

/-! ### Commands offered to rows (R32) -/

/-- The second street loop is the first one after commands other than a PASS_DOWN have been posted. -/
inductive Offers (u : StreetLoop) : StreetLoop → Prop
  | refl : Offers u u
  | offered {v : StreetLoop} (h : Offers u v) (a : Station) {c : DownCommand} (own : c.isPassDown = false) : Offers u (v.offered a c)

theorem Offers.trans {u v w : StreetLoop} (first : Offers u v) (next : Offers v w) : Offers u w := by
  induction next with
  | refl => exact first
  | offered _ a own ih => exact ih.offered a own

theorem offered_state (c : DownCommand) (row : StationRow) : (row.offered c).state = row.state := by
  unfold StationRow.offered
  split <;> rfl

/-- A row outside the states that R32 names takes no command. -/
theorem offered_discards {c : DownCommand} {row : StationRow} (shut : row.state ∉ [.awake, .dozing, .silent, .absent]) :
    row.offered c = row := if_neg fun h => shut h.1

theorem Offers.state {u v : StreetLoop} (h : Offers u v) (a : Station) : (v.rows.get a).state = (u.rows.get a).state := by
  induction h with
  | refl => rfl
  | offered _ b _ ih =>
    refine (congrArg StationRow.state (Table.get_set ..)).trans ?_
    split
    · next e => rw [offered_state, ← e, ih]
    · exact ih

theorem Offers.shut {u v : StreetLoop} (h : Offers u v) {a : Station}
    (shut : (u.rows.get a).state ∉ [.awake, .dozing, .silent, .absent]) : v.rows.get a = u.rows.get a := by
  induction h with
  | refl => rfl
  | offered _ b _ ih =>
    refine (Table.get_set ..).trans ?_
    split
    · next e => rw [← e, ih, offered_discards shut]
    · exact ih

theorem depositEnded_offers (r : Row) (s : State) : Offers s.slc (depositEnded r s).slc := by
  by_cases waits : ∃ step relay c, serviceOf s r = .serviceWait step relay ∧ configOf s r = some c
  · obtain ⟨step, relay, c, waits, config⟩ := waits
    rw [depositEnded_waiting waits config]
    unfold releasedLoop
    cases (stepAt s step).bind (·.vehicle) with
    | none => exact Offers.refl.offered _ rfl
    | some v => exact (Offers.refl.offered _ rfl).offered _ rfl
  · unfold depositEnded
    split
    · next h config => exact absurd ⟨_, _, _, h, config⟩ waits
    · exact .refl

theorem commitDeposit_offers (confirmed : Bool) (r : Row) (s : State) : Offers s.slc (commitDeposit confirmed r s).slc := by
  cases deposit : s.au.deposits.get r with
  | none => rw [commitDeposit_none deposit]; exact .refl
  | some d =>
    cases config : configOf s r with
    | none => rw [commitDeposit_unoccupied config]; exact .refl
    | some c => rw [(commitDeposit_notice config deposit).2]; exact depositEnded_offers r s

theorem releaseDeposit_offers (r : Row) (s : State) : Offers s.slc (releaseDeposit r s).slc := by
  cases deposit : s.au.deposits.get r with
  | none => rw [releaseDeposit_none deposit]; exact .refl
  | some d => rw [releaseDeposit_eq deposit]; exact depositEnded_offers r s

/-! ### Containers settled (R20, R29, R143) -/

/-- A container without its pending request. -/
def State.unasked (r : Row) (s : State) : State :=
  { s with au := { s.au with requests := s.au.requests.filter (·.row != r) }, clu := s.clu.without r }

theorem settle_none {restarted : Bool} {r : Row} {s : State} (empty : s.au.deposits.get r = none) :
    s.settle restarted r = s.unasked r := by
  unfold State.settle
  simp only [empty]
  rfl

theorem settle_some {restarted : Bool} {r : Row} {d : OpenDeposit} {s : State} (deposit : s.au.deposits.get r = some d) :
    s.settle restarted r =
      if restarted || d.delivered then commitDeposit false r (s.unasked r) else releaseDeposit r (s.unasked r) := by
  unfold State.settle
  simp only [deposit]
  rfl

/-- What settling containers leaves alone. -/
structure SettleKeeps (s t : State) : Prop where
  memory : t.memory = s.memory
  rmi : t.rmi = s.rmi
  tk : t.tk = s.tk
  loop : Offers s.slc t.slc
  config : ∀ r, configOf t r = configOf s r

theorem SettleKeeps.refl (s : State) : SettleKeeps s s := ⟨rfl, rfl, rfl, .refl, fun _ => rfl⟩

theorem SettleKeeps.trans {s t u : State} (h : SettleKeeps s t) (k : SettleKeeps t u) : SettleKeeps s u :=
  ⟨k.memory.trans h.memory, k.rmi.trans h.rmi, k.tk.trans h.tk, h.loop.trans k.loop, fun r => (k.config r).trans (h.config r)⟩

theorem settleKeeps_commitDeposit (confirmed : Bool) (r : Row) (s : State) : SettleKeeps s (commitDeposit confirmed r s) :=
  have kept := closeKeeps_commitDeposit confirmed r s
  ⟨kept.memory, kept.rmi, kept.tk, commitDeposit_offers confirmed r s, kept.config⟩

theorem settleKeeps_releaseDeposit (r : Row) (s : State) : SettleKeeps s (releaseDeposit r s) := by
  cases deposit : s.au.deposits.get r with
  | none => rw [releaseDeposit_none deposit]; exact .refl s
  | some d =>
    have blocks := releaseDeposit_eq deposit
    have loop := releaseDeposit_offers r s
    exact ⟨by rw [blocks], by rw [blocks], by rw [blocks], loop, fun x => by rw [configOf, blocks]; rfl⟩

/-- The deposit and the requests that a container has. -/
def State.traffic (s : State) (r : Row) : Option OpenDeposit × List Request :=
  (s.au.deposits.get r, s.au.requests.filter (·.row == r))

theorem filter_other_row {l : List Request} {r x : Row} :
    (l.filter (·.row != r)).filter (·.row == x) = if x = r then [] else l.filter (·.row == x) := by
  rw [List.filter_filter]
  split
  · next h => simp [h]
  · next h =>
    refine List.filter_congr fun q _ => ?_
    by_cases hq : q.row = x <;> simp [hq, h]

theorem traffic_unasked (r x : Row) (s : State) : (s.unasked r).traffic x = ((s.au.deposits.get x), if x = r then [] else (s.traffic x).2) :=
  Prod.ext rfl filter_other_row

theorem commitDeposit_traffic {confirmed : Bool} {r : Row} {c : ContainerConfig} {s : State} (config : configOf s r = some c) (x : Row) :
    (commitDeposit confirmed r s).traffic x = (if x = r then none else s.au.deposits.get x, (s.traffic x).2) := by
  refine Prod.ext ?_ ?_
  · rw [State.traffic, commitDeposit_deposits s config, Table.get_set]
  · exact congrArg (List.filter _) (closeKeeps_commitDeposit confirmed r s).requests

theorem releaseDeposit_traffic (r : Row) (s : State) (x : Row) :
    (releaseDeposit r s).traffic x = (if x = r then none else s.au.deposits.get x, (s.traffic x).2) := by
  cases deposit : s.au.deposits.get r with
  | none =>
    rw [releaseDeposit_none deposit]
    by_cases hx : x = r <;> simp [State.traffic, hx, deposit]
  | some d =>
    rw [State.traffic, releaseDeposit_eq deposit]
    exact Prod.ext (Table.get_set ..) rfl

/-- A container of the settled station has neither a deposit nor a request after it; the others keep theirs. -/
theorem settle_step {restarted : Bool} {r : Row} {s t : State} (bound : (configOf s r).isSome = true) (kept : SettleKeeps s t) :
    SettleKeeps s (t.settle restarted r) ∧
      ∀ x, (t.settle restarted r).traffic x = if x = r then (none, []) else t.traffic x := by
  have asked : SettleKeeps t (t.unasked r) := ⟨rfl, rfl, rfl, .refl, fun _ => rfl⟩
  cases deposit : t.au.deposits.get r with
  | none =>
    rw [settle_none deposit]
    refine ⟨kept.trans asked, fun x => (traffic_unasked r x t).trans ?_⟩
    by_cases hx : x = r
    · simp [hx, deposit]
    · simp [hx, State.traffic]
  | some d =>
    obtain ⟨c, config⟩ := Option.isSome_iff_exists.mp bound
    have config' : configOf (t.unasked r) r = some c := (kept.config r).trans config
    have slots (x : Row) : (if x = r then none else (t.unasked r).au.deposits.get x, ((t.unasked r).traffic x).2) =
        if x = r then (none, []) else t.traffic x := by
      rw [traffic_unasked]
      by_cases hx : x = r <;> simp [hx, State.traffic, State.unasked]
    rw [settle_some deposit]
    split
    · exact ⟨kept.trans (asked.trans (settleKeeps_commitDeposit false r _)), fun x => (commitDeposit_traffic config' x).trans (slots x)⟩
    · exact ⟨kept.trans (asked.trans (settleKeeps_releaseDeposit r _)), fun x => (releaseDeposit_traffic r _ x).trans (slots x)⟩

theorem settle_all (restarted : Bool) (s : State) : ∀ {l : List Row} {t : State}, (∀ r ∈ l, (configOf s r).isSome = true) →
    SettleKeeps s t → SettleKeeps s (l.foldl (State.settle restarted) t) ∧
      ∀ x, (l.foldl (State.settle restarted) t).traffic x = if x ∈ l then (none, []) else t.traffic x
  | [], t, _, kept => by simpa using kept
  | r :: rest, t, bound, kept => by
    obtain ⟨kept', first⟩ := settle_step (restarted := restarted) (bound r List.mem_cons_self) kept
    obtain ⟨kept'', others⟩ := settle_all restarted s (fun q hq => bound q (List.mem_cons_of_mem _ hq)) kept'
    refine ⟨kept'', fun x => (others x).trans ?_⟩
    rw [first x]
    by_cases hx : x = r <;> simp [hx]

theorem idle_of_traffic {s : State} {r : Row} (none_ : s.traffic r = (none, [])) : s.idle r := by
  obtain ⟨deposit, requests⟩ := Prod.mk.injEq .. ▸ none_
  exact ⟨fun q hq e => by simpa using (List.filter_eq_nil_iff.mp requests q hq) (by simpa using e), deposit⟩

/-- A station settled: its containers are idle, and the others have what they had. -/
theorem settle_bound (restarted : Bool) (a : Station) (s : State) :
    let t := (boundTo s a).foldl (State.settle restarted) s
    SettleKeeps s t ∧ (∀ r c, configOf s r = some c → c.station = a → t.idle r) ∧
      ∀ r c, configOf s r = some c → c.station ≠ a → t.au.deposits.get r = s.au.deposits.get r ∧
        ∀ q, q.row = r → (q ∈ t.au.requests ↔ q ∈ s.au.requests) := by
  have bound : ∀ r ∈ boundTo s a, (configOf s r).isSome = true := fun r hr => by
    obtain ⟨c, config, -⟩ := mem_boundTo.mp hr
    simp [config]
  obtain ⟨kept, traffic⟩ := settle_all restarted s bound (.refl s)
  refine ⟨kept, fun r c config here => idle_of_traffic ?_, fun r c config other => ?_⟩
  · rw [traffic, if_pos (mem_boundTo.mpr ⟨c, config, here⟩)]
  · have same := traffic r
    rw [if_neg] at same
    · obtain ⟨deposit, requests⟩ := Prod.mk.injEq .. ▸ same
      refine ⟨deposit, fun q hq => ?_⟩
      have member := congrArg (q ∈ ·) requests
      simpa [hq] using member
    · intro h
      obtain ⟨c', config', here⟩ := mem_boundTo.mp h
      exact other (Option.some.inj (config.symm.trans config') ▸ here)

/-! ### Failed and missed polls (R28, R29, R38) -/

theorem onTurn_poll {s : State} {p : Poll} (turn : s.slc.turn = some (.poll p)) (poll : Poll → State → State) (slot : State → State) :
    onTurn poll slot s = poll p s := by
  rw [onTurn, turn]

/-- A garbled answer fails the poll (R37). -/
theorem pollBytes_failed {p : Poll} {bytes : List Byte} (s : State)
    (garbled : ∀ f, readUpward bytes = .frame f → f.address.toNat ≠ p.address.val + 1 ∨ f.item = .attention ∨
      ∃ serial cause, f.item = .joinAnnounce serial cause) : pollBytes p bytes s = failPoll p s := by
  unfold pollBytes
  cases reading : readUpward bytes with
  | frame f =>
    refine if_neg fun h => ?_
    rcases garbled f reading with other | attention | ⟨serial, cause, join⟩
    · exact other h.1
    · simp [attention, UpItem.slotOnly] at h
    · simp [join, UpItem.slotOnly] at h
  | _ => rfl

/-- The street loop after a missed turn, with the row that it leaves. -/
def State.missed (a : Station) (row : StationRow) (s : State) : State := { s with slc := { s.slc with
  turn := none, sinceOpen := min 32 (s.slc.sinceOpen + 1), noAnswers := min 65535 (s.slc.noAnswers + 1)
  rows := s.slc.rows.set a row } }

@[simp] theorem missed_get (a : Station) (row : StationRow) (s : State) : (s.missed a row).slc.rows.get a = row := Table.get_set_self _ _ _

/-- A row whose poll has been missed, before its state is looked at (R45). -/
def StationRow.unmarked (row : StationRow) : StationRow := { row with raised := false, due := false }

theorem failPoll_last {p : Poll} {s : State} (last : p.retries = 0) (polled : (s.slc.rows.get p.address).state.polled = true) :
    failPoll p s =
      match (s.slc.rows.get p.address).state with
      | .joining => joinTimeout p.address (s.missed p.address (s.slc.rows.get p.address).unmarked)
      | .awake | .dozing | .silent => countMiss p.address (s.missed p.address (s.slc.rows.get p.address).unmarked)
      | _ => s.missed p.address (s.slc.rows.get p.address).unmarked := by
  have start : setStation p.address (fun r => { r with raised := false, due := false })
      (endPoll { s with slc.noAnswers := bump s.slc.noAnswers }) = s.missed p.address (s.slc.rows.get p.address).unmarked := rfl
  have same : (s.missed p.address (s.slc.rows.get p.address).unmarked).slc.rows.get p.address =
      (s.slc.rows.get p.address).unmarked := missed_get _ _ _
  have polled' : ((endPoll { s with slc.noAnswers := bump s.slc.noAnswers }).slc.rows.get p.address).state.polled = true := polled
  unfold failPoll
  simp only [last, missPoll]
  rw [polled', Bool.not_true, if_neg Bool.false_ne_true, start, same]
  rfl

theorem missed_withRow (a : Station) (x y : StationRow) (s : State) : (s.missed a x).withRow a y = s.missed a y := by
  simp [State.missed, State.withRow]

/-- A miss below the miss limit (R28). -/
theorem countMiss_below {a : Station} {s : State} (below : (s.slc.rows.get a).miss + 1 < s.tp.effective.missLimit) :
    countMiss a s = s.withRow a { s.slc.rows.get a with state := .silent, miss := (s.slc.rows.get a).miss + 1 } := by
  unfold countMiss
  simp only [setStation_eq_withRow, get_withRow, withRow_withRow]
  exact if_neg (Nat.not_le.mpr below)

/-- A miss at the miss limit (R28, R29). -/
theorem countMiss_limit {a : Station} {s : State} (limit : s.tp.effective.missLimit ≤ (s.slc.rows.get a).miss + 1) :
    countMiss a s = loseStation a (s.withRow a { s.slc.rows.get a with miss := (s.slc.rows.get a).miss + 1 }) := by
  unfold countMiss
  simp only [setStation_eq_withRow, get_withRow]
  exact if_pos limit

/-- A row lost (R29). -/
def StationRow.lost (row : StationRow) : StationRow := { row with state := .lost, raised := false, due := false, queue := [] }

theorem loseStation_eq {a : Station} {s : State} (idle : s.slc.turn = none) : loseStation a s =
    (boundTo s a).foldl (State.settle false) { s.withRow a (s.slc.rows.get a).lost with
      tp := s.tp.reported (stationNews .lost a none none none (s.slc.rows.get a).lost s.stamp) } := by
  unfold loseStation
  have emptied : emptyDown a (setStation a (fun r => { r with state := .lost, raised := false, due := false }) s) =
      s.withRow a (s.slc.rows.get a).lost := by
    simp only [emptyDown, setStation_eq_withRow, get_withRow, withRow_withRow]
    simp [State.withRow, idle, StationRow.lost]
  simp only [emptied, rowEvent_eq, settleStation_settle, get_withRow]
  rfl

theorem mem_inService {x : StationState} (h : x ∈ [StationState.awake, .dozing, .silent]) :
    x.polled = true ∧ (x = .awake ∨ x = .dozing ∨ x = .silent) := by
  simp only [List.mem_cons, List.not_mem_nil, or_false] at h
  rcases h with rfl | rfl | rfl <;> simp [StationState.polled]

theorem failPoll_inService {p : Poll} {s : State} (last : p.retries = 0)
    (service : (s.slc.rows.get p.address).state ∈ [.awake, .dozing, .silent]) :
    failPoll p s = countMiss p.address (s.missed p.address (s.slc.rows.get p.address).unmarked) := by
  obtain ⟨polled, which⟩ := mem_inService service
  rw [failPoll_last last polled]
  rcases which with h | h | h <;> simp only [h]

/-- The loss that O41 states, before its containers are settled. -/
theorem failPoll_lost {p : Poll} {s : State} (last : p.retries = 0)
    (service : (s.slc.rows.get p.address).state ∈ [.awake, .dozing, .silent])
    (limit : s.tp.effective.missLimit ≤ (s.slc.rows.get p.address).miss + 1) :
    let row : StationRow := { s.slc.rows.get p.address with
      state := .lost, miss := (s.slc.rows.get p.address).miss + 1, raised := false, due := false, queue := [] }
    failPoll p s = (boundTo s p.address).foldl (State.settle false) { s.missed p.address row with
      tp := s.tp.reported (stationNews .lost p.address none none none row s.stamp) } := by
  rw [failPoll_inService last service, countMiss_limit (by rw [missed_get]; exact limit), missed_withRow, missed_get,
    loseStation_eq rfl, missed_get, missed_withRow]
  rfl

/-- Settles O41: the loss is the row's, its report's, and then the settling of its containers. -/
theorem pollsFailOrMiss : Obligations.PollsFailOrMiss := by
  refine ⟨fun c p s running turn which => ?_, fun p s running turn last => ?_⟩
  · have timeout : exec .responseWindowExpiry s = .next (failPoll p s) :=
      (whenRunning_running running).trans (congrArg _ (onTurn_poll turn _ _))
    have outcome : exec c s = .next (failPoll p s) := by
      rcases which with rfl | rfl | ⟨bytes, rfl, garbled⟩
      · exact timeout
      · exact (whenRunning_running running).trans (congrArg _ (onTurn_poll turn _ _))
      · exact (whenRunning_running running).trans (congrArg _ ((onTurn_poll turn _ _).trans (pollBytes_failed s garbled)))
    rw [outcome, timeout]
    refine ⟨rfl, fun n retries => congrArg _ ?_, fun last absent => congrArg _ ?_, fun last service below => congrArg _ ?_⟩
    · unfold failPoll
      simp only [retries]
      rfl
    · rw [failPoll_last last (by rw [absent]; rfl)]
      simp only [absent]
      rfl
    · rw [failPoll_inService last service, countMiss_below (by rw [missed_get]; exact below), missed_get, missed_withRow]
      rfl
  · have outcome : exec .responseWindowExpiry s = .next (failPoll p s) :=
      (whenRunning_running running).trans (congrArg _ (onTurn_poll turn _ _))
    refine ⟨fun service limit => ?_, fun service limit => ⟨_, outcome, ?_⟩, fun joining room => ⟨_, outcome, ?_⟩⟩
    · rw [outcome, failPoll_lost last service limit]
      rfl
    · rw [failPoll_lost last service limit]
      let row : StationRow := { s.slc.rows.get p.address with
        state := .lost, miss := (s.slc.rows.get p.address).miss + 1, raised := false, due := false, queue := [] }
      let lost : State := { s.missed p.address row with
        tp := s.tp.reported (stationNews .lost p.address none none none row s.stamp) }
      obtain ⟨kept, idle, others⟩ := settle_bound false p.address lost
      have here : lost.slc.rows.get p.address = row := missed_get _ _ _
      have same : ((boundTo lost p.address).foldl (State.settle false) lost).slc.rows.get p.address = row :=
        (kept.loop.shut (by rw [here]; simp [row])).trans here
      refine ⟨congrArg StationRow.state same, congrArg StationRow.queue same, ?_, fun a other => (kept.loop.state a).trans ?_, idle,
        others, kept.memory, kept.rmi, kept.tk⟩
      · exact (congrArg StationRow.member same).trans rfl
      · exact congrArg StationRow.state ((Table.get_set ..).trans (if_neg other))
    · rw [failPoll_last last (by rw [joining]; rfl)]
      simp only [joining, joinTimeout, setStation_eq_withRow, missed_get, missed_withRow, rowEvent_eq]
      exact ⟨rfl, mem_entries_reported room _, rfl, rfl, rfl, rfl, rfl⟩

/-! ### Announced joins (R18 to R20) -/

/-- A row that enters JOINING (R19). -/
def StationRow.joiningFor (cause : JoinCause) (row : StationRow) : StationRow :=
  { row with state := .joining, joinPrior := some row.state, joinCause := some cause, miss := 0, queue := [], raised := false, due := false }

theorem enterJoining_eq {a : Station} {s : State} (idle : s.slc.turn = none) (cause : JoinCause) : enterJoining a cause s =
    match (s.slc.rows.get a).state with
    | .awake | .dozing =>
      (boundTo s a).foldl (State.settle true) (s.withRow a ((s.slc.rows.get a).joiningFor cause))
    | .silent => (boundTo s a).foldl (State.settle false) (s.withRow a ((s.slc.rows.get a).joiningFor cause))
    | _ => s.withRow a ((s.slc.rows.get a).joiningFor cause) := by
  unfold enterJoining
  have emptied : emptyDown a (setStation a (fun r => { r with
      joinPrior := some (s.slc.rows.get a).state, joinCause := some cause, state := .joining, miss := 0, raised := false, due := false }) s) = s.withRow a ((s.slc.rows.get a).joiningFor cause) := by
    simp only [emptyDown, setStation_eq_withRow, get_withRow, withRow_withRow]
    simp [State.withRow, idle, StationRow.joiningFor]
  simp only [emptied, settleStation_settle]
  rfl

theorem exec_joinAnnounce {s : State} (running : s.hold = .running) (turn : s.slc.turn = some .openSlot) (serial : Serial)
    (cause : JoinCause) : exec (.joinAnnounce serial cause) s = .next (takeAnnounce serial cause (s.slotEnded false)) :=
  (whenRunning_running running).trans (congrArg _ (onTurn_openSlot turn _ _))

/-- A row whose announce has come (R18, log 31). -/
def StationRow.announced (row : StationRow) : StationRow :=
  { row with joinUnwritten := (row.state == .joining || row.state == .barred) && row.joinUnwritten }

theorem StationRow.announced_vacant {row : StationRow} (out : row.state ≠ .joining ∧ row.state ≠ .barred) :
    row.announced = { row with joinUnwritten := false } := by
  simp [StationRow.announced, out.1, out.2]

theorem StationRow.announced_waiting {row : StationRow} (waits : row.state = .joining ∨ row.state = .barred) : row.announced = row := by
  have keeps : ((row.state == .joining || row.state == .barred) && row.joinUnwritten) = row.joinUnwritten := by
    rcases waits with h | h <;> rw [h] <;> rfl
  rw [StationRow.announced, keeps]

/-- The announce of a serial that one row holds (R18). -/
theorem takeAnnounce_held {a : Station} {serial : Serial} {s : State} (held : (s.slc.rows.get a).serial = some serial)
    (one : ∀ b, (s.slc.rows.get b).serial = some serial → b = a) (cause : JoinCause) : takeAnnounce serial cause s =
      announceAt a cause (s.withRow a (s.slc.rows.get a).announced) := by
  have found : s.slc.rows.find (fun r => r.serial == some serial) = some a := by
    cases search : s.slc.rows.find (fun r => r.serial == some serial) with
    | none => simpa [held] using Table.find_none.mp search a
    | some b => rw [one b (by simpa using Table.find_some search)]
  unfold takeAnnounce
  simp only [found]
  rfl

/-- The announce of a serial that no row holds, auto-bound to the first row that can take it (R18). -/
theorem takeAnnounce_bound {a : Station} {serial : Serial} {s : State} (fresh : ∀ b, (s.slc.rows.get b).serial ≠ some serial)
    (can : canAutoBind s a = true) (least : ∀ b, b < a → canAutoBind s b = false) (cause : JoinCause) :
    takeAnnounce serial cause s = announceAt a cause (autoBind a serial s) := by
  have none_ : s.slc.rows.find (fun r => r.serial == some serial) = none := Table.find_none.mpr fun b => by simpa using fresh b
  have found : (List.finRange 62).find? (canAutoBind s) = some a :=
    find?_of_least (m := Fin.val) (List.pairwise_lt_finRange 62) (List.mem_finRange a) can fun b hb => by
      by_contra h
      rw [least b (not_le.mp h)] at hb
      cases hb
  unfold takeAnnounce
  simp only [none_, found]

/-- The announce of a serial that no row holds and none can take (R18). -/
theorem takeAnnounce_unknown {serial : Serial} {s : State} (fresh : ∀ b, (s.slc.rows.get b).serial ≠ some serial)
    (cannot : ∀ a, canAutoBind s a = false) (cause : JoinCause) : takeAnnounce serial cause s = unknownSerial serial cause s := by
  have none_ : s.slc.rows.find (fun r => r.serial == some serial) = none := Table.find_none.mpr fun b => by simpa using fresh b
  have found : (List.finRange 62).find? (canAutoBind s) = none := List.find?_eq_none.mpr fun b _ => by simp [cannot b]
  unfold takeAnnounce
  simp only [none_, found]

theorem canAutoBind_iff {s : State} {a : Station} : canAutoBind s a = true ↔
    (s.slc.rows.get a).pinned = false ∧ (s.slc.rows.get a).serial = none ∧ (∃ r c, configOf s r = some c ∧ c.station = a) ∧
      (s.slc.rows.get a).state ∈ [.absent, .lost] := by
  have bound : (boundTo s a).isEmpty = false ↔ ∃ r c, configOf s r = some c ∧ c.station = a := by
    rw [← Bool.not_eq_true, boundTo_isEmpty_iff]
    push_neg
    rfl
  simp only [canAutoBind, Bool.and_eq_true, Bool.not_eq_true', Option.isNone_iff_eq_none, bound, Bool.or_eq_true, beq_iff_eq,
    List.mem_cons, List.not_mem_nil, or_false, and_assoc]

/-- A serial bound to a row that may be bound, its record queued or left unwritten (R18, R179). -/
theorem autoBind_eq {a : Station} {s : State} (free : (s.slc.rows.get a).pinned = false) (serial : Serial) :
    let unwritten := s.rmi.absent || decide (8 ≤ s.rmi.queue.length)
    autoBind a serial s = { s.withRow a { s.slc.rows.get a with serial := some serial, awakeSince := false, joinUnwritten := unwritten } with
      rmi := { s.rmi with queue := s.rmi.queue ++ (if unwritten then [] else
        [{ body := .record (.station a) (recordUnit (.station a) 1 (stationBytes (some serial) false)) [], reply := none,
           inProgress := false }]) } } := by
  intro unwritten
  have same : (s.rmi.absent || writesFull s) = unwritten := by
    simp only [writesFull, Config.writePlaces, unwritten]
    cases s.rmi.absent <;> rfl
  unfold autoBind
  simp only [same, setStation_eq_withRow]
  cases unwritten with
  | true => simp [State.withRow]
  | false =>
    simp only [Bool.false_eq_true, if_false, queueWrite, recordOf, get_withRow, free]
    rfl

/-- The announce of a row in service (R18, R20). -/
theorem announceAt_inService {a : Station} {row : StationRow} {s : State} (idle : s.slc.turn = none)
    (service : row.state ∈ [.awake, .dozing, .silent]) (cause : JoinCause) : announceAt a cause (s.withRow a row) =
      (boundTo s a).foldl (State.settle (row.state != .silent)) (s.withRow a (row.joiningFor cause)) := by
  obtain ⟨-, which⟩ := mem_inService service
  unfold announceAt
  rcases which with h | h | h
  all_goals
    simp only [get_withRow, h]
    rw [enterJoining_eq (s := s.withRow a row) idle, get_withRow, withRow_withRow]
    simp only [h]
    rfl

/-- The announce of a row that is out of service (R18, R19). -/
theorem announceAt_vacant {a : Station} {row : StationRow} {s : State} (idle : s.slc.turn = none)
    (vacant : row.state ∈ [.absent, .lost]) (cause : JoinCause) :
    announceAt a cause (s.withRow a row) = s.withRow a (row.joiningFor cause) := by
  simp only [List.mem_cons, List.not_mem_nil, or_false] at vacant
  unfold announceAt
  rcases vacant with h | h
  all_goals
    simp only [get_withRow, h]
    rw [enterJoining_eq (s := s.withRow a row) idle, get_withRow, withRow_withRow]
    simp only [h]

/-- Settles O43. -/
theorem joinAnnounceIsTaken : Obligations.JoinAnnounceIsTaken := by
  intro serial cause s running turn
  rw [exec_joinAnnounce running turn]
  refine ⟨fun a held one => ?_, ?_, fun fresh bound room => ?_⟩
  · rw [takeAnnounce_held (s := s.slotEnded false) held one cause]
    have start : (s.slotEnded false).slc.rows.get a = s.slc.rows.get a := rfl
    rw [start]
    let row := s.slc.rows.get a
    have settled (service : row.state ∈ [.awake, .dozing, .silent]) :
        announceAt a cause ((s.slotEnded false).withRow a row.announced) =
          (boundTo s a).foldl (State.settle (row.state != .silent))
            ((s.slotEnded false).withRow a { row.joiningFor cause with joinUnwritten := false }) := by
      have out : row.state ≠ .joining ∧ row.state ≠ .barred := by
        obtain ⟨-, h | h | h⟩ := mem_inService service <;> simp [h]
      rw [StationRow.announced_vacant out]
      exact announceAt_inService (row := { row with joinUnwritten := false }) (s := s.slotEnded false) rfl service cause
    refine ⟨fun vacant => congrArg _ ?_, fun barred => congrArg _ ?_, fun service => congrArg _ (settled service), fun service => ?_,
      fun joining => congrArg _ ?_⟩
    · have out : row.state ≠ .joining ∧ row.state ≠ .barred := by
        simp only [List.mem_cons, List.not_mem_nil, or_false] at vacant
        rcases vacant with h | h <;> simp [row, h]
      rw [StationRow.announced_vacant out]
      exact announceAt_vacant (row := { row with joinUnwritten := false }) (s := s.slotEnded false) rfl vacant cause
    · rw [StationRow.announced_waiting (.inr barred)]
      unfold announceAt
      simp only [get_withRow, row, barred]
      simp only [State.withRow, State.slotEnded, row, Table.set_get_self]
      rfl
    · let joining := (s.slotEnded false).withRow a { row.joiningFor cause with joinUnwritten := false }
      obtain ⟨kept, idle, others⟩ := settle_bound (row.state != .silent) a joining
      have here : joining.slc.rows.get a = { row.joiningFor cause with joinUnwritten := false } := get_withRow _ _ _
      have same : ((boundTo joining a).foldl (State.settle (row.state != .silent)) joining).slc.rows.get a =
          { row.joiningFor cause with joinUnwritten := false } :=
        (kept.loop.shut (by rw [here]; simp [StationRow.joiningFor])).trans here
      refine ⟨_, congrArg _ (settled service), congrArg StationRow.state same, congrArg StationRow.joinPrior same,
        congrArg StationRow.joinCause same, congrArg StationRow.queue same, (congrArg StationRow.rejoin same).trans rfl, idle,
        fun r c config other => (others r c config other).1, kept.memory, kept.rmi, kept.tk⟩
    · rw [StationRow.announced_waiting (.inl joining)]
      unfold announceAt
      rw [get_withRow, joining]
      simp only [setStation_eq_withRow, get_withRow, withRow_withRow]
      rfl
  · intro canBind unwritten a fresh can least
    have bindable (b : Station) : canAutoBind (s.slotEnded false) b = true ↔ canBind b := canAutoBind_iff
    rw [takeAnnounce_bound (s := s.slotEnded false) fresh ((bindable a).mpr can) (fun b hb => by
      rw [← Bool.not_eq_true, bindable]; exact least b hb)]
    obtain ⟨unpinned, -, -, vacant⟩ := can
    rw [autoBind_eq (s := s.slotEnded false) unpinned serial]
    let bound : State := { s.slotEnded false with rmi := { s.rmi with queue := s.rmi.queue ++ (if unwritten then [] else
      [{ body := .record (.station a) (recordUnit (.station a) 1 (stationBytes (some serial) false)) [], reply := none,
         inProgress := false }]) } }
    exact congrArg _ (announceAt_vacant (s := bound) (row := { s.slc.rows.get a with
      serial := some serial, awakeSince := false, joinUnwritten := unwritten }) rfl vacant cause)
  · rw [takeAnnounce_unknown (s := s.slotEnded false) fresh]
    · refine congrArg _ ((postReport_reported (by simp) (s.slotEnded false)).trans ?_)
      exact congrArg (fun tp => { s.slotEnded false with tp := tp }) (if_pos room)
    · intro a
      rw [← Bool.not_eq_true, canAutoBind_iff]
      rintro ⟨-, none_, ⟨r, c, config, here⟩, -⟩
      rcases bound a with serial_ | empty
      · have none_' : (s.slc.rows.get a).serial = none := none_
        simp [none_'] at serial_
      · have mem : r ∈ boundTo s a := mem_boundTo.mpr ⟨c, config, here⟩
        simp [empty] at mem

end Sys2Proof.Machine
end

