-- ==== Sys2Proof/Proofs/Resets.lean ====
section
/-! Proofs about the trunk resets (10.6). -/

namespace Sys2Proof.Machine

/-! ### Every open deposit committed (R148) -/

/-- What a row keeps while commands are posted to it. -/
theorem offered_row (c : DownCommand) (row : StationRow) :
    row.offered c = { row with queue := (row.offered c).queue, nextSeq := (row.offered c).nextSeq } := by
  unfold StationRow.offered
  split <;> rfl

theorem Offers.row {u v : StreetLoop} (h : Offers u v) (a : Station) :
    v.rows.get a = { u.rows.get a with queue := (v.rows.get a).queue, nextSeq := (v.rows.get a).nextSeq } := by
  induction h with
  | refl => rfl
  | @offered v _ b c _ ih =>
    have now : (v.offered b c).rows.get a = if a = b then (v.rows.get b).offered c else v.rows.get a := Table.get_set ..
    rw [now]
    split
    · next e => rw [offered_row, ← e, ih]
    · exact ih

theorem Offers.turn {u v : StreetLoop} (h : Offers u v) : v.turn = u.turn := by
  induction h with
  | refl => rfl
  | offered _ _ _ ih => exact ih

/-- What commits leave alone. -/
structure CommitKeeps (s t : State) : Prop where
  close : CloseKeeps s t
  hold : t.hold = s.hold
  profiles : t.ft.profiles = s.ft.profiles
  windows : t.au.windows = s.au.windows
  classes : t.au.classes = s.au.classes
  costs : t.au.costs = s.au.costs
  written : t.tp.written = s.tp.written
  replies : ∀ e ∈ s.tp.entries, e.isReply = true → e ∈ t.tp.entries
  accounts : ∀ n, t.au.accounts.get n = { s.au.accounts.get n with
    balance := (t.au.accounts.get n).balance, held := (t.au.accounts.get n).held }
  slots : Inserted s.rm.slots t.rm.slots
  loop : Offers s.slc t.slc
  service : ∀ r, (serviceOf s r).name ≠ .serviceWait → serviceOf t r = serviceOf s r
  still : (∀ r, (serviceOf s r).name ≠ .serviceWait) → t.slc = s.slc

theorem CommitKeeps.refl (s : State) : CommitKeeps s s :=
  ⟨.refl s, rfl, rfl, rfl, rfl, rfl, rfl, fun _ h _ => h, fun _ => rfl, .refl _, .refl, fun _ _ => rfl, fun _ => rfl⟩

theorem CommitKeeps.trans {s t u : State} (h : CommitKeeps s t) (k : CommitKeeps t u) : CommitKeeps s u where
  close := h.close.trans k.close
  hold := k.hold.trans h.hold
  profiles := k.profiles.trans h.profiles
  windows := k.windows.trans h.windows
  classes := k.classes.trans h.classes
  costs := k.costs.trans h.costs
  written := k.written.trans h.written
  replies := fun e he reply => k.replies e (h.replies e he reply) reply
  accounts := fun n => by rw [k.accounts n, h.accounts n]
  slots := h.slots.trans k.slots
  loop := h.loop.trans k.loop
  service := fun r free => (k.service r ((h.service r free).symm ▸ free)).trans (h.service r free)
  still := fun free => (k.still fun r => (h.service r (free r)).symm ▸ free r).trans (h.still free)

theorem depositEnded_serviceOf {r : Row} {c : ContainerConfig} {s : State} (config : configOf s r = some c) (x : Row)
    (free : (serviceOf s x).name ≠ .serviceWait) : (depositEnded r s).rm.service.get x = s.rm.service.get x := by
  rw [depositEnded_service config]
  split
  · next step relay waits =>
    refine Table.get_set_ne (fun e => ?_) _ _
    rw [e, waits] at free
    exact free rfl
  · rfl

theorem commitKeeps_commitDeposit (confirmed : Bool) (r : Row) (s : State) : CommitKeeps s (commitDeposit confirmed r s) := by
  cases deposit : s.au.deposits.get r with
  | none => rw [commitDeposit_none deposit]; exact .refl s
  | some d =>
    cases config : configOf s r with
    | none => rw [commitDeposit_unoccupied config]; exact .refl s
    | some c =>
      have blocks := commitDeposit_eq (confirmed := confirmed) config deposit
      obtain ⟨service, loop⟩ := commitDeposit_notice (confirmed := confirmed) config deposit
      have charged := chargedDeposit_keeps confirmed r c d s
      have gains := commitDeposit_gains (confirmed := confirmed) config deposit
      refine ⟨closeKeeps_commitDeposit confirmed r s, by rw [blocks], by rw [blocks], by rw [blocks]; rfl, by rw [blocks]; rfl,
        by rw [blocks]; rfl, gains.written.trans charged.2.1, fun e he reply => gains.entries e (charged.1 e he reply), fun n => ?_,
        commitDeposit_inserted config deposit, commitDeposit_offers confirmed r s, fun x free => ?_, fun free => ?_⟩
      · have accounts : (commitDeposit confirmed r s).au.accounts = (committedUnit d r s.au).accounts := by rw [blocks]
        rw [accounts, committedUnit]
        split
        · by_cases hn : n = d.account <;> simp [hn, Account.charge]
        · rfl
      · rw [serviceOf, service]
        exact depositEnded_serviceOf config x free
      · rw [loop, depositEnded_idle]
        intro step relay waits
        exact absurd (congrArg Service.name waits) (free r)

theorem commitAll_spec (s : State) : CommitKeeps s (commitAll s) ∧
    ∀ r, (configOf s r).isSome = true → (commitAll s).au.deposits.get r = none := by
  have step (t : State) (r : Row) (kept : CommitKeeps s t) : CommitKeeps s (commitDeposit false r t) ∧
      ∀ x, (commitDeposit false r t).au.deposits.get x =
        if x = r then (if (configOf s r).isSome = true then none else t.au.deposits.get r) else t.au.deposits.get x := by
    refine ⟨kept.trans (commitKeeps_commitDeposit false r t), fun x => ?_⟩
    cases config : configOf t r with
    | none =>
      have config' : configOf s r = none := (kept.close.config r).symm.trans config
      rw [commitDeposit_unoccupied config]
      by_cases hx : x = r <;> simp [hx, config']
    | some c =>
      have config' : configOf s r = some c := (kept.close.config r).symm.trans config
      rw [commitDeposit_deposits t config, Table.get_set]
      simp [config']
  have once := List.nodup_finRange 192
  have all (r : Row) := List.mem_finRange r
  unfold commitAll
  generalize List.finRange 192 = l at once all
  obtain ⟨kept, slots⟩ := foldl_pointwise (f := fun s r => commitDeposit false r s) (get := fun (t : State) x => t.au.deposits.get x)
    (g := fun r d => if (configOf s r).isSome = true then none else d) (keep := CommitKeeps s) step once (CommitKeeps.refl s)
  exact ⟨kept, fun r occupied => by rw [slots r, if_pos (all r), if_pos occupied]⟩

/-! ### RESET (R198, R199) -/

theorem traffic_row (row : StationRow) : row.traffic =
    { row with state := if row.state = .joining then .absent else row.state, miss := 0, joinPrior := none, queue := [], raised := false } := by
  unfold StationRow.traffic
  cases row.state <;> rfl

/-- Settles O30. -/
theorem resetTrafficClears : Obligations.ResetTrafficClears := by
  have command (tag : Byte) (s : State) (serves : s.serves) :
      exec (.resetTraffic tag []) s = .next (commitAll ((trafficValues s).replied 0x15 tag .ok .none)) := by
    refine (serves_takeCommand serves rfl).trans ?_
    rw [if_neg (by simp [serves.ready])]
    exact congrArg (fun t => Host.Outcome.next (commitAll t)) (queueReply_reserved_eq_replied 0x15 tag .ok .none (trafficValues s))
  refine ⟨fun tag s serves => ?_, fun tag s serves => ?_, fun tag s running place restoring => ?_⟩
  · intro cleared
    have values : trafficValues s = cleared := by
      have rows : s.slc.rows.map StationRow.traffic = cleared.slc.rows := congrArg s.slc.rows.map (funext traffic_row)
      have port : s.rmi.port.map PortOp.discard = cleared.rmi.port := by
        simp only [cleared]
        cases s.rmi.port with
        | none => rfl
        | some op => cases op <;> rfl
      unfold trafficValues StreetLoop.traffic RecordMemory.traffic
      rw [rows, port]
      rfl
    rw [command tag s serves, values]
    exact ⟨rfl, fun none_ => congrArg _ (foldl_fixed fun r _ => commitDeposit_none (none_ r))⟩
  · let t := (trafficValues s).replied 0x15 tag .ok .none
    obtain ⟨kept, deposits⟩ := commitAll_spec t
    have row (a : Station) := kept.loop.row a
    have start (a : Station) : t.slc.rows.get a = (s.slc.rows.get a).traffic := Table.get_map ..
    refine ⟨commitAll t, command tag s serves, kept.loop.turn, kept.close.requests, fun a => ⟨?_, ?_, ?_, ?_, ?_, ?_, fun free => ?_⟩,
      deposits, kept.close.config, fun i => ?_, ?_, ?_, fun i => ?_, ?_, kept.close.tk, ?_, ?_, ?_, ?_, kept.close.memory,
      kept.hold.trans serves.running, fun a => ?_, kept.profiles, kept.windows, kept.classes, kept.costs, ?_, kept.accounts,
      kept.slots.1, kept.slots.2, kept.service⟩
    · rw [row a, start a, traffic_row]
    · rw [row a, start a]; rfl
    · rw [row a, start a]; rfl
    · rw [row a, start a]; rfl
    · rw [row a, start a]; rfl
    · rw [row a, start a]; rfl
    · rw [kept.still free, start a]; rfl
    · rw [kept.close.clu]; exact Table.get_replicate ..
    · rw [kept.close.clu]; rfl
    · rw [kept.close.clu]; rfl
    · cases slot : s.rm.slots.get i with
      | none => rw [kept.slots.1 i slot]
      | some rd =>
        obtain ⟨more, now, -⟩ := kept.slots.2 i rd slot
        rw [now]
        rfl
    · exact kept.replies _ (mem_entries_enqueue.mpr (.inr rfl)) rfl
    · rw [kept.close.rmi]; rfl
    · rw [kept.close.rmi]; rfl
    · rw [kept.close.rmi]; exact serves.ready
    · rw [kept.close.effective]; exact enqueue_effective ..
    · rw [row a, start a]; rfl
    · rw [kept.written]; exact enqueue_written ..
  · refine (whenRunning_running running).trans (congrArg _ ?_)
    rw [resetTrafficCommand]
    refine (takeCommand_body (a := PUnit.unit) place (by simp)).trans ?_
    rw [reserved_rmi, if_pos restoring]
    exact queueReply_reserved_eq_replied 0x15 tag .ok .none s

/-- Settles O31. -/
theorem resetFullHoldsAndRestarts : Obligations.ResetFullHoldsAndRestarts := by
  refine ⟨fun tag cut s running place => ?_, fun straps e s hold line waiting => ?_⟩
  · refine (whenRunning_running running).trans (congrArg _ ?_)
    rw [resetFullCommand]
    refine (takeCommand_body (a := PUnit.unit) place (by simp)).trans ?_
    have same : activeWrite s.reserved = activeWrite s := rfl
    unfold abandonPort
    rw [same]
    cases activeWrite s <;> rfl
  · have cold : fullResetReplySent straps s = s.cold .trunkFull .running straps := by
      unfold fullResetReplySent
      simp only [hold, line, waiting]
    exact congrArg Host.Outcome.next cold

end Sys2Proof.Machine
end

