-- ==== Sys2Proof/Proofs/Rounds.lean ====
section
/-! The slots of the rounds and what a freed or an ended one leaves (8.6). With it, proofs about ROUND_LOAD, ROUND_CANCEL and ROUND_END,
and HOLD_CLEAR (8.2, 8.4, 8.6). -/

namespace Sys2Proof.Machine

/-! ### Slots and steps -/

theorem slotWhere_eq_none {s : State} {p : Round → Bool} (none_ : ∀ i rd, s.rm.slots.get i = some rd → p rd = false) :
    slotWhere s p = none := by
  have search : s.rm.slots.find (fun slot => slot.any p) = none := Table.find_none.mpr fun i => by
    cases slot : s.rm.slots.get i with
    | none => rfl
    | some rd => exact none_ i rd slot
  rw [slotWhere, search]
  rfl

theorem slotWhere_eq_some {s : State} {p : Round → Bool} {i : Fin 4} {rd : Round} (slot : s.rm.slots.get i = some rd)
    (pass : p rd = true) (one : ∀ j other, s.rm.slots.get j = some other → p other = true → j = i) : slotWhere s p = some (i, rd) := by
  have search : s.rm.slots.find (fun slot => slot.any p) = some i := by
    cases found : s.rm.slots.find (fun slot => slot.any p) with
    | none => simpa [slot, pass] using Table.find_none.mp found i
    | some j =>
      have passes := Table.find_some found
      cases other : s.rm.slots.get j with
      | none => simp [other] at passes
      | some x => rw [one j x other (by simpa [other] using passes)]
  rw [slotWhere, search]
  simp [slot]

theorem stepAt_of {s : State} {i : Fin 4} {rd : Round} (slot : s.rm.slots.get i = some rd) (k : Nat) :
    stepAt s ⟨i, k⟩ = rd.steps[k]? := by
  simp [stepAt, slot]

theorem setStep_eq {s : State} {ref : StepRef} {rd : Round} (slot : s.rm.slots.get ref.slot = some rd) (f : Step → Step) :
    setStep ref f s = setSlot ref.slot (some { rd with steps := rd.steps.modify ref.position f }) s := by
  unfold setStep
  rw [slot]

theorem onActiveRound_iff {s : State} {r : Row} :
    onActiveRound s r = true ↔ ∃ i rd, s.rm.slots.get i = some rd ∧ rd.holdsOpen r = true := by
  rw [onActiveRound, Table.any_rows]
  refine exists_congr fun i => ?_
  cases s.rm.slots.get i <;> simp

/-- A slot replaced by one that holds a container open just when the old one did. -/
theorem onActiveRound_setSlot {s : State} {i : Fin 4} {new : Option Round} {r : Row}
    (same : new.any (·.holdsOpen r) = (s.rm.slots.get i).any (·.holdsOpen r)) : onActiveRound (setSlot i new s) r = onActiveRound s r := by
  rw [onActiveRound, onActiveRound, Bool.eq_iff_iff, Table.any_rows, Table.any_rows]
  refine exists_congr fun j => ?_
  by_cases hj : j = i
  · subst hj
    simp only [setSlot, Table.get_set_self]
    rw [same]
  · simp [setSlot, hj]

/-- A slot replaced, and then the containers re-evaluated that it may have come to hold open or to let go. -/
theorem State.queueLaw.resteps {s : State} (law : s.queueLaw) (i : Fin 4) (new : Option Round) (steps : List Step)
    (same : ∀ r, (∀ st ∈ steps, r ≠ st.row) → new.any (·.holdsOpen r) = (s.rm.slots.get i).any (·.holdsOpen r)) :
    (reevaluateSteps steps (setSlot i new s)).queueLaw := by
  have start : (setSlot i new s).queueLawBut (fun r => ¬∀ st ∈ steps, r ≠ st.row) fun _ => False := by
    refine (law.but _ _).of_rows rfl (fun r settled => ?_) fun _ _ => rfl
    exact qualifies_congr rfl rfl rfl (onActiveRound_setSlot (same r (not_not.mp settled))) rfl
  exact State.queueLawBut.law (start.reevaluateSteps.mono (fun _ h => h.1 h.2) fun _ h => h)

/-- A slot replaced by one that holds the same containers open. -/
theorem State.queueLaw.setSlot {s : State} (law : s.queueLaw) (i : Fin 4) (new : Option Round)
    (same : ∀ r, new.any (·.holdsOpen r) = (s.rm.slots.get i).any (·.holdsOpen r)) : (setSlot i new s).queueLaw :=
  law.resteps i new [] fun r _ => same r

theorem holdsOpen_eq_false {rd : Round} {r : Row} (other : ∀ st ∈ rd.steps, r ≠ st.row) : rd.holdsOpen r = false := by
  rw [Round.holdsOpen, List.any_eq_false]
  intro st hst
  simp [Ne.symm (other st hst)]

/-! ### A slot freed (R166) -/

/-- The ROUND_EVENT of a slot freed. -/
def endedNews (i : Fin 4) (rd : Round) (stamp : Stamp) : Report :=
  .round { round := rd.number, vehicle := rd.vehicle, slot := i, news := .ended rd.endCause (stepCounts rd.steps), stamp := stamp }

theorem freeSlotAt_of {i : Fin 4} {rd : Round} {s : State} (slot : s.rm.slots.get i = some rd) : freeSlotAt i s =
    reevaluateSteps rd.steps (setSlot i none { s with
      tp := s.tp.reported (endedNews i rd s.stamp)
      rm := { s.rm with service := s.rm.service.map (Service.loseStep i) } }) := by
  have posted := postReport_reported (r := endedNews i rd s.stamp) (by simp [endedNews]) s
  unfold freeSlotAt
  rw [slot]
  unfold endedNews at posted
  simp only [posted]
  rfl

theorem freeSlotAt_eq {i : Fin 4} {rd : Round} {s : State} (slot : s.rm.slots.get i = some rd) : freeSlotAt i s = { s with
    tp := s.tp.reported (endedNews i rd s.stamp)
    rm := { s.rm with slots := s.rm.slots.set i none, service := s.rm.service.map (Service.loseStep i) }
    ft := { s.ft with queue := (freeSlotAt i s).ft.queue } } := by
  have blocks := freeSlotAt_of slot
  generalize freeSlotAt i s = t at blocks
  rw [reevaluateSteps_eq] at blocks
  rw [blocks]
  rfl

theorem State.queueLaw.freeSlotAt {i : Fin 4} {rd : Round} {s : State} (law : s.queueLaw) (slot : s.rm.slots.get i = some rd) :
    (freeSlotAt i s).queueLaw := by
  rw [freeSlotAt_of slot]
  have posted : State.queueLaw { s with
      tp := s.tp.reported (endedNews i rd s.stamp), rm := { s.rm with service := s.rm.service.map (Service.loseStep i) } } :=
    law.of_blocks rfl rfl rfl (congrArg Params.horizon (reported_effective s.tp (endedNews i rd s.stamp)))
  refine posted.resteps i none rd.steps fun r other => ?_
  change false = (s.rm.slots.get i).any (·.holdsOpen r)
  rw [slot]
  exact (holdsOpen_eq_false other).symm

/-! ### A round ended (R165) -/

theorem Step.miss_eq (st : Step) : st.miss = if st.state = .pending then { st with state := .missed, timedOut := false } else st := by
  unfold Step.miss
  cases state : st.state <;> rfl

/-- A round with its end cause and its PENDING steps missed. -/
def Round.ended (cause : EndCause) (rd : Round) : Round := { rd with steps := rd.steps.map Step.miss, endCause := some cause }

theorem ended_lifting (cause : EndCause) (rd : Round) : (rd.ended cause).lifting = rd.lifting := by
  simp only [Round.lifting, Round.ended, List.any_map]
  refine congrArg (List.any rd.steps) (funext fun st => ?_)
  simp only [Function.comp, Step.miss_eq]
  cases state : st.state <;> simp [state]

/-- Ending a round lets its PENDING containers go, and no other. -/
theorem ended_holdsOpen {cause : EndCause} {rd : Round} {r : Row}
    (other : ∀ st ∈ rd.steps.filter (·.state == .pending), r ≠ st.row) : (rd.ended cause).holdsOpen r = rd.holdsOpen r := by
  simp only [Round.holdsOpen, Round.ended, List.any_map]
  rw [Bool.eq_iff_iff, List.any_eq_true, List.any_eq_true]
  refine exists_congr fun st => and_congr_right fun hst => ?_
  by_cases pending : st.state = .pending
  · have apart : st.row ≠ r := Ne.symm (other st (List.mem_filter.mpr ⟨hst, by simp [pending]⟩))
    simp [Step.miss_eq, pending, apart]
  · simp [Step.miss_eq, pending]

/-- A round's slot with its steps missed, as the event leaves it before it is freed or CLOSING. -/
def State.endedSlot (cause : EndCause) (i : Fin 4) (rd : Round) (s : State) : State :=
  reevaluateSteps (rd.steps.filter (·.state == .pending)) (setSlot i (some (rd.ended cause)) s)

theorem endRound_of {cause : EndCause} {i : Fin 4} {rd : Round} {s : State} (slot : s.rm.slots.get i = some rd) :
    endRound cause i s = if rd.lifting then setSlot i (some { rd.ended cause with state := .closing }) (s.endedSlot cause i rd)
      else freeSlotAt i (s.endedSlot cause i rd) := by
  have same : ((rd.ended cause).lifting = true) = (rd.lifting = true) := by rw [ended_lifting]
  unfold endRound
  rw [slot]
  simp only [← same]
  rfl

theorem endedSlot_eq (cause : EndCause) (i : Fin 4) (rd : Round) (s : State) : s.endedSlot cause i rd = { s with
    rm := { s.rm with slots := s.rm.slots.set i (some (rd.ended cause)) }
    ft := { s.ft with queue := (s.endedSlot cause i rd).ft.queue } } := reevaluateSteps_eq _ _

theorem endRound_lifting {cause : EndCause} {i : Fin 4} {rd : Round} {s : State} (slot : s.rm.slots.get i = some rd)
    (lifting : rd.lifting = true) : endRound cause i s = { s with
      rm := { s.rm with slots := s.rm.slots.set i (some { rd.ended cause with state := .closing }) }
      ft := { s.ft with queue := (endRound cause i s).ft.queue } } := by
  have blocks := endRound_of (cause := cause) slot
  rw [if_pos lifting] at blocks
  generalize endRound cause i s = t at blocks
  rw [endedSlot_eq] at blocks
  rw [blocks]
  simp [setSlot]

theorem endRound_freed {cause : EndCause} {i : Fin 4} {rd : Round} {s : State} (slot : s.rm.slots.get i = some rd)
    (still : rd.lifting = false) : endRound cause i s = { s with
      tp := s.tp.reported (endedNews i (rd.ended cause) s.stamp)
      rm := { s.rm with slots := s.rm.slots.set i none, service := s.rm.service.map (Service.loseStep i) }
      ft := { s.ft with queue := (endRound cause i s).ft.queue } } := by
  have blocks := endRound_of (cause := cause) slot
  have here : (s.endedSlot cause i rd).rm.slots.get i = some (rd.ended cause) := by rw [endedSlot_eq]; exact Table.get_set_self ..
  rw [if_neg (by simp [still]), freeSlotAt_eq here] at blocks
  generalize endRound cause i s = t at blocks
  rw [blocks, endedSlot_eq]
  simp only [Table.set_set]
  rfl

theorem State.queueLaw.endRound {cause : EndCause} {i : Fin 4} {s : State} (law : s.queueLaw) : (endRound cause i s).queueLaw := by
  cases slot : s.rm.slots.get i with
  | none =>
    unfold Machine.endRound
    rw [slot]
    exact law
  | some rd =>
    have ended : (s.endedSlot cause i rd).queueLaw :=
      law.resteps i _ _ fun r other => by rw [slot]; exact ended_holdsOpen other
    have here : (s.endedSlot cause i rd).rm.slots.get i = some (rd.ended cause) := by rw [endedSlot_eq]; exact Table.get_set_self ..
    rw [endRound_of slot]
    split
    · refine ended.setSlot i _ fun r => ?_
      rw [here]
      rfl
    · exact ended.freeSlotAt here

theorem ended_steps (cause : EndCause) (rd : Round) : (rd.ended cause).steps =
    rd.steps.map fun st => if st.state = .pending then { st with state := .missed, timedOut := false } else st :=
  congrArg (List.map · rd.steps) (funext Step.miss_eq)

/-- What the end of a round does beside its slot. -/
theorem endRound_blocks (cause : EndCause) (i : Fin 4) (s : State) : endRound cause i s = { s with
    tp := (endRound cause i s).tp, rm := (endRound cause i s).rm, ft := { s.ft with queue := (endRound cause i s).ft.queue } } := by
  cases slot : s.rm.slots.get i with
  | none =>
    unfold endRound
    rw [slot]
  | some rd =>
    cases lifting : rd.lifting with
    | true => rw [endRound_lifting slot lifting]
    | false => rw [endRound_freed slot lifting]

/-- The slot of an ended round, and the ROUND_EVENT of one that is freed. -/
theorem endRound_slot {cause : EndCause} {i : Fin 4} {rd : Round} {s : State} (slot : s.rm.slots.get i = some rd) :
    let steps := rd.steps.map fun st => if st.state = .pending then { st with state := .missed, timedOut := false } else st
    if rd.steps.any (fun st => st.state == .lifting) then
      (endRound cause i s).rm.slots = s.rm.slots.set i (some { rd with state := .closing, endCause := some cause, steps := steps })
    else (endRound cause i s).rm.slots = s.rm.slots.set i none ∧ (endRound cause i s).tp = s.tp.reported (.round
      { round := rd.number, vehicle := rd.vehicle, slot := i, news := .ended (some cause) (stepCounts steps), stamp := s.stamp }) := by
  intro steps
  have same : (rd.ended cause).steps = steps := ended_steps cause rd
  split
  · next lifting => rw [endRound_lifting slot lifting, ← same]; rfl
  · next still =>
    rw [endRound_freed slot (by simpa [Round.lifting] using still), ← same]
    exact ⟨rfl, rfl⟩

/-! ### ROUND_LOAD (R152, R153) -/

/-- Containers that an active round holds open leave the service queue when they are re-evaluated. -/
theorem reevaluateSteps_taken : ∀ {steps : List Step} {s : State}, (∀ st ∈ steps, onActiveRound s st.row = true) →
    (reevaluateSteps steps s).ft.queue = s.ft.queue.filter fun r => !(steps.map (·.row)).contains r
  | [], s, _ => by simp [reevaluateSteps]
  | st :: rest, s, held => by
    have out : qualifies s st.row = false := by
      unfold qualifies
      rw [held st List.mem_cons_self]
      cases configOf s st.row <;> simp
    have first : (reevaluate st.row s).ft.queue = s.ft.queue.filter (· != st.row) := by
      simp [reevaluate, out]
    have later := reevaluateSteps_taken (steps := rest) (s := reevaluate st.row s) fun x hx =>
      (onActiveRound_congr rfl x.row).trans (held x (List.mem_cons_of_mem _ hx))
    change (reevaluateSteps rest (reevaluate st.row s)).ft.queue = _
    rw [later, first, List.filter_filter]
    refine List.filter_congr fun r _ => ?_
    by_cases hr : r = st.row <;> simp [hr]

theorem numbersOf_flatMap : ∀ (containers : List Number), numbersOf (containers.flatMap numberBytes) containers.length = containers
  | [] => rfl
  | n :: rest => by
    simp only [List.flatMap_cons, List.length_cons, numbersOf, numberBytes]
    rw [numberAt_here, drop_bytesOf]
    exact congrArg _ (numbersOf_flatMap rest)

theorem length_flatMap_numberBytes (containers : List Number) : (containers.flatMap numberBytes).length = 4 * containers.length := by
  induction containers with
  | nil => rfl
  | cons n rest ih => simp [List.flatMap_cons, ih, numberBytes]; omega

theorem badEntry_eq_none : ∀ {list seen : List Number}, (∀ n ∈ list, validNumber n = true) → (seen ++ list).Nodup →
    badEntry seen list = none
  | [], _, _, _ => rfl
  | n :: rest, seen, valid, once => by
    have fresh : n ∉ seen := fun h => (List.nodup_append.mp once).2.2 n h n List.mem_cons_self rfl
    unfold badEntry
    rw [if_neg (by simp [valid n List.mem_cons_self, fresh])]
    exact badEntry_eq_none (fun m hm => valid m (List.mem_cons_of_mem _ hm)) (by simpa using once)

theorem entryWhere_eq_none {p : Number → Bool} {list : List Number} (none_ : ∀ n ∈ list, p n = false) : entryWhere p list = none := by
  rw [entryWhere, List.findIdx?_eq_none_iff.mpr fun n hn => none_ n hn]
  rfl

theorem judgeRound_ok {s : State} {args : RoundArgs} {i : Fin 4} (range : args.inRange = true) (once : args.containers.Nodup)
    (valid : ∀ n ∈ args.containers, validNumber n = true)
    (held : ∀ n ∈ args.containers, ∃ r, containerOf s n = some r ∧ onActiveRound s r = false)
    (apart : ∀ j rd, s.rm.slots.get j = some rd → rd.vehicle ≠ args.vehicle ∧ rd.number ≠ args.number)
    (free : s.rm.slots.get i = none) (least : ∀ j, j < i → (s.rm.slots.get j).isSome = true) : judgeRound s args = .ok i := by
  have vehicle : slotWhere s (fun rd => rd.vehicle == args.vehicle) = none :=
    slotWhere_eq_none fun j rd slot => by simpa using (apart j rd slot).1
  have number : slotWhere s (fun rd => rd.number == args.number) = none :=
    slotWhere_eq_none fun j rd slot => by simpa using (apart j rd slot).2
  have first : s.rm.slots.find (fun slot => slot.isNone) = some i :=
    find?_of_least (m := Fin.val) (List.pairwise_lt_finRange 4) (List.mem_finRange i) (by simp [free]) fun j hj => by
      by_contra h
      have some_ := least j (not_le.mp h)
      rw [Option.isNone_iff_eq_none] at hj
      simp [hj] at some_
  have found : entryWhere (fun n => (containerOf s n).isNone) args.containers = none := entryWhere_eq_none fun n hn => by
    obtain ⟨r, container, -⟩ := held n hn
    simp [container]
  have off : entryWhere (fun n => (containerOf s n).any (onActiveRound s)) args.containers = none := entryWhere_eq_none fun n hn => by
    obtain ⟨r, container, off⟩ := held n hn
    simp [container, off]
  unfold judgeRound
  rw [if_neg (by simp [range])]
  simp [badEntry_eq_none (seen := []) valid once, vehicle, number, first, found, off]

/-- Settles O25. -/
theorem roundLoadTakesASlot : Obligations.RoundLoadTakesASlot := by
  intro tag number vehicle duration allowance adHoc containers i s serves number0 vehicle0 vehicleF duration1 durationMax allowanceMax
    some_ most once valid held apart free least
  refine ⟨Config.freeByte s.free, ?_⟩
  intro payload rows round
  let args : RoundArgs :=
    { number := number, vehicle := vehicle, duration := duration, allowance := allowance, adHoc := adHoc, containers := containers }
  have read : roundLoadArgs payload = some args := by
    have numberFits : number.toNat < 256 ^ 2 := number.isLt
    have vehicleFits : vehicle.toNat < 256 ^ 2 := vehicle.isLt
    have countFits : containers.length < 256 ^ 1 := by omega
    have durationFits : duration < 256 ^ 2 := by omega
    have allowanceFits : allowance < 256 ^ 1 := by omega
    have rest : payload.drop 9 = containers.flatMap numberBytes := List.drop_left' (by simp [shortBytes])
    have count : fieldAt payload 8 1 = containers.length := by
      simp only [payload]
      rw [List.append_assoc, fieldAt_later (by simp [shortBytes])]
      simp [shortBytes, fieldAt_here countFits]
    have fields : fieldAt payload 0 2 = number.toNat ∧ fieldAt payload 2 2 = vehicle.toNat ∧ fieldAt payload 4 2 = duration ∧
        fieldAt payload 6 1 = allowance ∧ byteAt payload 7 = flagByte adHoc := by
      simp only [payload, List.append_assoc, shortBytes]
      simp [fieldAt_here numberFits, fieldAt_here vehicleFits, fieldAt_here durationFits, fieldAt_here allowanceFits, fieldAt_later,
        byteAt_later, byteAt_zero]
    obtain ⟨numberAt, vehicleAt, durationAt, allowanceAt, adHocAt⟩ := fields
    have length : payload.length = 9 + 4 * containers.length := by
      simp only [payload, shortBytes, List.length_append, length_bytesOf, length_flatMap_numberBytes, List.length_singleton]
    unfold roundLoadArgs
    simp only [count, rest, numberAt, vehicleAt, durationAt, allowanceAt, adHocAt, length, numbersOf_flatMap]
    rw [if_pos ⟨some_, most, trivial⟩]
    simp [args]
  have judged : judgeRound s.reserved args = .ok i :=
    judgeRound_ok (s := s.reserved) (by
      simpa [RoundArgs.inRange, args, duration1, durationMax, allowanceMax] using ⟨⟨number0, vehicle0⟩, vehicleF⟩) once
      (fun n hn => validNumber_iff.mpr (valid n hn)) held apart free least
  refine (serves_takeCommand serves read).trans (congrArg _ ?_)
  simp only [judged]
  have loaded : loadedRound s.reserved args = round := by
    simp [loadedRound, round, args, rows, Step.fresh]
    rfl
  rw [loaded]
  have taken : (reevaluateSteps round.steps (setSlot i (some round) s.reserved)).ft.queue =
      s.ft.queue.filter fun r => !rows.contains r := by
    rw [reevaluateSteps_taken]
    · have listed : round.steps.map (·.row) = rows := by simp [round, Function.comp_def]
      rw [listed]
      rfl
    · intro st hst
      refine onActiveRound_iff.mpr ⟨i, round, Table.get_set_self .., ?_⟩
      rw [Round.holdsOpen, List.any_eq_true]
      refine ⟨st, hst, ?_⟩
      obtain ⟨r, -, rfl⟩ := List.mem_map.mp hst
      simp [Step.open]
  rw [reevaluateSteps_eq, taken]
  exact queueReply_reserved_eq_replied _ _ _ _ { s with
    rm := { s.rm with slots := s.rm.slots.set i (some round) }
    ft := { s.ft with queue := s.ft.queue.filter fun r => !rows.contains r }
    free := s.free + 1 }

/-! ### ROUND_CANCEL and ROUND_END (R164) -/

theorem roundArgs_shortBytes (n : Short) : roundArgs (shortBytes n) = some n := by
  have fits : n.toNat < 256 ^ 2 := n.isLt
  simp [roundArgs, fixed, shortBytes, fieldAt_whole fits]

theorem begun_endRound (cause : EndCause) (i : Fin 4) {s : State} (begun : s.tp.line = none → s.tp.waiting = []) :
    (endRound cause i s).tp.line = none → (endRound cause i s).tp.waiting = [] := by
  cases slot : s.rm.slots.get i with
  | none =>
    unfold endRound
    rw [slot]
    exact begun
  | some rd =>
    cases lifting : rd.lifting with
    | true => rw [endRound_lifting slot lifting]; exact begun
    | false => rw [endRound_freed slot lifting]; exact begun_reported begun _

/-- A vehicle reply that names a round: two of its bytes are open (log 16). -/
theorem sendRoundReply_eq (relay : Station) (ans : VehicleAnswer) (vehicle round : Short) (s : State) :
    ∃ high1 high2, sendRoundReply relay ans vehicle round s =
      { s with slc := s.slc.offered relay (.reply ans vehicle (.round round high1 high2)), free := s.free + 1 + 1 } := by
  refine ⟨Config.freeByte s.free, Config.freeByte (s.free + 1), ?_⟩
  simp only [sendRoundReply, drawByte]
  exact sendDown_offered rfl _ _

/-- Settles O26. -/
theorem roundsAreEnded : Obligations.RoundsAreEnded := by
  refine ⟨fun tag i rd s serves slot number0 one open_ begun => ?_, fun a flags vehicle round s running polling awake => ?_⟩
  · have found : slotWhere s.reserved (fun x => x.number == rd.number) = some (i, rd) :=
      slotWhere_eq_some slot (by simp) fun j other here same => one j other here (by simpa using same)
    have outcome : exec (.roundCancel tag (shortBytes rd.number)) s =
        .next (answer .roundCancel tag .ok (endRound .cancelled i s.reserved)) := by
      refine (serves_takeCommand serves (roundArgs_shortBytes rd.number)).trans (congrArg _ ?_)
      rw [if_neg number0]
      simp only [found]
      rw [if_neg open_]
    have blocks := endRound_blocks .cancelled i s.reserved
    have slots := endRound_slot (cause := .cancelled) (s := s.reserved) slot
    refine ⟨_, outcome, ?_, getLast_entries_queueReply (begun_endRound _ _ begun), fun law => ?_,
      (congrArg (fun t : State => t.ft.rows) blocks :), (congrArg State.tk blocks :), (congrArg State.slc blocks :), (congrArg State.clu blocks :),
      (congrArg State.au blocks :), (congrArg State.rmi blocks :), (congrArg State.memory blocks :)⟩
    · intro steps
      simp only at slots
      split at slots
      · next lifting => rw [if_pos lifting]; exact slots
      · next still =>
        rw [if_neg still]
        refine ⟨slots.1, fun room => mem_entries_queueReply ?_⟩
        rw [slots.2]
        exact mem_entries_reported (reserved_occupancy s ▸ room) _
    · have ended : (endRound .cancelled i s.reserved).queueLaw := State.queueLaw.endRound (law.of_blocks rfl rfl rfl rfl)
      exact ended.of_blocks rfl rfl rfl (congrArg Params.horizon (enqueue_effective _ _))
  · intro u outcome replied alone
    have turned : outcome = .next (roundEnd a vehicle round u) := by
      simp only [outcome]
      rw [exec_answer (.roundEnd vehicle round) running, loopAnswer_awake polling awake]
      rfl
    have reply (ans : VehicleAnswer) (t : State) : ∃ high1 high2, sendRoundReply a ans vehicle round t =
        { t with slc := t.slc.offered a (.reply ans vehicle (.round round high1 high2)), free := t.free + 1 + 1 } :=
      sendRoundReply_eq a ans vehicle round t
    have answered (ans : VehicleAnswer) (h : roundEnd a vehicle round u = sendRoundReply a ans vehicle round u) : alone ans := by
      obtain ⟨high1, high2, sent⟩ := reply ans u
      refine ⟨_, turned.trans (congrArg _ (h.trans sent)), ⟨high1, high2, rfl⟩, rfl⟩
    have found (i : Fin 4) (rd : Round) (slot : s.rm.slots.get i = some rd) (here : rd.vehicle = vehicle)
        (one : ∀ j other, s.rm.slots.get j = some other → other.vehicle = vehicle → j = i) :
        slotWhere u (fun rd => rd.vehicle == vehicle) = some (i, rd) :=
      slotWhere_eq_some (s := u) slot (by simp [here]) fun j other here same => one j other here (by simpa using same)
    refine ⟨fun none_ => answered _ ?_, fun i rd slot here one => ⟨fun differs => answered _ ?_, fun same closing => answered _ ?_⟩,
      fun i rd slot here same open_ one => ?_⟩
    · have nowhere : slotWhere u (fun rd => rd.vehicle == vehicle) = none :=
        slotWhere_eq_none fun i rd slot => by simpa using none_ i rd slot
      unfold roundEnd
      rw [nowhere]
    · unfold roundEnd
      rw [found i rd slot here one]
      exact if_pos differs
    · unfold roundEnd
      rw [found i rd slot here one]
      exact (if_neg (not_not.mpr same)).trans (if_pos closing)
    · have ended : roundEnd a vehicle round u = sendRoundReply a .roundClosed vehicle round (endRound .vehicleEnd i u) := by
        unfold roundEnd
        rw [found i rd slot here one]
        exact (if_neg (not_not.mpr same)).trans (if_neg open_)
      obtain ⟨high1, high2, sent⟩ := reply .roundClosed (endRound .vehicleEnd i u)
      have blocks := endRound_blocks .vehicleEnd i u
      have slots := endRound_slot (cause := .vehicleEnd) (s := u) slot
      refine ⟨_, turned.trans (congrArg _ (ended.trans sent)), ⟨high1, high2, ?_⟩, ?_, fun law => ?_,
        (congrArg (fun t : State => t.ft.rows) blocks :), (congrArg State.au blocks :), (congrArg State.clu blocks :), (congrArg State.rmi blocks :),
        (congrArg State.tk blocks :), (congrArg State.memory blocks :)⟩
      · exact (congrArg (fun t : State => t.slc.offered a (.reply .roundClosed vehicle (.round round high1 high2))) blocks :)
      · intro steps
        simp only at slots
        split at slots
        · next lifting => rw [if_pos lifting]; exact slots
        · next still =>
          rw [if_neg still]
          refine ⟨slots.1, fun room => ?_⟩
          change _ ∈ (endRound .vehicleEnd i u).tp.entries
          rw [slots.2]
          exact mem_entries_reported room _
      · have after : (endRound .vehicleEnd i u).queueLaw := State.queueLaw.endRound (s := u) (law.of_blocks rfl rfl rfl rfl)
        exact after.of_blocks rfl rfl rfl rfl

/-! ### HOLD_CLEAR (R160) -/

/-- Settles O27. -/
theorem holdClearReleases : Obligations.HoldClearReleases := by
  intro tag n r c cause held s serves n0 nF container config service begun
  let freed : State := setService r .inUse s.reserved
  have outcome : exec (.holdClear tag (bytesOf 4 n.toNat)) s =
      .next (answer .holdClear tag .ok (reportChange r .service s.reserved (reevaluate r freed))) := by
    refine (serves_takeCommand serves (numberArgs_bytesOf n)).trans (congrArg _ ?_)
    have found : containerOf s.reserved n = some r := container
    have name : ¬(serviceOf s.reserved r).name ≠ .held := by
      change ¬(serviceOf s r).name ≠ .held
      simp [service, Service.name]
    rw [validNumber_iff.mpr ⟨n0, nF⟩, Bool.not_true, if_neg Bool.false_ne_true]
    simp only [found]
    rw [if_neg name]
  have queue : (reevaluate r freed).ft.queue = (reevaluate r s).ft.queue := reevaluate_queue_congr (s := s) (t := freed) rfl rfl rfl r
  have now : serviceOf (reevaluate r freed) r = .inUse := Table.get_set_self ..
  have changed : statusChanged r s.reserved (reevaluate r freed) = true := by
    have before : serviceOf s.reserved r = .held cause held := service
    simp [statusChanged, now, before, Service.name]
  have posted := reportChange_changed (cause := .service) (s := reevaluate r freed) config changed
  rw [posted] at outcome
  refine ⟨_, outcome, rfl, ?_, fun room => mem_entries_queueReply ?_, getLast_entries_queueReply (begun_reported (t := s.reserved.tp) begun _), rfl, rfl,
    rfl, rfl, rfl, rfl⟩
  · exact congrArg (fun q => { s.ft with queue := q }) queue
  · have status : containerStatus r c .service s.reserved (reevaluate r freed) =
        { number := c.number, row := r, cause := .service, fill := (fillOf s r).fill, fillBefore := (fillOf s r).fill,
          health := (fillOf s r).health, healthBefore := (fillOf s r).health, service := .inUse, lf := (fillOf s r).lf,
          i := (fillOf s r).i, ttf := (fillOf s r).ttf, drop := (fillOf s r).drop, member := (reevaluate r s).ft.queue.contains r,
          stamp := s.stamp } := by
      unfold containerStatus
      rw [now, queue]
      rfl
    rw [status]
    exact mem_entries_reported (reserved_occupancy s ▸ room) _

end Sys2Proof.Machine
end

