-- ==== Sys2Proof/Proofs/Timers.lean ====
section
/-! Proofs about the service timer and round expiry (8.4, 8.6). -/

namespace Sys2Proof.Machine

/-! ### A CLOSING slot freed (R166) -/

theorem setStep_blocks (ref : StepRef) (f : Step → Step) (s : State) :
    setStep ref f s = { s with rm := { s.rm with slots := (setStep ref f s).rm.slots } } := by
  unfold setStep
  split <;> rfl

theorem freeSlotAt_blocks (i : Fin 4) (s : State) : freeSlotAt i s = { s with
    tp := (freeSlotAt i s).tp, rm := (freeSlotAt i s).rm, ft := { s.ft with queue := (freeSlotAt i s).ft.queue } } := by
  cases slot : s.rm.slots.get i with
  | none =>
    unfold freeSlotAt
    rw [slot]
  | some rd => rw [freeSlotAt_eq slot]

theorem freeSlotAt_tp_gains (i : Fin 4) (s : State) : s.tp.Gains (freeSlotAt i s).tp := by
  cases slot : s.rm.slots.get i with
  | none =>
    unfold freeSlotAt
    rw [slot]
    exact .refl _
  | some rd =>
    rw [freeSlotAt_eq slot]
    exact s.tp.gains_reported (by simp [endedNews])

theorem freeIfClosed_cases (i : Fin 4) (s : State) : freeIfClosed i s = s ∨ freeIfClosed i s = freeSlotAt i s := by
  unfold freeIfClosed
  split
  · split
    · exact .inr rfl
    · exact .inl rfl
  · exact .inl rfl

theorem freeIfClosed_of {i : Fin 4} {rd : Round} {s : State} (slot : s.rm.slots.get i = some rd) : freeIfClosed i s =
    if rd.state = .closing ∧ rd.lifting = false then freeSlotAt i s else s := by
  unfold freeIfClosed
  rw [slot]
  simp

theorem freeIfClosed_blocks (i : Fin 4) (s : State) : freeIfClosed i s = { s with
    tp := (freeIfClosed i s).tp, rm := (freeIfClosed i s).rm, ft := { s.ft with queue := (freeIfClosed i s).ft.queue } } := by
  rcases freeIfClosed_cases i s with same | freed
  · rw [same]
  · rw [freed]
    exact freeSlotAt_blocks i s

theorem freeIfClosed_gains (i : Fin 4) (s : State) : s.tp.Gains (freeIfClosed i s).tp := by
  rcases freeIfClosed_cases i s with same | freed
  · rw [same]; exact .refl _
  · rw [freed]; exact freeSlotAt_tp_gains i s

/-! ### What a container's service record says, but for its held step -/

/-- A service record without the held step that a freed slot takes from it (R166). -/
def Service.bare : Service → Service
  | .held cause _ => .held cause none
  | v => v

theorem bare_loseStep (i : Fin 4) (v : Service) : (v.loseStep i).bare = v.bare := by
  cases v with
  | held cause step => cases step <;> rfl
  | _ => rfl

theorem name_bare (v : Service) : v.bare.name = v.name := by cases v <;> rfl

theorem freeSlotAt_bare (i : Fin 4) (s : State) (r : Row) : (serviceOf (freeSlotAt i s) r).bare = (serviceOf s r).bare := by
  cases slot : s.rm.slots.get i with
  | none =>
    unfold freeSlotAt
    rw [slot]
  | some rd =>
    rw [freeSlotAt_eq slot, serviceOf, Table.get_map]
    exact bare_loseStep i _

theorem freeIfClosed_bare (i : Fin 4) (s : State) (r : Row) : (serviceOf (freeIfClosed i s) r).bare = (serviceOf s r).bare := by
  rcases freeIfClosed_cases i s with same | freed
  · rw [same]
  · rw [freed]; exact freeSlotAt_bare i s r

/-! ### The service timer (R159) -/

/-- A step missed by its service timer. -/
def Step.timeOut (st : Step) : Step := { st with state := .missed, timedOut := true }

/-- A container timed out, up to its reports: its step MISSED, its row HELD, LIFT_HOLD at its station. -/
def State.timedOut (r : Row) (c : ContainerConfig) (step : StepRef) (s : State) : State :=
  { s with
    rm := { s.rm with slots := (setStep step Step.timeOut s).rm.slots, service := s.rm.service.set r (.held .timedOut (some step)) }
    slc := s.slc.offered c.station (.liftHold c.bay) }

/-- The SERVICE_REPORT of a container timed out. -/
def State.timedOutNews (r : Row) (c : ContainerConfig) (step : StepRef) (s : State) : Report :=
  .service (serviceReport .timedOut r c (some step) ((stepAt (s.timedOut r c step) step).bind (·.vehicle)) none (s.timedOut r c step))

/-- A container timed out, with its reports (R91, R159). -/
def State.timedOutTold (r : Row) (c : ContainerConfig) (step : StepRef) (s : State) : State :=
  reportChange r .service s (reevaluate r { s.timedOut r c step with tp := s.tp.reported (s.timedOutNews r c step) })

theorem timeOutLift_of (r : Row) (c : ContainerConfig) (step : StepRef) (s : State) :
    timeOutLift r c step s = freeIfClosed step.slot (s.timedOutTold r c step) := by
  have made : sendDown c.station (.liftHold c.bay) (setService r (.held .timedOut (some step)) (setStep step Step.timeOut s)) =
      s.timedOut r c step := by
    rw [sendDown_offered rfl, setStep_blocks]
    rfl
  have posted := postReport_reported (r := s.timedOutNews r c step) (by simp [State.timedOutNews]) (s.timedOut r c step)
  have told : freeIfClosed step.slot (reportChange r .service s (reevaluate r
      (postReport (s.timedOutNews r c step) (s.timedOut r c step)))) = freeIfClosed step.slot (s.timedOutTold r c step) := by
    rw [posted]
    rfl
  rw [← told]
  unfold State.timedOutNews
  rw [← made]
  rfl

theorem timedOutTold_blocks (r : Row) (c : ContainerConfig) (step : StepRef) (s : State) : s.timedOutTold r c step =
    { s.timedOut r c step with
      tp := (s.timedOutTold r c step).tp, ft := { s.ft with queue := (s.timedOutTold r c step).ft.queue } } := by
  have blocks := reportChange_tp r .service s (reevaluate r { s.timedOut r c step with
    tp := s.tp.reported (s.timedOutNews r c step) })
  change s.timedOutTold r c step = _ at blocks
  generalize s.timedOutTold r c step = t at blocks
  rw [blocks]
  rfl

/-- The reports of a container timed out come after its SERVICE_REPORT. -/
theorem timedOutTold_gains (r : Row) (c : ContainerConfig) (step : StepRef) (s : State) :
    (s.tp.reported (s.timedOutNews r c step)).Gains (s.timedOutTold r c step).tp :=
  reportChange_gains r .service s (reevaluate r { s.timedOut r c step with tp := s.tp.reported (s.timedOutNews r c step) })

theorem timeOutLift_gains (r : Row) (c : ContainerConfig) (step : StepRef) (s : State) :
    (s.tp.reported (s.timedOutNews r c step)).Gains (timeOutLift r c step s).tp := by
  rw [timeOutLift_of]
  exact (timedOutTold_gains r c step s).trans (freeIfClosed_gains _ _)

/-- What the service timer leaves alone. -/
structure TimerKeeps (s t : State) : Prop where
  tk : t.tk = s.tk
  au : t.au = s.au
  clu : t.clu = s.clu
  rmi : t.rmi = s.rmi
  rows : t.ft.rows = s.ft.rows
  profiles : t.ft.profiles = s.ft.profiles
  memory : t.memory = s.memory
  trunk : s.tp.Gains t.tp

theorem TimerKeeps.refl (s : State) : TimerKeeps s s := ⟨rfl, rfl, rfl, rfl, rfl, rfl, rfl, .refl _⟩

theorem TimerKeeps.trans {s t u : State} (h : TimerKeeps s t) (k : TimerKeeps t u) : TimerKeeps s u :=
  ⟨k.tk.trans h.tk, k.au.trans h.au, k.clu.trans h.clu, k.rmi.trans h.rmi, k.rows.trans h.rows, k.profiles.trans h.profiles,
    k.memory.trans h.memory, h.trunk.trans k.trunk⟩

theorem timerKeeps_timeOutLift (r : Row) (c : ContainerConfig) (step : StepRef) (s : State) : TimerKeeps s (timeOutLift r c step s) := by
  have gains := (s.tp.gains_reported (r := s.timedOutNews r c step) (by simp [State.timedOutNews])).trans
    (timeOutLift_gains r c step s)
  have blocks := timeOutLift_of r c step s
  generalize timeOutLift r c step s = t at blocks gains
  rw [freeIfClosed_blocks, timedOutTold_blocks] at blocks
  exact ⟨(congrArg State.tk blocks :), (congrArg State.au blocks :), (congrArg State.clu blocks :), (congrArg State.rmi blocks :),
    (congrArg (fun t : State => t.ft.rows) blocks :), (congrArg (fun t : State => t.ft.profiles) blocks :),
    (congrArg State.memory blocks :), gains⟩

theorem timeOutLift_bare (r : Row) (c : ContainerConfig) (step : StepRef) (s : State) (x : Row) :
    (serviceOf (timeOutLift r c step s) x).bare = if x = r then .held .timedOut none else (serviceOf s x).bare := by
  rw [timeOutLift_of, freeIfClosed_bare, timedOutTold_blocks]
  change ((s.rm.service.set r (.held .timedOut (some step))).get x).bare = _
  rw [Table.get_set]
  split
  · rfl
  · rfl

/-- The step that a container's service timer has run out for. -/
def timerStep (s : State) (r : Row) : Option StepRef :=
  match serviceOf s r with
  | .service step _ start =>
    if (configOf s r).isSome = true ∧ s.tp.effective.serviceLimit ≤ elapsed s.tk.seconds start then some step else none
  | _ => none

theorem timeService_late {s : State} {r : Row} {c : ContainerConfig} {step : StepRef} (late : timerStep s r = some step)
    (config : configOf s r = some c) : timeService r s = timeOutLift r c step s := by
  unfold timerStep at late
  unfold timeService
  cases service : serviceOf s r with
  | service p relay start =>
    rw [service] at late
    simp only [config, Option.isSome_some, true_and] at late ⊢
    split at late
    · next limit =>
      rw [if_pos limit]
      cases late
      rfl
    · cases late
  | _ => simp [service] at late

theorem timeService_early {s : State} {r : Row} (early : timerStep s r = none) : timeService r s = s := by
  unfold timerStep at early
  unfold timeService
  split
  · next service config =>
    rw [service] at early
    simp only [config, Option.isSome_some, true_and] at early
    split at early
    · cases early
    · next limit => exact if_neg limit
  · rfl

theorem timerStep_config {s : State} {r : Row} {step : StepRef} (late : timerStep s r = some step) : ∃ c, configOf s r = some c := by
  unfold timerStep at late
  split at late
  · split at late
    · next h => exact Option.isSome_iff_exists.mp h.1
    · cases late
  · cases late

theorem timerStep_service {s : State} {r : Row} {step : StepRef} (late : timerStep s r = some step) :
    ∃ relay start, serviceOf s r = .service step relay start := by
  unfold timerStep at late
  split at late
  · next p relay start service =>
    split at late
    · cases late
      exact ⟨relay, start, service⟩
    · cases late
  · cases late

/-- Whether the timer has run out depends on what the timer leaves alone. -/
theorem timerStep_congr {s t : State} {r : Row} (kept : TimerKeeps s t) (same : (serviceOf t r).bare = (serviceOf s r).bare) :
    timerStep t r = timerStep s r := by
  have config : configOf t r = configOf s r := by rw [configOf, kept.rows]; rfl
  unfold timerStep
  rw [config, kept.trunk.effective, kept.tk]
  cases now : serviceOf t r <;> cases before : serviceOf s r <;> rw [now, before] at same <;>
    simp only [Service.bare, Service.service.injEq, reduceCtorEq] at same <;> simp [same]

/-- The bare service record that the timer leaves. -/
def timedService (s : State) (r : Row) (v : Service) : Service := if (timerStep s r).isSome then .held .timedOut none else v

/-- The service timer at one container, seen from the state in which the event began. -/
theorem timeService_step {s t : State} (kept : TimerKeeps s t) {r : Row} (same : (serviceOf t r).bare = (serviceOf s r).bare) :
    TimerKeeps s (timeService r t) ∧ ∀ x, (serviceOf (timeService r t) x).bare =
      if x = r then timedService s r (serviceOf t r).bare else (serviceOf t x).bare := by
  have now := timerStep_congr kept same
  cases late : timerStep s r with
  | none =>
    rw [timeService_early (now.trans late)]
    exact ⟨kept, fun x => by by_cases hx : x = r <;> simp [hx, timedService, late]⟩
  | some step =>
    obtain ⟨c, config⟩ := timerStep_config (now.trans late)
    rw [timeService_late (now.trans late) config]
    exact ⟨kept.trans (timerKeeps_timeOutLift r c step t), fun x => by simp [timeOutLift_bare, timedService, late]⟩

theorem timeServices_bare (s : State) : ∀ {l : List Row} {t : State}, l.Nodup → TimerKeeps s t →
    (∀ r ∈ l, (serviceOf t r).bare = (serviceOf s r).bare) →
    TimerKeeps s (l.foldl (fun s r => timeService r s) t) ∧ ∀ r, (serviceOf (l.foldl (fun s r => timeService r s) t) r).bare =
      if r ∈ l then timedService s r (serviceOf s r).bare else (serviceOf t r).bare
  | [], t, _, kept, _ => by simp [kept]
  | x :: rest, t, once, kept, same => by
    obtain ⟨notIn, once'⟩ := List.nodup_cons.mp once
    obtain ⟨kept', first⟩ := timeService_step kept (same x List.mem_cons_self)
    obtain ⟨kept'', others⟩ := timeServices_bare s once' kept' fun r hr => by
      have apart : r ≠ x := fun e => notIn (e ▸ hr)
      rw [first r, if_neg apart]
      exact same r (List.mem_cons_of_mem _ hr)
    refine ⟨kept'', fun r => ?_⟩
    rw [List.foldl_cons, others r, first r]
    by_cases hr : r = x
    · subst hr
      simp [notIn, same r List.mem_cons_self]
    · simp [hr]

/-! ### The steps and slots that the timer leaves (R159, R166) -/

/-- A round's steps once the service timer has run out for a list of containers. -/
def missedAfter (s : State) (l : List Row) (i : Fin 4) (rd : Round) : List Step :=
  rd.steps.mapIdx fun k st => if l.any (fun r => timerStep s r == some ⟨i, k⟩) then st.timeOut else st

/-- A CLOSING slot that the timed-out containers leave without a LIFTING step. -/
def freedBy (s : State) (l : List Row) (i : Fin 4) : Bool :=
  l.any (fun r => (timerStep s r).any fun step => step.slot == i) &&
    (s.rm.slots.get i).any fun rd => rd.state == .closing && (missedAfter s l i rd).all fun st => st.state != .lifting

/-- A hold without a held step in a freed slot. -/
def holdAfter (s : State) (l : List Row) : Service → Service
  | .held cause (some step) => .held cause (if freedBy s l step.slot then none else some step)
  | v => v

/-- The service record of a container that the timer has reached. -/
def timedHold (s : State) (r : Row) : Service :=
  match timerStep s r with
  | some step => .held .timedOut (some step)
  | none => serviceOf s r

/-- LIFT_HOLD posted for a container (R159). -/
def holdSent (s : State) (u : StreetLoop) (r : Row) : StreetLoop :=
  match configOf s r with
  | some c => u.offered c.station (.liftHold c.bay)
  | none => u

/-- The state once the service timer has been worked off for the containers of a list, in its order. -/
structure TimedBy (s : State) (l : List Row) (t : State) : Prop where
  kept : TimerKeeps s t
  service : ∀ r, serviceOf t r = holdAfter s l (if r ∈ l then timedHold s r else serviceOf s r)
  slots : ∀ i, t.rm.slots.get i =
    if freedBy s l i then none else (s.rm.slots.get i).map fun rd => { rd with steps := missedAfter s l i rd }
  loop : t.slc = l.foldl (holdSent s) s.slc

theorem TimedBy.nil (s : State) : TimedBy s [] s where
  kept := .refl s
  service r := by
    simp only [List.not_mem_nil, if_false]
    cases v : serviceOf s r with
    | held cause step => cases step <;> simp [holdAfter, freedBy]
    | _ => rfl
  slots i := by
    have none_ (rd : Round) : missedAfter s [] i rd = rd.steps :=
      List.ext_getElem? fun k => by simp [missedAfter, List.getElem?_mapIdx]
    simp [freedBy, none_]
  loop := rfl

/-- The timers of a list, and then one more for the step of another container. -/
theorem missedAfter_append {s : State} {l : List Row} {r : Row} {i : Fin 4} {k : Nat} (late : timerStep s r = some ⟨i, k⟩)
    (fresh : ∀ x ∈ l, timerStep s x ≠ some ⟨i, k⟩) (rd : Round) :
    missedAfter s (l ++ [r]) i rd = (missedAfter s l i rd).modify k Step.timeOut := by
  refine List.ext_getElem? fun m => ?_
  rw [List.getElem?_modify]
  simp only [missedAfter, List.getElem?_mapIdx]
  cases rd.steps[m]? with
  | none => simp
  | some st =>
    by_cases hm : k = m
    · subst hm
      have none_ : l.any (fun x => timerStep s x == some ⟨i, k⟩) = false := by
        rw [List.any_eq_false]; intro x hx; simpa using fresh x hx
      simp [late, none_]
    · simp [late, hm]

theorem missedAfter_append_other {s : State} {l : List Row} {r : Row} {i j : Fin 4} {k : Nat} (late : timerStep s r = some ⟨i, k⟩)
    (other : j ≠ i) (rd : Round) : missedAfter s (l ++ [r]) j rd = missedAfter s l j rd := by
  refine List.ext_getElem? fun m => ?_
  simp only [missedAfter, List.getElem?_mapIdx]
  simp [late, Ne.symm other]

theorem freedBy_append_other {s : State} {l : List Row} {r : Row} {i j : Fin 4} {k : Nat} (late : timerStep s r = some ⟨i, k⟩)
    (other : j ≠ i) : freedBy s (l ++ [r]) j = freedBy s l j := by
  have same : (fun rd : Round => rd.state == .closing && (missedAfter s (l ++ [r]) j rd).all fun st => st.state != .lifting) =
      fun rd => rd.state == .closing && (missedAfter s l j rd).all fun st => st.state != .lifting :=
    funext fun rd => by rw [missedAfter_append_other late other]
  have apart : (i == j) = false := by simpa using Ne.symm other
  simp only [freedBy, same]
  simp [late, apart]

theorem loseStep_holdAfter {s : State} {l : List Row} {r : Row} {i : Fin 4} {k : Nat} (late : timerStep s r = some ⟨i, k⟩)
    (before : freedBy s l i = false) (v : Service) : holdAfter s (l ++ [r]) v =
      if freedBy s (l ++ [r]) i then (holdAfter s l v).loseStep i else holdAfter s l v := by
  cases v with
  | held cause step =>
    cases step with
    | none => simp [holdAfter, Service.loseStep]
    | some step =>
      by_cases hi : step.slot = i
      · by_cases now : freedBy s (l ++ [r]) i = true <;> simp [holdAfter, Service.loseStep, hi, before, now]
      · simp only [holdAfter, freedBy_append_other late hi]
        by_cases gone : freedBy s l step.slot = true <;> simp [gone, Service.loseStep, hi]
  | _ => simp [holdAfter, Service.loseStep]

/-- The step of a timed-out container, while the timers of others are worked off. -/
theorem timer_step_lifting {s : State} {l : List Row} {r : Row} {i : Fin 4} {k : Nat} (refers : ∀ x, (serviceOf s x).refersTo s x)
    (late : timerStep s r = some ⟨i, k⟩) (notIn : r ∉ l) : (∀ x ∈ l, timerStep s x ≠ some ⟨i, k⟩) ∧
      ∃ rd, s.rm.slots.get i = some rd ∧ freedBy s l i = false := by
  have step_of (x : Row) (h : timerStep s x = some ⟨i, k⟩) : ∃ st, stepAt s ⟨i, k⟩ = some st ∧ st.row = x ∧ st.state = .lifting := by
    obtain ⟨relay, start, service⟩ := timerStep_service h
    have refers := refers x
    rw [service] at refers
    exact refers
  obtain ⟨st, here, row, lifting⟩ := step_of r late
  have fresh (x : Row) (hx : x ∈ l) : timerStep s x ≠ some ⟨i, k⟩ := fun h => by
    obtain ⟨st', here', row', -⟩ := step_of x h
    cases here.symm.trans here'
    exact notIn (row.symm.trans row' ▸ hx)
  cases slot : s.rm.slots.get i with
  | none => simp [stepAt, slot] at here
  | some rd =>
    refine ⟨fresh, rd, rfl, ?_⟩
    rw [stepAt_of slot] at here
    have none_ : l.any (fun x => timerStep s x == some ⟨i, k⟩) = false := by
      rw [List.any_eq_false]; intro x hx; simpa using fresh x hx
    have mem : st ∈ missedAfter s l i rd := by
      refine List.mem_of_getElem? (i := k) ?_
      rw [missedAfter, List.getElem?_mapIdx, here, Option.map_some, none_]
      rfl
    have all : (missedAfter s l i rd).all (fun x => x.state != .lifting) = false := by
      rw [List.all_eq_false]
      exact ⟨st, mem, by simp [lifting]⟩
    simp [freedBy, slot, all]

theorem TimedBy.append {s t : State} {l : List Row} {r : Row} {c : ContainerConfig} {step : StepRef}
    (refers : ∀ x, (serviceOf s x).refersTo s x) (so_far : TimedBy s l t) (late : timerStep s r = some step) (notIn : r ∉ l)
    (config : configOf s r = some c) : TimedBy s (l ++ [r]) (timeOutLift r c step t) := by
  obtain ⟨i, k⟩ := step
  obtain ⟨fresh, rd, slot, before⟩ := timer_step_lifting refers late notIn
  have slot' : t.rm.slots.get i = some { rd with steps := missedAfter s l i rd } := by
    rw [so_far.slots i, before, slot]
    rfl
  have told := timedOutTold_blocks r c ⟨i, k⟩ t
  generalize toldIs : t.timedOutTold r c ⟨i, k⟩ = told' at told
  have toldSlots : told'.rm.slots = t.rm.slots.set i (some { rd with steps := missedAfter s (l ++ [r]) i rd }) := by
    rw [told]
    change (setStep ⟨i, k⟩ Step.timeOut t).rm.slots = _
    rw [setStep_eq slot', missedAfter_append late fresh]
    rfl
  have toldService : told'.rm.service = t.rm.service.set r (.held .timedOut (some ⟨i, k⟩)) := by rw [told]; rfl
  have toldSlot : told'.rm.slots.get i = some { rd with steps := missedAfter s (l ++ [r]) i rd } := by
    rw [toldSlots]; exact Table.get_set_self ..
  have freed : (rd.state = .closing ∧ Round.lifting { rd with steps := missedAfter s (l ++ [r]) i rd } = false) =
      (freedBy s (l ++ [r]) i = true) := by
    have reached : (l ++ [r]).any (fun x => (timerStep s x).any fun step => step.slot == i) = true := by simp [late]
    simp only [freedBy, reached, slot, Bool.true_and, Option.any_some, Bool.and_eq_true, beq_iff_eq, Round.lifting]
    rw [List.all_eq_true, List.any_eq_false]
    simp
  have outcome : timeOutLift r c ⟨i, k⟩ t = if freedBy s (l ++ [r]) i then freeSlotAt i told' else told' := by
    rw [timeOutLift_of, toldIs, freeIfClosed_of toldSlot]
    simp only [freed]
  have heldNow (x : Row) : told'.rm.service.get x =
      holdAfter s l (if x ∈ l ++ [r] then timedHold s x else serviceOf s x) := by
    rw [toldService, Table.get_set]
    by_cases hx : x = r
    · subst hx
      simp [timedHold, late, holdAfter, before]
    · simp only [hx, if_false, List.mem_append, List.mem_singleton, or_false]
      exact so_far.service x
  refine ⟨so_far.kept.trans (timerKeeps_timeOutLift r c _ t), fun x => ?_, fun j => ?_, ?_⟩
  · rw [outcome, loseStep_holdAfter late before, ← heldNow x]
    split
    · rw [freeSlotAt_eq toldSlot, serviceOf]
      exact Table.get_map ..
    · rfl
  · rw [outcome]
    by_cases hj : j = i
    · subst hj
      split
      · rw [freeSlotAt_eq toldSlot]
        exact Table.get_set_self ..
      · rw [toldSlot, slot]
        rfl
    · have others : told'.rm.slots.get j =
          if freedBy s (l ++ [r]) j then none else (s.rm.slots.get j).map fun rd => { rd with steps := missedAfter s (l ++ [r]) j rd } := by
        rw [toldSlots, Table.get_set_ne hj, so_far.slots j, freedBy_append_other late hj]
        simp only [missedAfter_append_other late hj]
      rw [← others]
      split
      · rw [freeSlotAt_eq toldSlot]
        exact Table.get_set_ne hj ..
      · rfl
  · have loop : (timeOutLift r c ⟨i, k⟩ t).slc = t.slc.offered c.station (.liftHold c.bay) := by
      rw [outcome]
      have toldLoop : told'.slc = t.slc.offered c.station (.liftHold c.bay) := by rw [told]; rfl
      split
      · rw [freeSlotAt_blocks]; exact toldLoop
      · exact toldLoop
    rw [loop, so_far.loop, List.foldl_append]
    simp [holdSent, config]

theorem TimedBy.all {s : State} (refers : ∀ x, (serviceOf s x).refersTo s x) : ∀ {rest l : List Row} {t : State},
    (l ++ rest).Nodup → TimedBy s l t →
    TimedBy s (l ++ rest.filter fun r => (timerStep s r).isSome) (rest.foldl (fun s r => timeService r s) t)
  | [], l, t, _, so_far => by simpa using so_far
  | r :: rest, l, t, once, so_far => by
    have notIn : r ∉ l := fun h => (List.nodup_append.mp once).2.2 r h r List.mem_cons_self rfl
    have once' : (l ++ rest).Nodup := by
      refine List.Nodup.sublist ?_ once
      simp
    have same : (serviceOf t r).bare = (serviceOf s r).bare := by
      rw [so_far.service r, if_neg notIn]
      cases serviceOf s r with
      | held cause step => cases step <;> rfl
      | _ => rfl
    have now := timerStep_congr so_far.kept same
    rw [List.foldl_cons]
    cases late : timerStep s r with
    | none =>
      rw [timeService_early (now.trans late), List.filter_cons_of_neg (by simp [late])]
      exact TimedBy.all refers once' so_far
    | some step =>
      obtain ⟨c, config⟩ := timerStep_config late
      have config' : configOf t r = some c := by rw [configOf, so_far.kept.rows]; exact config
      rw [timeService_late (now.trans late) config', List.filter_cons_of_pos (by simp [late])]
      have later := TimedBy.all refers (rest := rest) (by simpa using once) (so_far.append refers late notIn config)
      simpa using later

/-! ### What the first of them reports -/

theorem timerKeeps_timeService (r : Row) (s : State) : TimerKeeps s (timeService r s) := (timeService_step (.refl s) rfl).1

theorem timerKeeps_foldl : ∀ (l : List Row) (s : State), TimerKeeps s (l.foldl (fun s r => timeService r s) s)
  | [], s => .refl s
  | r :: rest, s => (timerKeeps_timeService r s).trans (timerKeeps_foldl rest (timeService r s))

/-- Nothing happens before the first container whose timer has run out. -/
theorem foldl_timeService_head {s : State} {r : Row} {c : ContainerConfig} {step : StepRef} (late : timerStep s r = some step)
    (config : configOf s r = some c) : ∀ {l : List Row}, (l.filter fun r => (timerStep s r).isSome).head? = some r →
    ∃ rest : List Row, l.foldl (fun s r => timeService r s) s = rest.foldl (fun s r => timeService r s) (timeOutLift r c step s)
  | [], first => by simp at first
  | x :: rest, first => by
    rw [List.foldl_cons]
    cases now : timerStep s x with
    | none =>
      rw [timeService_early now]
      rw [List.filter_cons_of_neg (by simp [now])] at first
      exact foldl_timeService_head late config first
    | some p =>
      rw [List.filter_cons_of_pos (by simp [now])] at first
      obtain rfl : x = r := by simpa using first
      exact ⟨rest, by rw [timeService_late late config]⟩

theorem timedOut_step {s : State} {r : Row} {c : ContainerConfig} {i : Fin 4} {k : Nat} {rd : Round} {st : Step}
    (slot : s.rm.slots.get i = some rd) (step : rd.steps[k]? = some st) :
    (s.timedOut r c ⟨i, k⟩).rm.slots.get i = some { rd with steps := rd.steps.modify k Step.timeOut } ∧
      stepAt (s.timedOut r c ⟨i, k⟩) ⟨i, k⟩ = some st.timeOut := by
  have here : (s.timedOut r c ⟨i, k⟩).rm.slots.get i = some { rd with steps := rd.steps.modify k Step.timeOut } := by
    change (setStep ⟨i, k⟩ Step.timeOut s).rm.slots.get i = _
    rw [setStep_eq slot]
    exact Table.get_set_self ..
  refine ⟨here, ?_⟩
  rw [stepAt_of here, List.getElem?_modify, step]
  simp

theorem timedOutNews_eq {s : State} {r : Row} {c : ContainerConfig} {i : Fin 4} {k : Nat} {rd : Round} {st : Step}
    (slot : s.rm.slots.get i = some rd) (step : rd.steps[k]? = some st) : s.timedOutNews r c ⟨i, k⟩ = .service
      { outcome := .timedOut, number := c.number, row := r, step := some (rd.number, k + 1), origin := some st.origin,
        vehicle := st.vehicle, before := st.before, carried := none, service := .held, stamp := s.stamp } := by
  obtain ⟨here, now⟩ := timedOut_step (r := r) (c := c) slot step
  have held : serviceOf (s.timedOut r c ⟨i, k⟩) r = .held .timedOut (some ⟨i, k⟩) := Table.get_set_self ..
  simp only [State.timedOutNews, serviceReport, Option.bind_some, now, here, held, Option.map_some]
  rfl

theorem reported_seq (t : TrunkPort) (r : Report) : (t.reported r).reportSeq = t.reportSeq + 1 := by
  unfold TrunkPort.reported TrunkPort.enqueue
  split
  · split <;> rfl
  · rfl

theorem occupancy_reported_le (t : TrunkPort) (r : Report) : (t.reported r).occupancy ≤ t.occupancy + 1 := by
  unfold TrunkPort.reported
  split
  · rw [TrunkPort.occupancy_enqueue]
    exact Nat.le_refl _
  · exact Nat.le_succ _

/-- A container timed out posts its SERVICE_REPORT and then its CONTAINER_STATUS. -/
theorem timedOutTold_tp {s : State} {r : Row} {c : ContainerConfig} {step : StepRef} (config : configOf s r = some c)
    (service : (serviceOf s r).name = .service) :
    ∃ status, (s.timedOutTold r c step).tp = (s.tp.reported (s.timedOutNews r c step)).reported status := by
  let t : State := reevaluate r { s.timedOut r c step with tp := s.tp.reported (s.timedOutNews r c step) }
  have held : serviceOf t r = .held .timedOut (some step) := Table.get_set_self ..
  have differ : ((serviceOf t r).name != (serviceOf s r).name) = true := by rw [held, service]; rfl
  have changed : statusChanged r s t = true := by simp [statusChanged, differ]
  exact ⟨_, congrArg State.tp (reportChange_changed (cause := .service) (s := t) config changed)⟩

/-- The ROUND_EVENT of a CLOSING slot that a container timed out alone has left without a LIFTING step. -/
theorem timeOutLift_ended {s : State} {r : Row} {c : ContainerConfig} {i : Fin 4} {k : Nat} {rd : Round}
    (config : configOf s r = some c) (late : timerStep s r = some ⟨i, k⟩) (slot : s.rm.slots.get i = some rd)
    (freed : freedBy s [r] i = true) (room : s.tp.occupancy + 2 < 120) : UpEntry.report (s.tp.reportSeq + 2) (.round
      { round := rd.number, vehicle := rd.vehicle, slot := i, stamp := s.stamp
        news := .ended rd.endCause (stepCounts (missedAfter s [r] i rd)) }) ∈ (timeOutLift r c ⟨i, k⟩ s).tp.entries := by
  obtain ⟨relay, start, service⟩ := timerStep_service late
  obtain ⟨status, told⟩ := timedOutTold_tp (step := ⟨i, k⟩) config (by rw [service]; rfl)
  have steps : missedAfter s [r] i rd = rd.steps.modify k Step.timeOut := by
    have none_ : missedAfter s [] i rd = rd.steps :=
      List.ext_getElem? fun k => by simp [missedAfter, List.getElem?_mapIdx]
    rw [← none_]
    exact missedAfter_append (l := []) late (by simp) rd
  have toldSlot : (s.timedOutTold r c ⟨i, k⟩).rm.slots.get i = some { rd with steps := missedAfter s [r] i rd } := by
    rw [timedOutTold_blocks]
    change (setStep ⟨i, k⟩ Step.timeOut s).rm.slots.get i = _
    rw [setStep_eq slot, steps]
    exact Table.get_set_self ..
  have closed : rd.state = .closing ∧ Round.lifting { rd with steps := missedAfter s [r] i rd } = false := by
    simp only [freedBy, slot, Option.any_some, Bool.and_eq_true, beq_iff_eq] at freed
    refine ⟨freed.2.1, ?_⟩
    have all := freed.2.2
    rw [List.all_eq_true] at all
    rw [Round.lifting, List.any_eq_false]
    simpa using all
  have tp : (timeOutLift r c ⟨i, k⟩ s).tp = ((s.tp.reported (s.timedOutNews r c ⟨i, k⟩)).reported status).reported
      (endedNews i { rd with steps := missedAfter s [r] i rd } s.stamp) := by
    rw [timeOutLift_of, freeIfClosed_of toldSlot, if_pos closed, freeSlotAt_eq toldSlot, ← told]
    have stamp : (s.timedOutTold r c ⟨i, k⟩).stamp = s.stamp := by rw [timedOutTold_blocks]; rfl
    rw [stamp]
  have first := occupancy_reported_le s.tp (s.timedOutNews r c ⟨i, k⟩)
  have second := occupancy_reported_le (s.tp.reported (s.timedOutNews r c ⟨i, k⟩)) status
  have entered := mem_entries_reported (t := (s.tp.reported (s.timedOutNews r c ⟨i, k⟩)).reported status) (by omega)
    (endedNews i { rd with steps := missedAfter s [r] i rd } s.stamp)
  rw [reported_seq, reported_seq, ← tp, BitVec.add_assoc] at entered
  exact entered

/-! ### Round expiry (R164) -/

/-- The slot of a round that its duration may have ended. -/
def expiredSlot (s : State) : Option Round → Option Round
  | some rd =>
    if rd.state ≠ .closing ∧ rd.duration ≤ (s.tk.uptime - rd.load).toNat then
      if rd.steps.any (fun st => st.state == .lifting) then
        some { rd with state := .closing, endCause := some .expired, steps := rd.steps.map fun st =>
          if st.state = .pending then { st with state := .missed, timedOut := false } else st }
      else none
    else some rd
  | none => none

/-- What round expiry leaves alone. -/
structure ExpiryKeeps (s t : State) : Prop where
  tk : t.tk = s.tk
  slc : t.slc = s.slc
  clu : t.clu = s.clu
  au : t.au = s.au
  rmi : t.rmi = s.rmi
  rows : t.ft.rows = s.ft.rows
  memory : t.memory = s.memory

theorem takesLifts_iff (x : RoundState) : x.takesLifts = true ↔ x ≠ .closing := by cases x <;> simp [RoundState.takesLifts]

theorem expireRound_step {s t : State} (i : Fin 4) (kept : ExpiryKeeps s t) : ExpiryKeeps s (expireRound i t) ∧
    ∀ j, (expireRound i t).rm.slots.get j = if j = i then expiredSlot s (t.rm.slots.get i) else t.rm.slots.get j := by
  cases slot : t.rm.slots.get i with
  | none =>
    have same : expireRound i t = t := by
      unfold expireRound
      rw [slot]
    rw [same]
    exact ⟨kept, fun j => by by_cases hj : j = i <;> simp [hj, slot, expiredSlot]⟩
  | some rd =>
    have outcome : expireRound i t =
        if rd.state ≠ .closing ∧ rd.duration ≤ (s.tk.uptime - rd.load).toNat then endRound .expired i t else t := by
      unfold expireRound
      rw [slot, ← kept.tk]
      simp only [takesLifts_iff]
      rfl
    rw [outcome]
    split
    · next out =>
      have blocks := endRound_blocks .expired i t
      have slots := endRound_slot (cause := .expired) slot
      refine ⟨⟨(congrArg State.tk blocks :).trans kept.tk, (congrArg State.slc blocks :).trans kept.slc,
        (congrArg State.clu blocks :).trans kept.clu, (congrArg State.au blocks :).trans kept.au,
        (congrArg State.rmi blocks :).trans kept.rmi, (congrArg (fun t : State => t.ft.rows) blocks :).trans kept.rows,
        (congrArg State.memory blocks :).trans kept.memory⟩, fun j => ?_⟩
      simp only [expiredSlot]
      rw [if_pos out]
      simp only at slots
      split at slots
      · next lifting => rw [if_pos lifting, slots, Table.get_set]
      · next still => rw [if_neg still, slots.1, Table.get_set]
    · next early =>
      refine ⟨kept, fun j => ?_⟩
      simp only [expiredSlot]
      rw [if_neg early]
      by_cases hj : j = i <;> simp [hj, slot]

/-- Settles O10: the timers one after the other in row order, and each round slot by what it holds. -/
theorem serviceAndRoundLimitsExpire : Obligations.ServiceAndRoundLimitsExpire := by
  have timers (s : State) (running : s.hold = .running) (told : s.tk.told.service = true) : exec .serviceTimerExpiry s =
      .next ((List.finRange 192).foldl (fun s r => timeService r s)
        { s with tk := { s.tk with told := { s.tk.told with service := false } } }) :=
    (whenRunning_running running).trans (congrArg _ (if_pos told))
  have once := List.nodup_finRange 192
  have all (r : Row) := List.mem_finRange r
  refine ⟨fun s running told refers => ?_, fun s running told => ?_, fun s running told => ?_⟩
  · intro expired late stepsAfter freed keeps
    rw [timers s running told]
    let u : State := { s with tk := { s.tk with told := { s.tk.told with service := false } } }
    change ∃ t, Host.Outcome.next ((List.finRange 192).foldl (fun s r => timeService r s) u) = _ ∧ _
    have outcome := TimedBy.all (s := u) (l := []) (rest := List.finRange 192) refers (by simpa using once) (.nil u)
    have listed : [] ++ (List.finRange 192).filter (fun r => (timerStep u r).isSome) = late := rfl
    rw [listed] at outcome
    have head {r : Row} {c : ContainerConfig} {step : StepRef} (first : late.head? = some r) (config : configOf s r = some c)
        (which : expired r = some step) := foldl_timeService_head (s := u) (l := List.finRange 192) which config first
    generalize (List.finRange 192).foldl (fun s r => timeService r s) u = t at outcome head
    have mem (r : Row) : r ∈ late ↔ (timerStep u r).isSome = true := List.mem_filter.trans (and_iff_right (all r))
    refine ⟨t, rfl, fun r => ?_, outcome.slots, outcome.loop, fun r c i k rd st first config which slot step room => ?_,
      fun r step rd one which slot gone room => ?_, outcome.kept.tk, outcome.kept.au, outcome.kept.clu, outcome.kept.rmi,
      outcome.kept.rows, outcome.kept.profiles, outcome.kept.memory⟩
    · have reached : (if r ∈ late then timedHold u r else serviceOf u r) = timedHold u r := by
        split
        · rfl
        · next early =>
          rw [mem, Bool.not_eq_true, Option.isSome_eq_false_iff, Option.isNone_iff_eq_none] at early
          rw [timedHold, early]
      rw [outcome.service r, reached]
      rfl
    · obtain ⟨rest, after⟩ := head first config which
      have entered := mem_entries_reported (t := u.tp) room (u.timedOutNews r c ⟨i, k⟩)
      rw [after]
      have gains := (timeOutLift_gains r c ⟨i, k⟩ u).trans (timerKeeps_foldl rest _).trunk
      rw [timedOutNews_eq (s := u) slot step] at entered gains
      exact gains.entries _ entered
    · obtain ⟨c, config⟩ := timerStep_config (s := u) which
      obtain ⟨rest, after⟩ := head (by rw [one]; rfl) config which
      rw [after]
      refine (timerKeeps_foldl rest _).trunk.entries _ ?_
      have gone' : freedBy u [r] step.slot = true := one ▸ gone
      have entered := timeOutLift_ended (s := u) (i := step.slot) (k := step.position) config which slot gone' room
      have steps : stepsAfter step.slot rd = missedAfter u [r] step.slot rd := by
        rw [← one]
        rfl
      rw [steps]
      exact entered
  · let u : State := { s with tk := { s.tk with told := { s.tk.told with service := false } } }
    obtain ⟨kept, bare⟩ := timeServices_bare u once (.refl u) fun r _ => rfl
    rw [timers s running told]
    change ∃ t, Host.Outcome.next ((List.finRange 192).foldl (fun s r => timeService r s) u) = _ ∧ _
    generalize (List.finRange 192).foldl (fun s r => timeService r s) u = t at kept bare
    refine ⟨t, rfl, fun r => ?_, kept.tk, kept.au, kept.clu, kept.rmi, kept.rows, kept.profiles, kept.memory⟩
    have now := bare r
    rw [if_pos (all r)] at now
    rw [← name_bare, now]
    change (timedService u r (serviceOf s r).bare).name = _
    unfold timedService timerStep
    change (if (match serviceOf s r with
      | .service step _ start => if (configOf s r).isSome = true ∧ s.tp.effective.serviceLimit ≤ elapsed s.tk.seconds start
        then some step else none
      | _ => none).isSome then _ else _ : Service).name = _
    cases serviceOf s r with
    | service step relay start =>
      by_cases limit : (configOf s r).isSome = true ∧ s.tp.effective.serviceLimit ≤ elapsed s.tk.seconds start
      · simp only [limit, and_self, if_true, Option.isSome_some]
        rfl
      · simp only [limit, if_false]
        rfl
    | _ => simp [name_bare]
  · let u : State := { s with tk := { s.tk with told := { s.tk.told with roundExpiry := false } } }
    obtain ⟨kept, slots⟩ := foldl_pointwise (f := fun s i => expireRound i s) (get := fun (t : State) i => t.rm.slots.get i)
      (g := fun _ => expiredSlot u) (keep := ExpiryKeeps u) (fun t i => expireRound_step i) (List.nodup_finRange 4)
      ⟨rfl, rfl, rfl, rfl, rfl, rfl, rfl⟩
    refine ⟨(List.finRange 4).foldl (fun s i => expireRound i s) u, (whenRunning_running running).trans (congrArg _ ?_), fun i => ?_,
      kept.tk, kept.slc, kept.clu, kept.au, kept.rmi, kept.rows, kept.memory⟩
    · exact if_pos told
    refine (slots i).trans ((if_pos (List.mem_finRange i)).trans ?_)
    change expiredSlot u (s.rm.slots.get i) = _
    cases s.rm.slots.get i <;> rfl

end Sys2Proof.Machine
end

