-- ==== Sys2Proof/Proofs/Lifts.lean ====
section
/-! Proofs about the vehicle messages: LIFT_REQUEST and LIFT_DONE (8.3, 8.5). -/

namespace Sys2Proof.Machine

/-! ### What the answers and the redirect depend on -/

theorem sendReply_eq (relay : Station) (ans : VehicleAnswer) (vehicle : Short) (n : Number) (s : State) :
    sendReply relay ans vehicle n s = s.offered relay (.reply ans vehicle (.container n)) := sendDown_offered rfl relay s

theorem sendRelease_eq (c : ContainerConfig) (s : State) : sendRelease c s = s.offered c.station (.liftRelease c.bay) :=
  sendDown_offered rfl c.station s

/-- A redirect depends on the containers, the service records of the others and the states of the stations (R99). -/
theorem redirectFor_congr {s t : State} {denied : Row} (rows : t.ft.rows = s.ft.rows) (profiles : t.ft.profiles = s.ft.profiles)
    (service : ∀ q, q ≠ denied → serviceOf t q = serviceOf s q) (states : ∀ a, (t.slc.rows.get a).state = (s.slc.rows.get a).state)
    (cluster : Fin 64) : redirectFor t denied cluster = redirectFor s denied cluster := by
  have config (q : Row) : configOf t q = configOf s q := by rw [configOf, rows]; rfl
  have fill (q : Row) : fillOf t q = fillOf s q := by rw [fillOf, rows]; rfl
  have candidates : isCandidate t denied cluster = isCandidate s denied cluster := by
    funext q
    unfold isCandidate
    rw [config denied, config q]
    cases configOf s denied with
    | none => rfl
    | some d =>
      cases configOf s q with
      | none => rfl
      | some c =>
        by_cases hq : q = denied
        · simp [hq]
        · simp only [states, fill, profiles, service q hq]
  have better : betterRedirect t = betterRedirect s := by
    funext best q
    unfold betterRedirect
    simp only [fill]
  simp only [redirectFor, redirectRow, candidates, better, config]

theorem heard_state (a : Station) (flags : Byte) (s : State) (b : Station) :
    ((s.heard a flags).slc.rows.get b).state = (s.slc.rows.get b).state := by
  by_cases hb : b = a <;> simp [State.heard, hb]

theorem offered_service (a : Station) (c : DownCommand) (s : State) : (s.offered a c).slc = s.slc.offered a c := rfl

/-! ### Which step a LIFT_REQUEST means (R155) -/

theorem findStep_eq_some {rd : Round} {p : Step → Bool} {k : Nat} {st : Step} (here : rd.steps[k]? = some st) (pass : p st = true)
    (first : ∀ j x, j < k → rd.steps[j]? = some x → p x = false) : rd.findStep p = some k := by
  rw [Round.findStep, List.findIdx?_eq_some_iff_getElem]
  obtain ⟨lt, is⟩ := List.getElem?_eq_some_iff.mp here
  refine ⟨lt, is ▸ pass, fun j hj => ?_⟩
  rw [first j _ hj (List.getElem?_eq_getElem (hj.trans lt))]
  exact Bool.false_ne_true

theorem findStep_eq_none_iff {rd : Round} {p : Step → Bool} : rd.findStep p = none ↔ ∀ st ∈ rd.steps, p st = false :=
  List.findIdx?_eq_none_iff

theorem findStep_isSome {rd : Round} {p : Step → Bool} {st : Step} (mem : st ∈ rd.steps) (pass : p st = true) :
    ∃ k, rd.findStep p = some k := by
  cases found : rd.findStep p with
  | some k => exact ⟨k, rfl⟩
  | none =>
    rw [findStep_eq_none_iff.mp found st mem] at pass
    cases pass

/-- The test for a step of a container in a state. -/
theorem step_test {r : Row} {state : StepState} {st : Step} : (st.row == r && st.state == state) = true ↔ st.row = r ∧ st.state = state := by
  simp

/-! ### A lift accepted (R156) -/

theorem Round.run_eq {rd : Round} (open_ : rd.state ≠ .closing) : rd.run = { rd with state := .running } := by
  unfold Round.run
  obtain ⟨state, number, vehicle, load, duration, allowance, adHoc, lastLift, endCause, steps⟩ := rd
  cases state with
  | closing => exact absurd rfl open_
  | _ => rfl

/-- A round whose step is lifted. -/
def Round.lifted (vehicle : Short) (level k : Nat) (rd : Round) : Round :=
  { rd with state := .running, steps := rd.steps.modify k (Step.lift vehicle level) }

/-- A pending request answered when its container goes to SERVICE (R131). -/
theorem denyForLift_none {r : Row} {c : ContainerConfig} {s : State} (none_ : ∀ q ∈ s.au.requests, q.row ≠ r) : denyForLift r c s = s := by
  unfold denyForLift
  have search : s.au.requests.find? (fun q => q.row == r) = none := List.find?_eq_none.mpr fun q hq => by simpa using none_ q hq
  rw [search]

theorem denyForLift_rm (r : Row) (c : ContainerConfig) (s : State) : (denyForLift r c s).rm = s.rm := by
  unfold denyForLift
  split
  · rw [denyRequest_eq]
  · rfl

theorem denyForLift_some {r : Row} {c : ContainerConfig} {q : Request} {s : State} (mem : q ∈ s.au.requests) (row : q.row = r)
    (one : ∀ x ∈ s.au.requests, x.row = r → x = q) : denyForLift r c s = denyRequest q .service (redirectFor s r c.cluster) s := by
  unfold denyForLift
  have search : s.au.requests.find? (fun q => q.row == r) = some q := by
    cases found : s.au.requests.find? (fun q => q.row == r) with
    | none => simpa [row] using List.find?_eq_none.mp found q mem
    | some x => rw [one x (List.mem_of_find?_eq_some found) (by simpa using List.find?_some found)]
  rw [search]

/-- A container's lift under way: its slot and its service record. -/
def State.liftBegun (vehicle : Short) (r : Row) (i : Fin 4) (k : Nat) (rd : Round) (service : Service) (s : State) : State :=
  { s with rm := { s.rm with
    slots := s.rm.slots.set i (some (rd.lifted vehicle (fillOf s r).i k)), service := s.rm.service.set r service } }

/-- What an accepted lift posts on the street loop, and what it makes of a pending request. -/
def State.liftSent (relay : Station) (vehicle : Short) (r : Row) (c : ContainerConfig) (i : Fin 4) (k : Nat) (rd : Round) (s : State) :
    State :=
  if (s.au.deposits.get r).isSome then
    (s.liftBegun vehicle r i k rd (.serviceWait ⟨i, k⟩ relay)).offered relay (.reply .liftWait vehicle (.container c.number))
  else
    ((denyForLift r c (s.liftBegun vehicle r i k rd (.service ⟨i, k⟩ relay s.tk.seconds))).offered c.station
      (.liftRelease c.bay)).offered relay (.reply .liftOk vehicle (.container c.number))

theorem acceptLift_of {relay : Station} {vehicle : Short} {r : Row} {c : ContainerConfig} {i : Fin 4} {k : Nat} {rd : Round}
    {before s : State} (slot : s.rm.slots.get i = some rd) (open_ : rd.state ≠ .closing) :
    acceptLift relay vehicle r c ⟨i, k⟩ before s =
      reportChange r .service before (reevaluate r (s.liftSent relay vehicle r c i k rd)) := by
  have run : Round.run { rd with steps := rd.steps.modify k (Step.lift vehicle (fillOf s r).i) } =
      rd.lifted vehicle (fillOf s r).i k := Round.run_eq open_
  have begun (service : Service) : setService r service { setStep ⟨i, k⟩ (Step.lift vehicle (fillOf s r).i) s with
      rm := { (setStep ⟨i, k⟩ (Step.lift vehicle (fillOf s r).i) s).rm with
        slots := (setStep ⟨i, k⟩ (Step.lift vehicle (fillOf s r).i) s).rm.slots.update i (Option.map Round.run) } } =
      s.liftBegun vehicle r i k rd service := by
    rw [setStep_eq slot]
    simp only [setSlot, Table.update_eq_set, Table.get_set_self, Option.map_some, Table.set_set, run]
    rfl
  have deposits : (setStep ⟨i, k⟩ (Step.lift vehicle (fillOf s r).i) s).au = s.au := by rw [setStep_blocks]
  have seconds : (setStep ⟨i, k⟩ (Step.lift vehicle (fillOf s r).i) s).tk = s.tk := by rw [setStep_blocks]
  unfold acceptLift State.liftSent
  simp only [sendReply_eq, sendRelease_eq, begun]
  simp only [deposits, seconds]

theorem liftSent_eq (relay : Station) (vehicle : Short) (r : Row) (c : ContainerConfig) (i : Fin 4) (k : Nat) (rd : Round) (s : State) :
    s.liftSent relay vehicle r c i k rd = { s with
      rm := (s.liftSent relay vehicle r c i k rd).rm, slc := (s.liftSent relay vehicle r c i k rd).slc
      au := (s.liftSent relay vehicle r c i k rd).au, clu := (s.liftSent relay vehicle r c i k rd).clu } ∧
    (s.liftSent relay vehicle r c i k rd).rm.slots = s.rm.slots.set i (some (rd.lifted vehicle (fillOf s r).i k)) := by
  have denied (t : State) : denyForLift r c t = { t with
      slc := (denyForLift r c t).slc, au := (denyForLift r c t).au, clu := (denyForLift r c t).clu } := by
    unfold denyForLift
    split
    · rw [denyRequest_eq]
    · rfl
  unfold State.liftSent
  split
  · exact ⟨rfl, rfl⟩
  · rw [denied]
    exact ⟨rfl, rfl⟩

/-- What an accepted lift comes to. -/
theorem acceptLift_spec {relay : Station} {vehicle : Short} {r : Row} {c : ContainerConfig} {i : Fin 4} {k : Nat} {rd : Round}
    {st : Step} {before s : State} (slot : s.rm.slots.get i = some rd) (open_ : rd.state ≠ .closing) (step : rd.steps[k]? = some st)
    (row : st.row = r) :
    let t := acceptLift relay vehicle r c ⟨i, k⟩ before s
    let sent := s.liftSent relay vehicle r c i k rd
    t.rm = sent.rm ∧ t.slc = sent.slc ∧ t.au = sent.au ∧ t.clu = sent.clu ∧ r ∉ t.ft.queue ∧ t.ft.rows = s.ft.rows ∧
      t.rmi = s.rmi ∧ t.tk = s.tk ∧ t.memory = s.memory := by
  intro t sent
  obtain ⟨blocks, slots⟩ := liftSent_eq relay vehicle r c i k rd s
  have outcome : t = { reevaluate r sent with tp := t.tp } := by
    have made : t = reportChange r .service before (reevaluate r sent) := acceptLift_of slot open_
    rw [made]
    exact reportChange_tp ..
  have active : onActiveRound sent r = true := by
    refine onActiveRound_iff.mpr ⟨i, rd.lifted vehicle (fillOf s r).i k, ?_, ?_⟩
    · exact (congrArg (Table.get · i) slots).trans (Table.get_set_self ..)
    · rw [Round.holdsOpen, List.any_eq_true]
      refine ⟨st.lift vehicle (fillOf s r).i, List.mem_of_getElem? (i := k) ?_, by simp [Step.lift, Step.open, row]⟩
      simp [Round.lifted, List.getElem?_modify, step]
  have out : qualifies sent r = false := by
    unfold qualifies
    rw [active]
    cases configOf sent r <;> simp
  have queue : t.ft.queue = sent.ft.queue.filter (· != r) := by
    rw [outcome]
    simp [reevaluate, out]
  refine ⟨by rw [outcome]; rfl, by rw [outcome]; rfl, by rw [outcome]; rfl, by rw [outcome]; rfl, ?_, ?_, ?_, ?_, ?_⟩
  · rw [queue]; simp
  · rw [outcome]; exact (congrArg (fun t : State => t.ft.rows) blocks :)
  · rw [outcome]; exact (congrArg State.rmi blocks :)
  · rw [outcome]; exact (congrArg State.tk blocks :)
  · rw [outcome]; exact (congrArg State.memory blocks :)

/-- Where the accepted lift leaves the container, by its open deposit and its pending request (R131, R156). -/
theorem liftSent_waits {relay : Station} {vehicle : Short} {r : Row} {c : ContainerConfig} {i : Fin 4} {k : Nat} {rd : Round}
    {s : State} (deposit : (s.au.deposits.get r).isSome = true) :
    s.liftSent relay vehicle r c i k rd =
      (s.liftBegun vehicle r i k rd (.serviceWait ⟨i, k⟩ relay)).offered relay (.reply .liftWait vehicle (.container c.number)) :=
  if_pos deposit

theorem liftSent_serves {relay : Station} {vehicle : Short} {r : Row} {c : ContainerConfig} {i : Fin 4} {k : Nat} {rd : Round}
    {s : State} (empty : s.au.deposits.get r = none) :
    s.liftSent relay vehicle r c i k rd =
      ((denyForLift r c (s.liftBegun vehicle r i k rd (.service ⟨i, k⟩ relay s.tk.seconds))).offered c.station
        (.liftRelease c.bay)).offered relay (.reply .liftOk vehicle (.container c.number)) :=
  if_neg (by simp [empty])

/-- A denial leaves what does not concern the request. -/
theorem denyForLift_begun {vehicle : Short} {r : Row} {c : ContainerConfig} {i : Fin 4} {k : Nat} {rd : Round} {service : Service}
    {q : Request} {s : State} (mem : q ∈ s.au.requests) (row : q.row = r) (one : ∀ x ∈ s.au.requests, x.row = r → x = q) :
    denyForLift r c (s.liftBegun vehicle r i k rd service) = { s.liftBegun vehicle r i k rd service with
      slc := s.slc.offered q.station (.deny (BitVec.ofNat 8 q.bay.val) q.tag .service (redirectFor s r c.cluster))
      au := s.au.denying r
      clu := s.clu.without r } := by
  have redirect : redirectFor (s.liftBegun vehicle r i k rd service) r c.cluster = redirectFor s r c.cluster :=
    redirectFor_congr (s := s) (t := s.liftBegun vehicle r i k rd service) rfl rfl (fun x hx => Table.get_set_ne hx ..) (fun _ => rfl) _
  rw [denyForLift_some (s := s.liftBegun vehicle r i k rd service) mem row one, redirect, denyRequest_eq, row]
  rfl

/-! ### LIFT_REQUEST (R155 to R157) -/

theorem liftRequest_none {relay : Station} {vehicle round : Short} {n : Number} {s : State}
    (none_ : slotWhere s (fun rd => rd.state.takesLifts && rd.vehicle == vehicle && rd.number == round) = none) :
    liftRequest relay vehicle round n s = s.offered relay (.reply (.liftRefuse .noRound) vehicle (.container n)) := by
  unfold liftRequest
  rw [none_]
  exact sendReply_eq ..

theorem liftRequest_unknown {relay : Station} {vehicle round : Short} {n : Number} {i : Fin 4} {rd : Round} {s : State}
    (slot : slotWhere s (fun rd => rd.state.takesLifts && rd.vehicle == vehicle && rd.number == round) = some (i, rd))
    (unknown : containerOf s n = none) :
    liftRequest relay vehicle round n s = s.offered relay (.reply (.liftRefuse .notOnRound) vehicle (.container n)) := by
  unfold liftRequest
  rw [slot]
  simp only [unknown]
  exact sendReply_eq ..

/-- A LIFT_REQUEST for a container that a row holds, by its verdict. -/
theorem liftRequest_judged {relay : Station} {vehicle round : Short} {n : Number} {i : Fin 4} {rd : Round} {r : Row}
    {c : ContainerConfig} {s : State}
    (slot : slotWhere s (fun rd => rd.state.takesLifts && rd.vehicle == vehicle && rd.number == round) = some (i, rd))
    (container : containerOf s n = some r) (config : configOf s r = some c) :
    liftRequest relay vehicle round n s = match judgeLift s i rd r with
      | .refused reason => s.offered relay (.reply (.liftRefuse reason) vehicle (.container n))
      | .repeated _ => repeatLift relay vehicle r c s
      | .accepted step => acceptLift relay vehicle r c step s s
      | .appended slot => acceptLift relay vehicle r c ⟨slot, rd.steps.length⟩ s
          (reevaluate r (setSlot slot (some { rd with steps := rd.steps ++ [Step.fresh r .adhoc] }) s)) := by
  unfold liftRequest
  rw [slot]
  simp only [container, config, Option.bind_some, Option.map_some]
  cases judgeLift s i rd r with
  | refused reason => exact sendReply_eq ..
  | _ => rfl

theorem modify_of_getElem? {α : Type} {l : List α} {k : Nat} {x : α} (here : l[k]? = some x) (f : α → α) :
    l.modify k f = l.set k (f x) := by
  refine List.ext_getElem? fun m => ?_
  obtain ⟨lt, is⟩ := List.getElem?_eq_some_iff.mp here
  rw [List.getElem?_modify, List.getElem?_set]
  by_cases hm : k = m
  · subst hm
    simp [lt, is]
  · simp [hm]

/-- Settles O53. -/
theorem liftRequestIsJudged : Obligations.LiftRequestIsJudged := by
  intro a flags vehicle round n s running polling awake lift u outcome reply refused released lifted
  have turned : outcome = .next (liftRequest a vehicle round n u) := by
    simp only [outcome]
    rw [exec_answer (.liftRequest vehicle round n) running, loopAnswer_awake polling awake]
    exact congrArg Host.Outcome.next (if_neg lift)
  refine ⟨fun none_ => turned.trans (congrArg _ (liftRequest_none ?_)), fun i rd slot open_ vehicleIs numberIs one => ?_⟩
  · refine slotWhere_eq_none fun i rd slot => ?_
    rw [← Bool.not_eq_true]
    simp only [Bool.and_eq_true, takesLifts_iff, beq_iff_eq, not_and]
    rintro ⟨open_, vehicleIs⟩ numberIs
    rcases none_ i rd slot with closing | other | other
    · exact open_ closing
    · exact other vehicleIs
    · exact other numberIs
  · have found : slotWhere u (fun rd => rd.state.takesLifts && rd.vehicle == vehicle && rd.number == round) = some (i, rd) :=
      slotWhere_eq_some (s := u) slot (by simp [takesLifts_iff, open_, vehicleIs, numberIs]) fun j other here pass => by
        simp only [Bool.and_eq_true, beq_iff_eq] at pass
        exact one j other here pass.1.2
    refine ⟨fun unknown => turned.trans (congrArg _ (liftRequest_unknown (s := u) found unknown)), fun r c container config => ?_⟩
    have judged := liftRequest_judged (relay := a) (s := u) found container config
    have number : c.number = n := by
      obtain ⟨c', config', number⟩ := containerOf_some container
      rw [← number, Option.some.inj (config.symm.trans config')]
    /- What an accepted lift comes to, from the street loop and the Admission Unit that the answer finds. -/
    have accepted (t : State) (k : Nat) (rd' : Round) (st : Step) (same : t = { u with ft := t.ft, rm := t.rm })
        (rows : t.ft.rows = s.ft.rows) (profiles : t.ft.profiles = s.ft.profiles) (service : t.rm.service = s.rm.service)
        (here : t.rm.slots.get i = some rd') (open' : rd'.state ≠ .closing) (step : rd'.steps[k]? = some st) (row : st.row = r)
        (taken : liftRequest a vehicle round n u = acceptLift a vehicle r c ⟨i, k⟩ u t) :
        lifted r c ⟨i, k⟩ (t.rm.slots.set i (some (rd'.lifted vehicle (fillOf s r).i k))) := by
      obtain ⟨rm, slc, au, clu, queue, rows', rmi, tk, memory⟩ :=
        acceptLift_spec (relay := a) (vehicle := vehicle) (c := c) (before := u) here open' step row
      have auIs : t.au = s.au := (congrArg State.au same :)
      have cluIs : t.clu = s.clu := (congrArg State.clu same :)
      have slcIs : t.slc = u.slc := (congrArg State.slc same :)
      have tkIs : t.tk = s.tk := (congrArg State.tk same :)
      have level : fillOf t r = fillOf s r := by rw [fillOf, rows]; rfl
      refine ⟨_, turned.trans (congrArg _ taken), ?_, queue, rows'.trans rows, rmi.trans (congrArg State.rmi same :),
        tk.trans tkIs, memory.trans (congrArg State.memory same :), fun deposit => ?_, fun empty => ⟨?_, fun none_ => ?_,
        fun q mem isRow one => ?_⟩⟩
      · rw [rm, (liftSent_eq a vehicle r c i k rd' t).2, level]
      · rw [rm, slc, au, clu, liftSent_waits (by rw [auIs]; exact deposit), number]
        refine ⟨?_, ?_, auIs, cluIs⟩
        · exact congrArg (fun x : Table Service 192 => x.set r (.serviceWait ⟨i, k⟩ a)) service
        · exact congrArg (fun x : StreetLoop => x.offered a (reply .liftWait)) slcIs
      · rw [rm, liftSent_serves (by rw [auIs]; exact empty), tkIs]
        exact (congrArg RoundManager.service (denyForLift_rm r c _)).trans
          (congrArg (fun x : Table Service 192 => x.set r (.service ⟨i, k⟩ a s.tk.seconds)) service)
      · have alone : ∀ q ∈ (t.liftBegun vehicle r i k rd' (.service ⟨i, k⟩ a t.tk.seconds)).au.requests, q.row ≠ r := by
          change ∀ q ∈ t.au.requests, q.row ≠ r
          rw [auIs]
          exact none_
        rw [slc, au, clu, liftSent_serves (by rw [auIs]; exact empty), denyForLift_none alone, number]
        exact ⟨congrArg (released c) slcIs, auIs, cluIs⟩
      · have mem' : q ∈ t.au.requests := auIs ▸ mem
        have one' : ∀ x ∈ t.au.requests, x.row = r → x = q := auIs ▸ one
        have redirect : redirectFor t r c.cluster = redirectFor s r c.cluster :=
          redirectFor_congr rows profiles (fun x _ => congrArg (Table.get · x) service)
            (fun b => by rw [slcIs]; exact heard_state a flags s b) _
        rw [slc, au, clu, liftSent_serves (by rw [auIs]; exact empty), denyForLift_begun mem' isRow one', redirect, number]
        refine ⟨?_, ?_, ?_⟩
        · exact congrArg (fun x : StreetLoop => released c
            (x.offered q.station (.deny (BitVec.ofNat 8 q.bay.val) q.tag .service (redirectFor s r c.cluster)))) slcIs
        · exact congrArg (AdmissionUnit.denying r) auIs
        · exact congrArg (CardLookup.without r) cluIs
    have judge {k : Nat} {st : Step} {state : StepState} (here : rd.steps[k]? = some st) (row : st.row = r) (is : st.state = state)
        (first : ∀ j x, j < k → rd.steps[j]? = some x → x.row = r → x.state ≠ state) :
        rd.findStep (fun st => st.row == r && st.state == state) = some k :=
      findStep_eq_some here (by simp [row, is]) fun j x hj hx => by
        rw [← Bool.not_eq_true, step_test]
        exact fun h => first j x hj hx h.1 h.2
    have judgeNone {state : StepState} (none_ : ¬∃ st ∈ rd.steps, st.row = r ∧ st.state = state) :
        rd.findStep (fun st => st.row == r && st.state == state) = none :=
      findStep_eq_none_iff.mpr fun st mem => by
        rw [← Bool.not_eq_true, step_test]
        exact fun h => none_ ⟨st, mem, h⟩
    refine ⟨fun pending held => ?_, fun k st here row pending first free => ?_, fun noPending lifting => ?_,
      fun noPending noLifting => ?_⟩
    · obtain ⟨st, mem, row, is⟩ := pending
      obtain ⟨k, which⟩ := findStep_isSome (p := fun st => st.row == r && st.state == .pending) mem (by simp [row, is])
      have held' : (serviceOf u r).name = .held := held
      refine turned.trans (congrArg _ (judged.trans ?_))
      simp only [judgeLift, which, held', if_true]
      rfl
    · have free' : ¬(serviceOf u r).name = .held := free
      have taken : liftRequest a vehicle round n u = acceptLift a vehicle r c ⟨i, k⟩ u u := by
        refine judged.trans ?_
        simp only [judgeLift, judge here row pending first, free', if_false]
      have done := accepted u k rd st rfl rfl rfl rfl slot open_ here row taken
      rw [Round.lifted, modify_of_getElem? here] at done
      exact done
    · obtain ⟨st, mem, row, is⟩ := lifting
      obtain ⟨k, which⟩ := findStep_isSome (p := fun st => st.row == r && st.state == .lifting) mem (by simp [row, is])
      have again : liftRequest a vehicle round n u = repeatLift a vehicle r c u := by
        refine judged.trans ?_
        simp only [judgeLift, judgeNone noPending, which]
      refine ⟨fun step relay waits => ?_, fun step relay start serves => ?_⟩
      · have waits' : serviceOf u r = .serviceWait step relay := waits
        refine turned.trans (congrArg _ (again.trans ?_))
        unfold repeatLift
        simp only [waits', sendReply_eq, number]
        rfl
      · have serves' : serviceOf u r = .service step relay start := serves
        refine turned.trans (congrArg _ (again.trans ?_))
        unfold repeatLift
        simp only [serves', sendReply_eq, sendRelease_eq, number]
        rfl
    · have off_list : judgeLift u i rd r = judgeOffList u i rd r := by
        simp only [judgeLift, judgeNone noPending, judgeNone noLifting]
      rw [off_list] at judged
      refine ⟨fun active => ?_, fun off held => ?_, fun off free shut => ?_, fun off free adHoc room => ?_⟩
      · have active' : onActiveRound u r = true := active
        refine turned.trans (congrArg _ (judged.trans ?_))
        simp only [judgeOffList, active', if_true]
        rfl
      · have off' : onActiveRound u r = false := off
        have held' : (serviceOf u r).name = .held := held
        refine turned.trans (congrArg _ (judged.trans ?_))
        simp only [judgeOffList, off', held', if_true, Bool.false_eq_true, if_false]
        rfl
      · have off' : onActiveRound u r = false := off
        have free' : ¬(serviceOf u r).name = .held := free
        have shut' : ¬(rd.adHoc = true ∧ rd.steps.length < Config.stepPlaces) := by
          rintro ⟨adHoc, room⟩
          rcases shut with h | h
          · rw [h] at adHoc; cases adHoc
          · exact absurd room (Nat.not_lt.mpr h)
        refine turned.trans (congrArg _ (judged.trans ?_))
        simp only [judgeOffList, off', free', shut', Bool.false_eq_true, if_false]
        rfl
      · have off' : onActiveRound u r = false := off
        have free' : ¬(serviceOf u r).name = .held := free
        have room' : rd.adHoc = true ∧ rd.steps.length < Config.stepPlaces := ⟨adHoc, room⟩
        let longer : Round := { rd with steps := rd.steps ++ [Step.fresh r .adhoc] }
        have taken : liftRequest a vehicle round n u =
            acceptLift a vehicle r c ⟨i, rd.steps.length⟩ u (reevaluate r (setSlot i (some longer) u)) := by
          refine judged.trans ?_
          simp only [judgeOffList, off', free', Bool.false_eq_true, if_false]
          rw [if_pos room']
        have here : longer.steps[rd.steps.length]? = some (Step.fresh r .adhoc) := by simp [longer]
        have done := accepted (reevaluate r (setSlot i (some longer) u)) rd.steps.length longer (Step.fresh r .adhoc) rfl rfl rfl rfl
          (Table.get_set_self ..) open_ here rfl taken
        rw [Round.lifted, modify_of_getElem? here] at done
        have slots : (reevaluate r (setSlot i (some longer) u)).rm.slots = s.rm.slots.set i (some longer) := rfl
        have steps (x : Step) : longer.steps.set rd.steps.length x = rd.steps ++ [x] := by simp [longer, List.set_append]
        rw [slots, Table.set_set, steps] at done
        exact done

/-! ### LIFT_DONE (R161 to R163) -/

/-- A container's row once it has been emptied (R75, R161). -/
theorem complete_eq (p : Profile) (f : Fill) : f.complete p =
    { f with lf := 0, i := 0, fill := .low, rise := 0, fall := 0, ref := none, fresh := true, ttf := timeToFull p.fu 0 f.r } := rfl

/-- A container completed, up to its reports: its slots, its row and its service record. -/
def State.completed (r : Row) (lock : LockState) (slots : Table (Option Round) 4) (s : State) : State :=
  { s with
    rm := { s.rm with slots := slots, service := s.rm.service.set r (serviceAfter lock) }
    ft := { s.ft with rows := s.ft.rows.set r { s.ft.rows.get r with fill := (fillOf s r).complete (profileOf s r) } } }

/-- A completion with its reports (R91, R170). -/
def State.completedTold (r : Row) (news : ServiceReport) (s before : State) : State :=
  reportChange r .service before (reevaluate r { s with tp := s.tp.reported (.service news) })

theorem completedTold_blocks (r : Row) (news : ServiceReport) (before s : State) : s.completedTold r news before =
    { s with tp := (s.completedTold r news before).tp, ft := { s.ft with queue := (s.completedTold r news before).ft.queue } } := by
  have blocks := reportChange_tp r .service before (reevaluate r { s with tp := s.tp.reported (.service news) })
  change s.completedTold r news before = _ at blocks
  generalize s.completedTold r news before = t at blocks
  rw [blocks]
  rfl

theorem completedTold_gains (r : Row) (news : ServiceReport) (before s : State) :
    (s.tp.reported (.service news)).Gains (s.completedTold r news before).tp :=
  reportChange_gains r .service before (reevaluate r { s with tp := s.tp.reported (.service news) })

theorem completed_setStep {r : Row} {lock : LockState} {slots : Table (Option Round) 4} {s t : State}
    (slots_ : t = { s with rm := { s.rm with slots := slots } }) :
    setService r (serviceAfter lock) (completeService r t) = s.completed r lock slots := by
  rw [slots_]
  rfl

/-- The SERVICE_REPORT of a completion posted, with the CONTAINER_STATUS after it (R91, R170). -/
theorem completedTold_eq (r : Row) (news : ServiceReport) (s before : State) :
    reportChange r .service before (reevaluate r (postReport (.service news) s)) = s.completedTold r news before := by
  rw [postReport_reported (by simp)]
  rfl

theorem completeLift_of {relay : Station} {vehicle weight : Short} {lock : LockState} {r : Row} {c : ContainerConfig} {i : Fin 4} {k : Nat}
    {rd : Round} {s : State} (slot : s.rm.slots.get i = some rd) :
    let done := s.completed r lock (s.rm.slots.set i (some { rd with
      lastLift := some (s.tk.uptime, c.cluster), steps := rd.steps.modify k (Step.finish weight s.stamp) }))
    completeLift relay vehicle weight lock r c ⟨i, k⟩ s = freeIfClosed i
      ((done.completedTold r (serviceReport .done r c (some ⟨i, k⟩) (some vehicle) (some (weight, lock)) done) s).offered relay
        (.reply .doneAck vehicle (.container c.number))) := by
  intro done
  let lifted := setStep ⟨i, k⟩ (Step.finish weight s.stamp) s
  have made : setService r (serviceAfter lock) (completeService r { lifted with
      rm := { lifted.rm with
        slots := lifted.rm.slots.update i (Option.map fun rd => { rd with lastLift := some (s.tk.uptime, c.cluster) }) } }) = done := by
    refine completed_setStep ?_
    simp only [lifted]
    rw [setStep_eq slot]
    simp only [setSlot, Table.update_eq_set, Table.get_set_self, Option.map_some, Table.set_set]
  rw [← completedTold_eq, ← made, ← sendReply_eq]
  rfl

theorem completeLate_of {relay : Station} {vehicle weight : Short} {lock : LockState} {r : Row} {c : ContainerConfig}
    {held : Option StepRef} {slots : Table (Option Round) 4} {s : State}
    (finished : (match held with
      | some step => setStep step (fun st => { st.finish weight s.stamp with vehicle := some vehicle }) s
      | none => s) = { s with rm := { s.rm with slots := slots } }) :
    let done := s.completed r lock slots
    completeLate relay vehicle weight lock r c held s =
      (done.completedTold r (serviceReport .late r c held (some vehicle) (some (weight, lock)) done) s).offered relay
        (.reply .doneAck vehicle (.container c.number)) := by
  intro done
  have made := completed_setStep (r := r) (lock := lock) finished
  rw [← completedTold_eq]
  simp only [done]
  rw [← made, ← sendReply_eq]
  rfl

/-- The answers of LIFT_DONE that complete nothing (R162). -/
theorem liftDone_known {relay : Station} {vehicle : Short} {n : Number} {weight : Short} {lock : LockState} {r : Row}
    {c : ContainerConfig} {s : State} (container : containerOf s n = some r) (config : configOf s r = some c) :
    liftDone relay vehicle n weight lock s = match serviceOf s r with
      | .held _ held => completeLate relay vehicle weight lock r c held s
      | .service step _ _ =>
        if liftedBy s step vehicle then completeLift relay vehicle weight lock r c step s
        else s.offered relay (.reply (.liftRefuse .otherVehicle) vehicle (.container n))
      | .serviceWait step _ =>
        s.offered relay (.reply (if liftedBy s step vehicle then .liftWait else .liftRefuse .otherVehicle) vehicle (.container n))
      | .inUse =>
        s.offered relay (.reply (if completedBy s vehicle r then .doneAck else .liftRefuse .notOnRound) vehicle (.container n)) := by
  unfold liftDone
  cases service : serviceOf s r <;> simp only [container, config, service, Option.bind_some, Option.map_some, sendReply_eq]

theorem slotWhere_some {s : State} {p : Round → Bool} {i : Fin 4} {rd : Round} (found : slotWhere s p = some (i, rd)) :
    s.rm.slots.get i = some rd ∧ p rd = true := by
  unfold slotWhere at found
  cases search : s.rm.slots.find (fun slot => slot.any p) with
  | none => simp [search] at found
  | some j =>
    have pass := Table.find_some search
    rw [search, Option.bind_some, Option.map_eq_some_iff] at found
    obtain ⟨x, slot, is⟩ := found
    cases is
    exact ⟨slot, by simpa [slot] using pass⟩

/-- The SERVICE_REPORT of a completed step. -/
theorem serviceReport_completed {r : Row} {c : ContainerConfig} {lock : LockState} {slots : Table (Option Round) 4} {i : Fin 4} {k : Nat}
    {rd : Round} {st : Step} {s : State} (slot : slots.get i = some rd) (step : rd.steps[k]? = some st) (outcome : ServiceOutcome)
    (vehicle : Option Short) (carried : Option (Short × LockState)) :
    serviceReport outcome r c (some ⟨i, k⟩) vehicle carried (s.completed r lock slots) =
      { outcome := outcome, number := c.number, row := r, step := some (rd.number, k + 1), origin := some st.origin, vehicle := vehicle,
        before := st.before, carried := carried, service := (serviceAfter lock).name, stamp := s.stamp } := by
  have now : serviceOf (s.completed r lock slots) r = serviceAfter lock := Table.get_set_self ..
  have here : stepAt (s.completed r lock slots) ⟨i, k⟩ = some st := (stepAt_of (s := s.completed r lock slots) slot k).trans step
  have round : (s.completed r lock slots).rm.slots.get i = some rd := slot
  simp only [serviceReport, now, here, round, Option.bind_some, Option.map_some]
  rfl

theorem completed_rows {r : Row} {c : ContainerConfig} {lock : LockState} {slots : Table (Option Round) 4} {s : State}
    (config : configOf s r = some c) : (s.completed r lock slots).ft.rows =
      s.ft.rows.set r { s.ft.rows.get r with fill := { fillOf s r with
        lf := 0, i := 0, fill := .low, rise := 0, fall := 0, ref := none, fresh := true
        ttf := timeToFull (s.ft.profiles.get c.profile).fu 0 (fillOf s r).r } } := by
  have profile : profileOf s r = s.ft.profiles.get c.profile := by rw [profileOf, config]
  rw [State.completed, profile, complete_eq]

theorem name_serviceAfter (lock : LockState) : (serviceAfter lock).name = match lock with
    | .locked => .inUse
    | .unlocked => .held := by
  cases lock <;> rfl

theorem loseStep_serviceAfter (i : Fin 4) (lock : LockState) : (serviceAfter lock).loseStep i = serviceAfter lock := by
  cases lock <;> rfl

theorem liftedBy_of {s : State} {i : Fin 4} {k : Nat} {rd : Round} {st : Step} (slot : s.rm.slots.get i = some rd)
    (step : rd.steps[k]? = some st) (vehicle : Short) : liftedBy s ⟨i, k⟩ vehicle = (st.vehicle == some vehicle) := by
  rw [liftedBy, stepAt_of slot, step]
  rfl

/-- Settles O54. -/
theorem liftDoneCompletes : Obligations.LiftDoneCompletes := by
  intro a flags vehicle n weight lock s running polling awake u outcome reply replied answered
  have turned : outcome = .next (liftDone a vehicle n weight lock u) := by
    simp only [outcome]
    rw [exec_answer (.liftDone vehicle n weight lock) running, loopAnswer_awake polling awake]
    rfl
  have number {r : Row} {c : ContainerConfig} (container : containerOf s n = some r) (config : configOf s r = some c) : c.number = n := by
    obtain ⟨c', config', number⟩ := containerOf_some container
    rw [← number, Option.some.inj (config.symm.trans config')]
  refine ⟨fun unknown => turned.trans (congrArg _ ?_), fun r c i rd k st relay container config slot step => ?_,
    fun r c container config free => ?_, fun r c i rd k st relay start container config service slot step by_ => ?_,
    fun r c cause held container config service => ?_⟩
  · have unknown' : containerOf u n = none := unknown
    unfold liftDone
    simp only [unknown', Option.bind_none]
    exact sendReply_eq ..
  · have known := liftDone_known (relay := a) (vehicle := vehicle) (weight := weight) (lock := lock) (s := u) container config
    have lifted := liftedBy_of (s := u) slot step vehicle
    refine ⟨fun waits same => turned.trans (congrArg _ (known.trans ?_)), fun waits other => turned.trans (congrArg _ (known.trans ?_)),
      fun start serves other => turned.trans (congrArg _ (known.trans ?_))⟩
    · have waits' : serviceOf u r = .serviceWait ⟨i, k⟩ relay := waits
      simp only [waits', lifted, same, beq_self_eq_true, if_true]
      rfl
    · have waits' : serviceOf u r = .serviceWait ⟨i, k⟩ relay := waits
      simp only [waits', lifted, beq_eq_false_iff_ne.mpr other, Bool.false_eq_true, if_false]
      rfl
    · have serves' : serviceOf u r = .service ⟨i, k⟩ relay start := serves
      simp only [serves', lifted, beq_eq_false_iff_ne.mpr other, Bool.false_eq_true, if_false]
      rfl
  · have known := liftDone_known (relay := a) (vehicle := vehicle) (weight := weight) (lock := lock) (s := u) container config
    have free' : serviceOf u r = .inUse := free
    simp only [free'] at known
    refine ⟨fun i rd slot vehicleIs one done => turned.trans (congrArg _ (known.trans ?_)),
      fun none_ => turned.trans (congrArg _ (known.trans ?_))⟩
    · have found : slotWhere u (fun rd => rd.vehicle == vehicle) = some (i, rd) :=
        slotWhere_eq_some (s := u) slot (by simp [vehicleIs]) fun j other here pass => one j other here (by simpa using pass)
      have did : completedBy u vehicle r = true := by
        obtain ⟨st, mem, row, is, who⟩ := done
        rw [completedBy, found]
        exact List.any_eq_true.mpr ⟨st, mem, by simp [row, is, who]⟩
      rw [did]
      rfl
    · have did : completedBy u vehicle r = false := by
        rw [completedBy]
        cases found : slotWhere u (fun rd => rd.vehicle == vehicle) with
        | none => rfl
        | some x =>
          obtain ⟨i, rd⟩ := x
          obtain ⟨slot, pass⟩ := slotWhere_some found
          have vehicleIs : rd.vehicle = vehicle := by simpa using pass
          refine List.any_eq_false.mpr fun st mem => ?_
          have other := none_ i rd slot vehicleIs st mem
          simp only [Bool.and_eq_true, beq_iff_eq, not_and, and_imp]
          exact fun row is => other row is
      rw [did]
      rfl
  · have service' : serviceOf u r = .service ⟨i, k⟩ relay start := service
    have known : liftDone a vehicle n weight lock u = completeLift a vehicle weight lock r c ⟨i, k⟩ u := by
      rw [liftDone_known (s := u) container config]
      simp only [service', liftedBy_of (s := u) slot step vehicle, by_, beq_self_eq_true, if_true]
    let steps := rd.steps.set k { st with state := .done, weight := weight, after := some 0, doneMinute := some s.stamp }
    let round : Round := { rd with lastLift := some (s.tk.uptime, c.cluster), steps := steps }
    let done := u.completed r lock (s.rm.slots.set i (some round))
    let news := serviceReport .done r c (some ⟨i, k⟩) (some vehicle) (some (weight, lock)) done
    let told := (done.completedTold r news u).offered a (reply .doneAck)
    have completion : liftDone a vehicle n weight lock u = freeIfClosed i told := by
      rw [known, completeLift_of (s := u) slot, modify_of_getElem? step, number container config]
      rfl
    have toldIs : told = { done with
        tp := told.tp, ft := { done.ft with queue := told.ft.queue }, slc := u.slc.offered a (reply .doneAck) } := by
      have blocks := completedTold_blocks r news u done
      simp only [told]
      generalize done.completedTold r news u = x at blocks
      rw [blocks]
      rfl
    have toldSlots : told.rm.slots = s.rm.slots.set i (some round) := (congrArg (fun t : State => t.rm.slots) toldIs :)
    have toldSlot : told.rm.slots.get i = some round := by rw [toldSlots]; exact Table.get_set_self ..
    have closed : (round.state = .closing ∧ round.lifting = false) =
        (rd.state = .closing ∧ steps.all (fun x => x.state != .lifting) = true) := by
      rw [Round.lifting, List.any_eq_false, List.all_eq_true]
      simp [round]
    have freed := freeIfClosed_of toldSlot
    simp only [closed] at freed
    have blocks := freeIfClosed_blocks i told
    have reported : news =
        { outcome := .done, number := n, row := r, step := some (rd.number, k + 1), origin := some st.origin,
          vehicle := some vehicle, before := st.before, carried := some (weight, lock), service := (serviceAfter lock).name,
          stamp := s.stamp } := by
      have lt := (List.getElem?_eq_some_iff.mp step).1
      rw [← number container config]
      exact serviceReport_completed (s := u) (rd := round) (Table.get_set_self ..) (List.getElem?_set_self lt) ..
    refine ⟨freeIfClosed i told, turned.trans (congrArg _ completion), ?_, ?_, ?_, ?_, fun room => ?_, ?_, ?_, ?_, ?_, ?_⟩
    · exact (congrArg State.slc blocks :).trans (congrArg State.slc toldIs :)
    · intro steps'
      rw [freed]
      by_cases gone : rd.state = .closing ∧ steps.all (fun x => x.state != .lifting) = true
      · rw [if_pos gone, if_pos gone, freeSlotAt_eq toldSlot]
        change told.rm.slots.set i none = _
        rw [toldSlots, Table.set_set]
      · rw [if_neg gone, if_neg gone, toldSlots]
    · have after : serviceOf told r = serviceAfter lock :=
        (congrArg (fun t : State => t.rm.service.get r) toldIs :).trans (Table.get_set_self ..)
      have now : serviceOf (freeIfClosed i told) r = serviceAfter lock := by
        rcases freeIfClosed_cases i told with same | gone
        · rw [same, after]
        · rw [gone, freeSlotAt_eq toldSlot, serviceOf, Table.get_map]
          exact (congrArg (Service.loseStep i) after).trans (loseStep_serviceAfter i lock)
      rw [now]
      cases lock <;> rfl
    · exact (congrArg (fun t : State => t.ft.rows) blocks :).trans
        ((congrArg (fun t : State => t.ft.rows) toldIs :).trans
          (completed_rows (s := u) (lock := lock) (slots := s.rm.slots.set i (some round)) config))
    · refine (freeIfClosed_gains i told).entries _ ((completedTold_gains r news u done).entries _ ?_)
      rw [reported, name_serviceAfter]
      exact mem_entries_reported (t := s.tp) room _
    · exact (congrArg State.au blocks :).trans (congrArg State.au toldIs :)
    · exact (congrArg State.clu blocks :).trans (congrArg State.clu toldIs :)
    · exact (congrArg State.rmi blocks :).trans (congrArg State.rmi toldIs :)
    · exact (congrArg State.tk blocks :).trans (congrArg State.tk toldIs :)
    · exact (congrArg State.memory blocks :).trans (congrArg State.memory toldIs :)
  · have service' : serviceOf u r = .held cause held := service
    have known : liftDone a vehicle n weight lock u = completeLate a vehicle weight lock r c held u := by
      rw [liftDone_known (s := u) container config]
      simp only [service']
    intro late
    have completes (slots : Table (Option Round) 4) (step : Option (Short × Nat)) (origin : Option Origin) (before : Option Nat)
        (finished : (match held with
          | some step => setStep step (fun st => { st.finish weight u.stamp with vehicle := some vehicle }) u
          | none => u) = { u with rm := { u.rm with slots := slots } })
        (reported : serviceReport .late r c held (some vehicle) (some (weight, lock)) (u.completed r lock slots) =
          { outcome := .late, number := n, row := r, step := step, origin := origin, vehicle := some vehicle, before := before,
            carried := some (weight, lock), service := (serviceAfter lock).name, stamp := s.stamp }) :
        late slots step origin before := by
      let done := u.completed r lock slots
      let news := serviceReport .late r c held (some vehicle) (some (weight, lock)) done
      let told := (done.completedTold r news u).offered a (reply .doneAck)
      have completion : liftDone a vehicle n weight lock u = told := by
        rw [known, completeLate_of finished, number container config]
      have toldIs : told = { done with
          tp := told.tp, ft := { done.ft with queue := told.ft.queue }, slc := u.slc.offered a (reply .doneAck) } := by
        have blocks := completedTold_blocks r news u done
        simp only [told]
        generalize done.completedTold r news u = x at blocks
        rw [blocks]
        rfl
      refine ⟨told, turned.trans (congrArg _ completion), (congrArg State.slc toldIs :), (congrArg (fun t : State => t.rm.slots) toldIs :),
        fun q => ?_, ?_, fun room => ?_, (congrArg State.au toldIs :), (congrArg State.clu toldIs :), (congrArg State.rmi toldIs :),
        (congrArg State.tk toldIs :), (congrArg State.memory toldIs :)⟩
      · refine (congrArg (fun t : State => t.rm.service.get q) toldIs :).trans ((Table.get_set ..).trans ?_)
        cases lock <;> rfl
      · exact (congrArg (fun t : State => t.ft.rows) toldIs :).trans
          (completed_rows (s := u) (lock := lock) (slots := slots) config)
      · refine (completedTold_gains r news u done).entries _ ?_
        rw [show news = _ from reported, name_serviceAfter]
        exact mem_entries_reported (t := s.tp) room _
    refine ⟨fun none_ => ?_, fun i k rd st which slot step => ?_⟩
    · subst none_
      refine completes _ _ _ _ rfl ?_
      have now : serviceOf (u.completed r lock s.rm.slots) r = serviceAfter lock := Table.get_set_self ..
      simp only [serviceReport, now, number container config]
      rfl
    · subst which
      have lt := (List.getElem?_eq_some_iff.mp step).1
      refine completes _ _ _ _ ?_ ?_
      · refine (setStep_eq (s := u) (ref := ⟨i, k⟩) slot _).trans ?_
        rw [modify_of_getElem? step]
        rfl
      · rw [← number container config]
        exact serviceReport_completed (s := u) (st := { st with
          state := .done, weight := weight, after := some 0, doneMinute := some s.stamp, vehicle := some vehicle })
          (Table.get_set_self ..) (List.getElem?_set_self lt) ..

end Sys2Proof.Machine
end

