-- ==== Sys2Proof/Proofs/Port.lean ====
section
/-! Proofs about the port arbiter and the opening of the restore (9.3, 9.6). -/

namespace Sys2Proof.Machine

/-! ### The port arbiter (R176) -/

/-- A card write to a bucket is one whose card's number falls into it (R102, R109). -/
theorem writesBucket_eq (b : Bucket) (body : WriteBody) :
    body.writesBucket b = ((body.card.map fun n => n.toNat % 4096) == some b.val) := by
  have same (n : Number) : (bucketOf n == b) = (some (n.toNat % 4096) == some b.val) := by
    rw [Bool.eq_iff_iff, beq_iff_eq, beq_iff_eq, Option.some.injEq, ← Fin.val_inj]
    rfl
  cases body with
  | cardPut r => exact same r.number
  | cardDrop n => exact same n
  | _ => rfl

theorem grantPort_restoring {s : State} (free : s.rmi.port = none) (restoring : s.rmi.restoring = true) :
    grantPort s = { s with rmi := { s.rmi with port := nextRead s.rmi.progress } } := by
  unfold grantPort
  simp [free, restoring]

theorem grantPort_write {s : State} (free : s.rmi.port = none) (ready : s.rmi.restoring = false) (some_ : s.rmi.queue ≠ [])
    (first : s.rmi.fetchRun = 3 ∨ queuedFetch s = none) : grantPort s = grantWrite s := by
  have waits : s.rmi.queue.isEmpty = false := by simpa using some_
  unfold grantPort
  simp only [free, Option.isSome_none, ready, waits, Bool.false_eq_true, if_false, Bool.not_false, Bool.true_and]
  rcases first with three | none_
  · simp [three]
  · simp [none_]

theorem grantPort_fetch {s : State} {b : Bucket} (free : s.rmi.port = none) (ready : s.rmi.restoring = false)
    (turn : s.rmi.queue = [] ∨ s.rmi.fetchRun ≠ 3) (found : queuedFetch s = some b) : grantPort s = grantFetch b s := by
  have later : (!s.rmi.queue.isEmpty && s.rmi.fetchRun == 3) = false := by
    rcases turn with empty | fewer
    · simp [empty]
    · simp [fewer]
  unfold grantPort
  simp [free, ready, later, found]

theorem queuedFetch_eq_none_iff {s : State} : queuedFetch s = none ↔ ∀ m ∈ s.clu.missList, m.granted = true := by
  simp [queuedFetch]

theorem queuedFetch_split {s : State} {before after : List MissEntry} {m : MissEntry}
    (list : s.clu.missList = before ++ m :: after) (granted : ∀ x ∈ before, x.granted = true) (waits : m.granted = false) :
    queuedFetch s = some m.bucket := by
  have none_ : before.find? (fun e => !e.granted) = none := List.find?_eq_none.mpr fun x hx => by simp [granted x hx]
  rw [queuedFetch, list, List.find?_append, none_]
  simp [waits]

/-- In a list with one entry to a bucket, a change of one bucket's entry is a change of that entry. -/
theorem map_bucket {before after : List MissEntry} {m : MissEntry} (once : ((before ++ m :: after).map (·.bucket)).Nodup)
    (f : MissEntry → MissEntry) :
    (before ++ m :: after).map (fun e => if e.bucket = m.bucket then f e else e) = before ++ f m :: after := by
  simp only [List.map_append, List.map_cons, List.nodup_append, List.nodup_cons, List.mem_map, List.mem_cons] at once
  obtain ⟨-, ⟨notAfter, -⟩, apart⟩ := once
  have same {l : List MissEntry} (other : ∀ e ∈ l, e.bucket ≠ m.bucket) :
      l.map (fun e => if e.bucket = m.bucket then f e else e) = l :=
    (List.map_congr_left fun e he => if_neg (other e he)).trans (List.map_id _)
  rw [List.map_append, List.map_cons, same fun e he h => apart _ ⟨e, he, h⟩ _ (.inl rfl) rfl, same fun e he h => notAfter ⟨e, he, h⟩,
    if_pos rfl]

/-- Settles O32. -/
theorem portArbiterGrants : Obligations.PortArbiterGrants := by
  intro s running free
  refine ⟨fun restoring => ?_, fun e rest ready queue first => ?_, fun before after m ready turn list granted waits once => ?_,
    fun ready empty all => ?_⟩
  · exact (whenRunning_running running).trans (congrArg _ (grantPort_restoring free restoring))
  · refine (whenRunning_running running).trans (congrArg _ ?_)
    rw [grantPort_write free ready (by simp [queue]) (first.imp_right queuedFetch_eq_none_iff.mpr), grantWrite, queue]
  · intro stale
    refine (whenRunning_running running).trans (congrArg _ ?_)
    rw [grantPort_fetch free ready turn (queuedFetch_split list granted waits)]
    have marks : (s.rmi.queue.any fun e => e.body.writesBucket m.bucket) = stale := by simp only [writesBucket_eq, stale]
    have entries := map_bucket (list ▸ once) fun e => { e with granted := true, stale := stale }
    rw [grantFetch, marks, list, entries]
  · refine (whenRunning_running running).trans (congrArg _ ?_)
    unfold grantPort
    simp [free, ready, empty, queuedFetch_eq_none_iff.mpr all]

/-! ### The end of the restore (R185) -/

/-- The RESTORE_REPORT of a restore as it stands. -/
def State.restoreNews (s : State) : Report :=
  .restore { outcome := restoreOutcome s.rmi, header := s.rmi.header, cause := s.rmi.cause, counts := s.rmi.counts, stamp := s.stamp }

/-- What the end of the restore leaves: its report posted, its own write queued, the part READY with its service queue made afresh. -/
theorem endRestore_eq (s : State) : endRestore s = { s with
    tp := s.tp.reported s.restoreNews
    rmi := { s.rmi with
      restoring := false, progress := .ended
      queue := s.rmi.queue ++ (ownDue s.rmi).toList.map fun w => { body := w.body, reply := none, inProgress := false } }
    ft := { s.ft with queue := (endRestore s).ft.queue }
    slc := { s.slc with sinceOpen := 32 } } := by
  have posted := postReport_reported (r := s.restoreNews) (by simp [State.restoreNews]) s
  unfold endRestore
  unfold State.restoreNews at posted
  simp only [posted]
  cases ownDue s.rmi with
  | none => simp [rebuildQueue, State.restoreNews]
  | some w => simp [rebuildQueue, queueOwn, queueWrite, State.restoreNews]

theorem endRestore_queueLaw (s : State) : (endRestore s).queueLaw := by
  unfold endRestore
  exact (queueLaw_rebuildQueue _).of_blocks rfl rfl rfl rfl

/-- The state in which the restore ends without the record memory (R181). -/
def State.memoryMissing (s : State) : State := { s with rmi := { s.rmi with port := none, absent := true } }

theorem endIdentification_of {answer : Option (List Byte)} {failures : Nat} {s : State} (port : s.rmi.port = some .identification)
    (progress : s.rmi.progress = .identify failures) : endIdentification answer s =
      if isIdentified answer then { s with rmi := { s.rmi with port := none, progress := .header } }
      else if failures + 1 < 3 then { s with rmi := { s.rmi with port := none, progress := .identify (failures + 1) } }
      else endRestore s.memoryMissing := by
  unfold endIdentification
  simp only [port, progress]
  rfl

/-! ### The header (R182) -/

theorem endHeader_of {read : MemRead} {s : State} (port : s.rmi.port = some .header) : endHeader read s =
    let memory := (s.memory.access headerAddress recordSize read).1
    let condition := readHeader (s.memory.access headerAddress recordSize read).2
    match condition with
    | .good => { s with memory := memory, rmi := { s.rmi with port := none, header := some .good, progress := .records 0 } }
    | .bad => { s with
        memory := memory, clu := { s.clu with memoryErrors := bump s.clu.memoryErrors 1 }
        rmi := { s.rmi with port := none, header := some .bad, progress := .records 0 } }
    | .foreign => endRestore { s with
        memory := memory, rmi := { s.rmi with port := none, header := some .foreign, counts := allEmpty } }
    | .blank => endRestore { s with
        memory := memory, rmi := { s.rmi with port := none, header := some .blank, counts := allEmpty } } := by
  unfold endHeader
  simp only [port]
  cases readHeader (s.memory.access headerAddress recordSize read).2 <;> rfl

theorem checkAgrees_iff {unit : List Byte} : checkAgrees unit = true ↔ unitSum unit = 0x5A := by simp [checkAgrees]

theorem isErased_iff {unit : List Byte} : isErased unit = true ↔ ∀ b ∈ unit, b = 0xFF := by simp [isErased]

theorem slice_start (unit : List Byte) (n : Nat) : slice unit 0 n = unit.take n := rfl

/-- A unit of 32 erased bytes does not sum to 5Ah. -/
theorem unitSum_erased {unit : List Byte} (length : unit.length = 32) (erased : ∀ b ∈ unit, b = 0xFF) : unitSum unit ≠ 0x5A := by
  rw [List.eq_replicate_of_mem erased, length]
  decide

/-- Settles O33. -/
theorem restoreOpens : Obligations.RestoreOpens := by
  refine ⟨fun failures s running port progress => ?_, fun s running port => ?_⟩
  · have outcome (answer : Option (List Byte)) : exec (.identificationReadComplete answer) s = .next (endIdentification answer s) :=
      whenRunning_running running
    refine ⟨fun first second third more ne0 neF is => ?_, fun answer other few => ?_, fun answer other last => ?_⟩
    · have identified : isIdentified (some (first :: second :: third :: more)) = true := by
        simpa [isIdentified, byteAt_zero, byteAt_succ, is] using ⟨ne0, neF⟩
      rw [outcome, endIdentification_of port progress, if_pos identified]
    · rw [outcome, endIdentification_of port progress, if_neg (by simp [other]), if_pos (by omega)]
    · rw [outcome, endIdentification_of port progress, if_neg (by simp [other]), if_neg (by omega)]
      have ended := endRestore_eq s.memoryMissing
      have none_ : ownDue s.memoryMissing.rmi = none := rfl
      have news : s.memoryMissing.restoreNews = .restore
          { outcome := .memoryAbsent, header := s.rmi.header, cause := s.rmi.cause, counts := s.rmi.counts, stamp := s.stamp } := rfl
      refine ⟨_, rfl, ?_, ?_, ?_, ?_, endRestore_queueLaw _, ?_, fun room => ?_⟩
      · rw [ended]; rfl
      · rw [ended]
      · rw [ended]; rfl
      · rw [ended, none_]; exact List.append_nil _
      · rw [ended]; rfl
      · rw [ended, news]
        exact mem_entries_reported (t := s.tp) room _
  · intro unit
    have length : unit.length = 32 := Memory.length_readBytes _ _ _
    have outcome : exec (.headerReadComplete .asHeld) s = .next (endHeader .asHeld s) := whenRunning_running running
    have ended := endHeader_of (read := .asHeld) port
    have condition : readHeader (s.memory.access headerAddress recordSize .asHeld).2 = readHeader (some unit) := rfl
    simp only [condition] at ended
    refine ⟨fun sum mark => ?_, fun sum ⟨b, mem, ne⟩ => ?_, fun which present => ?_⟩
    · have good : readHeader (some unit) = .good := by
        have written : isErased unit = false := by
          rw [← Bool.not_eq_true, isErased_iff]
          exact fun erased => unitSum_erased length erased sum
        simp only [readHeader, written, checkAgrees_iff.mpr sum, slice_start, mark, formatMark]
        rfl
      rw [outcome, ended, good]
      rfl
    · have bad : readHeader (some unit) = .bad := by
        have written : isErased unit = false := by
          rw [← Bool.not_eq_true, isErased_iff]
          exact fun erased => ne (erased b mem)
        have differs : checkAgrees unit = false := by rw [← Bool.not_eq_true, checkAgrees_iff]; exact sum
        simp [readHeader, written, differs]
      rw [outcome, ended, bad]
      rfl
    · have blankOrForeign : readHeader (some unit) = .blank ∨ readHeader (some unit) = .foreign := by
        rcases which with erased | ⟨sum, mark⟩
        · left
          simp [readHeader, isErased_iff.mpr erased]
        · right
          have written : isErased unit = false := by
            rw [← Bool.not_eq_true, isErased_iff]
            exact fun erased => unitSum_erased length erased sum
          have other : slice unit 0 6 ≠ formatMark := mark
          simp [readHeader, written, checkAgrees_iff.mpr sum, other]
      have formats (condition : HeaderCondition) (due : condition = .blank ∨ condition = .foreign) :
          let opened : State := { s with rmi := { s.rmi with port := none, header := some condition, counts := allEmpty } }
          ∃ t, (.next (endRestore opened) : Host.Outcome State Fault Refusal) = .next t ∧ t.rmi.restoring = false ∧ t.rmi.port = none ∧
            t.rmi.queue = s.rmi.queue ++ [{ body := .format, reply := none, inProgress := false }] ∧
            t.rmi.counts.rows = [1, 16, 192, 62, 16, 8, 8].map (fun n => ⟨0, n, 0⟩) ∧ t.queueLaw ∧ t.memory = s.memory := by
        intro opened
        have blocks := endRestore_eq opened
        have own : ownDue opened.rmi = some .format := by
          have here : opened.rmi.absent = false := present
          unfold ownDue
          rcases due with rfl | rfl <;> simp [here] <;> rfl
        rw [own] at blocks
        exact ⟨_, rfl, (congrArg (fun t : State => t.rmi.restoring) blocks :), (congrArg (fun t : State => t.rmi.port) blocks :),
          (congrArg (fun t : State => t.rmi.queue) blocks :), (congrArg (fun t : State => t.rmi.counts.rows) blocks :),
          endRestore_queueLaw _, (congrArg State.memory blocks :)⟩
      rw [outcome, ended]
      rcases blankOrForeign with blank | foreign
      · rw [blank]
        exact formats .blank (.inl rfl)
      · rw [foreign]
        exact formats .foreign (.inr rfl)

end Sys2Proof.Machine
end

