-- ==== Sys2Proof/Proofs/Restore.lean ====
section
/-! Proofs about the restore's records (9.6): how a unit is classed, what its contents are read as, and what each kind enters. -/

namespace Sys2Proof.Machine

/-! ### Units and their checks (R210) -/

theorem unitSum_append (xs ys : List Byte) : unitSum (xs ++ ys) = unitSum xs + unitSum ys := by
  have shift (l : List Byte) (b : Byte) : l.foldl (· + ·) b = b + l.foldl (· + ·) 0 := by
    induction l generalizing b with
    | nil => simp
    | cons x rest ih =>
      have first : (0 : Byte) + x = x := BitVec.zero_add x
      rw [List.foldl_cons, List.foldl_cons, ih, ih (0 + x), first, BitVec.add_assoc]
  rw [unitSum, List.foldl_append, shift]
  rfl

theorem unitSum_withCheck (bytes : List Byte) : unitSum (withCheck bytes) = 0x5A := by
  rw [withCheck, unitSum_append]
  have last : unitSum [0x5A - unitSum bytes] = 0x5A - unitSum bytes := BitVec.zero_add _
  rw [last, BitVec.add_comm, BitVec.sub_add_cancel]

theorem length_padTo (size : Nat) (bytes : List Byte) : (padTo size bytes).length = size := by
  simp [padTo]
  omega

theorem padTo_of_le {size : Nat} {bytes : List Byte} (le : bytes.length ≤ size) :
    padTo size bytes = bytes ++ List.replicate (size - bytes.length) 0 := by
  rw [padTo, List.take_of_length_le le]

theorem isErased_eq_false_of_sum {unit : List Byte} (length : unit.length = 32) (sum : unitSum unit = 0x5A) : isErased unit = false := by
  rw [← Bool.not_eq_true, isErased_iff]
  exact fun erased => unitSum_erased length erased sum

/-! ### How a record is classed (R183) -/

theorem length_recordUnit (t : RecordTarget) (present : Byte) (contents : List Byte) : (recordUnit t present contents).length = 32 := by
  simp [recordUnit, withCheck, length_padTo]

theorem readRecord_unit (t : RecordTarget) (present : Byte) (contents : List Byte) :
    readRecord t (some (recordUnit t present contents)) =
      if present = 0 then .empty else if present = 1 then .contents (padTo 29 contents) else .bad := by
  have written := isErased_eq_false_of_sum (length_recordUnit t present contents) (unitSum_withCheck _)
  have agrees : checkAgrees (recordUnit t present contents) = true := checkAgrees_iff.mpr (unitSum_withCheck _)
  have kind : byteAt (recordUnit t present contents) 0 = t.kindCode := rfl
  have mark : byteAt (recordUnit t present contents) 1 = present := rfl
  have inside : slice (recordUnit t present contents) 2 29 = padTo 29 contents := by
    rw [recordUnit, withCheck, List.append_assoc]
    refine (slice_append_right (xs := [t.kindCode, present]) (by simp)).trans ?_
    exact slice_append_left (length_padTo 29 contents)
  simp only [readRecord, written, agrees, kind, mark, inside]
  simp

theorem readRecord_erased {t : RecordTarget} {unit : List Byte} (erased : ∀ b ∈ unit, b = 0xFF) :
    readRecord t (some unit) = .empty := by
  simp [readRecord, isErased_iff.mpr erased]

theorem readRecord_differs {t : RecordTarget} {unit : List Byte} (written : ∃ b ∈ unit, b ≠ 0xFF) (sum : unitSum unit ≠ 0x5A) :
    readRecord t (some unit) = .bad := by
  have notErased : isErased unit = false := by
    obtain ⟨b, mem, ne⟩ := written
    rw [← Bool.not_eq_true, isErased_iff]
    exact fun erased => ne (erased b mem)
  have differs : checkAgrees unit = false := by rw [← Bool.not_eq_true, checkAgrees_iff]; exact sum
  simp [readRecord, notErased, differs]

theorem readRecord_foreign {t : RecordTarget} {unit : List Byte} (length : unit.length = 32) (sum : unitSum unit = 0x5A)
    (wrong : (unit.getD 0 0).toNat ≠ t.kind.val + 1 ∨ 1 < (unit.getD 1 0).toNat) : readRecord t (some unit) = .bad := by
  have written := isErased_eq_false_of_sum length sum
  have agrees := checkAgrees_iff.mpr sum
  have code : t.kindCode.toNat = t.kind.val + 1 := by
    have := t.kind.isLt
    rw [RecordTarget.kindCode, BitVec.toNat_ofNat]
    omega
  unfold readRecord
  simp only [written, agrees, Bool.false_eq_true, if_false, Bool.not_true]
  by_cases kind : byteAt unit 0 = t.kindCode
  · have mark : 1 < (byteAt unit 1).toNat := wrong.resolve_left fun h => h ((congrArg BitVec.toNat kind).trans code)
    have not0 : byteAt unit 1 ≠ 0 := fun h => by rw [h] at mark; exact absurd mark (by decide)
    have not1 : byteAt unit 1 ≠ 1 := fun h => by rw [h] at mark; exact absurd mark (by decide)
    rw [if_neg (not_not.mpr kind), if_neg not0, if_neg not1]
  · simp [kind]

/-! ### The contents of each kind (11.4), with what fills the record behind them -/

theorem fieldAt_append {xs : List Byte} {i k : Nat} (inside : i + k ≤ xs.length) (rest : List Byte) :
    fieldAt (xs ++ rest) i k = fieldAt xs i k := by
  simp [fieldAt, slice, List.drop_append, List.take_append, Nat.sub_eq_zero_of_le (by omega : i ≤ xs.length)]
  rw [Nat.sub_eq_zero_of_le (by omega)]
  simp

theorem byteAt_append {xs : List Byte} {i : Nat} (inside : i < xs.length) (rest : List Byte) : byteAt (xs ++ rest) i = byteAt xs i := by
  simp [byteAt, List.getElem?_append_left inside]

theorem profileFields_read {p : Profile} (n : p.n ≤ 65535) (fu : p.fu ≤ 65535) (o : p.o ≤ 65535) (h : p.h ≤ 65535) (d : p.d ≤ 255)
    (k : p.k ≤ 255) (increment : p.increment ≤ 255) : profileFields (padTo 29 (profileBytes p)) = p := by
  have two {m : Nat} (h : m ≤ 65535) : m < 256 ^ 2 := by omega
  have one {m : Nat} (h : m ≤ 255) : m < 256 ^ 1 := by omega
  rw [padTo_of_le (by simp [profileBytes])]
  simp only [profileFields, profileBytes, List.append_assoc]
  simp [fieldAt_later, fieldAt_here (two n), fieldAt_here (two fu), fieldAt_here (two o), fieldAt_here (two h), fieldAt_here (one d),
    fieldAt_here (one k), fieldAt_here (one increment)]

theorem windowFields_read {w : Window} (start : w.start ≤ 65535) (stop : w.stop ≤ 65535) :
    windowFields (padTo 29 (windowBytes w)) = w := by
  have fits {m : Nat} (h : m ≤ 65535) : m < 256 ^ 2 := by omega
  rw [padTo_of_le (by simp [windowBytes])]
  simp [windowFields, windowBytes, byteAt_zero, byteAt_succ, fieldAt_cons, fieldAt_here (fits start), fieldAt_later,
    fieldAt_here (fits stop), byteAt_later]

theorem stationFields_read (serial : Option Serial) (pinned : Bool) :
    stationFields (padTo 29 (stationBytes serial pinned)) = (serial, pinned) := by
  have length := length_stationBytes serial pinned
  rw [padTo_of_le (by omega), stationFields, byteAt_append (by omega), byteAt_append (by omega), fieldAt_append (by omega)]
  exact stationFields_stationBytes serial pinned

/-- R81's checks of a container's fields. -/
def ContainerConfig.sound (c : ContainerConfig) : Prop :=
  c.number ≠ 0 ∧ c.number ≠ 0xFFFFFFFF ∧ 100 ≤ c.full ∧ c.empty ≤ 6000 ∧ c.full + 200 ≤ c.empty

theorem containerFields_read {c : ContainerConfig} (empty : c.empty ≤ 65535) (full : c.full ≤ 65535) :
    (c.sound → containerFields (padTo 29 (containerBytes c)) = some c) ∧
      (¬c.sound → containerFields (padTo 29 (containerBytes c)) = none) := by
  have two {m : Nat} (h : m ≤ 65535) : m < 256 ^ 2 := by omega
  have legal : (validNumber c.number = true ∧ 100 ≤ c.full ∧ c.empty ≤ 6000 ∧ c.full + 200 ≤ c.empty) ↔ c.sound := by
    rw [validNumber_iff, ContainerConfig.sound, and_assoc]
  have read : containerFields (padTo 29 (containerBytes c)) =
      if validNumber c.number = true ∧ 100 ≤ c.full ∧ c.empty ≤ 6000 ∧ c.full + 200 ≤ c.empty then some c else none := by
    rw [padTo_of_le (by simp [containerBytes])]
    simp [containerFields, containerBytes, fieldAt_later, byteAt_later, byteAt_zero, numberAt_here,
      fieldAt_here (addressOf_fits c.station), fieldAt_here (fin_fits (k := 1) c.bay (by decide)),
      fieldAt_here (fin_fits (k := 1) c.fraction (by decide)), fieldAt_here (fin_fits (k := 1) c.cluster (by decide)),
      fieldAt_here (fin_fits (k := 1) c.profile (by decide)), fieldAt_here (two empty), fieldAt_here (two full), station?_addressOf,
      index?_val]
  rw [read]
  exact ⟨fun sound => if_pos (legal.mpr sound), fun other => if_neg (legal.not.mpr other)⟩

/-- Container bytes with a field that names no address, bay, fraction, cluster or profile. -/
theorem containerFields_outside {b : List Byte} (length : b.length = 14) (outside : (b.getD 4 0).toNat = 0 ∨ 62 < (b.getD 4 0).toNat ∨
    3 < (b.getD 5 0).toNat ∨ 7 < (b.getD 6 0).toNat ∨ 63 < (b.getD 7 0).toNat ∨ 15 < (b.getD 8 0).toNat) :
    containerFields (padTo 29 b) = none := by
  have one {i : Nat} (h : i < b.length) : fieldAt (padTo 29 b) i 1 = (b.getD i 0).toNat := by
    rw [padTo_of_le (by omega), fieldAt_append (by omega), fieldAt, slice, List.drop_eq_getElem_cons h]
    simp only [List.take_succ_cons, List.take_zero, natOf, List.foldl_cons, List.foldl_nil, Nat.zero_mul, Nat.zero_add]
    simp [h]
  have index {n m : Nat} (h : n ≤ m) : index? n m = none := by simp [index?, Nat.not_lt.mpr h]
  unfold containerFields
  rw [one (by omega : 4 < b.length), one (by omega : 5 < b.length), one (by omega : 6 < b.length), one (by omega : 7 < b.length),
    one (by omega : 8 < b.length)]
  rcases outside with zero | far | bay | fraction | cluster | profile
  · rw [station?_eq_none (.inl zero)]; rfl
  · rw [station?_eq_none (.inr far)]; rfl
  · rw [index (by omega : 4 ≤ (b.getD 5 0).toNat)]; cases station? (b.getD 4 0).toNat <;> rfl
  · rw [index (by omega : 8 ≤ (b.getD 6 0).toNat)]
    cases station? (b.getD 4 0).toNat <;> cases index? 4 (b.getD 5 0).toNat <;> rfl
  · rw [index (by omega : 64 ≤ (b.getD 7 0).toNat)]
    cases station? (b.getD 4 0).toNat <;> cases index? 4 (b.getD 5 0).toNat <;> cases index? 8 (b.getD 6 0).toNat <;> rfl
  · rw [index (by omega : 16 ≤ (b.getD 8 0).toNat)]
    cases station? (b.getD 4 0).toNat <;> cases index? 4 (b.getD 5 0).toNat <;> cases index? 8 (b.getD 6 0).toNat <;>
      cases index? 64 (b.getD 7 0).toNat <;> rfl

/-! ### The parameter record -/

theorem fieldAt_flatMap {α : Type} {f : α → Nat} : ∀ {l : List α}, (∀ x ∈ l, f x ≤ 65535) → ∀ rest : List Byte,
    ((List.range l.length).map fun i => fieldAt (l.flatMap (fun x => bytesOf 2 (f x)) ++ rest) (2 * i) 2) = l.map f
  | [], _, _ => rfl
  | x :: l, fits, rest => by
    have first : f x < 256 ^ 2 := by have := fits x List.mem_cons_self; omega
    have later := fieldAt_flatMap (l := l) (fun y hy => fits y (List.mem_cons_of_mem _ hy)) rest
    rw [List.length_cons, List.range_succ_eq_map, List.map_cons, List.map_map, List.map_cons, ← later]
    simp only [List.flatMap_cons, List.append_assoc, Nat.mul_zero, fieldAt_here first]
    refine congrArg _ (List.map_congr_left fun i _ => ?_)
    rw [Function.comp, fieldAt_later (by simp)]
    simp [Nat.mul_add]

theorem Params.ext_get {p q : Params} (same : ∀ i, p.get i = q.get i) : p = q := by
  cases p with | _ p1 p2 p3 p4 p5 p6 p7 p8 p9 p10 p11 p12 p13 p14 =>
  cases q with | _ q1 q2 q3 q4 q5 q6 q7 q8 q9 q10 q11 q12 q13 q14 =>
  have h1 : p1 = q1 := same .refillMinute
  have h2 : p2 = q2 := same .openSlotSpacing
  have h3 : p3 = q3 := same .streakLimit
  have h4 : p4 = q4 := same .retryLimit
  have h5 : p5 = q5 := same .missLimit
  have h6 : p6 = q6 := same .rejoinLimit
  have h7 : p7 = q7 := same .stableClearTime
  have h8 : p8 = q8 := same .faultCount
  have h9 : p9 = q9 := same .staleWindow
  have h10 : p10 = q10 := same .horizon
  have h11 : p11 = q11 := same .decisionLimit
  have h12 : p12 = q12 := same .closeLimit
  have h13 : p13 = q13 := same .serviceLimit
  have h14 : p14 = q14 := same .summaryInterval
  subst_vars
  rfl

theorem enter_all (q p : Params) : q.enter (ParamId.all.map fun i => (i, p.get i)) = p := by
  have once : ((ParamId.all.map fun i => (i, p.get i)).map (·.1)).Nodup := by
    rw [List.map_map]
    exact (by decide : (ParamId.all.map id).Nodup)
  have found (i : ParamId) : ParamId.all.find? (fun j => j == i) = some i := by cases i <;> rfl
  refine Params.ext_get fun i => ?_
  rw [Params.get_enter once, List.find?_map]
  exact congrArg (fun o => ((Option.map (fun j => (j, p.get j)) o).map (·.2)).getD (q.get i)) (found i)

/-- The parameter record as it is read (R183). -/
theorem paramsOf_read {p : Params} (fits : ∀ i, p.get i ≤ 65535) :
    ((∀ i : ParamId, i.range.1 ≤ p.get i ∧ p.get i ≤ i.range.2) → paramsOf (padTo 29 (paramsBytes p)) = some p) ∧
      ((∃ i : ParamId, p.get i < i.range.1 ∨ i.range.2 < p.get i) → paramsOf (padTo 29 (paramsBytes p)) = none) := by
  have size : (paramsBytes p).length ≤ 29 := by simp [paramsBytes, ParamId.all]
  have values : ((List.range 14).map fun i => fieldAt (padTo 29 (paramsBytes p)) (2 * i) 2) = ParamId.all.map p.get := by
    rw [padTo_of_le size]
    exact fieldAt_flatMap (f := p.get) (fun i _ => fits i) _
  have pairs : ParamId.all.zip (ParamId.all.map p.get) = ParamId.all.map fun i => (i, p.get i) :=
    List.map_prod_left_eq_zip.symm
  have read : paramsOf (padTo 29 (paramsBytes p)) =
      if (ParamId.all.map fun i => (i, p.get i)).all (fun v => v.1.inRange v.2) then some p else none := by
    simp only [paramsOf, values, pairs, enter_all]
  refine ⟨fun inside => read.trans (if_pos ?_), fun ⟨i, outside⟩ => read.trans (if_neg fun all => ?_)⟩
  · rw [List.all_map, List.all_eq_true]
    intro i _
    simpa [ParamId.inRange] using inside i
  · rw [List.all_map, List.all_eq_true] at all
    have here := all i (mem_paramIds i)
    simp only [Function.comp, ParamId.inRange, Bool.and_eq_true, decide_eq_true_eq] at here
    omega

/-! ### The end of a record's read (R183, R184) -/

/-- A record whose read has ended, counted under its kind, the next due. -/
def RecordMemory.counted (n : Nat) (kind : Fin 7) (f : RecordCounts → RecordCounts) (u : RecordMemory) : RecordMemory :=
  { u with port := none, progress := .records (n + 1), counts := u.counts.update kind f }

/-- A record counted bad, with its memory error. -/
def State.recordBad (n : Nat) (kind : Fin 7) (s : State) : State := { s with
  clu := { s.clu with memoryErrors := min 65535 (s.clu.memoryErrors + 1) }
  rmi := s.rmi.counted n kind fun c => { c with bad := c.bad + 1 } }

theorem endRecord_of {n : Nat} {t : RecordTarget} {s : State} (port : s.rmi.port = some .record) (progress : s.rmi.progress = .records n)
    (target : targetAt n = some t) (more : n < 302) : endRecord .asHeld s =
      let u := takeRecord t (some (s.memory.readBytes (32 + 32 * n) 32)) (freePort s)
      { u with rmi := { u.rmi with progress := .records (n + 1) } } := by
  unfold endRecord
  simp only [port, progress, target]
  rw [if_pos (by simp [Config.imageRecords]; omega)]
  rfl

/-- A record's outcome, by what it is read as. -/
theorem endRecord_read {n : Nat} {t : RecordTarget} {s : State} (port : s.rmi.port = some .record) (progress : s.rmi.progress = .records n)
    (target : targetAt n = some t) (more : n < 302) :
    let read := readRecord t (some (s.memory.readBytes (32 + 32 * n) 32))
    (read = .empty → endRecord .asHeld s =
      { s with rmi := s.rmi.counted n t.kind fun c => { c with empty := c.empty + 1 } }) ∧
    (read = .bad → endRecord .asHeld s = s.recordBad n t.kind) ∧
    (∀ b, read = .contents b → loadRecord t b (freePort s) = none → endRecord .asHeld s = s.recordBad n t.kind) ∧
    (∀ b u, read = .contents b → loadRecord t b (freePort s) = some u → u.rmi = (freePort s).rmi → endRecord .asHeld s =
      { u with rmi := s.rmi.counted n t.kind fun c => { c with loaded := c.loaded + 1 } }) := by
  intro read
  rw [endRecord_of port progress target more]
  unfold takeRecord
  refine ⟨fun is => ?_, fun is => ?_, fun b is none_ => ?_, fun b u is loaded rmi => ?_⟩
  · simp only [read] at is
    simp only [is]
    rfl
  · simp only [read] at is
    simp only [is]
    rfl
  · simp only [read] at is
    simp only [is, none_]
    rfl
  · simp only [read] at is
    simp only [is, loaded, countRecord, rmi]
    rfl

/-! ### The record at each place (R183) -/

theorem targetAt_profile (k : Fin 16) : targetAt (1 + k.val) = some (.profile k) := by
  unfold targetAt
  rw [if_neg (by omega), if_pos (by omega), Nat.add_sub_cancel_left, index?_val]
  rfl

theorem targetAt_container (r : Row) : targetAt (17 + r.val) = some (.container r) := by
  unfold targetAt
  rw [if_neg (by omega), if_neg (by omega), if_pos (by omega), Nat.add_sub_cancel_left, index?_val]
  rfl

theorem targetAt_station (a : Station) : targetAt (209 + a.val) = some (.station a) := by
  unfold targetAt
  rw [if_neg (by omega), if_neg (by omega), if_neg (by omega), if_pos (by omega), Nat.add_sub_cancel_left, index?_val]
  rfl

theorem targetAt_window (k : Fin 16) : targetAt (271 + k.val) = some (.window k) := by
  unfold targetAt
  rw [if_neg (by omega), if_neg (by omega), if_neg (by omega), if_neg (by omega), if_pos (by omega), Nat.add_sub_cancel_left, index?_val]
  rfl

theorem targetAt_cls (k : Fin 8) : targetAt (287 + k.val) = some (.cls k) := by
  unfold targetAt
  rw [if_neg (by omega), if_neg (by omega), if_neg (by omega), if_neg (by omega), if_neg (by omega), if_pos (by omega),
    Nat.add_sub_cancel_left, index?_val]
  rfl

theorem targetAt_cost (k : Fin 8) : targetAt (295 + k.val) = some (.cost k) := by
  unfold targetAt
  rw [if_neg (by omega), if_neg (by omega), if_neg (by omega), if_neg (by omega), if_neg (by omega), if_neg (by omega),
    Nat.add_sub_cancel_left, index?_val]
  rfl

/-! ### What each kind enters (R183) -/

/-- A row that holds the record's number or its station and bay. -/
def State.places (s : State) (c : ContainerConfig) : Prop :=
  ∃ q d, configOf s q = some d ∧ (d.number = c.number ∨ (d.station = c.station ∧ d.bay = c.bay))

theorem held_iff_places {s : State} {c : ContainerConfig} :
    ((containerOf s c.number).isSome || (containerAt s c.station c.bay.val).isSome) = true ↔ s.places c := by
  constructor
  · intro held
    rcases Bool.or_eq_true _ _ |>.mp held with number | place
    · obtain ⟨q, found⟩ := Option.isSome_iff_exists.mp number
      obtain ⟨d, config, same⟩ := containerOf_some found
      exact ⟨q, d, config, .inl same⟩
    · obtain ⟨q, found⟩ := Option.isSome_iff_exists.mp place
      obtain ⟨d, config, station, bay⟩ := containerAt_some found
      exact ⟨q, d, config, .inr ⟨station, Fin.ext bay⟩⟩
  · rintro ⟨q, d, config, same⟩
    by_contra free
    simp only [Bool.or_eq_true, Option.isSome_iff_ne_none, not_or, not_not, ne_eq] at free
    obtain ⟨number, place⟩ := free
    rcases same with same | ⟨station, bay⟩
    · exact containerOf_eq_none_iff.mp number q d config same
    · exact containerAt_eq_none_iff.mp place q d config ⟨station, congrArg Fin.val bay⟩

theorem bindStation_rows (a : Station) (s : State) : (bindStation a s).slc.rows = s.slc.rows.update a fun row =>
    { row with state := if row.state = .unbound then .absent else row.state } := by
  refine Table.ext_get fun b => ?_
  rw [bindStation_row]
  by_cases here : b = a
  · subst here
    by_cases unbound : (s.slc.rows.get b).state = .unbound <;> simp [unbound]
  · simp [here]

theorem loadRecord_container {r : Row} {b : List Byte} {s : State} :
    (∀ c, containerFields b = some c → ¬s.places c → loadRecord (.container r) b s = some { s with
      ft := { s.ft with rows := s.ft.rows.set r { s.ft.rows.get r with config := some c } }
      slc := { s.slc with rows := s.slc.rows.update c.station fun row =>
        { row with state := if row.state = .unbound then .absent else row.state } } }) ∧
    (∀ c, containerFields b = some c → s.places c → loadRecord (.container r) b s = none) ∧
    (containerFields b = none → loadRecord (.container r) b s = none) := by
  refine ⟨fun c read free => ?_, fun c read taken => ?_, fun read => ?_⟩
  · unfold loadRecord
    simp only [read]
    rw [if_neg (held_iff_places.not.mpr free), bindStation_eq, bindStation_rows]
    rfl
  · unfold loadRecord
    simp only [read]
    exact if_pos (held_iff_places.mpr taken)
  · unfold loadRecord
    simp only [read]

theorem loadRecord_station {a : Station} {b : List Byte} {serial : Option Serial} {pinned : Bool} {s : State}
    (read : stationFields b = (serial, pinned)) :
    (¬(serial.isSome = true ∧ ∃ b, b ≠ a ∧ (s.slc.rows.get b).serial = serial) → loadRecord (.station a) b s = some { s with
      slc := { s.slc with rows := s.slc.rows.set a { s.slc.rows.get a with
        serial := serial, pinned := pinned
        state := if serial.isSome = true ∧ (s.slc.rows.get a).state = .unbound then .absent else (s.slc.rows.get a).state } } }) ∧
    ((serial.isSome = true ∧ ∃ b, b ≠ a ∧ (s.slc.rows.get b).serial = serial) → loadRecord (.station a) b s = none) := by
  refine ⟨fun alone => ?_, fun ⟨some_, other, ne, same⟩ => ?_⟩
  · have free : serialElsewhere s a serial = false :=
      serialElsewhere_eq_false fun other ne some_ same => alone ⟨some_, other, ne, same⟩
    unfold loadRecord
    simp only [read, free]
    cases serial with
    | none => simp [setStation, Table.update_eq_set]
    | some n =>
      cases state : (s.slc.rows.get a).state <;>
        simp [bindStation, setStation, Table.update_eq_set, state]
  · have held : serialElsewhere s a serial = true := by
      simp only [serialElsewhere, some_, Bool.true_and, List.any_eq_true]
      exact ⟨other, List.mem_finRange other, by simp [ne, same]⟩
    unfold loadRecord
    simp only [read, held]
    rfl

theorem loadRecord_cost {k : Fin 8} {cost : Nat} (low : cost ≤ 255) {s : State} :
    loadRecord (.cost k) (padTo 29 (bytesOf 1 cost)) s = some { s with au := { s.au with costs := s.au.costs.set k cost } } := by
  have read : fieldAt (padTo 29 (bytesOf 1 cost)) 0 1 = cost := by
    rw [padTo_of_le (by simp)]
    exact fieldAt_here (by omega) _
  simp only [loadRecord, read]

/-! ### The outcome of a record's read (R183, R184) -/

section
variable {n : Nat} {t : RecordTarget} {s : State} (running : s.hold = .running) (port : s.rmi.port = some .record)
  (progress : s.rmi.progress = .records n) (target : targetAt n = some t) (more : n < 302)
include running port progress target more

theorem recordRead_empty (empty : readRecord t (some (s.memory.readBytes (32 + 32 * n) 32)) = .empty) :
    exec (.restoreRecordReadComplete .asHeld) s =
      .next { s with rmi := s.rmi.counted n t.kind fun c => { c with empty := c.empty + 1 } } :=
  (whenRunning_running running).trans (congrArg _ ((endRecord_read port progress target more).1 empty))

theorem recordRead_bad (bad : readRecord t (some (s.memory.readBytes (32 + 32 * n) 32)) = .bad) :
    exec (.restoreRecordReadComplete .asHeld) s = .next (s.recordBad n t.kind) :=
  (whenRunning_running running).trans (congrArg _ ((endRecord_read port progress target more).2.1 bad))

theorem recordRead_refused {b : List Byte} (unit : s.memory.readBytes (32 + 32 * n) 32 = recordUnit t 1 b)
    (refused : loadRecord t (padTo 29 b) (freePort s) = none) :
    exec (.restoreRecordReadComplete .asHeld) s = .next (s.recordBad n t.kind) := by
  have read := (endRecord_read port progress target more).2.2.1 (padTo 29 b) (by rw [unit, readRecord_unit]; rfl) refused
  exact (whenRunning_running running).trans (congrArg _ read)

theorem recordRead_loaded {b : List Byte} {u : State} (unit : s.memory.readBytes (32 + 32 * n) 32 = recordUnit t 1 b)
    (loaded : loadRecord t (padTo 29 b) (freePort s) = some u) (rmi : u.rmi = (freePort s).rmi) :
    exec (.restoreRecordReadComplete .asHeld) s =
      .next { u with rmi := s.rmi.counted n t.kind fun c => { c with loaded := c.loaded + 1 } } := by
  have read := (endRecord_read port progress target more).2.2.2 (padTo 29 b) u (by rw [unit, readRecord_unit]; rfl) loaded rmi
  exact (whenRunning_running running).trans (congrArg _ read)

end

theorem profileRead_loaded {n : Nat} {s : State} (running : s.hold = .running) (port : s.rmi.port = some .record)
    (progress : s.rmi.progress = .records n) (more : n < 302) {k : Fin 16} {p : Profile} (place : n = 1 + k.val)
    (valid : profileValid p = true) (unit : s.memory.readBytes (32 + 32 * n) 32 = recordUnit (.profile k) 1 (profileBytes p)) :
    exec (.restoreRecordReadComplete .asHeld) s = .next { s with
      ft := { s.ft with profiles := s.ft.profiles.set k p }
      rmi := s.rmi.counted n 1 fun c => { c with loaded := c.loaded + 1 } } := by
  have read : profileFields (padTo 29 (profileBytes p)) = p := by
    have bounds := valid
    simp only [profileValid, Bool.and_eq_true, decide_eq_true_eq] at bounds
    obtain ⟨⟨⟨debounce, weight⟩, increment⟩, low, near, full, top⟩ := bounds
    apply profileFields_read <;> omega
  refine recordRead_loaded (t := .profile k) running port progress (place ▸ targetAt_profile k) more unit
    (u := { freePort s with ft := { s.ft with profiles := s.ft.profiles.set k p } }) ?_ rfl
  unfold loadRecord
  simp only [read, valid]
  rfl

/-! ### The last record (R183, R185) -/

/-- A class cost is entered whatever its bytes are, so its read changes the cost and the counts alone. -/
theorem takeRecord_cost (k : Fin 8) (bytes : Option (List Byte)) (s : State) : ∃ costs errors counts,
    takeRecord (.cost k) bytes s = { s with
      au := { s.au with costs := costs }, clu := { s.clu with memoryErrors := errors }, rmi := { s.rmi with counts := counts } } := by
  unfold takeRecord
  cases read : readRecord (.cost k) bytes <;> simp only [read] <;> exact ⟨_, _, _, rfl⟩

/-- The state in which the restore ends, its last record entered. -/
def State.lastEntered (read : MemRead) (costs : Table Nat 8) (errors : Nat) (counts : Table RecordCounts 7) (s : State) : State := { s with
  memory := (s.memory.access 9696 32 read).1
  au := { s.au with costs := costs }
  clu := { s.clu with memoryErrors := errors }
  rmi := { s.rmi with port := none, counts := counts, progress := .records 303 } }

theorem lastRecord_read {s : State} (running : s.hold = .running) (port : s.rmi.port = some .record)
    (progress : s.rmi.progress = .records 302) (read : MemRead) : exec (.restoreRecordReadComplete read) s = .next
      (let u := takeRecord (.cost 7) (s.memory.access 9696 32 read).2 (freePort { s with memory := (s.memory.access 9696 32 read).1 })
      endRestore (settleBinding { u with rmi := { u.rmi with progress := .records 303 } })) := by
  refine (whenRunning_running running).trans (congrArg _ ?_)
  unfold endRecord
  simp only [port, progress]
  rfl

/-- Every row as the end of the restore leaves it (R35). -/
theorem settleBinding_spec (s : State) : (∃ rows, settleBinding s = { s with slc := { s.slc with rows := rows } }) ∧
    ∀ a, (settleBinding s).slc.rows.get a = { s.slc.rows.get a with state := if isBound s a then .absent else .unbound } := by
  have walk := foldl_pointwise (get := fun (t : State) a => t.slc.rows.get a)
    (f := fun t a => setStation a (fun r => { r with state := if isBound t a then .absent else .unbound }) t)
    (g := fun a (row : StationRow) => { row with state := if isBound s a then .absent else .unbound })
    (keep := fun t => (∃ rows, t = { s with slc := { s.slc with rows := rows } }) ∧
      ∀ a, (t.slc.rows.get a).serial = (s.slc.rows.get a).serial)
    (fun t a ⟨⟨rows, is⟩, serials⟩ => by
      have bound : isBound t a = isBound s a := by
        have rowsOf : boundTo t a = boundTo s a := by rw [is]; rfl
        rw [isBound, isBound, serials, rowsOf]
      refine ⟨⟨⟨_, by rw [is]; rfl⟩, fun b => ?_⟩, fun b => ?_⟩
      · rw [← serials b]
        by_cases here : b = a
        · subst here; simp [setStation]
        · simp [setStation, here]
      · by_cases here : b = a
        · subst here; simp [setStation, bound]
        · simp [setStation, here])
    (List.nodup_finRange 62) (s := s) ⟨⟨_, rfl⟩, fun _ => rfl⟩
  obtain ⟨⟨kept, _⟩, rows⟩ := walk
  exact ⟨kept, fun a => (rows a).trans (if_pos (List.mem_finRange a))⟩

/-! ### The obligation -/

/-- Settles O34: each record is read back as it was encoded and entered by its kind, and the last one ends the restore. -/
theorem restoreRecords : Obligations.RestoreRecords := by
  unfold Obligations.RestoreRecords
  refine ⟨?_, ?_, ?_⟩
  · intro n s running port progress more unit
    refine ⟨fun k p place valid same => profileRead_loaded running port progress more place valid same,
      fun t target erased => recordRead_empty running port progress target more (readRecord_erased erased),
      fun t target written sum => recordRead_bad running port progress target more (readRecord_differs written sum)⟩
  · intro n s running port progress more unit outcome counted loaded bad
    refine ⟨?_, ?_, ?_, ?_, ?_, ?_, ?_, ?_, ?_, ?_⟩
    · intro p place same fits
      subst place
      obtain ⟨inside, outside⟩ := paramsOf_read fits
      refine ⟨fun legal => ?_, fun illegal => ?_⟩
      · refine recordRead_loaded (t := .parameter) running port progress rfl more same
          (u := { freePort s with tp := { s.tp.withEffective p with written := p } }) ?_ rfl
        simp only [loadRecord, inside legal]
        rfl
      · refine recordRead_refused (t := .parameter) running port progress rfl more same ?_
        simp only [loadRecord, outside illegal]
        rfl
    · intro k p place same h1 h2 h3 h4 h5 h6 h7 invalid
      refine recordRead_refused (t := .profile k) running port progress (place ▸ targetAt_profile k) more same ?_
      simp only [loadRecord, profileFields_read h1 h2 h3 h4 h5 h6 h7, invalid]
      rfl
    · intro r c place same empty full legal taken
      obtain ⟨enters, held, outside⟩ := loadRecord_container (r := r) (b := padTo 29 (containerBytes c)) (s := freePort s)
      obtain ⟨sound, unsound⟩ := containerFields_read empty full
      have target : targetAt n = some (.container r) := place ▸ targetAt_container r
      refine ⟨fun isLegal free => ?_, fun fails => recordRead_refused running port progress target more same ?_⟩
      · exact recordRead_loaded running port progress target more same (enters c (sound isLegal) free) rfl
      · by_cases isLegal : legal
        · exact held c (sound isLegal) (fails.resolve_left (not_not.mpr isLegal))
        · exact outside (unsound isLegal)
    · intro r b place length same wrong
      have target : targetAt n = some (.container r) := place ▸ targetAt_container r
      exact recordRead_refused running port progress target more same
        (loadRecord_container.2.2 (containerFields_outside length wrong))
    · intro a serial pinned place same taken
      have target : targetAt n = some (.station a) := place ▸ targetAt_station a
      obtain ⟨enters, refused⟩ := loadRecord_station (a := a) (s := freePort s) (stationFields_read serial pinned)
      exact ⟨fun free => recordRead_loaded running port progress target more same (enters free) rfl,
        fun held => recordRead_refused running port progress target more same (refused held)⟩
    · intro k w place same start stop
      have target : targetAt n = some (.window k) := place ▸ targetAt_window k
      have read := windowFields_read start stop
      refine ⟨fun low high => ?_, fun outside => ?_⟩
      · have valid : windowValid w = true := by simp [windowValid, low, high]
        refine recordRead_loaded running port progress target more same
          (u := { freePort s with au := { s.au with windows := s.au.windows.set k w } }) ?_ rfl
        simp only [loadRecord, read, valid]
        rfl
      · have invalid : windowValid w = false := by
          simp only [windowValid, Bool.and_eq_false_iff, decide_eq_false_iff_not]
          omega
        refine recordRead_refused running port progress target more same ?_
        simp only [loadRecord, read, invalid]
        rfl
    · intro k c place same
      have target : targetAt n = some (.cls k) := place ▸ targetAt_cls k
      refine recordRead_loaded running port progress target more same
        (u := { freePort s with au := { s.au with classes := s.au.classes.set k c } }) ?_ rfl
      have read : classFields (byteAt (padTo 29 [classByte c]) 0) = c := classFields_classByte c
      simp only [loadRecord, read]
      rfl
    · intro k cost place low same
      have target : targetAt n = some (.cost k) := place ▸ targetAt_cost k
      exact recordRead_loaded running port progress target more same (loadRecord_cost low) rfl
    · intro t contents target same
      refine recordRead_empty running port progress target more ?_
      rw [show s.memory.readBytes (32 + 32 * n) 32 = recordUnit t 0 contents from same, readRecord_unit]
      rfl
    · intro t target sum wrong
      exact recordRead_bad running port progress target more (readRecord_foreign (Memory.length_readBytes _ _ _) sum wrong)
  · intro read s running port progress present header
    obtain ⟨costs, errors, counts, taken⟩ :=
      takeRecord_cost 7 (s.memory.access 9696 32 read).2 (freePort { s with memory := (s.memory.access 9696 32 read).1 })
    let entered : State := s.lastEntered read costs errors counts
    have outcome : exec (.restoreRecordReadComplete read) s = .next (endRestore (settleBinding entered)) := by
      rw [lastRecord_read running port progress read, taken]
      rfl
    obtain ⟨⟨rows, settled⟩, states⟩ := settleBinding_spec entered
    have blocks := endRestore_eq (settleBinding entered)
    have bound (a : Station) : ((endRestore (settleBinding entered)).slc.rows.get a).state =
        if isBound s a then .absent else .unbound :=
      (congrArg (fun t : State => (t.slc.rows.get a).state) blocks).trans (congrArg StationRow.state (states a))
    have kept : endRestore (settleBinding entered) = { s.lastEntered read costs errors counts with
        tp := (endRestore (settleBinding entered)).tp, rmi := (endRestore (settleBinding entered)).rmi
        ft := { s.ft with queue := (endRestore (settleBinding entered)).ft.queue }
        slc := (endRestore (settleBinding entered)).slc } := by
      rw [blocks, settled]
      rfl
    have port' : (settleBinding entered).rmi = entered.rmi := by rw [settled]
    have tp' : (settleBinding entered).tp = s.tp := by rw [settled]; rfl
    have rmi := (congrArg State.rmi blocks :)
    have news : (settleBinding entered).restoreNews = .restore
        { outcome := .imageLoaded, header := s.rmi.header, cause := s.rmi.cause, counts := counts, stamp := s.stamp } := by
      have imageLoaded : restoreOutcome entered.rmi = .imageLoaded := by
        unfold restoreOutcome
        rw [show entered.rmi.absent = false from present, show entered.rmi.header = s.rmi.header from rfl]
        rcases header with good | bad
        · rw [good]; rfl
        · rw [bad]; rfl
      rw [State.restoreNews, port', imageLoaded, settled]
      rfl
    have own : (ownDue entered.rmi).toList.map (fun w => ({ body := w.body, reply := none, inProgress := false } : WriteEntry)) =
        if s.rmi.header = some .bad then [{ body := .header, reply := none, inProgress := false }] else [] := by
      unfold ownDue
      rw [show entered.rmi.absent = false from present, show entered.rmi.header = s.rmi.header from rfl]
      rcases header with good | bad
      · rw [good]; rfl
      · rw [bad]; rfl
    rw [port'] at rmi
    refine ⟨_, outcome, (congrArg RecordMemory.restoring rmi :), (congrArg RecordMemory.port rmi :), bound, endRestore_queueLaw _, ?_, ?_,
      (congrArg (fun t : State => t.ft.rows) kept :), (congrArg (fun t : State => t.ft.profiles) kept :), (congrArg State.rm kept :),
      (congrArg State.tk kept :), ?_⟩
    · rw [← own]
      exact (congrArg RecordMemory.queue rmi :)
    · intro room
      have counted : (endRestore (settleBinding entered)).rmi.counts = counts := (congrArg RecordMemory.counts rmi :)
      have posted : (endRestore (settleBinding entered)).tp = s.tp.reported (settleBinding entered).restoreNews := by
        rw [← tp']
        exact (congrArg State.tp blocks :)
      rw [counted, posted, news]
      exact mem_entries_reported room _
    · intro cost low asHeld same
      have loads : readRecord (.cost 7) (s.memory.access 9696 32 read).2 = .contents (padTo 29 (bytesOf 1 cost)) := by
        rw [asHeld, show (s.memory.access 9696 32 .asHeld).2 = some (recordUnit (.cost 7) 1 (bytesOf 1 cost)) from congrArg some same,
          readRecord_unit]
        rfl
      unfold takeRecord at taken
      simp only [loads, loadRecord_cost low, countRecord] at taken
      have costs' : s.au.costs.set 7 cost = costs := (congrArg (fun t : State => t.au.costs) taken :)
      have counts' : (s.rmi.counts.update 6 fun c => { c with loaded := c.loaded + 1 }) = counts :=
        (congrArg (fun t : State => t.rmi.counts) taken :)
      rw [costs', counts']
      exact ⟨(congrArg State.au kept :), (congrArg RecordMemory.counts rmi :)⟩

end Sys2Proof.Machine
end

