-- ==== Sys2Proof/Proofs/Writes.lean ====
section
/-! Proofs about the end of the write queue's operations (9.2, 6.4): what a write leaves on the device, and what it answers. -/

namespace Sys2Proof.Machine

/-! ### Reading after writing -/

theorem Memory.readBytes_congr {m m' : Memory} : ∀ {size a : Nat}, (∀ k, k < size → m'.read (a + k) = m.read (a + k)) →
    m'.readBytes a size = m.readBytes a size
  | 0, _, _ => rfl
  | size + 1, a, same => by
    have later := Memory.readBytes_congr (m := m) (m' := m') (size := size) (a := a + 1) fun k lt => by
      rw [Nat.add_assoc, Nat.add_comm 1 k]
      exact same (k + 1) (by omega)
    have first : m'.read a = m.read a := same 0 (by omega)
    rw [Memory.readBytes, Memory.readBytes, later, first]

theorem Memory.drop_readBytes (m : Memory) : ∀ (i size a : Nat), (m.readBytes a size).drop i = m.readBytes (a + i) (size - i)
  | 0, _, _ => rfl
  | i + 1, 0, _ => by simp [Memory.readBytes]
  | i + 1, size + 1, a => by
    rw [Memory.readBytes, List.drop_succ_cons, Memory.drop_readBytes m i size (a + 1), Nat.succ_sub_succ]
    congr 1
    omega

theorem Memory.take_readBytes (m : Memory) : ∀ (k size a : Nat), k ≤ size → (m.readBytes a size).take k = m.readBytes a k
  | 0, _, _, _ => by simp [Memory.readBytes]
  | k + 1, size + 1, a, le => by
    rw [Memory.readBytes, Memory.readBytes, List.take_succ_cons, Memory.take_readBytes m k size (a + 1) (by omega)]

theorem Memory.slice_readBytes (m : Memory) {a i k size : Nat} (inside : i + k ≤ size) :
    slice (m.readBytes a size) i k = m.readBytes (a + i) k := by
  rw [slice, Memory.drop_readBytes, Memory.take_readBytes m _ _ _ (by omega)]

/-- An address lies outside a unit. -/
def MemUnit.misses (u : MemUnit) (a : Nat) : Prop := a < u.address ∨ u.address + u.bytes.length ≤ a

/-- Two units share no byte. -/
def MemUnit.apart (u v : MemUnit) : Prop := u.address + u.bytes.length ≤ v.address ∨ v.address + v.bytes.length ≤ u.address

theorem Memory.read_writeUnits_outside {a : Nat} : ∀ {units : List MemUnit} {m : Memory}, (∀ u ∈ units, u.misses a) →
    (m.writeUnits units).read a = m.read a
  | [], _, _ => rfl
  | u :: units, m, outside => by
    have later := Memory.read_writeUnits_outside (units := units) (m := m.writeBytes u.address u.bytes)
      fun v mem => outside v (List.mem_cons_of_mem _ mem)
    exact later.trans (Memory.read_writeBytes_outside (outside u List.mem_cons_self))

/-- Each of several units that share no byte reads back as it was written. -/
theorem Memory.readBytes_writeUnits : ∀ {units : List MemUnit} {m : Memory}, m.wf = true → units.Pairwise MemUnit.apart → ∀ u ∈ units,
    (m.writeUnits units).readBytes u.address u.bytes.length = u.bytes
  | v :: units, m, wf, apart, u, mem => by
    obtain ⟨here, later⟩ := List.pairwise_cons.mp apart
    have wf' := Memory.writeBytes_wf (bytes := v.bytes) wf v.address
    rcases List.mem_cons.mp mem with rfl | mem
    · have kept : ((m.writeBytes u.address u.bytes).writeUnits units).readBytes u.address u.bytes.length =
          (m.writeBytes u.address u.bytes).readBytes u.address u.bytes.length :=
        Memory.readBytes_congr fun k lt => Memory.read_writeUnits_outside fun w other => by
          rcases here w other with before | after
          · exact .inl (by omega)
          · exact .inr (by omega)
      exact kept.trans (Memory.readBytes_writeBytes wf)
    · exact Memory.readBytes_writeUnits wf' later u mem

theorem Memory.writeUnits_one (m : Memory) (u : MemUnit) : m.writeUnits [u] = m.writeBytes u.address u.bytes := rfl

theorem Memory.writeCut_one (m : Memory) (u : MemUnit) (r : Residue) : m.writeCut [u] r =
    m.writeBytes u.address (if r.completed = 0 then r.left.take u.bytes.length else u.bytes) := by
  rcases Nat.eq_zero_or_pos r.completed with zero | pos
  · simp [Memory.writeCut, zero, Memory.writeUnits]
  · have all : (r.completed - 1).succ = r.completed := by omega
    rw [if_neg (by omega), Memory.writeCut, ← all]
    simp [Memory.writeUnits]

/-! ### The end of an entry (R175, R178) -/

theorem activeWrite_of {s : State} {e : WriteEntry} {rest : List WriteEntry} (port : s.rmi.port = some .write)
    (queue : s.rmi.queue = e :: rest) : activeWrite s = some e := by
  unfold activeWrite
  rw [port, queue]
  rfl

theorem applyParams_tp (values : List (ParamId × Nat)) (s : State) :
    (applyParams values s).tp = s.tp.withEffective (s.tp.effective.enter values) := by rw [applyParams_blocks]

theorem applyParams_rmi (values : List (ParamId × Nat)) (s : State) : (applyParams values s).rmi = s.rmi := by rw [applyParams_blocks]

@[simp] theorem replyWrite_rmi (reply : Option ReplyTo) (status : Status) (detail : Detail) (s : State) :
    (replyWrite reply status detail s).rmi = s.rmi := by cases reply <;> rfl

/-- The end of an entry, when none is owed (R175). -/
def State.writeEnded (rest : List WriteEntry) (s : State) : State := { s with rmi := { s.rmi with port := none, queue := rest } }

theorem endWrite_last {s : State} {e : WriteEntry} {rest : List WriteEntry} (queue : s.rmi.queue = e :: rest)
    (remake : s.rmi.remake = none) : endWrite s = s.writeEnded rest := by
  rw [endWrite_plain remake, State.writeEnded]
  simp [queue]

/-- A record write with its accesses made. -/
theorem endRecordWrite_of {s : State} {target : RecordTarget} {contents : List Byte} {values : List (ParamId × Nat)}
    {reply : Option ReplyTo} {busy : Bool} {rest : List WriteEntry} (port : s.rmi.port = some .write)
    (queue : s.rmi.queue = { body := .record target contents values, reply := reply, inProgress := busy } :: rest) (write : MemWrite) :
    endRecordWrite write s =
      let made := s.memory.perform [{ address := recordAddress target.imageIndex, bytes := contents }] write
      let u : State := { s with memory := made.1 }
      replyWrite reply (if made.2 then .ok else .memoryFault) (.persisted false)
        (applyParams values (endWrite (if made.2 then u else countErrors 1 u))) := by
  unfold endRecordWrite
  rw [activeWrite_of port queue]
  rfl

/-- The REPLY of a record write, its values entered. -/
theorem recordWrite_answered {s : State} {rest : List WriteEntry} {values : List (ParamId × Nat)} {who : ReplyTo} {status : Status}
    {memory : Memory} {clu : CardLookup} :
    replyWrite (some who) status (.persisted false) (applyParams values (State.writeEnded rest { s with memory := memory, clu := clu })) =
      { applyParams values { s with memory := memory, clu := clu, rmi := { s.rmi with port := none, queue := rest } } with
        tp := { (applyParams values s).tp with reserved := s.tp.reserved - 1 }.enqueue (.reply who.kind who.tag status (.persisted false)) } := by
  unfold replyWrite queueReply
  simp only [applyParams_tp]
  rfl

/-- Settles O37: the record's one unit is written, or what is left of it, and the entry's end answers the command. -/
theorem recordWriteCompletes : Obligations.RecordWriteCompletes := by
  unfold Obligations.RecordWriteCompletes
  intro target contents values who busy rest s running port remake queue freed
  refine ⟨⟨_, (whenRunning_running running).trans (congrArg _ (endRecordWrite_of port queue .done)), ?_⟩, fun left =>
    ⟨_, (whenRunning_running running).trans (congrArg _ (endRecordWrite_of port queue _)), ?_⟩⟩
  · refine Eq.trans ?_ (recordWrite_answered (clu := s.clu))
    exact congrArg (fun u => replyWrite (some who) .ok (.persisted false) (applyParams values u)) (endWrite_last queue remake)
  · refine Eq.trans ?_ recordWrite_answered
    exact congrArg (fun u => replyWrite (some who) .memoryFault (.persisted false) (applyParams values u)) (endWrite_last queue remake)

/-! ### The part's own writes (R182) -/

theorem targetAt_some {i : Nat} (lt : i < 303) : ∃ t, targetAt i = some t := by
  have index {m k : Nat} (lt : k < m) : index? m k = some ⟨k, lt⟩ := by simp [index?, lt]
  unfold targetAt
  split_ifs
  · exact ⟨_, rfl⟩
  all_goals
    rw [index (by omega)]
    exact ⟨_, rfl⟩

/-- The records of an image format, in image order. -/
def formatRecords : List MemUnit :=
  (List.range Config.imageRecords).filterMap fun i => (targetAt i).map fun t => { address := recordAddress i, bytes := emptyRecord t }

theorem formatUnits_eq : formatUnits = formatRecords ++ [{ address := headerAddress, bytes := headerUnit }] := rfl

theorem mem_formatRecords {u : MemUnit} : u ∈ formatRecords ↔
    ∃ i t, i < 303 ∧ targetAt i = some t ∧ u = { address := recordAddress i, bytes := emptyRecord t } := by
  simp only [formatRecords, List.mem_filterMap, List.mem_range, Option.map_eq_some_iff]
  exact ⟨fun ⟨i, lt, t, target, is⟩ => ⟨i, t, lt, target, is.symm⟩, fun ⟨i, t, lt, target, is⟩ => ⟨i, lt, t, target, is.symm⟩⟩

theorem length_formatRecords : formatRecords.length = 303 := by
  rw [formatRecords, List.length_filterMap_eq_countP]
  refine (List.countP_eq_length.mpr fun i mem => ?_).trans List.length_range
  obtain ⟨t, target⟩ := targetAt_some (List.mem_range.mp mem)
  simp [target]

theorem length_emptyRecord (t : RecordTarget) : (emptyRecord t).length = 32 := length_recordUnit t 0 []

theorem length_headerUnit : headerUnit.length = 32 := by simp [headerUnit, withCheck, length_padTo]

theorem readHeader_headerUnit : readHeader (some headerUnit) = .good := by decide

theorem formatUnits_apart : formatUnits.Pairwise MemUnit.apart := by
  rw [formatUnits_eq, List.pairwise_append]
  refine ⟨?_, List.pairwise_singleton _ _, fun u mem v last => ?_⟩
  · refine List.Pairwise.filterMap _ (fun i j lt u hu v hv => ?_) List.pairwise_lt_range
    obtain ⟨t, _, rfl⟩ := Option.map_eq_some_iff.mp hu
    obtain ⟨t', _, rfl⟩ := Option.map_eq_some_iff.mp hv
    left
    simp only [length_emptyRecord, recordAddress, recordSize]
    omega
  · obtain ⟨i, t, _, _, rfl⟩ := mem_formatRecords.mp mem
    obtain rfl := List.mem_singleton.mp last
    right
    simp only [length_headerUnit, recordAddress, recordSize, headerAddress]
    omega

/-- A record of an image format lies behind the header and inside the image. -/
theorem formatRecord_inside {u : MemUnit} (mem : u ∈ formatRecords) : 32 ≤ u.address ∧ u.address + u.bytes.length ≤ 0x2600 := by
  obtain ⟨i, t, lt, _, rfl⟩ := mem_formatRecords.mp mem
  simp only [length_emptyRecord, recordAddress, recordSize]
  omega

/-- The units that one of the part's own writes makes. -/
def OwnWrite.units : OwnWrite → List MemUnit
  | .header => [{ address := headerAddress, bytes := headerUnit }]
  | .format => formatUnits

theorem OwnWrite.units_body (kind : OwnWrite) (m : Memory) : kind.body.units m = kind.units := by cases kind <;> rfl

/-- The entry of one of the part's own writes (R182). -/
def OwnWrite.entry (kind : OwnWrite) (busy : Bool) : WriteEntry := { body := kind.body, reply := none, inProgress := busy }

theorem endOwnWrite_done {kind : OwnWrite} {busy : Bool} {rest : List WriteEntry} {s : State} (remake : s.rmi.remake = none)
    (queue : s.rmi.queue = kind.entry busy :: rest) : endOwnWrite kind (kind.entry busy) .done s =
      { s with memory := s.memory.writeUnits kind.units, rmi := { s.rmi with port := none, queue := rest } } := by
  unfold endOwnWrite performEntry
  rw [OwnWrite.entry, OwnWrite.units_body]
  exact endWrite_last (s := { s with memory := s.memory.writeUnits kind.units }) queue remake

/-- A failed one of the part's own writes, before it is remade. -/
def State.ownFailed (kind : OwnWrite) (r : Residue) (s : State) : State := { s with
  memory := s.memory.writeCut kind.units r, clu := { s.clu with memoryErrors := min 65535 (s.clu.memoryErrors + 1) } }

theorem endOwnWrite_failed {kind : OwnWrite} {busy : Bool} {r : Residue} {s : State} :
    endOwnWrite kind (kind.entry busy) (.failed r) s =
      if s.rmi.queue.length < 8 then endWrite (queueOwn kind (s.ownFailed kind r))
      else { endWrite (s.ownFailed kind r) with
        rmi := { (endWrite (s.ownFailed kind r)).rmi with remake := some { kind := kind, due := false } } } := by
  unfold endOwnWrite performEntry
  rw [OwnWrite.entry, OwnWrite.units_body]
  rfl

theorem endOwnWrite_remade {kind : OwnWrite} {busy : Bool} {rest : List WriteEntry} {r : Residue} {s : State}
    (remake : s.rmi.remake = none) (queue : s.rmi.queue = kind.entry busy :: rest) (room : rest.length < 7) :
    endOwnWrite kind (kind.entry busy) (.failed r) s = State.writeEnded (rest ++ [kind.entry false]) (s.ownFailed kind r) := by
  rw [endOwnWrite_failed, if_pos (by rw [queue, List.length_cons]; omega)]
  refine (endWrite_last (s := queueOwn kind (s.ownFailed kind r)) (e := kind.entry busy) (rest := rest ++ [kind.entry false]) ?_ remake).trans rfl
  exact congrArg (· ++ [kind.entry false]) queue

theorem endOwnWrite_owed {kind : OwnWrite} {busy : Bool} {rest : List WriteEntry} {r : Residue} {s : State}
    (remake : s.rmi.remake = none) (queue : s.rmi.queue = kind.entry busy :: rest) (full : rest.length = 7) :
    endOwnWrite kind (kind.entry busy) (.failed r) s = { s.ownFailed kind r with
      rmi := { s.rmi with port := none, queue := rest, remake := some { kind := kind, due := false } } } := by
  have ended : endWrite (s.ownFailed kind r) = State.writeEnded rest (s.ownFailed kind r) := endWrite_last queue remake
  rw [endOwnWrite_failed, if_neg (by rw [queue, List.length_cons]; omega), ended]
  rfl

/-- The completion of one of the part's own writes. -/
def OwnWrite.completes (write : MemWrite) : OwnWrite → Instr
  | .header => .headerWriteComplete write
  | .format => .imageFormatComplete write

theorem exec_ownWrite {kind : OwnWrite} {busy : Bool} {rest : List WriteEntry} {s : State} (running : s.hold = .running)
    (port : s.rmi.port = some .write) (queue : s.rmi.queue = kind.entry busy :: rest) (write : MemWrite) :
    exec (kind.completes write) s = .next (endOwnWrite kind (kind.entry busy) write s) := by
  have active := activeWrite_of port queue
  cases kind with
  | header =>
    refine (whenRunning_running running).trans (congrArg _ ?_)
    unfold endHeaderWrite
    rw [active]
    rfl
  | format =>
    refine (whenRunning_running running).trans (congrArg _ ?_)
    unfold endFormat
    rw [active]
    rfl

/-! ### A write that makes an owed entry (R182) -/

theorem endCardWrite_ends {read : MemRead} {write : MemWrite} {s : State} {e : WriteEntry} {rest : List WriteEntry}
    (port : s.rmi.port = some .write) (queue : s.rmi.queue = e :: rest) (card : e.body.bucket.isSome = true) :
    ∃ status detail u, u.rmi = s.rmi ∧ endCardWrite read write s = replyWrite e.reply status detail (endWrite u) := by
  obtain ⟨b, bucket⟩ := Option.isSome_iff_exists.mp card
  simp only [endCardWrite, activeWrite_of port queue, bucket, finishCardWrite]
  split
  · exact ⟨_, _, _, by rfl, rfl⟩
  · split
    · exact ⟨_, _, _, by rfl, rfl⟩
    · split
      · exact ⟨_, _, _, by rfl, rfl⟩
      · exact ⟨_, _, _, by rfl, rfl⟩

theorem endRecordWrite_ends {write : MemWrite} {s : State} {e : WriteEntry} {rest : List WriteEntry}
    (port : s.rmi.port = some .write) (queue : s.rmi.queue = e :: rest)
    (record : ∃ target contents values, e.body = .record target contents values) :
    ∃ u, u.rmi = s.rmi ∧ (endRecordWrite write s).rmi = (endWrite u).rmi := by
  obtain ⟨target, contents, values, body⟩ := record
  obtain ⟨_, reply, busy⟩ := e
  subst body
  rw [endRecordWrite_of port queue write]
  generalize s.memory.perform [{ address := recordAddress target.imageIndex, bytes := contents }] write = made
  refine ⟨if made.2 then { s with memory := made.1 } else countErrors 1 { s with memory := made.1 }, by split <;> rfl, ?_⟩
  simp only [replyWrite_rmi, applyParams_rmi]

theorem endWrite_remakes {kind : OwnWrite} {due : Bool} {s u : State} {e : WriteEntry} {rest : List WriteEntry} (same : u.rmi = s.rmi)
    (queue : s.rmi.queue = e :: rest) (room : rest.length < 8) (remake : s.rmi.remake = some { kind := kind, due := due }) :
    (endWrite u).rmi = { s.rmi with port := none, remake := none, queue := rest ++ [kind.entry false] } := by
  have tail : u.rmi.queue.tail = rest := by rw [same, queue]; rfl
  rw [endWrite_owed (s := u) (by rw [same]; exact remake) (by rw [tail]; exact room)]
  rw [tail, same]
  rfl

/-- What a header write leaves on the device (R182). -/
theorem headerWrite_memory {m : Memory} (wf : m.wf = true) :
    readHeader (some ((m.writeUnits (OwnWrite.units .header)).readBytes 0 32)) = .good ∧
      ∀ a, 32 ≤ a → (m.writeUnits (OwnWrite.units .header)).read a = m.read a := by
  have one : m.writeUnits (OwnWrite.units .header) = m.writeBytes headerAddress headerUnit :=
    m.writeUnits_one { address := headerAddress, bytes := headerUnit }
  have back := Memory.readBytes_writeBytes (bytes := headerUnit) (a := headerAddress) wf
  rw [length_headerUnit] at back
  rw [one]
  refine ⟨(congrArg (fun b => readHeader (some b)) back).trans readHeader_headerUnit, fun a behind => ?_⟩
  exact Memory.read_writeBytes_outside (.inr (by rw [length_headerUnit]; exact behind))

/-- What an image format leaves on the device (R182). -/
theorem imageFormat_memory {m : Memory} (wf : m.wf = true) :
    readHeader (some ((m.writeUnits (OwnWrite.units .format)).readBytes 0 32)) = .good ∧
      (∀ i t, i < 303 → targetAt i = some t →
        readRecord t (some ((m.writeUnits (OwnWrite.units .format)).readBytes (32 + 32 * i) 32)) = .empty) ∧
      ∀ a, 0x002600 ≤ a → (m.writeUnits (OwnWrite.units .format)).read a = m.read a := by
  have units : OwnWrite.units .format = formatRecords ++ [{ address := headerAddress, bytes := headerUnit }] := rfl
  have back := Memory.readBytes_writeUnits wf formatUnits_apart
  rw [formatUnits_eq] at back
  rw [units]
  refine ⟨?_, fun i t lt target => ?_, fun a behind => ?_⟩
  · have header := back { address := headerAddress, bytes := headerUnit } (List.mem_append_right _ List.mem_cons_self)
    rw [length_headerUnit] at header
    exact (congrArg (fun b => readHeader (some b)) header).trans readHeader_headerUnit
  · have record := back { address := recordAddress i, bytes := emptyRecord t }
      (List.mem_append_left _ (mem_formatRecords.mpr ⟨i, t, lt, target, rfl⟩))
    rw [length_emptyRecord] at record
    exact (congrArg (fun b => readRecord t (some b)) record).trans ((readRecord_unit t 0 []).trans (if_pos rfl))
  · refine Memory.read_writeUnits_outside fun u mem => ?_
    rcases List.mem_append.mp mem with record | header
    · obtain ⟨_, inside⟩ := formatRecord_inside record
      exact .inr (by omega)
    · rw [List.mem_singleton.mp header]
      exact .inr (by rw [length_headerUnit]; simp only [headerAddress]; omega)

/-- An image format that has not reached the header leaves it (R182). -/
theorem imageFormat_cut {m : Memory} {r : Residue} (short : r.completed < 303) (a : Nat) (low : a < 32) :
    (m.writeCut (OwnWrite.units .format) r).read a = m.read a := by
  have units : OwnWrite.units .format = formatRecords ++ [{ address := headerAddress, bytes := headerUnit }] := rfl
  have missed {u : MemUnit} (mem : u ∈ formatRecords) : u.misses a := .inl (by have := (formatRecord_inside mem).1; omega)
  have written := Memory.read_writeUnits_outside (m := m) (units := formatRecords.take r.completed) (a := a)
    fun u mem => missed (List.mem_of_mem_take mem)
  rw [Memory.writeCut, units, List.take_append_of_le_length (by rw [length_formatRecords]; omega),
    List.drop_append_of_le_length (by rw [length_formatRecords]; omega)]
  cases remaining : formatRecords.drop r.completed with
  | nil => exact absurd (List.drop_eq_nil_iff.mp remaining) (by rw [length_formatRecords]; omega)
  | cons u later =>
    have record : u ∈ formatRecords := List.mem_of_mem_drop (remaining ▸ List.mem_cons_self)
    have short : (r.left.take u.bytes.length).length ≤ u.bytes.length := List.length_take_le _ _
    exact (Memory.read_writeBytes_outside ((missed record).imp id fun after => by omega)).trans written

/-- Settles O38: the units of each own write read back, and its failures are remade at once, owed, or made with a later end. -/
theorem ownWritesComplete : Obligations.OwnWritesComplete := by
  unfold Obligations.OwnWritesComplete
  refine ⟨?_, ?_, ?_, ?_, ?_, ?_, ?_⟩
  · intro busy rest s running port remake queue wf
    have ended := (exec_ownWrite (kind := .header) running port queue .done).trans
      (congrArg _ (endOwnWrite_done (kind := .header) remake queue))
    obtain ⟨header, kept⟩ := headerWrite_memory wf
    refine ⟨_, ended, ?_⟩
    dsimp only
    exact ⟨header, kept, rfl⟩
  · intro busy rest s running port remake queue wf
    have ended := (exec_ownWrite (kind := .format) running port queue .done).trans
      (congrArg _ (endOwnWrite_done (kind := .format) remake queue))
    obtain ⟨header, records, kept⟩ := imageFormat_memory wf
    refine ⟨_, ended, ?_⟩
    dsimp only
    exact ⟨header, records, kept, rfl⟩
  · intro busy rest r s running port remake queue room
    exact ⟨_, (exec_ownWrite (kind := .header) running port queue _).trans
      (congrArg _ (endOwnWrite_remade (kind := .header) remake queue room)), rfl, rfl⟩
  · intro busy rest r s running port remake queue room
    exact ⟨_, (exec_ownWrite (kind := .format) running port queue _).trans
      (congrArg _ (endOwnWrite_remade (kind := .format) remake queue room)), rfl, rfl, imageFormat_cut⟩
  · intro kind busy rest r s running port remake full queue
    have ended := (exec_ownWrite (kind := kind) running port queue (.failed r)).trans
      (congrArg _ (endOwnWrite_owed remake queue full))
    cases kind <;> exact ⟨_, ended, rfl, rfl⟩
  · intro kind due c e rest s running port queue room remake which
    rcases which with ⟨⟨read, write, rfl⟩, card⟩ | ⟨⟨write, rfl⟩, record⟩
    · obtain ⟨status, detail, u, same, ends⟩ := endCardWrite_ends (read := read) (write := write) port queue card
      refine ⟨_, whenRunning_running running, ?_⟩
      rw [ends, replyWrite_rmi, endWrite_remakes same queue room remake]
      rfl
    · obtain ⟨u, same, ends⟩ := endRecordWrite_ends (write := write) port queue record
      refine ⟨_, whenRunning_running running, ?_⟩
      rw [ends, endWrite_remakes same queue room remake]
      rfl
  · intro kind s running
    refine ⟨fun idle => (whenRunning_running running).trans (congrArg _ (remakeOwn_idle fun w is => ?_)), fun due room => ?_⟩
    · rcases idle with none_ | waiting
      · rw [none_] at is; cases is
      · rw [waiting] at is; cases is
    · exact (whenRunning_running running).trans (congrArg _ (remakeOwn_made due room))

end Sys2Proof.Machine
end

