-- ==== Sys2Proof/Proofs/Slots.lean ====
section
/-! Proofs about the card writes (6.4): the slots of a bucket as the device holds them, and what CARD_PUT and CARD_DROP make of them. -/

namespace Sys2Proof.Machine

/-! ### Slots as read (R103) -/

theorem readSlot_freeSlot : readSlot freeSlot = .free := by decide

theorem length_freeSlot : freeSlot.length = 16 := rfl

theorem length_slotOf (r : CardRecord) : (slotOf r).length = 16 := by simp [slotOf, withCheck]

theorem readSlot_slotOf {r : CardRecord} (valid : validNumber r.number = true) (expiry : ∀ d ∈ r.expiry, d ≤ 65535)
    (start : ∀ d ∈ r.start, d ≤ 65535) : readSlot (slotOf r) = .card r := by
  have sum : unitSum (slotOf r) = 0x5A := unitSum_withCheck _
  have written : isErased (slotOf r) = false := by
    rw [← Bool.not_eq_true, isErased_iff]
    intro erased
    rw [List.eq_replicate_of_mem erased, length_slotOf] at sum
    exact absurd sum (by decide)
  have number : numberAt (slotOf r) 0 = r.number := by
    simp only [slotOf, withCheck, List.append_assoc]
    exact numberAt_here r.number _
  have fields : cardFields (slotOf r) = some r := by
    have back := cardFields_slotOf valid expiry start [0x5A - unitSum ((slotOf r).take 15)]
    rw [take_slotOf r]
    exact back
  have notFree : ¬r.number = 0 := (validNumber_iff.mp valid).1
  unfold readSlot
  simp only [written, checkAgrees_iff.mpr sum, number, notFree, fields]
  simp

theorem heldSlots_get (m : Memory) (b : Bucket) {i : Nat} (lt : i < 4) :
    (heldSlots m b)[i]? = some (readSlot (m.readBytes (slotAddress b i) 16)) := by
  have inside : slice (m.readBytes (bucketAddress b) 64) (slotSize * i) slotSize = m.readBytes (slotAddress b i) 16 :=
    m.slice_readBytes (by simp only [slotSize]; omega)
  simp [heldSlots, readBucket, lt, inside]

theorem length_heldSlots (m : Memory) (b : Bucket) : (heldSlots m b).length = 4 := by simp [heldSlots, readBucket]

/-! ### Slots written -/

/-- What writes to distinct slots of a bucket leave. -/
theorem slots_written {m : Memory} {b : Bucket} {ws : List (Nat × List Byte)} (wf : m.wf = true) (once : (ws.map (·.1)).Nodup)
    (fits : ∀ w ∈ ws, w.1 < 4 ∧ w.2.length = 16) :
    (∀ w ∈ ws, (heldSlots (m.writeUnits (slotUnits b ws)) b)[w.1]? = some (readSlot w.2)) ∧
    (∀ j, j < 4 → j ∉ ws.map (·.1) → ∀ k, k < 16 →
      (m.writeUnits (slotUnits b ws)).read (slotAddress b j + k) = m.read (slotAddress b j + k)) ∧
    (∀ a, a < bucketAddress b ∨ bucketAddress b + 64 ≤ a → (m.writeUnits (slotUnits b ws)).read a = m.read a) := by
  have units {u : MemUnit} (mem : u ∈ slotUnits b ws) : ∃ w ∈ ws, u = { address := slotAddress b w.1, bytes := w.2 } := by
    obtain ⟨w, hw, rfl⟩ := List.mem_map.mp mem
    exact ⟨w, hw, rfl⟩
  have apart : (slotUnits b ws).Pairwise MemUnit.apart := by
    rw [slotUnits, List.pairwise_map]
    refine (List.pairwise_map.mp once).imp_of_mem fun {v w} hv hw ne => ?_
    have sizes : v.2.length = 16 ∧ w.2.length = 16 := ⟨(fits v hv).2, (fits w hw).2⟩
    simp only [MemUnit.apart, sizes, slotAddress, slotSize]
    omega
  refine ⟨fun w mem => ?_, fun j lt other k small => ?_, fun a outside => ?_⟩
  · obtain ⟨lt, size⟩ := fits w mem
    have back := Memory.readBytes_writeUnits wf apart { address := slotAddress b w.1, bytes := w.2 } (List.mem_map_of_mem mem)
    simp only [size] at back
    rw [heldSlots_get _ _ lt, back]
  · refine Memory.read_writeUnits_outside fun u mem => ?_
    obtain ⟨w, hw, rfl⟩ := units mem
    have ne : w.1 ≠ j := fun is => other (is ▸ List.mem_map_of_mem hw)
    simp only [MemUnit.misses, (fits w hw).2, slotAddress, slotSize]
    omega
  · refine Memory.read_writeUnits_outside fun u mem => ?_
    obtain ⟨w, hw, rfl⟩ := units mem
    have lt := (fits w hw).1
    simp only [MemUnit.misses, (fits w hw).2, slotAddress, slotSize]
    omega

/-- A slot whose bytes stay is read as before. -/
theorem heldSlots_same {m m' : Memory} {b : Bucket} {j : Nat} (lt : j < 4)
    (same : ∀ k, k < 16 → m'.read (slotAddress b j + k) = m.read (slotAddress b j + k)) : (heldSlots m' b)[j]? = (heldSlots m b)[j]? := by
  rw [heldSlots_get _ _ lt, heldSlots_get _ _ lt, Memory.readBytes_congr same]

/-! ### The search of a bucket (R104) -/

/-- Slot `i` holds a card number. -/
def slotHolds (slots : List SlotReading) (n : Number) (i : Nat) : Prop := ∃ r, slots[i]? = some (.card r) ∧ r.number = n

theorem holds_iff {slots : List SlotReading} {n : Number} {i : Nat} : (slots.getD i .bad).holds n = true ↔ slotHolds slots n i := by
  rw [List.getD_eq_getElem?_getD, slotHolds]
  cases slot : slots[i]? with
  | none => simp [SlotReading.holds]
  | some reading => cases reading <;> simp [SlotReading.holds]

theorem mem_slotsHolding {slots : List SlotReading} {n : Number} {i : Nat} :
    i ∈ slotsHolding slots n ↔ i < 4 ∧ slotHolds slots n i := by
  rw [slotsHolding, List.mem_filter, List.mem_range, holds_iff]

theorem slotsHolding_rising (slots : List SlotReading) (n : Number) : (slotsHolding slots n).Pairwise (· < ·) :=
  List.pairwise_lt_range.filter _

theorem cardIn_of_first {slots : List SlotReading} {n : Number} {i : Nat} {r : CardRecord} (here : slots[i]? = some (.card r))
    (number : r.number = n) (first : ∀ j, j < i → ¬slotHolds slots n j) : cardIn slots n = some r := by
  have lt : i < slots.length := (List.getElem?_eq_some_iff.mp here).1
  have split : slots = slots.take i ++ slots[i] :: slots.drop (i + 1) := by rw [List.getElem_cons_drop, List.take_append_drop]
  rw [cardIn, List.findSome?_eq_some_iff]
  refine ⟨_, _, _, split, ?_, fun x mem => ?_⟩
  · rw [(List.getElem?_eq_some_iff.mp here).2]
    simp [number]
  · obtain ⟨j, small, is⟩ := List.mem_iff_getElem.mp mem
    rw [List.getElem_take] at is
    have less : j < i := by rw [List.length_take] at small; omega
    cases x with
    | free => rfl
    | bad => rfl
    | card q =>
      have other : q.number ≠ n := fun same => first j less ⟨q, by rw [← is]; exact List.getElem?_eq_getElem _, same⟩
      simp [other]

theorem cardIn_eq_none_iff {slots : List SlotReading} {n : Number} : cardIn slots n = none ↔ ∀ i, ¬slotHolds slots n i := by
  rw [cardIn, List.findSome?_eq_none_iff]
  refine ⟨fun none_ i ⟨r, here, number⟩ => ?_, fun none_ x mem => ?_⟩
  · have := none_ _ (List.mem_of_getElem? here)
    simp [number] at this
  · obtain ⟨i, here⟩ := List.mem_iff_getElem?.mp mem
    cases x with
    | free => rfl
    | bad => rfl
    | card q =>
      have other : q.number ≠ n := fun same => none_ i ⟨q, here, same⟩
      simp [other]

/-! ### CARD_PUT's read-modify-write (R117) -/

theorem putCard_holding {slots : List SlotReading} {r : CardRecord} {first : Nat} {later : List Nat}
    (held : slotsHolding slots r.number = first :: later) :
    putCard slots r = (.ok, (first, slotOf r) :: later.map fun i => (i, freeSlot)) := by
  unfold putCard
  rw [held]

theorem putCard_taking {slots : List SlotReading} {r : CardRecord} {i : Nat} (held : slotsHolding slots r.number = [])
    (takes : ((List.range 4).find? fun i => (slots.getD i .bad).takes) = some i) : putCard slots r = (.ok, [(i, slotOf r)]) := by
  unfold putCard
  rw [held, takes]

theorem putCard_full {slots : List SlotReading} {r : CardRecord} (held : slotsHolding slots r.number = [])
    (takes : ((List.range 4).find? fun i => (slots.getD i .bad).takes) = none) : putCard slots r = (.noRoom, []) := by
  unfold putCard
  rw [held, takes]

theorem cardWrites_put (r : CardRecord) (slots : List SlotReading) :
    cardWrites (.cardPut r) slots = ((putCard slots r).1, slotUnits (bucketOf r.number) (putCard slots r).2) := rfl

/-- What a card put leaves when a good slot holds its number: the first such slot rewritten, the later ones freed. -/
theorem put_holding {m : Memory} {b : Bucket} {r : CardRecord} {first : Nat} {later : List Nat} (wf : m.wf = true)
    (valid : validNumber r.number = true) (expiry : ∀ d ∈ r.expiry, d ≤ 65535) (start : ∀ d ∈ r.start, d ≤ 65535)
    (held : slotsHolding (heldSlots m b) r.number = first :: later) :
    let m' := m.writeUnits (slotUnits b (putCard (heldSlots m b) r).2)
    (heldSlots m' b)[first]? = some (.card r) ∧ (∀ j ∈ later, (heldSlots m' b)[j]? = some .free) ∧
      (∀ j, j < 4 → ¬slotHolds (heldSlots m b) r.number j → ∀ k, k < 16 →
        m'.read (slotAddress b j + k) = m.read (slotAddress b j + k)) ∧
      ∀ a, a < bucketAddress b ∨ bucketAddress b + 64 ≤ a → m'.read a = m.read a := by
  have rising := slotsHolding_rising (heldSlots m b) r.number
  have inside {j : Nat} (mem : j ∈ first :: later) : j < 4 := (mem_slotsHolding.mp (held ▸ mem)).1
  have places : ((first, slotOf r) :: later.map fun i => (i, freeSlot)).map (·.1) = first :: later := by
    rw [List.map_cons, List.map_map]
    exact congrArg _ (List.map_id later)
  have once : (((first, slotOf r) :: later.map fun i => (i, freeSlot)).map (·.1)).Nodup := by
    rw [places, ← held]
    exact rising.imp fun lt => Nat.ne_of_lt lt
  have fits : ∀ w ∈ (first, slotOf r) :: later.map fun i => (i, freeSlot), w.1 < 4 ∧ w.2.length = 16 := by
    intro w mem
    rcases List.mem_cons.mp mem with rfl | mem
    · exact ⟨inside List.mem_cons_self, length_slotOf r⟩
    · obtain ⟨j, hj, rfl⟩ := List.mem_map.mp mem
      exact ⟨inside (List.mem_cons_of_mem _ hj), length_freeSlot⟩
  rw [putCard_holding held]
  obtain ⟨written, same, outside⟩ := slots_written (b := b) wf once fits
  refine ⟨?_, fun j mem => ?_, fun j lt other => same j lt ?_, outside⟩
  · rw [← readSlot_slotOf valid expiry start]
    exact written (first, slotOf r) List.mem_cons_self
  · rw [← readSlot_freeSlot]
    exact written (j, freeSlot) (List.mem_cons_of_mem _ (List.mem_map_of_mem mem))
  · rw [places, ← held]
    exact fun mem => other (mem_slotsHolding.mp mem).2

/-- What a card put leaves when it takes a slot that holds no card. -/
theorem put_taking {m : Memory} {b : Bucket} {r : CardRecord} {i : Nat} (wf : m.wf = true)
    (valid : validNumber r.number = true) (expiry : ∀ d ∈ r.expiry, d ≤ 65535) (start : ∀ d ∈ r.start, d ≤ 65535)
    (held : slotsHolding (heldSlots m b) r.number = [])
    (takes : ((List.range 4).find? fun i => ((heldSlots m b).getD i .bad).takes) = some i) :
    let m' := m.writeUnits (slotUnits b (putCard (heldSlots m b) r).2)
    (heldSlots m' b)[i]? = some (.card r) ∧
      (∀ j, j < 4 → j ≠ i → ∀ k, k < 16 → m'.read (slotAddress b j + k) = m.read (slotAddress b j + k)) ∧
      ∀ a, a < bucketAddress b ∨ bucketAddress b + 64 ≤ a → m'.read a = m.read a := by
  have lt : i < 4 := List.mem_range.mp (List.mem_of_find?_eq_some takes)
  rw [putCard_taking held takes]
  obtain ⟨written, same, outside⟩ := slots_written (b := b) (ws := [(i, slotOf r)]) wf (List.nodup_singleton _)
    (fun w mem => by rw [List.mem_singleton.mp mem]; exact ⟨lt, length_slotOf r⟩)
  refine ⟨?_, fun j lt ne => same j lt (by simpa using ne), outside⟩
  rw [← readSlot_slotOf valid expiry start]
  exact written _ List.mem_cons_self

theorem takes_iff {slots : List SlotReading} {i : Nat} : (slots.getD i .bad).takes = true ↔ ∀ r, slots[i]? ≠ some (.card r) := by
  rw [List.getD_eq_getElem?_getD]
  cases slot : slots[i]? with
  | none => simp [SlotReading.takes]
  | some reading => cases reading <;> simp [SlotReading.takes]

/-- The card put is found in the bucket, or the bucket holds four other cards (R117). -/
theorem put_found {card : CardRecord} {m : Memory} (wf : m.wf = true) (valid : validNumber card.number = true)
    (expiry : ∀ d ∈ card.expiry, d ≤ 65535) (start : ∀ d ∈ card.start, d ≤ 65535) :
    let b := bucketOf card.number
    let w := cardWrites (.cardPut card) (heldSlots m b)
    (w.1 = .ok ∧ searchBucket (heldSlots (m.writeUnits w.2) b) card.number = .found card) ∨
      (w.1 = .noRoom ∧ w.2 = [] ∧ ∀ x ∈ heldSlots m b, ∃ other, x = .card other ∧ other.number ≠ card.number) := by
  intro b w
  have w1 : w.1 = (putCard (heldSlots m b) card).1 := rfl
  have w2 : w.2 = slotUnits b (putCard (heldSlots m b) card).2 := rfl
  have search {m' : Memory} {i : Nat} (here : (heldSlots m' b)[i]? = some (.card card))
      (before : ∀ j, j < i → ¬slotHolds (heldSlots m' b) card.number j) :
      searchBucket (heldSlots m' b) card.number = .found card := by
    rw [searchBucket, cardIn_of_first here rfl before]
  cases held : slotsHolding (heldSlots m b) card.number with
  | cons first later =>
    obtain ⟨here, _, same, _⟩ := put_holding wf valid expiry start held
    refine .inl ⟨by rw [w1, putCard_holding held], search here fun j less => ?_⟩
    have rising := held ▸ slotsHolding_rising (heldSlots m b) card.number
    have lt : first < 4 := (mem_slotsHolding.mp (held ▸ List.mem_cons_self : first ∈ slotsHolding (heldSlots m b) card.number)).1
    have notHeld : ¬slotHolds (heldSlots m b) card.number j := fun holds => by
      rcases List.mem_cons.mp (held ▸ mem_slotsHolding.mpr ⟨by omega, holds⟩ : j ∈ first :: later) with rfl | mem
      · omega
      · have := (List.pairwise_cons.mp rising).1 j mem
        omega
    rw [slotHolds, w2, heldSlots_same (by omega) (same j (by omega) notHeld)]
    exact notHeld
  | nil =>
    have notHeld (j : Nat) (lt : j < 4) : ¬slotHolds (heldSlots m b) card.number j := fun holds => by
      have := mem_slotsHolding.mpr ⟨lt, holds⟩
      rw [held] at this
      cases this
    cases takes : (List.range 4).find? fun i => ((heldSlots m b).getD i .bad).takes with
    | some i =>
      obtain ⟨here, same, _⟩ := put_taking wf valid expiry start held takes
      have lt : i < 4 := List.mem_range.mp (List.mem_of_find?_eq_some takes)
      refine .inl ⟨by rw [w1, putCard_taking held takes], search here fun j less => ?_⟩
      rw [slotHolds, w2, heldSlots_same (by omega) (same j (by omega) (by omega))]
      exact notHeld j (by omega)
    | none =>
      have full := putCard_full held takes
      refine .inr ⟨by rw [w1, full],
        by rw [w2, full]; rfl, fun x mem => ?_⟩
      obtain ⟨j, here⟩ := List.mem_iff_getElem?.mp mem
      have lt : j < 4 := by
        have := (List.getElem?_eq_some_iff.mp here).1
        rwa [length_heldSlots] at this
      have isCard := List.find?_eq_none.mp takes j (List.mem_range.mpr lt)
      rw [takes_iff, here] at isCard
      push Not at isCard
      obtain ⟨other, is⟩ := isCard
      exact ⟨other, Option.some.inj is, fun same => notHeld j lt ⟨other, here.trans is, same⟩⟩

/-! ### CARD_DROP's read-modify-write (R117) -/

theorem dropCard_held {slots : List SlotReading} {n : Number} (held : slotsHolding slots n ≠ []) :
    dropCard slots n = (.ok, (slotsHolding slots n).map fun i => (i, freeSlot)) := by
  unfold dropCard
  cases h : slotsHolding slots n with
  | nil => exact absurd h held
  | cons i rest => rfl

theorem dropCard_absent {slots : List SlotReading} {n : Number} (held : slotsHolding slots n = []) :
    dropCard slots n = (if slots.any (· == .bad) then .memoryFault else .notFound, []) := by
  unfold dropCard
  rw [held]

/-- What a card drop leaves: every slot that holds the card freed. -/
theorem drop_frees {m : Memory} (b : Bucket) (n : Number) (wf : m.wf = true) :
    let m' := m.writeUnits (slotUnits b (dropCard (heldSlots m b) n).2)
    (∀ i, i < 4 → (slotHolds (heldSlots m b) n i → (heldSlots m' b)[i]? = some .free) ∧
      (¬slotHolds (heldSlots m b) n i → ∀ k, k < 16 → m'.read (slotAddress b i + k) = m.read (slotAddress b i + k))) ∧
      ∀ a, a < bucketAddress b ∨ bucketAddress b + 64 ≤ a → m'.read a = m.read a := by
  have writes : (dropCard (heldSlots m b) n).2 = (slotsHolding (heldSlots m b) n).map fun i => (i, freeSlot) := by
    by_cases held : slotsHolding (heldSlots m b) n = []
    · rw [dropCard_absent held, held]; rfl
    · rw [dropCard_held held]
  have places : ((slotsHolding (heldSlots m b) n).map fun i => (i, freeSlot)).map (·.1) = slotsHolding (heldSlots m b) n := by
    rw [List.map_map]
    exact List.map_id _
  obtain ⟨written, same, outside⟩ := slots_written (b := b) (ws := (slotsHolding (heldSlots m b) n).map fun i => (i, freeSlot)) wf
    (by rw [places]; exact (slotsHolding_rising _ _).imp fun lt => Nat.ne_of_lt lt)
    (fun w mem => by
      obtain ⟨j, hj, rfl⟩ := List.mem_map.mp mem
      exact ⟨(mem_slotsHolding.mp hj).1, length_freeSlot⟩)
  rw [writes]
  refine ⟨fun i lt => ⟨fun holds => ?_, fun other => same i lt ?_⟩, outside⟩
  · rw [← readSlot_freeSlot]
    exact written (i, freeSlot) (List.mem_map_of_mem (mem_slotsHolding.mpr ⟨lt, holds⟩))
  · rw [places]
    exact fun mem => other (mem_slotsHolding.mp mem).2

theorem slotsHolding_eq_nil {m : Memory} {b : Bucket} {n : Number} :
    slotsHolding (heldSlots m b) n = [] ↔ cardIn (heldSlots m b) n = none := by
  rw [cardIn_eq_none_iff, List.eq_nil_iff_forall_not_mem]
  refine forall_congr' fun i => ?_
  rw [mem_slotsHolding]
  refine not_congr ⟨fun h => h.2, fun holds => ⟨?_, holds⟩⟩
  obtain ⟨r, here, _⟩ := holds
  have := (List.getElem?_eq_some_iff.mp here).1
  rwa [length_heldSlots] at this

/-- The card dropped is in the bucket no more; one that was not there is answered by the search (R117). -/
theorem drop_gone {n : Number} {m : Memory} (wf : m.wf = true) :
    let b := bucketOf n
    let w := cardWrites (.cardDrop n) (heldSlots m b)
    (w.1 = .ok ∧ (∃ r, searchBucket (heldSlots m b) n = .found r) ∧ ∀ r, searchBucket (heldSlots (m.writeUnits w.2) b) n ≠ .found r) ∨
      (w.1 = .notFound ∧ w.2 = [] ∧ searchBucket (heldSlots m b) n = .unknown) ∨
      (w.1 = .memoryFault ∧ w.2 = [] ∧ searchBucket (heldSlots m b) n = .memoryFault) := by
  intro b w
  have w1 : w.1 = (dropCard (heldSlots m b) n).1 := rfl
  have w2 : w.2 = slotUnits b (dropCard (heldSlots m b) n).2 := rfl
  cases inBucket : cardIn (heldSlots m b) n with
  | none =>
    have search : searchBucket (heldSlots m b) n = if (heldSlots m b).any (· == .bad) then .memoryFault else .unknown := by
      rw [searchBucket, inBucket]
    have drops := dropCard_absent (slotsHolding_eq_nil.mpr inBucket)
    rw [w1, w2, drops, search]
    by_cases bad : (heldSlots m b).any (· == .bad) = true
    · exact .inr (.inr ⟨if_pos bad, rfl, if_pos bad⟩)
    · exact .inr (.inl ⟨if_neg bad, rfl, if_neg bad⟩)
  | some r =>
    have drops := dropCard_held (slotsHolding_eq_nil.not.mpr (by rw [inBucket]; exact Option.some_ne_none r))
    obtain ⟨slots, _⟩ := drop_frees b n wf
    have gone : cardIn (heldSlots (m.writeUnits w.2) b) n = none := by
      rw [cardIn_eq_none_iff]
      rintro i ⟨q, here, number⟩
      have lt : i < 4 := by
        have := (List.getElem?_eq_some_iff.mp here).1
        rwa [length_heldSlots] at this
      obtain ⟨freed, kept⟩ := slots i lt
      by_cases holds : slotHolds (heldSlots m b) n i
      · have := (freed holds).symm.trans here
        cases this
      · exact holds ⟨q, (heldSlots_same lt (kept holds)).symm.trans here, number⟩
    refine .inl ⟨by rw [w1, drops], ⟨r, by rw [searchBucket, inBucket]⟩, fun q => ?_⟩
    rw [searchBucket, gone]
    simp only
    split <;> simp

/-! ### The end of a card write (R117) -/

section
variable {b : Bucket} {e : WriteEntry} {rest : List WriteEntry} {who : ReplyTo} {s : State} (running : s.hold = .running)
  (port : s.rmi.port = some .write) (queue : s.rmi.queue = e :: rest) (reply : e.reply = some who) (bucket : e.body.bucket = some b)
  (remake : s.rmi.remake = none)

/-- A card write's end: what is on the device, its errors counted, its entry gone and its REPLY queued. -/
def State.cardWritten (rest : List WriteEntry) (who : ReplyTo) (memory : Memory) (errors : Nat) (status : Status) (s : State) : State :=
  { s with
    memory := memory
    clu := { s.clu with memoryErrors := min 65535 (s.clu.memoryErrors + errors) }
    rmi := { s.rmi with port := none, queue := rest }
    tp := { s.tp with reserved := s.tp.reserved - 1 }.enqueue (.reply who.kind who.tag status .none) }

include port queue in
theorem endCardWrite_of (bucket : e.body.bucket = some b) (read : MemRead) (write : MemWrite) : endCardWrite read write s =
    finishCardWrite e (s.memory.access (bucketAddress b) 64 read).2 write
      { s with memory := (s.memory.access (bucketAddress b) 64 read).1 } := by
  unfold endCardWrite
  rw [activeWrite_of port queue]
  simp only [bucket]

include queue reply remake in
theorem replyWrite_written (u : CardLookup) (m : Memory) (status : Status) (errors : Nat)
    (counted : u = { s.clu with memoryErrors := min 65535 (s.clu.memoryErrors + errors) }) :
    replyWrite e.reply status .none (endWrite { s with memory := m, clu := u }) = s.cardWritten rest who m errors status := by
  subst counted
  rw [reply, endWrite_last (s := { s with memory := m, clu := _ }) queue remake]
  rfl

include port queue reply bucket remake

theorem endCardWrite_done : endCardWrite .asHeld .done s =
    s.cardWritten rest who (s.memory.writeUnits (cardWrites e.body (heldSlots s.memory b)).2) (badSlots (heldSlots s.memory b))
      (cardWrites e.body (heldSlots s.memory b)).1 := by
  have wrote := fun m => replyWrite_written queue reply remake (errors := badSlots (heldSlots s.memory b))
    { s.clu with memoryErrors := bump s.clu.memoryErrors (badSlots (heldSlots s.memory b)) } m
    (cardWrites e.body (heldSlots s.memory b)).1 rfl
  rw [endCardWrite_of port queue bucket]
  unfold finishCardWrite
  change (if (cardWrites e.body (heldSlots s.memory b)).2.isEmpty = true then _ else _) = _
  by_cases writes : (cardWrites e.body (heldSlots s.memory b)).2 = []
  · rw [if_pos (by rw [writes]; rfl)]
    exact (wrote s.memory).trans (by rw [writes]; rfl)
  · rw [if_neg (by rw [List.isEmpty_iff]; exact writes)]
    exact wrote (s.memory.writeUnits (cardWrites e.body (heldSlots s.memory b)).2)

theorem endCardWrite_failedRead (write : MemWrite) : endCardWrite .failed write s = s.cardWritten rest who s.memory 1 .memoryFault := by
  rw [endCardWrite_of port queue bucket]
  exact replyWrite_written queue reply remake { s.clu with memoryErrors := bump s.clu.memoryErrors 1 } s.memory .memoryFault 1 rfl

theorem endCardWrite_failedWrite {r : Residue} (writes : (cardWrites e.body (heldSlots s.memory b)).2 ≠ []) :
    endCardWrite .asHeld (.failed r) s =
      s.cardWritten rest who (s.memory.writeCut (cardWrites e.body (heldSlots s.memory b)).2 r) (badSlots (heldSlots s.memory b) + 1)
        .memoryFault := by
  rw [endCardWrite_of port queue bucket]
  unfold finishCardWrite
  change (if (cardWrites e.body (heldSlots s.memory b)).2.isEmpty = true then _ else _) = _
  rw [if_neg (by rw [List.isEmpty_iff]; exact writes)]
  refine replyWrite_written queue reply remake
    { s.clu with memoryErrors := bump (bump s.clu.memoryErrors (badSlots (heldSlots s.memory b))) 1 }
    (s.memory.writeCut (cardWrites e.body (heldSlots s.memory b)).2 r) .memoryFault (badSlots (heldSlots s.memory b) + 1) ?_
  have sum : bump (bump s.clu.memoryErrors (badSlots (heldSlots s.memory b))) 1 =
      min 65535 (s.clu.memoryErrors + (badSlots (heldSlots s.memory b) + 1)) := by
    simp only [bump]
    omega
  rw [sum]

end

theorem slotAddress_eq (b : Bucket) (i k : Nat) : slotAddress b i + k = 0x010000 + 64 * b.val + 16 * i + k := by
  simp only [slotAddress, slotSize, bucketAddress]
  omega

/-- Settles O36: the units a card write makes of its bucket stand slot by slot, and its end answers the command. -/
theorem cardWriteCompletes : Obligations.CardWriteCompletes := by
  unfold Obligations.CardWriteCompletes
  refine ⟨?_, ?_, ?_, ?_, ?_, ?_⟩
  · intro b e rest who s running port queue reply bucket remake slots
    exact (whenRunning_running running).trans (congrArg _ (endCardWrite_done port queue reply bucket remake))
  · intro card m wf h0 h1 expiry start
    exact put_found wf (validNumber_iff.mpr ⟨h0, h1⟩) expiry start
  · intro n m wf _
    exact drop_gone wf
  · intro card m wf h0 h1 expiry start b slots m' after holds same
    have valid := validNumber_iff.mpr ⟨h0, h1⟩
    have bucket : bucketAddress b = 0x010000 + 64 * b.val := by simp only [bucketAddress]; omega
    cases held : slotsHolding slots card.number with
    | cons first later =>
      obtain ⟨here, freed, kept, outside⟩ := put_holding (b := b) wf valid expiry start held
      have firstHolds := mem_slotsHolding.mp (held ▸ List.mem_cons_self : first ∈ slotsHolding slots card.number)
      rw [bucket] at outside
      refine ⟨fun i lt holdsI before => ?_, fun i lt none_ => absurd firstHolds.2 (none_ first firstHolds.1), outside⟩
      obtain rfl : i = first := by
        rcases List.mem_cons.mp (held ▸ mem_slotsHolding.mpr ⟨lt, holdsI⟩ : i ∈ first :: later) with is | mem
        · exact is
        · have rising := held ▸ slotsHolding_rising slots card.number
          exact absurd firstHolds.2 (before first ((List.pairwise_cons.mp rising).1 i mem))
      refine ⟨here, fun j ltj ne => ⟨fun holdsJ => freed j ?_, fun other k small => ?_⟩⟩
      · exact (List.mem_cons.mp (held ▸ mem_slotsHolding.mpr ⟨ltj, holdsJ⟩ : j ∈ i :: later)).resolve_left ne
      · rw [← slotAddress_eq]
        exact kept j ltj other k small
    | nil =>
      have notHeld (j : Nat) (lt : j < 4) : ¬holds j := fun h => by
        have := mem_slotsHolding.mpr ⟨lt, h⟩
        rw [held] at this
        cases this
      refine ⟨fun i lt holdsI => absurd holdsI (notHeld i lt), fun i lt _ free before => ?_, ?_⟩
      · have takes : ((List.range 4).find? fun i => (slots.getD i .bad).takes) = some i := by
          refine List.find?_range_eq_some.mpr ⟨takes_iff.mpr free, List.mem_range.mpr lt, fun j less => ?_⟩
          obtain ⟨r, is⟩ := before j less
          rw [Bool.not_eq_true', ← Bool.not_eq_true, takes_iff]
          exact fun free => free r is
        obtain ⟨here, kept, _⟩ := put_taking wf valid expiry start held takes
        refine ⟨here, fun j ltj ne k small => ?_⟩
        rw [← slotAddress_eq]
        exact kept j ltj ne k small
      · cases takes : (List.range 4).find? fun i => (slots.getD i .bad).takes with
        | some i =>
          obtain ⟨_, _, outside⟩ := put_taking wf valid expiry start held takes
          rw [bucket] at outside
          exact outside
        | none =>
          have nothing : m' = m := by
            have units : m' = m.writeUnits (slotUnits b (putCard slots card).2) := rfl
            rw [units, putCard_full held takes]
            rfl
          exact fun a _ => by rw [nothing]
  · intro n m wf _ b slots m' holds
    obtain ⟨each, outside⟩ := drop_frees b n wf
    have bucket : bucketAddress b = 0x010000 + 64 * b.val := by simp only [bucketAddress]; omega
    rw [bucket] at outside
    refine ⟨fun i lt => ⟨(each i lt).1, fun other k small => ?_⟩, outside⟩
    rw [← slotAddress_eq]
    exact (each i lt).2 other k small
  · intro b e rest who write r s running port queue reply bucket remake slots failed
    exact ⟨(whenRunning_running running).trans (congrArg _ (endCardWrite_failedRead port queue reply bucket remake write)),
      fun writes => (whenRunning_running running).trans (congrArg _ (endCardWrite_failedWrite port queue reply bucket remake writes))⟩

end Sys2Proof.Machine
end

