-- ==== Sys2Proof/Proofs/Decisions.lean ====
section
/-! Proofs about the decision of a pending request (7.2 to 7.6): what the answer of the Card Lookup Unit makes of it. -/

namespace Sys2Proof.Machine

/-! ### The verdict on a found card (R127, R128) -/

theorem coversTime_eq (w : Window) (day m : Nat) : w.coversTime day m =
    if w.start < w.stop then decide (w.start ≤ m) && decide (m < w.stop) && w.days.getLsbD day
    else if w.stop < w.start then
      (decide (w.start ≤ m) && w.days.getLsbD day) || (decide (m < w.stop) && w.days.getLsbD ((day + 6) % 7))
    else w.days.getLsbD day := by
  simp only [Window.coversTime, inMask, Bool.decide_and]

/-- The card checks and then the account checks make the verdict. -/
theorem cardVerdict_eq (s : State) (r : Row) (c : ContainerConfig) (card : CardRecord) :
    s.cardVerdict r c card = (cardDenial s c card).elim ((accountVerdict s c card).mapError fun reason => (reason, none))
      fun denial => .error (denial.1, denial.2.bind (redirectFor s r)) := by
  have closed : (windowsEnforced s && !windowCovers s c.fraction card.cls) = (s.tk.wall.valid && s.au.windows.rows.any (·.enabled) &&
      !s.au.windows.rows.any fun w => w.enabled && w.fractions.getLsbD c.fraction.val && w.classes.getLsbD card.cls.val &&
        (if w.start < w.stop then
          decide (w.start ≤ s.tk.wall.minute % 1440) && decide (s.tk.wall.minute % 1440 < w.stop) && w.days.getLsbD (s.tk.wall.minute / 1440)
         else if w.stop < w.start then
          (decide (w.start ≤ s.tk.wall.minute % 1440) && w.days.getLsbD (s.tk.wall.minute / 1440)) ||
            (decide (s.tk.wall.minute % 1440 < w.stop) && w.days.getLsbD ((s.tk.wall.minute / 1440 + 6) % 7))
         else w.days.getLsbD (s.tk.wall.minute / 1440))) := by
    simp only [windowsEnforced, windowCovers, coversTime_eq, dayOfWeek, minuteOfDay, inMask]
  have right : (!inMask card.rights c.fraction.val) = true ↔ card.rights.getLsbD c.fraction.val = false := by
    simp [inMask]
  unfold State.cardVerdict cardDenial accountVerdict
  simp only [closed, right]
  generalize (s.tk.wall.valid && s.au.windows.rows.any (·.enabled) && _) = shut
  by_cases blocked : card.status ≠ .active
  · simp only [if_pos blocked]; rfl
  simp only [if_neg blocked]
  by_cases expired : (s.tk.wall.valid && card.expiry.any fun d => decide (d < s.tk.wall.day)) = true
  · simp only [if_pos expired]; rfl
  simp only [if_neg expired]
  by_cases early : (s.tk.wall.valid && card.start.any fun d => decide (s.tk.wall.day < d)) = true
  · simp only [if_pos early]; rfl
  simp only [if_neg early]
  by_cases noRight : card.rights.getLsbD c.fraction.val = false
  · simp only [if_pos noRight]; rfl
  simp only [if_neg noRight]
  by_cases away : (card.home.any fun h => h != c.cluster) = true
  · simp only [if_pos away]; rfl
  simp only [if_neg away]
  cases shut
  · simp only [Bool.false_eq_true, if_false, Option.elim]
    cases (s.au.accounts.get card.account).loaded with
    | false => simp only [Bool.false_and, Bool.false_eq_true, false_and, if_false, if_true, Bool.not_false]; split_ifs <;> rfl
    | true =>
      cases (s.au.accounts.get card.account).blocked with
      | true => rfl
      | false => simp only [Bool.and_false, Bool.false_eq_true, and_false, if_false, Bool.not_true, reduceCtorEq]; split_ifs <;> rfl
  · rfl

/-! ### Grants (R129) -/

/-- The deposit that a grant opens. -/
def grantedDeposit (q : Request) (card : CardRecord) (kind : GrantKind) (cost : Nat) (s : State) : OpenDeposit :=
  { card := card.number, account := card.account, cost := cost, kind := kind, tag := q.tag, delivered := false,
    granted := s.tk.seconds }

/-- The Admission Unit once the grant's GRANT has been posted, by what became of it (R32, R129). -/
def AdmissionUnit.granting (q : Request) (card : CardRecord) (cost : Nat) (deposit : OpenDeposit) (post : Post) (u : AdmissionUnit) :
    AdmissionUnit :=
  let left := { u with requests := u.requests.filter (·.row != q.row) }
  let held : AdmissionUnit := { left with
    accounts := u.accounts.update card.account fun account => { account with held := account.held + cost }
    deposits := u.deposits.set q.row (some deposit) }
  match post with
  | .queued => { held with grants := bump u.grants }
  | .noRoom => { left with deposits := u.deposits.set q.row none, denials := bump u.denials }
  | .discarded => held

/-- A GRANT offered to a row, and what becomes of it. -/
theorem postDown_grant (a : Station) (bay : Bay) (tag : Byte) (s : State) :
    postDown a (.grant bay tag) s = ((s.slc.rows.get a).accepts (.grant bay tag), s.offered a (.grant bay tag)) := by
  have offered := sendDown_offered (c := .grant bay tag) rfl a s
  rcases postDown_cases a (.grant bay tag) s with ⟨yes, posted⟩ | ⟨_, posted⟩
  · rw [sendDown, posted] at offered
    rw [posted, yes, ← offered]
  · rw [sendDown, posted] at offered
    rw [posted, ← offered]

theorem grantRequest_eq (q : Request) (card : CardRecord) (kind : GrantKind) (cost : Nat) (s : State) :
    grantRequest q card kind cost s = { s with
      slc := s.slc.offered q.station (.grant q.bay q.tag)
      au := s.au.granting q card cost (grantedDeposit q card kind cost s) ((s.slc.rows.get q.station).accepts (.grant q.bay q.tag))
      clu := s.clu.without q.row } := by
  have offers := postDown_grant q.station q.bay q.tag (dropRequest q.row (setDeposit q.row (some (grantedDeposit q card kind cost s))
    (setAccount card.account (fun a => { a with held := a.held + cost }) s)))
  have row : (dropRequest q.row (setDeposit q.row (some (grantedDeposit q card kind cost s))
    (setAccount card.account (fun a => { a with held := a.held + cost }) s))).slc = s.slc := rfl
  rw [row] at offers
  unfold grantRequest
  unfold grantedDeposit at offers ⊢
  simp only [offers]
  cases (s.slc.rows.get q.station).accepts (.grant q.bay q.tag) with
  | queued => rfl
  | discarded => rfl
  | noRoom =>
    have accounts : (s.au.accounts.update card.account fun a => { a with held := a.held + cost }).update card.account
        (fun _ => s.au.accounts.get card.account) = s.au.accounts := by
      simp only [Table.update_eq_set, Table.set_set, Table.set_get_self]
    have deposits (d : Option OpenDeposit) : (s.au.deposits.set q.row d).set q.row none = s.au.deposits.set q.row none :=
      Table.set_set _ _ _ _
    simp only [setAccount, setDeposit, dropRequest, State.offered, AdmissionUnit.granting, accounts, deposits]
    rfl

/-! ### Decisions (R126 to R130) -/

theorem denyRequest_denies (q : Request) (reason : DenyReason) (redirect : Option Redirect) (s : State) :
    s.denies q reason redirect (denyRequest q reason redirect s) := by
  rw [denyRequest_eq]
  exact ⟨rfl, rfl⟩

/-- The CARD_ALERT of a LOST card (R136). -/
def alertNews (q : Request) (c : ContainerConfig) (card : CardRecord) (s : State) : Report :=
  .cardAlert { card := card.number, account := card.account, cls := card.cls, number := c.number, row := q.row, station := q.station,
               bay := q.bay, stamp := s.stamp }

theorem alertCard_eq (q : Request) (c : ContainerConfig) (card : CardRecord) (s : State) : alertCard q c card s =
    if card.status = .lost then { s with tp := s.tp.reported (alertNews q c card s) } else s := by
  unfold alertCard
  split
  · exact postReport_reported (r := alertNews q c card s) (by simp [alertNews]) s
  · rfl

theorem cardBlocked_iff {s : State} {c : ContainerConfig} {card : CardRecord} {reason : DenyReason} {cluster : Option (Fin 64)}
    (denied : cardDenial s c card = some (reason, cluster)) : reason = .cardBlocked ↔ card.status ≠ .active := by
  unfold cardDenial at denied
  by_cases blocked : card.status ≠ .active
  · simp only [if_pos blocked, Option.some.injEq, Prod.mk.injEq] at denied
    exact ⟨fun _ => blocked, fun _ => denied.1.symm⟩
  · simp only [if_neg blocked] at denied
    refine ⟨fun is => ?_, fun h => absurd h blocked⟩
    subst is
    split_ifs at denied <;> simp at denied

/-- What a decision makes of the blocks: the street loop, the Admission Unit and the Trunk Port, and the request waits nowhere. -/
structure Decided (q : Request) (s t : State) : Prop where
  blocks : t = { s with slc := t.slc, au := t.au, tp := t.tp, clu := s.clu.without q.row }
  requests : t.au.requests = s.au.requests.filter (·.row != q.row)

theorem decided_deny (q : Request) (reason : DenyReason) (redirect : Option Redirect) (s : State) :
    Decided q s (denyRequest q reason redirect s) := by
  rw [denyRequest_eq]
  exact ⟨rfl, rfl⟩

theorem decided_grant (q : Request) (card : CardRecord) (kind : GrantKind) (cost : Nat) (s : State) :
    Decided q s (grantRequest q card kind cost s) := by
  rw [grantRequest_eq]
  refine ⟨rfl, ?_⟩
  simp only [AdmissionUnit.granting]
  cases (s.slc.rows.get q.station).accepts (.grant q.bay q.tag) <;> rfl

theorem accepts_grant (bay : Bay) (tag : Byte) (row : StationRow) : row.accepts (.grant bay tag) =
    if row.state ∈ [.awake, .dozing, .silent, .absent] then if row.queue.length < 5 then .queued else .noRoom else .discarded := by
  rcases Nat.lt_or_ge row.queue.length 5 with room | full
  · have notFull : ¬5 ≤ row.queue.length := by omega
    cases state : row.state <;> simp [StationRow.accepts, state, DownCommand.isPassDown, Config.downPlaces, room, notFull]
  · have noRoom : ¬row.queue.length < 5 := by omega
    cases state : row.state <;> simp [StationRow.accepts, state, DownCommand.isPassDown, Config.downPlaces, full, noRoom]

theorem grantRequest_decides (q : Request) (card : CardRecord) (kind : GrantKind) (cost : Nat) (s : State) :
    let t := grantRequest q card kind cost s
    let left := { s.au with requests := s.au.requests.filter (·.row != q.row) }
    let held : AdmissionUnit := { left with
      accounts := s.au.accounts.update card.account fun account => { account with held := account.held + cost }
      deposits := s.au.deposits.set q.row (some (grantedDeposit q card kind cost s)) }
    t.slc = s.slc.offered q.station (.grant q.bay q.tag) ∧ t.tp = s.tp ∧
      t.au = if (s.slc.rows.get q.station).state ∈ [.awake, .dozing, .silent, .absent] then
          if (s.slc.rows.get q.station).queue.length < 5 then { held with grants := min 65535 (s.au.grants + 1) }
          else { left with deposits := s.au.deposits.set q.row none, denials := min 65535 (s.au.denials + 1) }
        else held := by
  intro t left held
  simp only [t]
  rw [grantRequest_eq]
  refine ⟨rfl, rfl, ?_⟩
  simp only [accepts_grant]
  split_ifs <;> rfl

theorem decideFound_decides (q : Request) (c : ContainerConfig) (card : CardRecord) (s : State) :
    s.decidesCard q c card (decideFound q c card s) ∧ Decided q s (decideFound q c card s) := by
  have verdict := cardVerdict_eq s q.row c card
  unfold State.decidesCard
  unfold decideFound
  cases denial : cardDenial s c card with
  | some d =>
    obtain ⟨reason, cluster⟩ := d
    rw [denial] at verdict
    simp only [Option.elim] at verdict
    have alert : (if reason = .cardBlocked then alertCard q c card (denyRequest q reason (cluster.bind (redirectFor s q.row)) s)
        else denyRequest q reason (cluster.bind (redirectFor s q.row)) s) =
        { denyRequest q reason (cluster.bind (redirectFor s q.row)) s with
          tp := if card.status = .lost then s.tp.reported (alertNews q c card s) else s.tp } := by
      have tp : (denyRequest q reason (cluster.bind (redirectFor s q.row)) s).tp = s.tp := by rw [denyRequest_eq]
      have news : alertNews q c card (denyRequest q reason (cluster.bind (redirectFor s q.row)) s) = alertNews q c card s := by
        rw [denyRequest_eq]
        rfl
      by_cases lost : card.status = .lost
      · have blocked : reason = .cardBlocked := (cardBlocked_iff denial).mpr (by rw [lost]; decide)
        rw [if_pos blocked, alertCard_eq, if_pos lost, if_pos lost, news, tp]
      · rw [alertCard_eq, if_neg lost, if_neg lost, ← tp, ite_self]
    simp only [verdict, alert]
    obtain ⟨slc, au⟩ := denyRequest_denies q reason (cluster.bind (redirectFor s q.row)) s
    obtain ⟨blocks, requests⟩ := decided_deny q reason (cluster.bind (redirectFor s q.row)) s
    refine ⟨⟨⟨slc, au⟩, rfl⟩, ?_, requests⟩
    conv_lhs => rw [blocks]
  | none =>
    rw [denial] at verdict
    cases account : accountVerdict s c card with
    | error reason =>
      rw [account] at verdict
      simp only [verdict, Option.elim, Except.mapError]
      refine ⟨⟨denyRequest_denies q reason none s, ?_⟩, decided_deny q reason none s⟩
      have active : card.status ≠ .lost := fun lost => by
        unfold cardDenial at denial
        simp [lost] at denial
      rw [if_neg active, denyRequest_eq]
    | ok v =>
      obtain ⟨kind, cost⟩ := v
      rw [account] at verdict
      simp only [verdict, Option.elim, Except.mapError]
      exact ⟨grantRequest_decides q card kind cost s, decided_grant q card kind cost s⟩

theorem chuteFull_iff {s : State} {r : Row} {c : ContainerConfig} : chuteFull s r c = true ↔
    (fillOf s r).fill = .full ∨ (fillOf s r).fill = .overflow ∨ (s.ft.profiles.get c.profile).fu ≤ (fillOf s r).i := by
  have closed (f : FillState) : f.closed = true ↔ f = .full ∨ f = .overflow := by cases f <;> simp [FillState.closed]
  rw [chuteFull, Bool.or_eq_true, closed, decide_eq_true_iff, or_assoc]

theorem standingDenial_eq (s : State) (r : Row) (c : ContainerConfig) : standingDenial s r c =
    if c.enabled = false then some .outOfUse else if serviceOf s r ≠ .inUse then some .service else none := by
  have name : (serviceOf s r).name ≠ .inUse ↔ serviceOf s r ≠ .inUse := by cases serviceOf s r <;> simp [Service.name]
  unfold standingDenial
  simp only [name, Bool.not_eq_true']

theorem lateDenial_eq (s : State) (r : Row) (c : ContainerConfig) : lateDenial s r c =
    if c.enabled = false then some .outOfUse else if serviceOf s r ≠ .inUse then some .service
    else if (fillOf s r).fill = .full ∨ (fillOf s r).fill = .overflow ∨ (s.ft.profiles.get c.profile).fu ≤ (fillOf s r).i then some .full
    else none := by
  unfold lateDenial
  rw [standingDenial_eq]
  simp only [← chuteFull_iff]
  split_ifs <;> rfl

/-- A decision changes only what `Decided` says. -/
theorem decideRequest_decided (q : Request) (ans : CardAnswer) (late : Bool) (s : State) : Decided q s (decideRequest q ans late s) := by
  unfold decideRequest
  split
  · exact decided_deny _ _ _ _
  · split
    · exact decided_deny _ _ _ _
    · cases ans with
      | unknown => exact decided_deny _ _ _ _
      | memoryFault => exact decided_deny _ _ _ _
      | found card => exact (decideFound_decides _ _ _ _).2

theorem decideRequest_found {q : Request} {c : ContainerConfig} {s : State} (config : configOf s q.row = some c) (card : CardRecord) :
    decideRequest q (.found card) false s = decideFound q c card s := by
  unfold decideRequest
  simp only [config]
  rfl

/-- A decision in a later event makes the container checks again (R126). -/
theorem decideRequest_late {q : Request} {c : ContainerConfig} {s : State} (config : configOf s q.row = some c) (ans : CardAnswer) :
    s.decides q c ans (decideRequest q ans true s) := by
  have denied (reason : DenyReason) (redirect : Option Redirect) : s.denies q reason redirect (denyRequest q reason redirect s) ∧
      (denyRequest q reason redirect s).tp = s.tp := ⟨denyRequest_denies q reason redirect s, by rw [denyRequest_eq]⟩
  unfold State.decides decideRequest
  simp only [config, if_true, lateDenial_eq]
  by_cases off : c.enabled = false
  · simp only [if_pos off]
    exact denied _ _
  simp only [if_neg off]
  by_cases busy : serviceOf s q.row ≠ .inUse
  · simp only [if_pos busy]
    exact denied _ _
  simp only [if_neg busy]
  by_cases full : (fillOf s q.row).fill = .full ∨ (fillOf s q.row).fill = .overflow ∨
      (s.ft.profiles.get c.profile).fu ≤ (fillOf s q.row).i
  · simp only [if_pos full]
    exact denied _ _
  simp only [if_neg full]
  cases ans with
  | unknown => exact denied _ _
  | memoryFault => exact denied _ _
  | found card => exact (decideFound_decides q c card s).1

end Sys2Proof.Machine
end

