-- ==== Sys2Proof/Proofs/Fetches.lean ====
section
/-! Proofs about the end of a bucket fetch and the places of the miss list (6.3): what is installed, who is decided, who waits on. -/

namespace Sys2Proof.Machine

/-! ### A decision says nothing of the Card Lookup Unit -/

theorem denies_of {s t u v : State} {q : Request} {reason : DenyReason} {redirect : Option Redirect} (denies : s.denies q reason redirect t)
    (slc : s.slc = u.slc) (au : s.au = u.au) (slc' : t.slc = v.slc) (au' : t.au = v.au) : u.denies q reason redirect v := by
  unfold State.denies at denies ⊢
  rw [← slc, ← au, ← slc', ← au']
  exact denies

theorem decidesCard_of {s t v : State} {q : Request} {c : ContainerConfig} {card : CardRecord} {clu : CardLookup} {rmi : RecordMemory}
    (decides : State.decidesCard { s with clu := clu, rmi := rmi } q c card t) (slc : t.slc = v.slc) (au : t.au = v.au) (tp : t.tp = v.tp) :
    s.decidesCard q c card v := by
  have verdict : State.cardVerdict { s with clu := clu, rmi := rmi } q.row c card = s.cardVerdict q.row c card := rfl
  unfold State.decidesCard at decides ⊢
  unfold State.denies at decides ⊢
  rw [verdict, slc, au, tp] at decides
  exact decides

theorem decides_of {s t v : State} {q : Request} {c : ContainerConfig} {ans : CardAnswer} {clu : CardLookup} {rmi : RecordMemory}
    (decides : State.decides { s with clu := clu, rmi := rmi } q c ans t) (slc : t.slc = v.slc) (au : t.au = v.au) (tp : t.tp = v.tp) :
    s.decides q c ans v := by
  have denied {reason : DenyReason} {there : Option Redirect}
      (h : State.denies { s with clu := clu, rmi := rmi } q reason there t ∧ t.tp = s.tp) : s.denies q reason there v ∧ v.tp = s.tp :=
    ⟨denies_of h.1 rfl rfl slc au, tp ▸ h.2⟩
  have service : serviceOf { s with clu := clu, rmi := rmi } q.row = serviceOf s q.row := rfl
  have fill : fillOf { s with clu := clu, rmi := rmi } q.row = fillOf s q.row := rfl
  unfold State.decides at decides ⊢
  rw [service, fill] at decides
  split_ifs at decides ⊢
  · exact denied decides
  · exact denied decides
  · exact denied decides
  · cases ans with
    | unknown => exact denied decides
    | memoryFault => exact denied decides
    | found card => exact decidesCard_of decides slc au tp

/-! ### Waiting requests answered (R111, R113) -/

/-- What answers to waiting requests leave: of the Card Lookup Unit they change only where requests wait. -/
structure Answered (s t : State) : Prop where
  blocks : t = { s with
    slc := t.slc, au := t.au, tp := t.tp, clu := { s.clu with missList := t.clu.missList, slotWait := t.clu.slotWait } }
  buckets : t.clu.missList.map (·.bucket) = s.clu.missList.map (·.bucket)
  slotWait : t.clu.slotWait.Sublist s.clu.slotWait
  requests : t.au.requests.Sublist s.au.requests

theorem Answered.refl (s : State) : Answered s s := ⟨rfl, rfl, List.Sublist.refl _, List.Sublist.refl _⟩

theorem Answered.trans {s t u : State} (h : Answered s t) (k : Answered t u) : Answered s u where
  blocks := by
    conv_lhs => rw [k.blocks, h.blocks]
  buckets := k.buckets.trans h.buckets
  slotWait := k.slotWait.trans h.slotWait
  requests := k.requests.trans h.requests

theorem Decided.answered {q : Request} {s t : State} (decided : Decided q s t) : Answered s t := by
  obtain ⟨blocks, requests⟩ := decided
  have clu : t.clu = s.clu.without q.row := by rw [blocks]
  refine ⟨?_, ?_, ?_, ?_⟩
  · conv_lhs => rw [blocks]
    rw [clu]
    rfl
  · rw [clu]
    exact without_buckets q.row s.clu
  · rw [clu]
    exact List.filter_sublist
  · rw [requests]
    exact List.filter_sublist

theorem answerWaiter_spec (ans : Number → CardAnswer) (w : Waiter) (s : State) :
    Answered s (answerWaiter ans w s) ∧ (answerWaiter ans w s).au.requests = s.au.requests.filter (·.row != w.row) := by
  unfold answerWaiter
  cases found : s.au.requests.find? (·.row == w.row) with
  | some q =>
    have row : q.row = w.row := by simpa using List.find?_some found
    have decided := decideRequest_decided q (ans w.card) true s
    exact ⟨decided.answered, row ▸ decided.requests⟩
  | none =>
    refine ⟨Answered.refl s, (List.filter_eq_self.mpr fun q mem => ?_).symm⟩
    simpa using List.find?_eq_none.mp found q mem

theorem answerAll_spec (ans : Number → CardAnswer) : ∀ (ws : List Waiter) (s : State),
    let t := ws.foldl (fun s w => answerWaiter ans w s) s
    Answered s t ∧ t.au.requests = s.au.requests.filter fun q => ws.all fun w => q.row != w.row
  | [], s => ⟨Answered.refl s, by simp⟩
  | w :: ws, s => by
    obtain ⟨first, left⟩ := answerWaiter_spec ans w s
    obtain ⟨later, left'⟩ := answerAll_spec ans ws (answerWaiter ans w s)
    refine ⟨first.trans later, left'.trans ?_⟩
    rw [left, List.filter_filter]
    exact List.filter_congr fun q _ => by rw [List.all_cons, Bool.and_comm]

/-! ### A fetch completed (R111) -/

theorem install_blocks (r : CardRecord) (u : CardLookup) :
    u.install r = { u with entries := (u.install r).entries, recency := (u.install r).recency } := by
  unfold CardLookup.install
  split <;> rfl

theorem installWanted_cons (slots : List SlotReading) (n : Number) (wanted : List Number) (u : CardLookup) :
    installWanted slots (n :: wanted) u = installWanted slots wanted ((cardIn slots n).elim u fun r => u.install r) := by
  cases found : cardIn slots n <;> simp only [installWanted, List.foldl_cons, found, Option.elim]

theorem installWanted_blocks (slots : List SlotReading) : ∀ (wanted : List Number) (u : CardLookup), ∃ entries recency,
    installWanted slots wanted u = { u with entries := entries, recency := recency }
  | [], _ => ⟨_, _, rfl⟩
  | n :: wanted, u => by
    rw [installWanted_cons]
    cases cardIn slots n with
    | none => exact installWanted_blocks slots wanted u
    | some r =>
      obtain ⟨entries, recency, later⟩ := installWanted_blocks slots wanted (u.install r)
      exact ⟨entries, recency, later.trans
        (congrArg (fun x : CardLookup => { x with entries := entries, recency := recency }) (install_blocks r u))⟩

theorem installWanted_absent {slots : List SlotReading} : ∀ {wanted : List Number} {u : CardLookup},
    (∀ n ∈ wanted, cardIn slots n = none) → installWanted slots wanted u = u
  | [], _, _ => rfl
  | n :: wanted, u, absent => by
    rw [installWanted_cons, absent n List.mem_cons_self]
    exact installWanted_absent fun m mem => absent m (List.mem_cons_of_mem _ mem)

/-- The state once a bucket has been read, its errors counted and its wanted cards installed unless the entry is stale. -/
def State.bucketRead (read : Option (List Byte)) (e : MissEntry) (s : State) : State :=
  let counted := { s.clu with memoryErrors := bump s.clu.memoryErrors (if read.isNone then 1 else badSlots (readBucket read)) }
  { s with clu := if e.stale then counted else installWanted (readBucket read) e.wanted counted }

/-- The state once every request that waited in the entry has been answered and the entry has left the list. -/
def State.fetched (b : Bucket) (read : Option (List Byte)) (e : MissEntry) (s : State) : State :=
  let t := e.waiting.foldl (fun s w => answerWaiter (searchBucket (readBucket read)) w s) (s.bucketRead read e)
  { t with clu := { t.clu with missList := t.clu.missList.filter (·.bucket != b) } }

theorem find_granted {l : List MissEntry} {b : Bucket} {e : MissEntry} (mem : e ∈ l) (bucket : e.bucket = b) (granted : e.granted = true)
    (once : (l.map (·.bucket)).Nodup) : (l.find? fun e => e.bucket == b && e.granted) = some e := by
  obtain ⟨x, found⟩ := Option.isSome_iff_exists.mp (List.find?_isSome (p := fun e : MissEntry => e.bucket == b && e.granted).mpr
    ⟨e, mem, by simp [bucket, granted]⟩)
  have holds := List.find?_some found
  simp only [Bool.and_eq_true, beq_iff_eq] at holds
  rw [found, List.inj_on_of_nodup_map once (List.mem_of_find?_eq_some found) mem (holds.1.trans bucket.symm)]

theorem completeFetch_of {b : Bucket} {read : Option (List Byte)} {e : MissEntry} {s : State} (mem : e ∈ s.clu.missList)
    (bucket : e.bucket = b) (granted : e.granted = true) (once : (s.clu.missList.map (·.bucket)).Nodup) :
    completeFetch b read s = serveSlotWait (s.fetched b read e) := by
  unfold completeFetch
  rw [find_granted mem bucket granted once]
  simp only
  unfold State.fetched State.bucketRead
  cases e.stale <;> rfl

theorem bucketRead_blocks (read : Option (List Byte)) (e : MissEntry) (s : State) : s.bucketRead read e = { s with clu := { s.clu with
    memoryErrors := bump s.clu.memoryErrors (if read.isNone then 1 else badSlots (readBucket read))
    entries := (s.bucketRead read e).clu.entries, recency := (s.bucketRead read e).clu.recency } } := by
  unfold State.bucketRead
  cases e.stale with
  | true => rfl
  | false =>
    simp only [Bool.false_eq_true, if_false]
    obtain ⟨entries, recency, installed⟩ := installWanted_blocks (readBucket read) e.wanted
      { s.clu with memoryErrors := bump s.clu.memoryErrors (if read.isNone then 1 else badSlots (readBucket read)) }
    rw [installed]

/-- What a completed fetch leaves before the freed place is looked at. -/
theorem fetched_spec (b : Bucket) (read : Option (List Byte)) (e : MissEntry) (s : State) :
    let t := s.fetched b read e
    t = { s with
      slc := t.slc, au := t.au, tp := t.tp
      clu := { (s.bucketRead read e).clu with missList := t.clu.missList, slotWait := t.clu.slotWait } } ∧
    t.clu.missList.map (·.bucket) = (s.clu.missList.map (·.bucket)).filter (· != b) ∧ t.clu.slotWait.Sublist s.clu.slotWait ∧
    t.au.requests = s.au.requests.filter fun q => e.waiting.all fun w => q.row != w.row := by
  obtain ⟨answered, left⟩ := answerAll_spec (searchBucket (readBucket read)) e.waiting (s.bucketRead read e)
  have lists : (s.bucketRead read e).clu.missList = s.clu.missList ∧ (s.bucketRead read e).clu.slotWait = s.clu.slotWait ∧
      (s.bucketRead read e).au = s.au := by
    rw [bucketRead_blocks]
    exact ⟨rfl, rfl, rfl⟩
  obtain ⟨missList, slotWait, au⟩ := lists
  have buckets := answered.buckets
  have shrunk := answered.slotWait
  rw [missList] at buckets
  rw [slotWait] at shrunk
  rw [au] at left
  refine ⟨?_, ?_, shrunk, left⟩
  · unfold State.fetched
    conv_lhs => rw [answered.blocks]
    rfl
  · unfold State.fetched
    rw [← buckets, List.filter_map]
    rfl

/-! ### A freed place of the miss list (R113) -/

theorem newEntry_spec (b : Bucket) (ws : List Waiter) :
    (newEntry b ws).bucket = b ∧ (newEntry b ws).granted = false ∧ (newEntry b ws).stale = false ∧ (newEntry b ws).waiting = ws := by
  have join (l : List Waiter) (e : MissEntry) : (l.foldl (fun e w => e.join w) e).bucket = e.bucket ∧
      (l.foldl (fun e w => e.join w) e).granted = e.granted ∧ (l.foldl (fun e w => e.join w) e).stale = e.stale ∧
      (l.foldl (fun e w => e.join w) e).waiting = e.waiting ++ l := by
    induction l generalizing e with
    | nil => simp
    | cons w rest ih =>
      obtain ⟨bucket, granted, stale, waiting⟩ := ih (e.join w)
      exact ⟨bucket, granted, stale, by rw [List.foldl_cons, waiting]; simp [MissEntry.join]⟩
  exact join ws _

/-- The phases of several containers' requests (R107). -/
theorem foldl_setPhase (p : Phase) : ∀ (ws : List Waiter) (s : State),
    let t := ws.foldl (fun s v => setPhase v.row p s) s
    (∃ requests, t = { s with au := { s.au with requests := requests } }) ∧ t.au.requests.map (·.row) = s.au.requests.map (·.row) ∧
      (∀ q ∈ t.au.requests, (q ∈ s.au.requests ∧ ∀ v ∈ ws, v.row ≠ q.row) ∨ q.phase = p)
  | [], s => ⟨⟨_, rfl⟩, rfl, fun q mem => .inl ⟨mem, by simp⟩⟩
  | w :: ws, s => by
    obtain ⟨⟨requests, later⟩, rows, phases⟩ := foldl_setPhase p ws (setPhase w.row p s)
    refine ⟨⟨requests, later⟩, rows.trans ?_, fun q mem => ?_⟩
    · rw [setPhase, List.map_map]
      refine List.map_congr_left fun q _ => ?_
      simp only [Function.comp]
      split <;> rfl
    · rcases phases q mem with ⟨before, others⟩ | here
      · obtain ⟨x, hx, is⟩ := List.mem_map.mp before
        by_cases row : x.row = w.row
        · rw [if_pos row] at is
          exact .inr (is ▸ rfl)
        · rw [if_neg row] at is
          subst is
          exact .inl ⟨hx, fun v hv => by
            rcases List.mem_cons.mp hv with rfl | hv
            · exact Ne.symm row
            · exact others v hv⟩
      · exact .inr here

/-- The place of the slot-wait order's oldest request, with every request of its bucket (R113). -/
def State.placing (w : Waiter) (rest : List Waiter) (s : State) : State := { s with clu := { s.clu with
  slotWait := rest.filter fun v => bucketOf v.card != bucketOf w.card
  missList := s.clu.missList ++ [newEntry (bucketOf w.card) (slotGroup w rest)] } }

theorem serveSlotWait_empty {s : State} (empty : s.clu.slotWait = []) : serveSlotWait s = s := by
  unfold serveSlotWait
  rw [empty]
  rfl

/-- The slot-wait order's oldest request, when its card is not in the cache. -/
theorem placeSlotWaiting_absent {w : Waiter} {rest : List Waiter} {s : State} (fuel : Nat) (waiting : s.clu.slotWait = w :: rest)
    (room : s.clu.missList.length < 8) (absent : cacheFind s.clu w.card = none) :
    placeSlotWaiting (fuel + 1) s = (slotGroup w rest).foldl (fun s v => setPhase v.row .waitFetch s) (s.placing w rest) := by
  rw [placeSlotWaiting]
  simp only [waiting, absent]
  exact if_neg (by simp only [Config.missPlaces]; omega)

/-- The slot-wait order's oldest request, when its card is in the cache. -/
theorem placeSlotWaiting_found {w : Waiter} {rest : List Waiter} {i : Fin 32} {card : CardRecord} {s : State} (fuel : Nat)
    (waiting : s.clu.slotWait = w :: rest) (room : s.clu.missList.length < 8) (found : cacheFind s.clu w.card = some i)
    (entry : s.clu.entries.get i = some card) : placeSlotWaiting (fuel + 1) s =
      placeSlotWaiting fuel (answerWaiter (fun _ => .found card) w
        { s with clu := { s.clu with slotWait := rest, recency := i :: s.clu.recency.filter (· != i) } }) := by
  rw [placeSlotWaiting]
  simp only [waiting, found, entry, Option.bind, Option.map]
  exact if_neg (by simp only [Config.missPlaces]; omega)

theorem serveSlotWait_absent {w : Waiter} {rest : List Waiter} {s : State} (waiting : s.clu.slotWait = w :: rest)
    (room : s.clu.missList.length < 8) (absent : cacheFind s.clu w.card = none) :
    serveSlotWait s = (slotGroup w rest).foldl (fun s v => setPhase v.row .waitFetch s) (s.placing w rest) := by
  have length : s.clu.slotWait.length = rest.length + 1 := by rw [waiting]; rfl
  rw [serveSlotWait, length]
  exact placeSlotWaiting_absent rest.length waiting room absent

theorem bucket_bne (v w : Waiter) : (bucketOf v.card != bucketOf w.card) = (v.card.toNat % 4096 != w.card.toNat % 4096) := by
  rw [bne, bucket_beq]
  rfl

theorem slotGroup_eq (w : Waiter) (rest : List Waiter) :
    slotGroup w rest = (w :: rest).filter fun v => v.card.toNat % 4096 == w.card.toNat % 4096 := by
  rw [slotGroup, List.filter_cons_of_pos (by simp)]
  exact congrArg _ (List.filter_congr fun v _ => bucket_beq (bucketOf v.card) w.card)

theorem slotRest_eq (w : Waiter) (rest : List Waiter) : (rest.filter fun v => bucketOf v.card != bucketOf w.card) =
    (w :: rest).filter fun v => v.card.toNat % 4096 != w.card.toNat % 4096 := by
  rw [List.filter_cons_of_neg (by simp)]
  exact List.filter_congr fun v _ => bucket_bne v w

/-- What the freed place makes of the slot-wait order, when its oldest request's card is not in the cache (R113). -/
theorem serveSlotWait_placed {w : Waiter} {rest : List Waiter} {s : State} (waiting : s.clu.slotWait = w :: rest)
    (room : s.clu.missList.length < 8) (absent : cacheFind s.clu w.card = none) :
    let t := serveSlotWait s
    (∃ entry : MissEntry, t.clu.missList = s.clu.missList ++ [entry] ∧ entry.bucket.val = w.card.toNat % 4096 ∧
      entry.granted = false ∧ entry.stale = false ∧
      entry.waiting = (w :: rest).filter fun v => v.card.toNat % 4096 == w.card.toNat % 4096) ∧
    t.clu.slotWait = (w :: rest).filter (fun v => v.card.toNat % 4096 != w.card.toNat % 4096) ∧
    t.clu.entries = s.clu.entries ∧ t.au.requests.map (·.row) = s.au.requests.map (·.row) ∧
    (∀ q ∈ t.au.requests, q.row = w.row → q.phase = .waitFetch) ∧ t.rmi = s.rmi ∧ t.memory = s.memory := by
  intro t
  have placed : t = (slotGroup w rest).foldl (fun s v => setPhase v.row .waitFetch s) (s.placing w rest) :=
    serveSlotWait_absent waiting room absent
  obtain ⟨⟨requests, blocks⟩, rows, phases⟩ := foldl_setPhase .waitFetch (slotGroup w rest) (s.placing w rest)
  obtain ⟨bucket, granted, stale, group⟩ := newEntry_spec (bucketOf w.card) (slotGroup w rest)
  rw [← placed] at blocks rows phases
  refine ⟨⟨newEntry (bucketOf w.card) (slotGroup w rest), ?_, congrArg Fin.val bucket, granted, stale, group.trans (slotGroup_eq w rest)⟩,
    ?_, ?_, rows, fun q mem row => ?_, ?_, ?_⟩
  · rw [blocks]; rfl
  · rw [blocks]; exact slotRest_eq w rest
  · rw [blocks]; rfl
  · exact (phases q mem).resolve_left fun ⟨_, others⟩ => others w (by simp [slotGroup]) row.symm
  · rw [blocks]; rfl
  · rw [blocks]; rfl

/-- What serving the slot-wait order leaves, whatever it answers or places. -/
structure Served (s t : State) : Prop where
  rmi : t.rmi = s.rmi
  memory : t.memory = s.memory
  errors : t.clu.memoryErrors = s.clu.memoryErrors
  entries : t.clu.entries = s.clu.entries
  rows : ∀ q ∈ t.au.requests, ∃ p ∈ s.au.requests, p.row = q.row

theorem Served.trans {s t u : State} (h : Served s t) (k : Served t u) : Served s u where
  rmi := k.rmi.trans h.rmi
  memory := k.memory.trans h.memory
  errors := k.errors.trans h.errors
  entries := k.entries.trans h.entries
  rows q mem := by
    obtain ⟨p, hp, row⟩ := k.rows q mem
    obtain ⟨x, hx, row'⟩ := h.rows p hp
    exact ⟨x, hx, row'.trans row⟩

theorem Served.refl (s : State) : Served s s := ⟨rfl, rfl, rfl, rfl, fun q mem => ⟨q, mem, rfl⟩⟩

theorem Answered.served {s t : State} (answered : Answered s t) : Served s t := by
  obtain ⟨blocks, _, _, requests⟩ := answered
  exact ⟨(congrArg State.rmi blocks :), (congrArg State.memory blocks :), (congrArg (fun t : State => t.clu.memoryErrors) blocks :),
    (congrArg (fun t : State => t.clu.entries) blocks :), fun q mem => ⟨q, requests.subset mem, rfl⟩⟩

theorem placeSlotWaiting_served : ∀ (fuel : Nat) (s : State), Served s (placeSlotWaiting fuel s)
  | 0, s => Served.refl s
  | fuel + 1, s => by
    unfold placeSlotWaiting
    split
    · exact Served.refl s
    · rename_i w rest waiting
      split
      · exact Served.refl s
      · split
        · rename_i i r _
          refine Served.trans ?_ (placeSlotWaiting_served fuel _)
          exact Served.trans (t := { s with clu := { s.clu with slotWait := rest }.touch i })
            ⟨rfl, rfl, rfl, rfl, fun q mem => ⟨q, mem, rfl⟩⟩ (answerWaiter_spec _ w _).1.served
        · obtain ⟨⟨requests, blocks⟩, rows, _⟩ := foldl_setPhase .waitFetch (slotGroup w rest) (s.placing w rest)
          have served : Served s ((slotGroup w rest).foldl (fun s v => setPhase v.row .waitFetch s) (s.placing w rest)) := by
            refine ⟨?_, ?_, ?_, ?_, fun q mem => ?_⟩
            · rw [blocks]; rfl
            · rw [blocks]; rfl
            · rw [blocks]; rfl
            · rw [blocks]; rfl
            · have row : q.row ∈ s.au.requests.map (·.row) := rows ▸ List.mem_map_of_mem mem
              obtain ⟨p, hp, is⟩ := List.mem_map.mp row
              exact ⟨p, hp, is⟩
          exact served

theorem serveSlotWait_served (s : State) : Served s (serveSlotWait s) := placeSlotWaiting_served _ s

/-! ### The obligation -/

section
variable {b : Bucket} {e : MissEntry} {read : MemRead} {s : State} (port : s.rmi.port = some (.fetch b false))
  (mem : e ∈ s.clu.missList) (bucket : e.bucket = b) (granted : e.granted = true) (once : (s.clu.missList.map (·.bucket)).Nodup)
  (held : read = .asHeld ∨ read = .failed)
include port mem bucket granted once held

theorem endFetch_of : endFetch read s =
    serveSlotWait ((freePort s).fetched b (s.memory.access (bucketAddress b) 64 read).2 e) := by
  have completed := completeFetch_of (b := b) (read := (s.memory.access (bucketAddress b) 64 read).2) (s := freePort s)
    mem bucket granted once
  rw [← completed]
  unfold endFetch
  simp only [port]
  rcases held with rfl | rfl <;> rfl

end

theorem badBucket_absent (n : Number) : cardIn (readBucket none) n = none := rfl

theorem cardIn_number {slots : List SlotReading} {n : Number} {card : CardRecord} (found : cardIn slots n = some card) :
    card.number = n := by
  obtain ⟨x, _, is⟩ := List.exists_of_findSome?_eq_some found
  cases x with
  | free => cases is
  | bad => cases is
  | card r =>
    simp only at is
    split at is
    · rename_i number
      exact Option.some.inj is ▸ number
    · cases is

theorem bucketRead_failed (e : MissEntry) (s : State) :
    s.bucketRead none e = { s with clu := { s.clu with memoryErrors := bump s.clu.memoryErrors 1 } } := by
  unfold State.bucketRead
  simp only
  rw [installWanted_absent fun n _ => badBucket_absent n, ite_self]
  rfl

theorem bucketRead_stale {e : MissEntry} (stale : e.stale = true) (read : Option (List Byte)) (s : State) :
    s.bucketRead read e = { s with clu := { s.clu with
      memoryErrors := bump s.clu.memoryErrors (if read.isNone then 1 else badSlots (readBucket read)) } } := by
  unfold State.bucketRead
  simp only [stale, if_true]

/-- The one wanted card is installed (R111, R112). -/
theorem bucketRead_installed {e : MissEntry} {read : Option (List Byte)} {n : Number} {card : CardRecord} {s : State}
    (fresh : e.stale = false) (wanted : e.wanted = [n]) (found : cardIn (readBucket read) n = some card) (law : s.cacheLaw) :
    ∃ i, cacheFind (s.bucketRead read e).clu n = some i ∧ (s.bucketRead read e).clu.entries.get i = some card ∧
      (s.bucketRead read e).clu.recency.head? = some i := by
  have counted : State.cacheLaw { s with clu := { s.clu with
      memoryErrors := bump s.clu.memoryErrors (if read.isNone then 1 else badSlots (readBucket read)) } } := law.of_cache rfl rfl
  have law' := cacheLaw_install counted card
  obtain ⟨i, place, -⟩ := installPlace_spec counted card.number
  have installed : (s.bucketRead read e).clu = CardLookup.install card { s.clu with
      memoryErrors := bump s.clu.memoryErrors (if read.isNone then 1 else badSlots (readBucket read)) } := by
    unfold State.bucketRead
    simp only [fresh, wanted, installWanted_cons, found]
    rfl
  rw [install_of_place place] at installed law'
  rw [installed, ← cardIn_number found]
  exact ⟨i, cacheFind_of_entry law' (Table.get_set_self _ _ _), Table.get_set_self _ _ _, rfl⟩

theorem find_request {l : List Request} {q : Request} {w : Waiter} (mem : q ∈ l) (row : q.row = w.row)
    (only : ∀ x ∈ l, x.row = w.row → x = q) : l.find? (·.row == w.row) = some q := by
  obtain ⟨x, found⟩ := Option.isSome_iff_exists.mp (List.find?_isSome (p := fun x : Request => x.row == w.row).mpr ⟨q, mem, by simp [row]⟩)
  have here : x.row = w.row := by simpa using List.find?_some found
  rw [found, only x (List.mem_of_find?_eq_some found) here]

/-- A waiting request of a container decided (R111, R113). -/
theorem answerWaiter_decides {ans : Number → CardAnswer} {w : Waiter} {q : Request} {c : ContainerConfig} {s : State}
    (mem : q ∈ s.au.requests) (row : q.row = w.row) (only : ∀ x ∈ s.au.requests, x.row = w.row → x = q)
    (config : configOf s q.row = some c) : s.decides q c (ans w.card) (answerWaiter ans w s) := by
  unfold answerWaiter
  rw [find_request mem row only]
  exact decideRequest_late config _

/-- An entry of the miss list leaves a place (R111). -/
theorem fetched_room {b : Bucket} {read : Option (List Byte)} {e : MissEntry} {s : State} (mem : e ∈ s.clu.missList)
    (bucket : e.bucket = b) (most : s.clu.missList.length ≤ 8) : (s.fetched b read e).clu.missList.length < 8 := by
  obtain ⟨_, buckets, _⟩ := fetched_spec b read e s
  have length := congrArg List.length buckets
  rw [List.length_map] at length
  rw [length]
  refine Nat.lt_of_lt_of_le (List.length_filter_lt_length_iff_exists.mpr ⟨b, ?_, by simp⟩) (by rw [List.length_map]; exact most)
  exact bucket ▸ List.mem_map_of_mem mem

/-- Settles O35: what is read is installed, who waited is decided, and the freed place is given to the oldest in the slot-wait order. -/
theorem missListIsServed : Obligations.MissListIsServed := by
  unfold Obligations.MissListIsServed
  refine ⟨?_, ?_, ?_, ?_, ?_⟩
  · intro b e read s running port mem bucket granted once empty held
    have ended := endFetch_of port mem bucket granted once held
    obtain ⟨blocks, buckets, slotWait, requests⟩ := fetched_spec b (s.memory.access (bucketAddress b) 64 read).2 e (freePort s)
    have nobody : ((freePort s).fetched b (s.memory.access (bucketAddress b) 64 read).2 e).clu.slotWait = [] :=
      List.sublist_nil.mp (empty ▸ slotWait)
    rw [serveSlotWait_empty nobody] at ended
    have clu := (congrArg State.clu blocks :)
    have unread := congrArg State.clu (bucketRead_blocks (s.memory.access (bucketAddress b) 64 read).2 e (freePort s))
    refine ⟨_, (whenRunning_running running).trans (congrArg _ ended), (congrArg State.rmi blocks :), buckets, ?_, fun w waits q left => ?_,
      fun q pending others => ?_, fun stale => ?_, fun failed => ?_, (congrArg State.memory blocks :), (congrArg State.rm blocks :),
      (congrArg State.ft blocks :), (congrArg State.tk blocks :)⟩
    · have counted := congrArg CardLookup.memoryErrors clu
      refine counted.trans ((congrArg CardLookup.memoryErrors unread).trans ?_)
      rcases held with rfl | rfl <;> rfl
    · rw [requests, List.mem_filter, List.all_eq_true] at left
      simpa using left.2 w waits
    · rw [requests, List.mem_filter, List.all_eq_true]
      exact ⟨pending, fun w waits => by simpa using Ne.symm (others w waits)⟩
    · have kept := congrArg CardLookup.entries clu
      rw [bucketRead_stale stale] at kept
      exact kept
    · have kept := congrArg CardLookup.entries clu
      rw [failed, show (s.memory.access (bucketAddress b) 64 .failed).2 = none from rfl, bucketRead_failed] at kept
      rw [failed]
      exact kept
  · intro b e w q c read s running port mem bucket granted once empty held waiting wanted pending row only config slots
    have ended := endFetch_of port mem bucket granted once held
    obtain ⟨blocks, _, slotWait, _⟩ := fetched_spec b (s.memory.access (bucketAddress b) 64 read).2 e (freePort s)
    have nobody : ((freePort s).fetched b (s.memory.access (bucketAddress b) 64 read).2 e).clu.slotWait = [] :=
      List.sublist_nil.mp (empty ▸ slotWait)
    rw [serveSlotWait_empty nobody] at ended
    have readSlots : readBucket (s.memory.access (bucketAddress b) 64 read).2 = slots := by rcases held with rfl | rfl <;> rfl
    refine ⟨_, (whenRunning_running running).trans (congrArg _ ended), ?_, fun card fresh law found => ?_⟩
    · have unread := bucketRead_blocks (s.memory.access (bucketAddress b) 64 read).2 e (freePort s)
      have decides : ((freePort s).bucketRead (s.memory.access (bucketAddress b) 64 read).2 e).decides q c (searchBucket slots w.card)
          (answerWaiter (searchBucket slots) w ((freePort s).bucketRead (s.memory.access (bucketAddress b) 64 read).2 e)) := by
        refine answerWaiter_decides ?_ row ?_ ?_
        · rw [unread]; exact pending
        · rw [unread]; exact only
        · rw [unread]; exact config
      have freed : s.decides q c (searchBucket slots w.card)
          (answerWaiter (searchBucket slots) w ((freePort s).bucketRead (s.memory.access (bucketAddress b) 64 read).2 e)) := by
        rw [unread] at decides ⊢
        exact decides_of (s := s) decides rfl rfl rfl
      unfold State.fetched
      rw [waiting, readSlots]
      exact decides_of (s := s) (clu := s.clu) freed rfl rfl rfl
    · obtain ⟨i, find, entry, recent⟩ := bucketRead_installed (s := freePort s) fresh wanted (readSlots ▸ found) (law.of_cache rfl rfl)
      have clu := (congrArg State.clu blocks :)
      have entries := (congrArg CardLookup.entries clu :)
      refine ⟨i, ?_, entries.symm ▸ entry, (congrArg CardLookup.recency clu :).symm ▸ recent⟩
      unfold cacheFind at find ⊢
      rw [entries]
      exact find
  · intro b e w rest read s running port mem bucket granted once most waiting nobody absent which
    have held : read = .asHeld ∨ read = .failed := which.imp And.left id
    have ended := endFetch_of port mem bucket granted once held
    have unread : ∃ n, (freePort s).bucketRead (s.memory.access (bucketAddress b) 64 read).2 e =
        { freePort s with clu := { s.clu with memoryErrors := n } } := by
      rcases which with ⟨_, stale⟩ | failed
      · exact ⟨_, bucketRead_stale stale _ (freePort s)⟩
      · exact ⟨_, by rw [failed]; exact bucketRead_failed e (freePort s)⟩
    obtain ⟨n, unread⟩ := unread
    have left : (freePort s).fetched b (s.memory.access (bucketAddress b) 64 read).2 e =
        { freePort s with clu := { s.clu with memoryErrors := n, missList := s.clu.missList.filter (·.bucket != b) } } := by
      unfold State.fetched
      rw [nobody, unread]
      rfl
    have room := fetched_room (read := (s.memory.access (bucketAddress b) 64 read).2) (s := freePort s) mem bucket most
    rw [left] at ended room
    exact ⟨_, (whenRunning_running running).trans (congrArg _ ended), serveSlotWait_placed waiting room absent⟩
  · intro w i card q c s running waiting room found entry pending row only config
    let cleared : State := { s with clu := { s.clu with slotWait := [], recency := i :: s.clu.recency.filter (· != i) } }
    have served : serveSlotWait s = answerWaiter (fun _ => .found card) w cleared := by
      rw [serveSlotWait, waiting]
      exact placeSlotWaiting_found 0 waiting room found entry
    obtain ⟨answered, _⟩ := answerWaiter_spec (fun _ => .found card) w cleared
    have blocks := answered.blocks
    have decides : cleared.decides q c (.found card) (answerWaiter (fun _ => .found card) w cleared) :=
      answerWaiter_decides (ans := fun _ => .found card) pending row only config
    refine ⟨_, (whenRunning_running running).trans (congrArg _ served), decides_of (s := s) decides rfl rfl rfl,
      List.sublist_nil.mp answered.slotWait, (congrArg (fun t : State => t.clu.entries) blocks :),
      (congrArg (fun t : State => t.clu.recency) blocks :), (congrArg (fun t : State => t.clu.hits) blocks :), answered.buckets,
      (congrArg State.rmi blocks :), (congrArg State.memory blocks :)⟩
  · intro w rest s running waiting room absent
    exact ⟨_, whenRunning_running running, serveSlotWait_placed waiting room absent⟩

end Sys2Proof.Machine
end

