-- ==== Sys2Proof/Proofs/Timeout.lean ====
section
/-! Proofs about an access that is not finished in time and about read-backs that differ (9.1, 11.4). -/

namespace Sys2Proof.Machine

section
variable {read : MemRead} {left : Residue} {s : State}

theorem exec_timeout (running : s.hold = .running) :
    exec (.memoryAccessTimeout read left) s = .next (failAccess read left s) := whenRunning_running running

theorem failAccess_none (port : s.rmi.port = none) : failAccess read left s = s := by
  unfold failAccess
  rw [port]

theorem failAccess_identification (port : s.rmi.port = some .identification) :
    failAccess read left s = endIdentification none s := by
  unfold failAccess
  rw [port]

theorem failAccess_header (port : s.rmi.port = some .header) : failAccess read left s = endHeader .failed s := by
  unfold failAccess
  rw [port]

theorem failAccess_record (port : s.rmi.port = some .record) : failAccess read left s = endRecord .failed s := by
  unfold failAccess
  rw [port]

theorem failAccess_fetch {b : Bucket} {discarded : Bool} (port : s.rmi.port = some (.fetch b discarded)) :
    failAccess read left s = endFetch .failed s := by
  unfold failAccess
  rw [port]

theorem failAccess_write {e : WriteEntry} {rest : List WriteEntry} (port : s.rmi.port = some .write)
    (queue : s.rmi.queue = e :: rest) :
    (∀ b, e.body.bucket = some b →
      failAccess read left s = endCardWrite (readBeforeTimeout e.body b read s.memory) (.failed left) s) ∧
    (∀ target contents values, e.body = .record target contents values → failAccess read left s = endRecordWrite (.failed left) s) ∧
    (∀ kind : OwnWrite, e.body = kind.body → exec (.memoryAccessTimeout read left) s = exec (kind.completes (.failed left)) s) := by
  have active := activeWrite_of port queue
  refine ⟨fun b bucket => ?_, fun target contents values body => ?_, fun kind body => ?_⟩
  · unfold failAccess
    rw [port, active]
    cases body : e.body with
    | cardPut r =>
      rw [body] at bucket
      simp only [body, Option.some.inj bucket]
    | cardDrop n =>
      rw [body] at bucket
      simp only [body, Option.some.inj bucket]
    | record t c v => rw [body] at bucket; cases bucket
    | header => rw [body] at bucket; cases bucket
    | format => rw [body] at bucket; cases bucket
  · unfold failAccess
    rw [port, active]
    simp only [body]
  · have fails : failAccess read left s = match kind with
        | .header => endHeaderWrite (.failed left) s
        | .format => endFormat (.failed left) s := by
      unfold failAccess
      rw [port, active]
      cases kind <;> rw [OwnWrite.body] at body <;> simp only [body]
    change whenRunning (failAccess read left) s = _
    cases kind
    · change _ = whenRunning (endHeaderWrite (.failed left)) s
      unfold whenRunning
      rw [fails]
    · change _ = whenRunning (endFormat (.failed left)) s
      unfold whenRunning
      rw [fails]

end

/-! ### A failed read of a record (R183) -/

theorem endRecord_failed {n : Nat} {t : RecordTarget} {s : State} (port : s.rmi.port = some .record)
    (progress : s.rmi.progress = .records n) (target : targetAt n = some t) (more : n < 302) :
    endRecord .failed s = s.recordBad n t.kind := by
  unfold endRecord
  simp only [port, progress, target]
  rw [if_pos (by simp [Config.imageRecords]; omega)]
  rfl

/-! ### A card write that is not finished in time (R174) -/

theorem readBeforeTimeout_failed (body : WriteBody) (b : Bucket) (m : Memory) : readBeforeTimeout body b .failed m = .failed := by
  unfold readBeforeTimeout
  split <;> rfl

theorem readBeforeTimeout_asHeld (body : WriteBody) (b : Bucket) (m : Memory) : readBeforeTimeout body b .asHeld m =
    if (cardWrites body (heldSlots m b)).2 = [] then .failed else .asHeld := by
  unfold readBeforeTimeout
  exact if_congr List.isEmpty_iff rfl rfl

/-! ### Read-backs (R210) -/

theorem agrees_iff {u : MemUnit} {returned : List Byte} (length : returned.length = u.bytes.length) :
    u.agrees returned = true ↔ returned = u.bytes := by
  rw [MemUnit.agrees, padTo_of_le (by omega), length, Nat.sub_self, List.replicate_zero, List.append_nil, beq_iff_eq]

/-- Units that read back as they were written, before others. -/
theorem writeCompared_append : ∀ (before after : List MemUnit) (more : List (List Byte)) (m : Memory),
    m.writeCompared (before ++ after) (before.map (·.bytes) ++ more) = (m.writeUnits before).writeCompared after more
  | [], _, _, _ => rfl
  | u :: before, after, more, m => by
    have same : u.agrees u.bytes = true := (agrees_iff rfl).mpr rfl
    rw [List.cons_append, List.map_cons, List.cons_append, Memory.writeCompared, if_pos same, writeCompared_append before after more]
    rfl

theorem perform_differs {before after : List MemUnit} {u : MemUnit} {returned : List Byte} {more : List (List Byte)} {m : Memory}
    (length : returned.length = u.bytes.length) (differs : returned ≠ u.bytes) :
    m.perform (before ++ u :: after) (.readBack (before.map (·.bytes) ++ returned :: more)) =
      m.perform (before ++ u :: after) (.failed { completed := before.length, left := returned }) := by
  have disagrees : ¬u.agrees returned = true := (agrees_iff length).not.mpr differs
  have whole : padTo u.bytes.length returned = returned := by
    rw [padTo_of_le (by omega), length, Nat.sub_self, List.replicate_zero, List.append_nil]
  have cut : returned.take u.bytes.length = returned := List.take_of_length_le (by omega)
  rw [Memory.perform, writeCompared_append, Memory.writeCompared, if_neg disagrees, whole, Memory.perform, Memory.writeCut,
    List.take_left, List.drop_left]
  simp only [cut]

theorem perform_agrees {before : List MemUnit} {u : MemUnit} {returned : List Byte} {m : Memory}
    (length : returned.length = u.bytes.length) (same : returned = u.bytes) :
    m.perform (before ++ [u]) (.readBack (before.map (·.bytes) ++ [returned])) = m.perform (before ++ [u]) .done := by
  have compared := writeCompared_append before [u] [returned] m
  rw [Memory.writeCompared, if_pos ((agrees_iff length).mpr same)] at compared
  refine compared.trans (congrArg (·, true) ?_)
  simp [Memory.writeUnits]

/-- Settles O39: a timeout is the failed end of the operation on the port, and a read-back that differs is a write cut at its unit. -/
theorem accessTimeoutFails : Obligations.AccessTimeoutFails := by
  unfold Obligations.AccessTimeoutFails
  refine ⟨?_, fun before u after returned more m length => ⟨perform_differs length, perform_agrees length⟩, ?_⟩
  · intro read left s running outcome counted
    have timeout : outcome = .next (failAccess read left s) := exec_timeout running
    refine ⟨fun port => ?_, fun port => ?_, fun failures port progress few => ?_, fun port => ?_, fun port => ?_, fun port => ?_,
      fun n t port progress more target => ?_, fun b port => ?_, fun b port => ?_, fun b e port mem bucket granted once => ?_,
      fun target contents values who busy rest port remake queue => ?_, fun b e who rest port remake queue reply bucket => ?_,
      fun kind busy rest port remake queue => ?_⟩
    · rw [timeout, failAccess_none port]
    · rw [timeout, failAccess_identification port]
      exact (whenRunning_running running).symm
    · rw [timeout, failAccess_identification port, endIdentification_of port progress, if_neg (by simp [isIdentified]),
        if_pos (by omega)]
    · rw [timeout, failAccess_header port]
      exact (whenRunning_running running).symm
    · rw [timeout, failAccess_header port, endHeader_of port]
      rfl
    · rw [timeout, failAccess_record port]
      exact (whenRunning_running running).symm
    · rw [timeout, failAccess_record port, endRecord_failed port progress target more]
      rfl
    · rw [timeout, failAccess_fetch port]
      unfold endFetch
      rw [port]
      rfl
    · rw [timeout, failAccess_fetch port]
      exact (whenRunning_running running).symm
    · have ended := endFetch_of port mem bucket granted once (.inr rfl)
      obtain ⟨blocks, _, _, requests⟩ := fetched_spec b (s.memory.access (bucketAddress b) 64 .failed).2 e (freePort s)
      obtain ⟨rmi, memory, errors, entries, rows⟩ :=
        serveSlotWait_served ((freePort s).fetched b (s.memory.access (bucketAddress b) 64 .failed).2 e)
      rw [show (s.memory.access (bucketAddress b) 64 .failed).2 = none from rfl] at ended blocks requests rmi memory errors entries rows
      rw [bucketRead_failed] at blocks
      refine ⟨_, by rw [timeout, failAccess_fetch port, ended], rmi.trans (congrArg State.rmi blocks :), errors.trans ?_,
        memory.trans (congrArg State.memory blocks :), entries.trans (congrArg (fun t : State => t.clu.entries) blocks :), fun w waits q left => ?_⟩
      · exact (congrArg (fun t : State => t.clu.memoryErrors) blocks :)
      · obtain ⟨p, hp, row⟩ := rows q left
        rw [requests, List.mem_filter, List.all_eq_true] at hp
        rw [← row]
        simpa using hp.2 w waits
    · rw [timeout, (failAccess_write port queue).2.1 target contents values rfl, endRecordWrite_of port queue]
      simp only [Memory.perform, Memory.writeCut_one]
      refine congrArg _ (Eq.trans ?_ recordWrite_answered)
      exact congrArg (fun u => replyWrite (some who) .memoryFault (.persisted false) (applyParams values u)) (endWrite_last queue remake)
    · intro slots units failed
      have fails := (failAccess_write (read := read) (left := left) port queue).1 b bucket
      refine ⟨fun how => ?_, fun asHeld writes => ?_⟩
      · have readFailed : readBeforeTimeout e.body b read s.memory = .failed := by
          rcases how with rfl | ⟨rfl, nothing⟩
          · exact readBeforeTimeout_failed _ _ _
          · rw [readBeforeTimeout_asHeld]
            exact if_pos nothing
        rw [timeout, fails, readFailed, endCardWrite_failedRead port queue reply bucket remake]
        rfl
      · have readHeld : readBeforeTimeout e.body b read s.memory = .asHeld := by
          rw [asHeld, readBeforeTimeout_asHeld]
          exact if_neg writes
        rw [timeout, fails, readHeld, endCardWrite_failedWrite port queue reply bucket remake writes]
        rfl
    · have same := (failAccess_write (read := read) (left := left) port queue).2.2 kind rfl
      refine ⟨?_, fun room => ?_⟩
      · cases kind <;> exact same
      · have remade := (exec_ownWrite running port queue (.failed left)).trans (congrArg _ (endOwnWrite_remade (r := left) remake queue room))
        cases kind <;> exact same.trans remade
  · intro target contents values who busy rest returned s running port queue length
    have ends (write : MemWrite) := (whenRunning_running running).trans (congrArg Host.Outcome.next (endRecordWrite_of port queue write))
    have same : s.memory.perform [{ address := recordAddress target.imageIndex, bytes := contents }] (.readBack [returned]) =
        s.memory.perform [{ address := recordAddress target.imageIndex, bytes := contents }]
          (if returned = contents then .done else .failed { completed := 0, left := returned }) := by
      by_cases agrees : returned = contents
      · rw [if_pos agrees]
        exact perform_agrees (before := []) length agrees
      · rw [if_neg agrees]
        exact perform_differs (before := []) (after := []) (more := []) length agrees
    refine (ends _).trans (Eq.trans ?_ (ends _).symm)
    rw [same]

end Sys2Proof.Machine
end

