-- ==== Sys2Proof/Proofs/Requests.lean ====
section
/-! Proofs about a DEPOSIT_REQUEST (7.2): the container checks, the room check, and what the card makes of the request. -/

namespace Sys2Proof.Machine

/-! ### The container checks (R123) -/

theorem containerAt_bay {a : Station} {bay : Bay} {r : Row} {c : ContainerConfig} {s : State}
    (found : containerAt s a bay.val = some r) (config : configOf s r = some c) : c.bay = bay := by
  obtain ⟨d, config', _, place⟩ := containerAt_some found
  rw [config] at config'
  exact Option.some.inj config' ▸ Fin.ext place

theorem chuteBusy_iff {s : State} {r : Row} : chuteBusy s r = false ↔ s.idle r := by
  simp only [chuteBusy, State.idle, Bool.or_eq_false_iff, List.any_eq_false, beq_iff_eq, Option.isSome_eq_false_iff,
    Option.isNone_iff_eq_none]

section
variable {a : Station} {bay : Bay} {n : Number} {tag : Byte} {r : Row} {c : ContainerConfig} {s : State}

theorem depositRequest_nowhere {bay : Byte} (nowhere : containerAt s a bay.toNat = none) :
    depositRequest a bay n tag s = sendDeny a bay tag .outOfUse none s := by
  unfold depositRequest
  simp only [nowhere]

variable (found : containerAt s a bay.val = some r) (config : configOf s r = some c)
include found config

theorem depositRequest_standing {reason : DenyReason} (denied : standingDenial s r c = some reason) :
    depositRequest a (BitVec.ofNat 8 bay.val) n tag s =
      sendDeny a (BitVec.ofNat 8 bay.val) tag reason (redirectFor s r c.cluster) s := by
  have bay8 : (BitVec.ofNat 8 bay.val).toNat = bay.val := by rw [BitVec.toNat_ofNat]; omega
  unfold depositRequest
  simp only [bay8, found, config, denied]

theorem depositRequest_stands (passed : standingDenial s r c = none) :
    depositRequest a (BitVec.ofNat 8 bay.val) n tag s =
      if chuteBusy s r then sendDeny a (BitVec.ofNat 8 bay.val) tag .busyChute none s
      else if chuteFull s r c then sendDeny a (BitVec.ofNat 8 bay.val) tag .full (redirectFor s r c.cluster) s
      else admitRequest a bay r n tag s := by
  have bay8 : (BitVec.ofNat 8 bay.val).toNat = bay.val := by rw [BitVec.toNat_ofNat]; omega
  unfold depositRequest
  simp only [bay8, found, config, passed, containerAt_bay found config]

end

/-! ### The lookup of the card (R106) -/

/-- A request that has just come (R124). -/
def newRequest (a : Station) (bay : Bay) (r : Row) (n : Number) (tag : Byte) (s : State) : Request :=
  { row := r, station := a, bay := bay, tag := tag, card := n, arrival := s.tk.seconds, phase := .waitFetch }

/-- A state with the request on the pending list. -/
def State.asking (q : Request) (s : State) : State := { s with au := { s.au with requests := s.au.requests ++ [q] } }

theorem admitRequest_room {a : Station} {bay : Bay} {r : Row} {n : Number} {tag : Byte} {s : State} (room : s.au.requests.length < 16) :
    admitRequest a bay r n tag s = lookupCard (newRequest a bay r n tag s) (s.asking (newRequest a bay r n tag s)) :=
  if_neg (by simp only [Config.requestPlaces]; omega)

section
variable {q : Request} {c : ContainerConfig} {s : State}

theorem lookupCard_invalid (invalid : validNumber q.card = false) (config : configOf s q.row = some c) :
    lookupCard q s = denyRequest q .unknownCard none s := by
  simp [lookupCard, invalid, decideRequest, config]

theorem lookupCard_memoryAbsent (valid : validNumber q.card = true) (absent : s.rmi.absent = true) (config : configOf s q.row = some c) :
    lookupCard q s =
      denyRequest q .memoryFault none { s with clu := { s.clu with misses := bump s.clu.misses } } := by
  have same : configOf { s with clu := { s.clu with misses := bump s.clu.misses } } q.row = some c := config
  simp [lookupCard, valid, absent, decideRequest, same]

theorem lookupCard_hit {i : Fin 32} {card : CardRecord} (valid : validNumber q.card = true) (present : s.rmi.absent = false)
    (hit : cacheFind s.clu q.card = some i) (entry : s.clu.entries.get i = some card) (config : configOf s q.row = some c) :
    lookupCard q s = decideFound q c card
      { s with clu := { s.clu with recency := i :: s.clu.recency.filter (· != i), hits := bump s.clu.hits } } := by
  have touched : (s.clu.touch i).entries.get i = some card := entry
  simp only [lookupCard, valid, present, hit, touched, Bool.not_true, Bool.false_eq_true, if_false]
  exact decideRequest_found (c := c)
    (s := { s with clu := { s.clu with recency := i :: s.clu.recency.filter (· != i), hits := bump s.clu.hits } }) config card

theorem lookupCard_miss (valid : validNumber q.card = true) (present : s.rmi.absent = false) (miss : cacheFind s.clu q.card = none) :
    lookupCard q s = placeMiss { row := q.row, card := q.card } { s with clu := { s.clu with misses := bump s.clu.misses } } := by
  simp only [lookupCard, valid, present, miss, Bool.not_true, Bool.false_eq_true, if_false]

end

/-! ### A request of a container without one (R107, R129, R130) -/

section
variable {q : Request} {s : State} (alone : ∀ x ∈ s.au.requests, x.row ≠ q.row)
include alone

theorem filter_alone : s.au.requests.filter (·.row != q.row) = s.au.requests :=
  List.filter_eq_self.mpr fun x mem => by simpa using alone x mem

theorem filter_asking : (s.asking q).au.requests.filter (·.row != q.row) = s.au.requests := by
  have here : [q].filter (·.row != q.row) = [] := by simp
  exact (List.filter_append _ _).trans (by rw [filter_alone alone, here, List.append_nil])

/-- A request denied as soon as it has come leaves the list as it was. -/
theorem denied_asking : (s.asking q).au.denying q.row = { s.au with denials := min 65535 (s.au.denials + 1) } := by
  rw [AdmissionUnit.denying, filter_asking alone]
  rfl

theorem placeMiss_new (waits : q.phase = .waitFetch) (fewer : s.clu.missList.length < 8)
    (other : ∀ e ∈ s.clu.missList, e.bucket ≠ bucketOf q.card) :
    placeMiss { row := q.row, card := q.card } (s.asking q) = { s.asking q with clu := { s.clu with missList := s.clu.missList ++
      [{ bucket := bucketOf q.card, waiting := [{ row := q.row, card := q.card }], wanted := [q.card], granted := false,
         stale := false }] } } := by
  have unlisted : (s.clu.missList.any (·.bucket == bucketOf q.card)) = false := by
    rw [List.any_eq_false]
    intro e mem
    simpa using other e mem
  have phases : ((s.asking q).au.requests.map fun x => if x.row = q.row then { x with phase := .waitFetch } else x) =
      (s.asking q).au.requests := by
    refine (List.map_congr_left fun x mem => ?_).trans (List.map_id _)
    rcases List.mem_append.mp mem with before | here
    · exact if_neg (alone x before)
    · rw [List.mem_singleton.mp here, if_pos rfl, ← waits]
      rfl
  have room : s.clu.missList.length < Config.missPlaces := fewer
  unfold placeMiss
  simp only [State.asking, unlisted, Bool.false_eq_true, if_false, room, if_true, setPhase] at phases ⊢
  rw [phases]
  rfl

/-- A decision on a request just come is one on the list without it. -/
theorem decidesCard_asking {c : ContainerConfig} {card : CardRecord} {clu : CardLookup} {t : State}
    (decides : State.decidesCard { s.asking q with clu := clu } q c card t) : s.decidesCard q c card t := by
  have verdict : State.cardVerdict { s.asking q with clu := clu } q.row c card = s.cardVerdict q.row c card := rfl
  have left := (filter_asking alone).trans (filter_alone alone).symm
  simp only [State.asking] at left
  unfold State.decidesCard at decides ⊢
  unfold State.denies at decides ⊢
  rw [verdict] at decides
  simp only [State.asking, left] at decides
  exact decides

end

/-! ### A card that passes every check (R127, R128) -/

/-- The card checks passed (R127). -/
structure CardPasses (s : State) (c : ContainerConfig) (card : CardRecord) : Prop where
  active : card.status = .active
  expiry : s.tk.wall.valid = true → ∀ d ∈ card.expiry, s.tk.wall.day ≤ d
  start : s.tk.wall.valid = true → ∀ d ∈ card.start, d ≤ s.tk.wall.day
  right : inMask card.rights c.fraction.val = true
  home : ∀ h ∈ card.home, h = c.cluster
  hours : windowsEnforced s = true → windowCovers s c.fraction card.cls = true

theorem cardDenial_passes {s : State} {c : ContainerConfig} {card : CardRecord} (passes : CardPasses s c card) :
    cardDenial s c card = none := by
  obtain ⟨active, expiry, start, right, home, hours⟩ := passes
  have notExpired : (s.tk.wall.valid && card.expiry.any fun d => decide (d < s.tk.wall.day)) = false := by
    cases valid : s.tk.wall.valid with
    | false => rfl
    | true =>
      cases d : card.expiry with
      | none => rfl
      | some d' => simpa using expiry valid d' d
  have notEarly : (s.tk.wall.valid && card.start.any fun d => decide (s.tk.wall.day < d)) = false := by
    cases valid : s.tk.wall.valid with
    | false => rfl
    | true =>
      cases d : card.start with
      | none => rfl
      | some d' => simpa using start valid d' d
  have atHome : (card.home.any fun h => h != c.cluster) = false := by
    cases h : card.home with
    | none => rfl
    | some h' => simpa using home h' h
  have open_ : (windowsEnforced s && !windowCovers s c.fraction card.cls) = false := by
    cases enforced : windowsEnforced s with
    | false => rfl
    | true => rw [hours enforced]; rfl
  simp only [cardDenial, active, notExpired, notEarly, right, atHome, open_, ne_eq, not_true_eq_false, if_false, Bool.not_true,
    Bool.false_eq_true]

theorem cardVerdict_charged {s : State} {r : Row} {c : ContainerConfig} {card : CardRecord} (passes : CardPasses s c card)
    (loaded : (s.au.accounts.get card.account).loaded = true) (free : (s.au.accounts.get card.account).blocked = false)
    (pays : (s.au.classes.get card.cls).exempt = false)
    (enough : -((s.au.accounts.get card.account).limit : Int) ≤
      (s.au.accounts.get card.account).balance - (s.au.accounts.get card.account).held - s.au.costs.get c.fraction) :
    s.cardVerdict r c card = .ok (.charged, s.au.costs.get c.fraction) := by
  have account : accountVerdict s c card = .ok (.charged, s.au.costs.get c.fraction) := by
    simp only [accountVerdict, loaded, free, pays, and_false, Bool.false_eq_true, if_false, Bool.not_true]
    exact if_neg (not_lt.mpr enough)
  rw [cardVerdict_eq, cardDenial_passes passes, account]
  rfl

/-! ### The obligation -/

/-- The state once a hit has been decided. -/
def State.hitDecided (q : Request) (c : ContainerConfig) (card : CardRecord) (i : Fin 32) (s : State) : State :=
  decideFound q c card { s.asking q with clu := { s.clu with recency := i :: s.clu.recency.filter (· != i), hits := bump s.clu.hits } }

theorem hitDecided_spec {q : Request} {c : ContainerConfig} {card : CardRecord} {i : Fin 32} {s : State}
    (alone : ∀ x ∈ s.au.requests, x.row ≠ q.row) : let t := s.hitDecided q c card i
    s.decidesCard q c card t ∧ t.clu.entries = s.clu.entries ∧ t.clu.recency = i :: s.clu.recency.filter (· != i) ∧
      t.clu.hits = min 65535 (s.clu.hits + 1) ∧ t.clu.misses = s.clu.misses ∧ t.tk = s.tk ∧ t.ft = s.ft ∧ t.rm = s.rm ∧
      t.rmi = s.rmi ∧ t.memory = s.memory := by
  obtain ⟨decides, decided⟩ := decideFound_decides q c card
    { s.asking q with clu := { s.clu with recency := i :: s.clu.recency.filter (· != i), hits := bump s.clu.hits } }
  have blocks := decided.blocks
  have clu := (congrArg State.clu blocks :)
  exact ⟨decidesCard_asking alone decides, (congrArg CardLookup.entries clu :), (congrArg CardLookup.recency clu :),
    (congrArg CardLookup.hits clu :), (congrArg CardLookup.misses clu :), (congrArg State.tk blocks :), (congrArg State.ft blocks :),
    (congrArg State.rm blocks :), (congrArg State.rmi blocks :), (congrArg State.memory blocks :)⟩

/-- Settles O48: the checks are made in their order, and a request that passes them is decided by its card or waits for its bucket. -/
theorem depositRequestIsJudged : Obligations.DepositRequestIsJudged := by
  unfold Obligations.DepositRequestIsJudged
  refine ⟨fun a flags bay n tag s running polling awake nowhere => ?_,
    fun a flags bay n tag r c s running polling awake found config => ?_⟩
  · rw [exec_answer (.depositRequest bay n tag) running, loopAnswer_awake polling awake]
    refine congrArg _ ((depositRequest_nowhere (s := s.heard a flags) nowhere).trans ?_)
    rw [sendDeny_eq]
    rfl
  · intro u outcome deny denied full
    have judged : outcome = .next (depositRequest a (BitVec.ofNat 8 bay.val) n tag u) := by
      simp only [outcome]
      rw [exec_answer (.depositRequest _ n tag) running, loopAnswer_awake polling awake]
      rfl
    have denies (reason : DenyReason) (redirect : Option Redirect)
        (is : depositRequest a (BitVec.ofNat 8 bay.val) n tag u = sendDeny a (BitVec.ofNat 8 bay.val) tag reason redirect u) :
        denied reason redirect := by
      simp only [denied]
      rw [judged, is, sendDeny_eq]
      rfl
    have standing := standingDenial_eq u r c
    have passes (on : c.enabled = true) (idle : serviceOf s r = .inUse) : standingDenial u r c = none := by
      have idle' : ¬serviceOf u r ≠ .inUse := not_not.mpr idle
      rw [standing, if_neg (by rw [on]; decide), if_neg idle']
    refine ⟨fun off => denies _ _ ?_, fun on busy => denies _ _ ?_, fun on idle open_ => denies _ _ ?_, fun on idle free isFull =>
      denies _ _ ?_, fun on idle free notFull => ?_⟩
    · exact depositRequest_standing (s := u) found config (by rw [standing, if_pos off])
    · have busy' : serviceOf u r ≠ .inUse := busy
      exact depositRequest_standing (s := u) found config (by rw [standing, if_neg (by rw [on]; decide), if_pos busy'])
    · have busy : chuteBusy u r = true := by
        rw [← Bool.not_eq_false, chuteBusy_iff]
        exact open_
      rw [depositRequest_stands (s := u) found config (passes on idle), if_pos busy]
    · have notBusy : ¬chuteBusy u r = true := by
        rw [Bool.not_eq_true, chuteBusy_iff]
        exact free
      rw [depositRequest_stands (s := u) found config (passes on idle), if_neg notBusy, if_pos ((chuteFull_iff (s := u)).mpr isFull)]
    · have notBusy : ¬chuteBusy u r = true := by
        rw [Bool.not_eq_true, chuteBusy_iff]
        exact free
      have admitted : depositRequest a (BitVec.ofNat 8 bay.val) n tag u = admitRequest a bay r n tag u := by
        rw [depositRequest_stands (s := u) found config (passes on idle), if_neg notBusy, if_neg ((chuteFull_iff (s := u)).not.mpr notFull)]
      obtain ⟨alone, noDeposit⟩ := free
      let q : Request := newRequest a bay r n tag u
      have looked (room : s.au.requests.length < 16) : outcome = .next (lookupCard q (u.asking q)) := by
        rw [judged, admitted, admitRequest_room (s := u) room]
      have hit {i : Fin 32} {card : CardRecord} (room : s.au.requests.length < 16) (h0 : n ≠ 0) (h1 : n ≠ 0xFFFFFFFF)
          (present : s.rmi.absent = false) (find : cacheFind s.clu n = some i) (entry : s.clu.entries.get i = some card) :
          outcome = .next (u.hitDecided q c card i) := by
        rw [looked room, lookupCard_hit (q := q) (s := u.asking q) (validNumber_iff.mpr ⟨h0, h1⟩) present find entry config]
        rfl
      refine ⟨fun many => denies _ _ ?_, ?_, ?_, ?_, ?_, ?_⟩
      · rw [admitted]
        exact if_pos many
      · intro i card room h0 h1 present find entry active expiry start right home hours account cost loaded open_ pays enough
        obtain ⟨decides, entries, recency, hits, misses, tk, ft, rm, rmi, memory⟩ :=
          hitDecided_spec (q := q) (c := c) (card := card) (i := i) (s := u) alone
        have verdict := cardVerdict_charged (s := u) (r := r) ⟨active, expiry, start, right, home, hours⟩ loaded open_ pays enough
        obtain ⟨card', entry', number⟩ := cacheFind_some find
        rw [entry] at entry'
        obtain rfl := Option.some.inj entry'
        unfold State.decidesCard at decides
        rw [show u.cardVerdict q.row c card = .ok (.charged, cost) from verdict] at decides
        obtain ⟨slc, tp, au⟩ := decides
        refine ⟨_, hit room h0 h1 present find entry, slc, ?_, entries, recency, hits, misses, tk, ft, rm, rmi, tp, memory⟩
        have row : u.slc.rows.get a = { s.slc.rows.get a with miss := 0, due := false, raised := morePending flags } :=
          Table.get_update_self _ _ _
        have serves : (u.slc.rows.get q.station).state ∈ [.awake, .dozing, .silent, .absent] := by
          rw [show q.station = a from rfl, row, awake]
          simp
        have queue : (u.slc.rows.get q.station).queue = (s.slc.rows.get a).queue := by rw [show q.station = a from rfl, row]
        have left : u.au.requests.filter (·.row != q.row) = s.au.requests := filter_alone (s := u) alone
        have emptied : u.au.deposits.set q.row none = s.au.deposits := by
          rw [← noDeposit]
          exact Table.set_get_self _ _
        rw [au, if_pos serves, queue, left, emptied, number]
        split <;> rfl
      · intro room h0 h1 present find fewer other
        rw [looked room, lookupCard_miss (q := q) (s := u.asking q) (validNumber_iff.mpr ⟨h0, h1⟩) present find]
        exact congrArg _ (placeMiss_new (s := { u with clu := { u.clu with misses := bump u.clu.misses } }) (q := q) alone rfl fewer other)
      · intro room invalid
        refine ⟨_, by rw [looked room, lookupCard_invalid (q := q) (s := u.asking q) (validNumber_eq_false_iff.mpr invalid) config], ?_⟩
        rw [denyRequest_eq]
        exact ⟨⟨rfl, denied_asking alone, rfl, rfl, rfl, rfl, rfl, rfl, rfl⟩, rfl⟩
      · intro room h0 h1 absent
        refine ⟨_, by rw [looked room, lookupCard_memoryAbsent (q := q) (s := u.asking q) (validNumber_iff.mpr ⟨h0, h1⟩) absent config], ?_⟩
        rw [denyRequest_eq]
        exact ⟨⟨rfl, denied_asking alone, rfl, rfl, rfl, rfl, rfl, rfl, rfl⟩, rfl⟩
      · intro i card room h0 h1 present find entry q'
        exact ⟨_, hit room h0 h1 present find entry, hitDecided_spec alone⟩

end Sys2Proof.Machine
end

