-- ==== Sys2Proof/Proofs/Samples.lean ====
section
/-! Proofs about a LEVEL_SAMPLE (4.2 to 4.6, 5.3, 8.7): its stages, each field as the chapter gives it, and the overflow insertion. -/

namespace Sys2Proof.Machine

/-! ### The stages of a plausible sample (R63 to R69) -/

/-- A plausible sample begins afresh (R63, R65). -/
def Fill.afresh (f : Fill) : Prop := f.fresh = true ∨ f.health = .fault

/-- The dynamic part after the interim level has been settled (R63 to R67). -/
def Fill.levelled (level k : Nat) (now : Clock) (f : Fill) : Fill := ((f.passSample now).filter level k).settleInterim

theorem levelled_keeps (level k : Nat) (now : Clock) (f : Fill) : let g := f.levelled level k now
    g.health = .good ∧ g.implausible = 0 ∧ g.lastPlausible = now ∧ g.fresh = false ∧ g.i = g.lf ∧ g.r = f.r ∧ g.fill = f.fill ∧
      g.rise = f.rise ∧ g.fall = f.fall ∧ g.ref = if f.health = .fault then none else f.ref := by
  simp only [Fill.levelled, Fill.passSample, Fill.filter, Fill.settleInterim]
  by_cases fault : f.health = .fault
  · simp [fault]
  · cases fresh : f.fresh <;> simp [fault, fresh]

theorem levelled_fresh {level k : Nat} {now : Clock} {f : Fill} (fresh : f.afresh) :
    (f.levelled level k now).lf = level ∧ (f.levelled level k now).drop = false := by
  have begins : (f.passSample now).fresh = true := by
    unfold Fill.passSample
    rcases fresh with fresh | fault
    · simp only
      split
      · rfl
      · exact fresh
    · rw [if_pos fault]
  simp [Fill.levelled, Fill.filter, Fill.settleInterim, begins]

theorem levelled_filtered {level k : Nat} {now : Clock} {f : Fill} (old : ¬f.afresh) :
    ((f.levelled level k now).lf : Int) = max 0 (f.lf + filterStep level f.lf k) ∧
      (f.levelled level k now).drop = (f.drop || decide ((f.levelled level k now).lf + 300 < f.lf)) := by
  have notFresh : f.fresh = false := by
    rw [← Bool.not_eq_true]
    exact fun fresh => old (.inl fresh)
  have notFault : f.health ≠ .fault := fun fault => old (.inr fault)
  have passed : f.passSample now = { f with implausible := 0, lastPlausible := now, health := .good } := if_neg notFault
  simp only [Fill.levelled, passed, Fill.filter, notFresh, Bool.false_eq_true, if_false, Fill.settleInterim, Int.toNat_eq_max, and_true]
  exact max_comm _ _

theorem rate_none {now : Clock} {f : Fill} (none_ : f.ref = none) : f.rate now = { f with ref := some (f.lf, now) } := by
  simp only [Fill.rate, none_]

theorem rate_some {now : Clock} {f : Fill} {lref : Nat} {tref : Clock} (some_ : f.ref = some (lref, tref)) : f.rate now =
    if elapsed now tref < 10 then f
    else { f with r := ((f.r : Int) + (instantRate f.lf lref (elapsed now tref) - f.r).tdiv 4).toNat, ref := some (f.lf, now) } := by
  simp only [Fill.rate, some_]

theorem rate_keeps (now : Clock) (f : Fill) : ∃ r ref, f.rate now = { f with r := r, ref := ref } := by
  cases ref : f.ref with
  | none => exact ⟨f.r, _, rate_none ref⟩
  | some x =>
    rw [rate_some (lref := x.1) (tref := x.2) ref]
    split
    · exact ⟨_, _, rfl⟩
    · exact ⟨_, _, rfl⟩

theorem evaluate_keeps (p : Profile) (f : Fill) : ∃ fill rise fall, f.evaluate p = { f with fill := fill, rise := rise, fall := fall } := by
  unfold Fill.evaluate
  simp only
  split_ifs <;> exact ⟨_, _, _, rfl⟩

theorem evaluate_fill (p : Profile) (f : Fill) :
    (f.fill.rank < (risingTarget p f.lf).rank → ((f.evaluate p).fill, (f.evaluate p).rise, (f.evaluate p).fall) =
      if f.rise + 1 = p.d then (risingTarget p f.lf, 0, 0) else (f.fill, f.rise + 1, 0)) ∧
    ((risingTarget p f.lf).rank ≤ f.fill.rank → (fallingTarget p f.lf).rank < f.fill.rank →
      ((f.evaluate p).fill, (f.evaluate p).rise, (f.evaluate p).fall) =
        if f.fall + 1 = p.d then (fallingTarget p f.lf, 0, 0) else (f.fill, 0, f.fall + 1)) ∧
    ((risingTarget p f.lf).rank ≤ f.fill.rank → f.fill.rank ≤ (fallingTarget p f.lf).rank →
      ((f.evaluate p).fill, (f.evaluate p).rise, (f.evaluate p).fall) = (f.fill, 0, 0)) := by
  unfold Fill.evaluate
  refine ⟨fun rises => ?_, fun stays falls => ?_, fun stays holds => ?_⟩
  · simp only [if_pos rises]
    split_ifs <;> rfl
  · simp only [if_neg (Nat.not_lt.mpr stays), if_pos falls]
    split_ifs <;> rfl
  · simp only [if_neg (Nat.not_lt.mpr stays), if_neg (Nat.not_lt.mpr holds)]

/-- What a plausible sample makes of the dynamic part, from the levelled one. -/
theorem takeSample_spec (c : ContainerConfig) (p : Profile) (now : Clock) (d : Nat) (f : Fill) :
    let e := f.levelled (levelOf c d) p.k now
    let g := f.takeSample c p now d
    g.health = .good ∧ g.implausible = 0 ∧ g.lastPlausible = now ∧ g.fresh = false ∧ g.i = g.lf ∧ g.lf = e.lf ∧ g.drop = e.drop ∧
      g.r = (e.rate now).r ∧ g.ref = (e.rate now).ref ∧ g.ttf = timeToFull p.fu g.i g.r ∧
      ((f.fill.rank < (risingTarget p g.lf).rank → (g.fill, g.rise, g.fall) =
          if f.rise + 1 = p.d then (risingTarget p g.lf, 0, 0) else (f.fill, f.rise + 1, 0)) ∧
        ((risingTarget p g.lf).rank ≤ f.fill.rank → (fallingTarget p g.lf).rank < f.fill.rank → (g.fill, g.rise, g.fall) =
          if f.fall + 1 = p.d then (fallingTarget p g.lf, 0, 0) else (f.fill, 0, f.fall + 1)) ∧
        ((risingTarget p g.lf).rank ≤ f.fill.rank → f.fill.rank ≤ (fallingTarget p g.lf).rank →
          (g.fill, g.rise, g.fall) = (f.fill, 0, 0))) := by
  intro e g
  obtain ⟨health, implausible, last, fresh, level, rate, fill, rise, fall, _⟩ := levelled_keeps (levelOf c d) p.k now f
  obtain ⟨r, ref, rated⟩ := rate_keeps now e
  have is : g = ((e.rate now).recompute p).evaluate p := rfl
  obtain ⟨fill', rise', fall', evaluated⟩ := evaluate_keeps p ((e.rate now).recompute p)
  have target := evaluate_fill p ((e.rate now).recompute p)
  rw [← is] at evaluated target
  rw [rated] at evaluated target ⊢
  simp only [Fill.recompute] at evaluated target
  have lf : g.lf = e.lf := by rw [evaluated]
  rw [← lf, show e.fill = f.fill from fill, show e.rise = f.rise from rise, show e.fall = f.fall from fall] at target
  refine ⟨?_, ?_, ?_, ?_, ?_, lf, ?_, ?_, ?_, ?_, target⟩
  all_goals rw [evaluated]
  · exact health
  · exact implausible
  · exact last
  · exact fresh
  · exact level

/-! ### The rate (R68) -/

/-- The rate and its reference as the chapter gives them. -/
theorem rated_spec (level k : Nat) (now : Clock) (f : Fill) : let e := f.levelled level k now
    (f.ref = none ∨ f.health = .fault → (e.rate now).ref = some (e.lf, now) ∧ (e.rate now).r = f.r) ∧
    (∀ lref tref, f.ref = some (lref, tref) → f.health ≠ .fault →
      let minutes := (now - tref).toNat
      let measured : Int := max 0 (min 20000 ((((e.lf : Int) - lref) * 600).tdiv minutes))
      (minutes < 10 → (e.rate now).ref = f.ref ∧ (e.rate now).r = f.r) ∧
      (10 ≤ minutes → (e.rate now).ref = some (e.lf, now) ∧ ((e.rate now).r : Int) = max 0 (f.r + (measured - f.r).tdiv 4))) := by
  intro e
  obtain ⟨_, _, _, _, _, rate, _, _, _, ref⟩ := levelled_keeps level k now f
  refine ⟨fun fresh => ?_, fun lref tref some_ sound => ?_⟩
  · have none_ : e.ref = none := by
      refine ref.trans ?_
      rcases fresh with none_ | fault
      · rw [none_, ite_self]
      · exact if_pos fault
    rw [rate_none none_]
    exact ⟨rfl, rate⟩
  · have here : e.ref = some (lref, tref) := ref.trans ((if_neg sound).trans some_)
    intro minutes measured
    rw [rate_some here]
    refine ⟨fun few => ?_, fun enough => ?_⟩
    · rw [if_pos (show elapsed now tref < 10 from few)]
      exact ⟨here.trans some_.symm, rate⟩
    · rw [if_neg (show ¬elapsed now tref < 10 from Nat.not_lt.mpr enough)]
      refine ⟨rfl, ?_⟩
      simp only [Int.toNat_eq_max]
      rw [show e.r = f.r from rate]
      exact max_comm _ _

/-! ### The distance and the implausible sample (R61, R62) -/

theorem distanceOf_eq (echo : Nat) (temperature : Int) :
    (echo * (3313 + 6 * max (-40) (min 85 temperature)) / 20000 : Int).toNat = distanceOf echo temperature := by
  have speed : ((speedOfSound temperature : Nat) : Int) = 3313 + 6 * max (-40) (min 85 temperature) := by
    unfold speedOfSound
    omega
  rw [distanceOf, ← speed]
  norm_cast

theorem isImplausible_iff {c : ContainerConfig} {echo d : Nat} :
    isImplausible c echo d = true ↔ echo = 0 ∨ echo = 65535 ∨ d < 100 ∨ c.empty + 150 < d := by
  simp [isImplausible, or_assoc]

section
variable {r : Row} {c : ContainerConfig} {echo : Nat} {temperature : Int} {lid : Bool} {s : State} (config : configOf s r = some c)
include config

theorem sampleEvent_ignored (idle : lid = true ∨ (serviceOf s r).name = .service) : sampleEvent r echo temperature lid s = s := by
  unfold sampleEvent
  simp only [config]
  exact if_pos idle.symm

theorem sampleEvent_implausible (shut : lid = false) (serves : (serviceOf s r).name ≠ .service)
    (implausible : isImplausible c echo (distanceOf echo temperature) = true) : sampleEvent r echo temperature lid s =
      reportChange r .sample s (setFill r (Fill.failSample s.tp.effective.faultCount) s) := by
  unfold sampleEvent
  simp only [config, implausible, if_true]
  exact if_neg (by simp [shut, serves])

theorem sampleEvent_plausible (shut : lid = false) (serves : (serviceOf s r).name ≠ .service)
    (plausible : isImplausible c echo (distanceOf echo temperature) = false) : sampleEvent r echo temperature lid s =
      reportChange r .sample s (changeFill r ((fillOf s r).takeSample c (s.ft.profiles.get c.profile) s.tk.uptime
        (distanceOf echo temperature)) s) := by
  unfold sampleEvent
  simp only [config, plausible, Bool.false_eq_true, if_false]
  exact if_neg (by simp [shut, serves])

end

/-! ### The overflow insertion (R167) -/

/-- A slot that can take the inserted step, with its last lift. -/
def State.insertable (s : State) (cluster : Fin 64) (i : Fin 4) (rd : Round) (lift : Clock) : Prop :=
  s.rm.slots.get i = some rd ∧ rd.state = RoundState.running ∧ 0 < rd.allowance ∧ rd.steps.length < 48 ∧
    rd.lastLift = some (lift, cluster)

theorem takesInsertion_iff {s : State} {cluster : Fin 64} {i : Fin 4} {rd : Round} (slot : s.rm.slots.get i = some rd) :
    rd.takesInsertion cluster = true ↔ ∃ lift, s.insertable cluster i rd lift := by
  simp only [Round.takesInsertion, State.insertable, Bool.and_eq_true, beq_iff_eq, decide_eq_true_eq, Config.stepPlaces, slot, true_and]
  cases lift : rd.lastLift with
  | none => simp
  | some l =>
    obtain ⟨at_, where_⟩ := l
    simp [and_assoc]
    exact fun _ _ _ => decide_eq_true_iff

theorem insertionSlot_none {s : State} {cluster : Fin 64} (none_ : ∀ i rd lift, ¬s.insertable cluster i rd lift) :
    insertionSlot s cluster = none := by
  cases chosen : insertionSlot s cluster with
  | none => rfl
  | some x =>
    obtain ⟨slot, takes⟩ := insertionSlot_some (i := x.1) (rd := x.2) chosen
    obtain ⟨lift, here⟩ := (takesInsertion_iff slot).mp takes
    exact absurd here (none_ x.1 x.2 lift)

theorem liftAge_of {s : State} {cluster : Fin 64} {i : Fin 4} {rd : Round} {lift : Clock} (here : s.insertable cluster i rd lift) :
    rd.liftAge s.tk.uptime = (s.tk.uptime - lift).toNat := by
  obtain ⟨_, _, _, _, last⟩ := here
  rw [Round.liftAge, last]
  rfl

theorem insertionSlot_best {s : State} {cluster : Fin 64} {i : Fin 4} {rd : Round} {lift : Clock} (here : s.insertable cluster i rd lift)
    (best : ∀ j other last, s.insertable cluster j other last → (s.tk.uptime - lift).toNat < (s.tk.uptime - last).toNat ∨
      ((s.tk.uptime - lift).toNat = (s.tk.uptime - last).toNat ∧ i ≤ j)) : insertionSlot s cluster = some (i, rd) := by
  have slot := here.1
  have takes := (takesInsertion_iff slot).mpr ⟨lift, here⟩
  have passed (j : Fin 4) : False ∨ j ∈ List.finRange 4 := .inr (List.mem_finRange j)
  have law := bestSlot_insertionSlot s cluster
  cases chosen : insertionSlot s cluster with
  | none =>
    rw [chosen] at law
    exact absurd takes (by rw [law i rd (passed i) slot]; decide)
  | some x =>
    obtain ⟨j, other⟩ := x
    rw [chosen] at law
    obtain ⟨_, slot', takes', least⟩ := law
    obtain ⟨last, there⟩ := (takesInsertion_iff slot').mp takes'
    have first := least i rd (passed i) slot takes
    have second := best j other last there
    rw [liftAge_of here, liftAge_of there] at first
    obtain rfl : i = j := by omega
    rw [Option.some.inj (slot.symm.trans slot')]

/-- A dynamic part that does not enter OVERFLOW, or of a container that asks for no step, leaves the rounds. -/
theorem changeFill_rm {r : Row} {f : Fill} {s : State} (stays : ¬((fillOf s r).fill ≠ .overflow ∧ f.fill = .overflow ∧
    serviceOf s r = .inUse ∧ onActiveRound s r = false)) : (changeFill r f s).rm = s.rm := by
  unfold changeFill
  simp only
  split
  · rename_i enters
    have off : insertOverflow r (setFill r (fun _ => f) s) = setFill r (fun _ => f) s := by
      by_cases used : (serviceOf s r).name = .inUse
      · have free : serviceOf s r = .inUse := by
          cases h : serviceOf s r with
          | inUse => rfl
          | _ => simp [h, Service.name] at used
        refine insertOverflow_onRound (s := setFill r (fun _ => f) s) ?_
        rw [← Bool.not_eq_false]
        exact fun off => stays ⟨enters.2, enters.1, free, off⟩
      · exact insertOverflow_not_inUse (s := setFill r (fun _ => f) s) used
    rw [off]
    rfl
  · rfl

theorem changeFill_enters {r : Row} {f : Fill} {s : State} (enters : (fillOf s r).fill ≠ .overflow ∧ f.fill = .overflow) :
    changeFill r f s = reevaluate r (insertOverflow r (setFill r (fun _ => f) s)) :=
  congrArg (reevaluate r) (if_pos enters.symm)

theorem insertionSlot_setFill (r : Row) (g : Fill → Fill) (cluster : Fin 64) (s : State) :
    insertionSlot (setFill r g s) cluster = insertionSlot s cluster := rfl

theorem not_mem_reevaluate {r : Row} {s : State} (active : onActiveRound s r = true) : r ∉ (reevaluate r s).ft.queue := by
  have out : qualifies s r = false := by
    unfold qualifies
    split
    · rfl
    · simp [active]
  simp [reevaluate, out]

/-! ### The obligation -/

theorem fillOf_changeFill (r : Row) (f : Fill) (s : State) : fillOf (changeFill r f s) r = f := by
  rw [changeFill_eq]
  simp [fillOf]

/-- Settles O50: a plausible sample runs through the stages, and one that enters OVERFLOW may bring an inserted step. -/
theorem levelSampleIsTaken : Obligations.LevelSampleIsTaken := by
  intro a flags bay echo temperature lid s running polling awake u outcome d
  have sampled : outcome = .next (levelSample a bay echo temperature lid u) := by
    simp only [outcome]
    rw [exec_answer (.levelSample bay echo temperature lid) running, loopAnswer_awake polling awake]
    rfl
  have distance : d = distanceOf echo.toNat temperature.toInt := distanceOf_eq _ _
  refine ⟨fun nowhere => ?_, fun r c found config => ?_⟩
  · rw [sampled]
    unfold levelSample
    rw [show containerAt u a bay.toNat = none from nowhere]
  · intro f p implausible
    have handed : outcome = .next (sampleEvent r echo.toNat temperature.toInt lid u) := by
      rw [sampled]
      unfold levelSample
      rw [show containerAt u a bay.toNat = some r from found]
    have here : configOf u r = some c := config
    have plausible_iff : isImplausible c echo.toNat (distanceOf echo.toNat temperature.toInt) = true ↔ implausible := by
      rw [isImplausible_iff, ← distance]
    have taken (shut : lid = false) (serves : (serviceOf s r).name ≠ .service) (plausible : ¬implausible) :
        outcome = .next (reportChange r .sample u (changeFill r (f.takeSample c p s.tk.uptime d) u)) := by
      rw [handed, sampleEvent_plausible here shut serves (by rw [← Bool.not_eq_true, plausible_iff]; exact plausible), distance]
      rfl
    refine ⟨fun idle => ?_, fun shut serves fails => ?_, fun shut serves plausible => ?_, fun shut serves plausible => ?_⟩
    · rw [handed, sampleEvent_ignored here idle]
    · rw [handed, sampleEvent_implausible here shut serves (plausible_iff.mpr fails), reportChange_tp]
      refine ⟨_, rfl, rfl, rfl, rfl, ?_⟩
      rfl
    · obtain ⟨health, none_, last, fresh, level, lf, drop, rate, ref, ttf, fill⟩ := takeSample_spec c p s.tk.uptime d f
      have rated := rated_spec (levelOf c d) p.k s.tk.uptime f
      simp only at rated
      rw [← lf, ← rate, ← ref] at rated
      refine ⟨_, f.takeSample c p s.tk.uptime d, taken shut serves plausible, ?_, ⟨health, none_, last, fresh, level, fun afresh => ?_,
        fun old => ?_, rated.1, rated.2, ttf, fill⟩, ?_, ?_, ?_, ?_, ?_, ?_, ?_⟩
      · rw [reportChange_ft, changeFill_eq]
        rfl
      · rw [lf, drop]
        exact levelled_fresh afresh
      · rw [lf, drop]
        exact levelled_filtered old
      · exact (reportChange_tk _ _ _ _).trans (congrArg State.tk (changeFill_eq r _ u) :)
      · exact (reportChange_slc _ _ _ _).trans (congrArg State.slc (changeFill_eq r _ u) :)
      · exact (reportChange_clu _ _ _ _).trans (congrArg State.clu (changeFill_eq r _ u) :)
      · exact (reportChange_au _ _ _ _).trans (congrArg State.au (changeFill_eq r _ u) :)
      · exact (reportChange_rmi _ _ _ _).trans (congrArg State.rmi (changeFill_eq r _ u) :)
      · exact (congrArg RoundManager.service (reportChange_rm _ _ _ _)).trans (congrArg (fun t : State => t.rm.service) (changeFill_eq r _ u) :)
      · exact (reportChange_memory _ _ _ _).trans (congrArg State.memory (changeFill_eq r _ u) :)
    · refine ⟨_, taken shut serves plausible, ?_⟩
      intro enters takes age candidate
      have now : fillOf (reportChange r .sample u (changeFill r (f.takeSample c p s.tk.uptime d) u)) r = f.takeSample c p s.tk.uptime d := by
        rw [fillOf, reportChange_ft]
        exact fillOf_changeFill r _ u
      have insertable (i : Fin 4) (rd : Round) (lift : Clock) : candidate i rd lift ↔ u.insertable c.cluster i rd lift := Iff.rfl
      have calm (stays : ¬takes) : (changeFill r (f.takeSample c p s.tk.uptime d) u).rm = s.rm :=
        changeFill_rm (s := u) fun ⟨was, is, free, off⟩ => stays ⟨⟨was, by rw [now]; exact is⟩, free, off⟩
      refine ⟨fun stays => by rw [reportChange_rm]; exact calm stays, fun none_ => ?_, fun i rd lift brings here best => ?_⟩
      · by_cases brings : takes
        · obtain ⟨⟨was, is⟩, free, off⟩ := brings
          rw [now] at is
          have unchosen : insertOverflow r (setFill r (fun _ => f.takeSample c p s.tk.uptime d) u) =
              setFill r (fun _ => f.takeSample c p s.tk.uptime d) u :=
            insertOverflow_unchosen (c := c) (by rw [configOf_setFill]; exact config)
              ((insertionSlot_setFill r _ c.cluster u).trans (insertionSlot_none none_))
          rw [reportChange_rm, changeFill_enters (s := u) ⟨was, is⟩, unchosen]
          rfl
        · rw [reportChange_rm]
          exact calm brings
      · obtain ⟨⟨was, is⟩, free, off⟩ := brings
        rw [now] at is
        have chosen := insertOverflow_chosen (r := r) (c := c) (s := setFill r (fun _ => f.takeSample c p s.tk.uptime d) u)
          (by rw [configOf_setFill]; exact config) ((congrArg Service.name free :)) off
          ((insertionSlot_setFill r _ c.cluster u).trans (insertionSlot_best (s := u) here best))
        have gains := reportChange_gains r .sample u (changeFill r (f.takeSample c p s.tk.uptime d) u)
        rw [changeFill_enters (s := u) ⟨was, is⟩, chosen] at gains ⊢
        refine ⟨by rw [reportChange_rm]; rfl, ?_, fun room => gains.entries _ (mem_entries_reported (t := s.tp) room _)⟩
        rw [reportChange_ft]
        refine not_mem_reevaluate (onActiveRound_iff.mpr ⟨i, rd.inserting r, Table.get_set_self _ _ _, ?_⟩)
        simp [Round.holdsOpen, Round.inserting, Step.fresh, Step.open]

end Sys2Proof.Machine
end

