-- ==== Sys2Proof/Proofs/Receiver.lean ====
section
/-! Proofs about the trunk receiver (R189) and the checks that every command meets (R190). -/

namespace Sys2Proof.Machine

/-! ### The receiver, byte by byte (R189) -/

/-- A state whose trunk receiver stands at `r`. -/
def State.receiving (r : Receiver) (s : State) : State := { s with tp.receiver := r }

/-- The receiver behind the body bytes `got`, of `len` in all. -/
def Receiver.behind (len : Byte) (got : List Byte) : Receiver :=
  if got.length = len.toNat then .check len got none else .body len got

theorem hunt_receiving {s : State} (hunting : s.tp.receiver = .hunt) (r : Receiver) : hunt (s.receiving r) = s := by
  change { s with tp.receiver := .hunt } = s
  rw [← hunting]

theorem rxBytes_append (xs ys : List Byte) (s : State) : rxBytes (xs ++ ys) s = rxBytes ys (rxBytes xs s) :=
  List.foldl_append

theorem rxByte_start {s : State} (running : s.hold = .running) (hunting : s.tp.receiver = .hunt) :
    rxByte 0xC3 s = s.receiving .length := by
  simp [rxByte, running, hunting, State.receiving]

theorem rxByte_length {s : State} (running : s.hold = .running) (len : Byte) :
    rxByte len (s.receiving .length) = s.receiving (if 2 ≤ len.toNat ∧ len.toNat ≤ 250 then .body len [] else .hunt) := by
  simp [rxByte, running, State.receiving]

theorem rxByte_body {s : State} (running : s.hold = .running) (len b : Byte) (got : List Byte) :
    rxByte b (s.receiving (.body len got)) = s.receiving (.behind len (got ++ [b])) := by
  simp [rxByte, running, State.receiving, Receiver.behind]

theorem rxByte_first {s : State} (running : s.hold = .running) (len b : Byte) (got : List Byte) :
    rxByte b (s.receiving (.check len got none)) = s.receiving (.check len got (some b)) := by
  simp [rxByte, running, State.receiving]

theorem rxByte_last {s : State} (running : s.hold = .running) (hunting : s.tp.receiver = .hunt) (len b first : Byte)
    (got : List Byte) :
    rxByte b (s.receiving (.check len got (some first))) =
      if [first, b] = crcBytes (trunkCrc (len :: got)) then
        takeFrame (byteAt got 0) (byteAt got 1) (got.drop 2) Residue.untouched s
      else { s with tp.crcErrors := bump s.tp.crcErrors } := by
  have taken : rxByte b (s.receiving (.check len got (some first))) =
      endFrame len got [first, b] (s.receiving (.check len got (some first))) := by
    simp [rxByte, running, State.receiving]
  rw [taken, endFrame, hunt_receiving hunting]

theorem rxBytes_body {s : State} (running : s.hold = .running) (len : Byte) : ∀ (bytes got : List Byte),
    got.length < len.toNat → got.length + bytes.length ≤ len.toNat →
    rxBytes bytes (s.receiving (.body len got)) = s.receiving (.behind len (got ++ bytes))
  | [], got, short, _ => by simp [rxBytes, Receiver.behind, short.ne]
  | b :: rest, got, short, fits => by
    have one : rxBytes (b :: rest) (s.receiving (.body len got)) = rxBytes rest (s.receiving (.behind len (got ++ [b]))) := by
      rw [← rxByte_body running]; rfl
    rw [List.length_cons] at fits
    rw [one, List.append_cons got b rest]
    by_cases full : (got ++ [b]).length = len.toNat
    · have done : rest = [] := by
        rw [List.length_append, List.length_singleton] at full
        exact List.eq_nil_of_length_eq_zero (by omega)
      rw [done, List.append_nil]; rfl
    · rw [Receiver.behind, if_neg full]
      rw [List.length_append, List.length_singleton] at full
      rw [rxBytes_body running len rest (got ++ [b]) (by simp; omega) (by simp; omega)]

/-! ### Whole frames and their beginnings -/

theorem trunkFrame_length {payload : List Byte} (fits : payload.length ≤ 248) :
    (BitVec.ofNat 8 (payload.length + 2) : Byte).toNat = payload.length + 2 := by
  simp only [BitVec.toNat_ofNat]; omega

theorem trunkFrame_lengthByte (payload : List Byte) :
    bytesOf 1 (payload.length + 2) = [(BitVec.ofNat 8 (payload.length + 2) : Byte)] := rfl

/-- The bytes of a frame in front of its CRC, as far as they have arrived, leave the receiver behind them and nothing else. -/
theorem rxBytes_head {s : State} (running : s.hold = .running) (hunting : s.tp.receiver = .hunt) {len : Byte}
    (legal : 2 ≤ len.toNat ∧ len.toNat ≤ 250) {got : List Byte} (fits : got.length ≤ len.toNat) :
    rxBytes (0xC3 :: len :: got) s = s.receiving (.behind len got) := by
  have opened : rxBytes (0xC3 :: len :: got) s = rxBytes got (rxByte len (rxByte 0xC3 s)) := rfl
  rw [opened, rxByte_start running hunting, rxByte_length running, if_pos legal,
    rxBytes_body running len got [] (by simp; omega) (by simpa using fits), List.nil_append]

/-- A frame of a legal length received whole is tested and taken, or counted (R189). -/
theorem rxBytes_frame {s : State} (running : s.hold = .running) (hunting : s.tp.receiver = .hunt) {len : Byte}
    (legal : 2 ≤ len.toNat ∧ len.toNat ≤ 250) {got : List Byte} (full : got.length = len.toNat) (first second : Byte) :
    rxBytes (0xC3 :: len :: (got ++ [first, second])) s =
      if [first, second] = crcBytes (trunkCrc (len :: got)) then
        takeFrame (byteAt got 0) (byteAt got 1) (got.drop 2) Residue.untouched s
      else { s with tp.crcErrors := bump s.tp.crcErrors } := by
  have parts : 0xC3 :: len :: (got ++ [first, second]) = (0xC3 :: len :: got) ++ [first, second] := rfl
  have check : rxBytes [first, second] (s.receiving (.check len got none)) =
      rxByte second (rxByte first (s.receiving (.check len got none))) := rfl
  rw [parts, rxBytes_append, rxBytes_head running hunting legal full.le, Receiver.behind, if_pos full, check,
    rxByte_first running, rxByte_last running hunting]

/-- A frame that is cut short leaves nothing but the receiver's place in it (R189). -/
theorem rxBytes_cut {s : State} (running : s.hold = .running) (hunting : s.tp.receiver = .hunt) {len : Byte}
    (legal : 2 ≤ len.toNat ∧ len.toNat ≤ 250) {got : List Byte} (full : got.length = len.toNat) (first second : Byte) {n : Nat}
    (short : n < got.length + 4) : ∃ r, rxBytes ((0xC3 :: len :: (got ++ [first, second])).take n) s = s.receiving r := by
  rcases n with _ | _ | m
  · refine ⟨.hunt, ?_⟩
    change s = { s with tp.receiver := .hunt }
    rw [← hunting]
  · exact ⟨.length, rxByte_start running hunting⟩
  · change ∃ r, rxBytes (0xC3 :: len :: (got ++ [first, second]).take m) s = s.receiving r
    rcases Nat.lt_or_ge m (got.length + 1) with inside | past
    · rw [List.take_append_of_le_length (by omega)]
      exact ⟨_, rxBytes_head running hunting legal ((List.length_take_le' m got).trans full.le)⟩
    · have last : m = got.length + 1 := by omega
      have parts : 0xC3 :: len :: (got ++ [first, second]).take m = (0xC3 :: len :: got) ++ [first] := by
        rw [last, List.take_length_add_append]; rfl
      have check : rxBytes [first] (s.receiving (.check len got none)) = rxByte first (s.receiving (.check len got none)) := rfl
      rw [parts, rxBytes_append, rxBytes_head running hunting legal full.le, Receiver.behind, if_pos full, check]
      exact ⟨_, rxByte_first running len first got⟩

theorem crcBytes_pair (crc : BitVec 16) : ∃ first second, crcBytes crc = [first, second] := ⟨_, _, rfl⟩

theorem crcBytes_injective {x y : BitVec 16} (same : crcBytes x = crcBytes y) : x = y := by
  refine BitVec.eq_of_toNat_eq ?_
  rw [← natOf_bytesOf 2 x.toNat x.isLt, ← natOf_bytesOf 2 y.toNat y.isLt]
  exact congrArg natOf same

/-- A trunk frame's bytes as the receiver meets them. -/
theorem trunkFrame_parts (kind tag : Byte) (payload crc : List Byte) :
    [0xC3] ++ (bytesOf 1 (payload.length + 2) ++ [kind, tag] ++ payload) ++ crc =
      0xC3 :: BitVec.ofNat 8 (payload.length + 2) :: (kind :: tag :: payload ++ crc) := rfl

theorem trunkFrame_legal {payload : List Byte} (fits : payload.length ≤ 248) :
    2 ≤ (BitVec.ofNat 8 (payload.length + 2) : Byte).toNat ∧ (BitVec.ofNat 8 (payload.length + 2) : Byte).toNat ≤ 250 := by
  rw [trunkFrame_length fits]; omega

/-- Settles O13: byte by byte the receiver gathers the body, and the CRC that was encoded agrees. -/
theorem trunkFrameIsTaken : Obligations.TrunkFrameIsTaken := by
  intro kind tag payload s running hunting fits
  obtain ⟨first, second, crc⟩ := crcBytes_pair (trunkCrc (bytesOf 1 (payload.length + 2) ++ [kind, tag] ++ payload))
  rw [trunkFrameBytes, trunkFrame_parts, crc, rxBytes_frame running hunting (trunkFrame_legal fits)
    (by simp [trunkFrame_length fits])]
  exact if_pos crc.symm

/-! ### The checks of a command (R190) -/

/-- What the checks of R190 come to: without a reply place the command is counted; one that does not fit its kind is BAD_LENGTH; and
one that fits, but is not served while RESTORING, NOT_READY. -/
structure Checked (kind tag : Byte) (fits served : Bool) (s t : State) : Prop where
  overrun : 128 ≤ s.tp.occupancy →
    t = { s with tp := { s.tp with receiver := .hunt, commandOverruns := min 65535 (s.tp.commandOverruns + 1) } }
  length : s.tp.occupancy < 128 → fits = false → s.refusedBy kind tag .badLength t
  notReady : s.tp.occupancy < 128 → fits = true → s.rmi.restoring = true → served = false → s.refusedBy kind tag .notReady t

theorem refuse_refusedBy (kind : CommandKind) (tag : Byte) (status : Status) (s : State) :
    s.refusedBy kind.code tag status (refuse kind tag status s.reserved) := by
  cases kind with
  | roundLoad =>
    exact ⟨_, queueReply_reserved_eq_replied CommandKind.roundLoad.code tag status _ { s with free := s.free + 1 }⟩
  | _ => exact queueReply_reserved_eq_replied _ tag status _ s

theorem reserveReply_full {body : State → State} {s : State} (full : 128 ≤ s.tp.occupancy) :
    reserveReply body s =
      { s with tp := { s.tp with receiver := .hunt, commandOverruns := min 65535 (s.tp.commandOverruns + 1) } } :=
  if_neg (Nat.not_lt.mpr full)

theorem reserveReply_place {body : State → State} {s : State} (place : s.tp.occupancy < 128) :
    reserveReply body s = body s.reserved := if_pos place

theorem takeCommand_checked {α : Type} (kind : CommandKind) (tag : Byte) (args : Option α) (served : Bool)
    (body : α → State → State) (s : State) :
    Checked kind.code tag args.isSome served s (takeCommand kind tag args served body s) where
  overrun full := reserveReply_full full
  length place short := by
    rw [Option.isSome_eq_false_iff, Option.isNone_iff_eq_none] at short
    rw [takeCommand, reserveReply_place place, short]
    exact refuse_refusedBy kind tag .badLength s
  notReady place fits restoring unserved := by
    obtain ⟨a, rfl⟩ := Option.isSome_iff_exists.mp fits
    rw [unserved, takeCommand_notReady place restoring]
    exact refuse_refusedBy kind tag .notReady s

theorem refuseFrame_full {kind tag : Byte} {status : Status} {s : State} (full : 128 ≤ s.tp.occupancy) :
    refuseFrame kind tag status s =
      { s with tp := { s.tp with receiver := .hunt, commandOverruns := min 65535 (s.tp.commandOverruns + 1) } } :=
  reserveReply_full full

theorem refuseFrame_place {kind tag : Byte} {status : Status} {s : State} (place : s.tp.occupancy < 128) :
    refuseFrame kind tag status s = s.replied kind tag status .none := by
  rw [refuseFrame, reserveReply_place place, queueReply_reserved_eq_replied]

/-- A QUERY or a RESET without its subject or scope byte. -/
theorem refuseFrame_checked {kind : CommandKind} (plain : kind = .query ∨ kind = .reset) (tag : Byte) (served : Bool) (s : State) :
    Checked kind.code tag false served s (refuseFrame kind.code tag .badLength s) where
  overrun full := refuseFrame_full full
  length place _ := by
    rw [refuseFrame_place place]
    rcases plain with rfl | rfl <;> rfl
  notReady _ fits := absurd fits Bool.false_ne_true

theorem isSome_fixed {α : Type} (size : Nat) (f : List Byte → α) (b : List Byte) : (fixed size f b).isSome = (b.length == size) := by
  by_cases h : b.length = size <;> simp [fixed, h]

theorem natOf_singleton (b : Byte) : natOf [b] = b.toNat := by simp [natOf]

/-- A count byte inside the payload is the field at its place. -/
theorem fieldAt_one {b : List Byte} {i : Nat} (inside : i < b.length) : fieldAt b i 1 = (b.getD i 0).toNat := by
  rw [fieldAt, slice, List.drop_eq_getElem_cons inside, List.take_succ_cons, List.take_zero, natOf_singleton,
    List.getD_eq_getElem _ _ inside]

/-- A payload with a count has its length by the count, read as a field or as a byte. -/
theorem counted_iff {b : List Byte} {place size most : Nat} :
    (1 ≤ fieldAt b place 1 ∧ fieldAt b place 1 ≤ most ∧ b.length = place + 1 + size * fieldAt b place 1) ↔
      (1 ≤ (b.getD place 0).toNat ∧ (b.getD place 0).toNat ≤ most) ∧ b.length = place + 1 + size * (b.getD place 0).toNat := by
  by_cases inside : place < b.length
  · rw [fieldAt_one inside, and_assoc]
  · constructor
    · rintro ⟨-, -, length⟩
      omega
    · rintro ⟨-, length⟩
      omega

theorem isSome_ite {α : Type} {p : Prop} [Decidable p] (a : α) : (if p then some a else none).isSome = decide p := by
  by_cases h : p <;> simp [h]

theorem isSome_counted {α : Type} {b : List Byte} {place size most : Nat} (a : α) :
    (if 1 ≤ fieldAt b place 1 ∧ fieldAt b place 1 ≤ most ∧ b.length = place + 1 + size * fieldAt b place 1 then some a
      else none).isSome =
    (decide (1 ≤ (b.getD place 0).toNat ∧ (b.getD place 0).toNat ≤ most) &&
      b.length == place + 1 + size * (b.getD place 0).toNat) := by
  rw [isSome_ite, Bool.eq_iff_iff]
  simp only [decide_eq_true_eq, Bool.and_eq_true, beq_iff_eq]
  exact counted_iff

theorem isSome_paramPutArgs (b : List Byte) : (paramPutArgs b).isSome = payloadFits 0x02 b := by
  rw [paramPutArgs]
  have comm : (1 + 3 * fieldAt b 0 1) = 0 + 1 + 3 * fieldAt b 0 1 := by omega
  rw [comm]
  exact isSome_counted _

theorem isSome_roundLoadArgs (b : List Byte) : (roundLoadArgs b).isSome = payloadFits 0x0F b :=
  isSome_counted (place := 8) (size := 4) (most := 48) _

theorem isSome_passDownArgs (b : List Byte) : (passDownArgs b).isSome = payloadFits 0x13 b := by
  rw [passDownArgs]
  have one : (5 + fieldAt b 4 1) = 4 + 1 + 1 * fieldAt b 4 1 := by omega
  rw [one]
  exact isSome_counted _

/-! ### The checks of each kind -/

theorem Checked.of_fits {kind tag : Byte} {fits fits' served : Bool} {s t : State} (same : fits = fits')
    (checked : Checked kind tag fits served s t) : Checked kind tag fits' served s t := same ▸ checked

/-- A command served while RESTORING has its place and its length checked all the same. -/
theorem Checked.of_served {kind tag : Byte} {fits served : Bool} {s t : State} (served' : Bool)
    (early : fits = true → served' = false → served = false) (checked : Checked kind tag fits served s t) :
    Checked kind tag fits served' s t :=
  ⟨checked.overrun, checked.length, fun place fit restoring unserved =>
    checked.notReady place fit restoring (early fit unserved)⟩

theorem queryFrame_unknown {subject : Byte} (unknown : 5 < subject.toNat) (tag : Byte) (arg : List Byte) :
    queryFrame tag (subject :: arg) = unknownSubject tag ∧ payloadFits 0x14 (subject :: arg) = true := by
  obtain ⟨m, other⟩ : ∃ m, subject.toNat = m + 6 := ⟨subject.toNat - 6, by omega⟩
  constructor
  · simp only [queryFrame, other]
  · change (match subject.toNat with | 0 => _ | 1 => _ | 2 => _ | 5 => _ | 3 => _ | 4 => _ | _ => true) = true
    simp only [other]

/-- A command of a kind that is taken as R190 says, by its name and the length of its payload. -/
theorem Checked.of_command {α : Type} {kind : CommandKind} {tag : Byte} {args : Option α} {fits served : Bool}
    {body : α → State → State} {command : State → State} (taken : command = takeCommand kind tag args served body)
    (same : args.isSome = fits) (s : State) : Checked kind.code tag fits served s (command s) :=
  taken ▸ (takeCommand_checked kind tag args served body s).of_fits same

theorem isSome_fixed_behind {α : Type} (size : Nat) (f : List Byte → α) (subject : Byte) (arg : List Byte) :
    (fixed size f arg).isSome = ((subject :: arg).length == size + 1) := by
  rw [isSome_fixed, List.length_cons, Bool.eq_iff_iff]
  simp

theorem queryFrame_checked (tag : Byte) (payload : List Byte) (s : State) :
    Checked 0x14 tag (payloadFits 0x14 payload) (payload == [0x00]) s (queryFrame tag payload s) := by
  cases payload with
  | nil => exact refuseFrame_checked (.inl rfl) tag _ s
  | cons subject arg =>
    rcases Nat.lt_or_ge 5 subject.toNat with unknown | known
    · obtain ⟨frame, fits⟩ := queryFrame_unknown unknown tag arg
      rw [frame, fits]
      exact (takeCommand_checked .query tag (some PUnit.unit) false _ s).of_served _ fun _ _ => rfl
    · have subjects : subject = 0 ∨ subject = 1 ∨ subject = 2 ∨ subject = 3 ∨ subject = 4 ∨ subject = 5 := by bv_omega
      rcases subjects with rfl | rfl | rfl | rfl | rfl | rfl
      · refine (Checked.of_command (command := queryStatusCommand tag arg) rfl (isSome_fixed_behind 0 _ 0 arg) s).of_served _ ?_
        intro fits unserved
        have alone : arg = [] := List.eq_nil_of_length_eq_zero (by simpa using fits)
        rw [alone] at unserved
        exact absurd unserved (by decide)
      · exact Checked.of_command (command := queryContainerCommand tag arg) rfl (isSome_fixed_behind 4 _ 1 arg) s
      · exact Checked.of_command (command := queryStationCommand tag arg) rfl (isSome_fixed_behind 1 _ 2 arg) s
      · exact Checked.of_command (command := queryAccountCommand tag arg) rfl (isSome_fixed_behind 2 _ 3 arg) s
      · exact Checked.of_command (command := queryRoundCommand tag arg) rfl (isSome_fixed_behind 3 _ 4 arg) s
      · exact Checked.of_command (command := queryServiceQueueCommand tag arg) rfl (isSome_fixed_behind 1 _ 5 arg) s

theorem resetFrame_checked (tag : Byte) (payload : List Byte) (cut : Residue) (s : State) :
    Checked 0x15 tag (payloadFits 0x15 payload) true s (resetFrame tag payload cut s) := by
  cases payload with
  | nil => exact refuseFrame_checked (.inr rfl) tag _ s
  | cons scope rest =>
    have fits : (noArgs rest).isSome = payloadFits 0x15 (scope :: rest) := isSome_fixed_behind 0 _ scope rest
    rcases scopes : scope.toNat with _ | _ | other
    · obtain rfl : scope = 0 := BitVec.eq_of_toNat_eq scopes
      exact Checked.of_command (command := resetTrafficCommand tag rest) rfl fits s
    · obtain rfl : scope = 1 := BitVec.eq_of_toNat_eq scopes
      exact Checked.of_command (command := resetFullCommand tag rest cut) rfl fits s
    · rw [← fits]
      simp only [resetFrame, scopes]
      exact takeCommand_checked .reset tag (noArgs rest) true _ s

/-- The commands that R190 serves while RESTORING. -/
def CommandKind.servedRestoring (kind : CommandKind) (payload : List Byte) : Bool :=
  kind == .reset || (kind == .query && payload == [0x00])

/-- Every kind's frame meets the checks of R190. -/
theorem takeFrame_checked (kind : CommandKind) (tag : Byte) (payload : List Byte) (cut : Residue) (s : State) :
    Checked kind.code tag (payloadFits kind.code payload) (kind.servedRestoring payload) s
      (takeFrame kind.code tag payload cut s) := by
  cases kind with
  | timeSet => exact Checked.of_command (command := timeSetCommand tag payload) rfl (isSome_fixed 5 _ payload) s
  | paramPut => exact Checked.of_command (command := paramPutCommand tag payload) rfl (isSome_paramPutArgs payload) s
  | profilePut => exact Checked.of_command (command := profilePutCommand tag payload) rfl (isSome_fixed 12 _ payload) s
  | containerPut => exact Checked.of_command (command := containerPutCommand tag payload) rfl (isSome_fixed 15 _ payload) s
  | containerDrop => exact Checked.of_command (command := containerDropCommand tag payload) rfl (isSome_fixed 4 _ payload) s
  | stationPut => exact Checked.of_command (command := stationPutCommand tag payload) rfl (isSome_fixed 9 _ payload) s
  | stationDrop => exact Checked.of_command (command := stationDropCommand tag payload) rfl (isSome_fixed 1 _ payload) s
  | stationClear => exact Checked.of_command (command := stationClearCommand tag payload) rfl (isSome_fixed 1 _ payload) s
  | windowPut => exact Checked.of_command (command := windowPutCommand tag payload) rfl (isSome_fixed 9 _ payload) s
  | classPut => exact Checked.of_command (command := classPutCommand tag payload) rfl (isSome_fixed 2 _ payload) s
  | costPut => exact Checked.of_command (command := costPutCommand tag payload) rfl (isSome_fixed 2 _ payload) s
  | cardPut => exact Checked.of_command (command := cardPutCommand tag payload) rfl (isSome_fixed 15 _ payload) s
  | cardDrop => exact Checked.of_command (command := cardDropCommand tag payload) rfl (isSome_fixed 4 _ payload) s
  | accountPut => exact Checked.of_command (command := accountPutCommand tag payload) rfl (isSome_fixed 11 _ payload) s
  | roundLoad => exact Checked.of_command (command := roundLoadCommand tag payload) rfl (isSome_roundLoadArgs payload) s
  | roundCancel => exact Checked.of_command (command := roundCancelCommand tag payload) rfl (isSome_fixed 2 _ payload) s
  | holdClear => exact Checked.of_command (command := holdClearCommand tag payload) rfl (isSome_fixed 4 _ payload) s
  | cacheFlush => exact Checked.of_command (command := cacheFlushCommand tag payload) rfl (isSome_fixed 0 _ payload) s
  | passDown => exact Checked.of_command (command := passDownCommand tag payload) rfl (isSome_passDownArgs payload) s
  | query => exact queryFrame_checked tag payload s
  | reset => exact resetFrame_checked tag payload cut s

/-- The command kinds in the order of their codes (R207). -/
def commandKinds : List CommandKind :=
  [.timeSet, .paramPut, .profilePut, .containerPut, .containerDrop, .stationPut, .stationDrop, .stationClear, .windowPut, .classPut,
    .costPut, .cardPut, .cardDrop, .accountPut, .roundLoad, .roundCancel, .holdClear, .cacheFlush, .passDown, .query, .reset]

theorem codes_commandKinds : commandKinds.map CommandKind.code = (List.range 21).map fun n => BitVec.ofNat 8 (n + 1) := rfl

theorem codeOf_known {kind : Byte} (first : 1 ≤ kind.toNat) (last : kind.toNat ≤ 0x15) : ∃ k : CommandKind, k.code = kind := by
  have listed : kind ∈ commandKinds.map CommandKind.code := by
    rw [codes_commandKinds]
    exact List.mem_map.mpr ⟨kind.toNat - 1, List.mem_range.mpr (by omega), by rw [Nat.sub_add_cancel first]; simp⟩
  obtain ⟨k, -, code⟩ := List.mem_map.mp listed
  exact ⟨k, code⟩

theorem takeFrame_unknown {kind : Byte} (unknown : kind.toNat = 0 ∨ 0x15 < kind.toNat) (tag : Byte) (payload : List Byte)
    (cut : Residue) : takeFrame kind tag payload cut = refuseFrame kind tag .unknownKind := by
  rcases unknown with zero | past
  · obtain rfl : kind = 0 := BitVec.eq_of_toNat_eq zero
    rfl
  · obtain ⟨m, other⟩ : ∃ m, kind.toNat = m + 22 := ⟨kind.toNat - 22, by omega⟩
    simp only [takeFrame, other]

theorem timeSet_takes {tag : Byte} {payload : List Byte} {s : State} (running : s.hold = .running) :
    exec (.timeSet tag payload) s = .next (takeFrame CommandKind.timeSet.code tag payload Residue.untouched s) :=
  whenRunning_running running

theorem exec_trunkGapTimeout {s : State} (running : s.hold = .running) (bytes : List Byte) :
    exec (.trunkGapTimeout bytes) s =
      .next (if (rxBytes bytes s).hold = .running then hunt (rxBytes bytes s) else rxBytes bytes s) := by
  change execTrunkGapTimeout bytes s = _
  rw [execTrunkGapTimeout, whenRunning_running running]

/-- Settles O14: the receiver's rules, and the checks of R190 kind by kind. -/
theorem trunkReceiverAndChecks : Obligations.TrunkReceiverAndChecks := by
  refine ⟨⟨?_, ?_, ?_, ?_⟩, ⟨?_, ?_, ?_, ?_⟩, ?_, ?_⟩
  · intro kind tag payload n s running hunting fits short
    obtain ⟨first, second, crc⟩ := crcBytes_pair (trunkCrc (bytesOf 1 (payload.length + 2) ++ [kind, tag] ++ payload))
    have parts : trunkFrameBytes kind tag payload = 0xC3 :: BitVec.ofNat 8 (payload.length + 2) ::
        (kind :: tag :: payload ++ [first, second]) := by
      rw [← crc]; rfl
    rw [parts] at short ⊢
    obtain ⟨r, cut⟩ := rxBytes_cut running hunting (trunkFrame_legal fits) (got := kind :: tag :: payload)
      (by simp [trunkFrame_length fits]) first second (n := n) (by simp at short ⊢; omega)
    rw [exec_trunkGapTimeout running, cut]
    refine congrArg _ ?_
    exact (if_pos running).trans (hunt_receiving hunting r)
  · intro s running
    exact (whenRunning_running running).trans (congrArg _ (if_pos running))
  · intro len s running hunting bad
    refine (whenRunning_running running).trans (congrArg _ ?_)
    change rxByte len (rxByte 0xC3 s) = s
    rw [rxByte_start running hunting, rxByte_length running, if_neg (by omega)]
    exact hunt_receiving hunting .hunt
  · intro kind tag payload crc s running hunting fits differs
    obtain ⟨first, second, bytes⟩ := crcBytes_pair crc
    refine (whenRunning_running running).trans (congrArg _ ?_)
    rw [trunkFrame_parts, bytes, rxBytes_frame running hunting (trunkFrame_legal fits) (by simp [trunkFrame_length fits]), ← bytes]
    exact if_neg fun same => differs (crcBytes_injective same)
  · intro kind tag payload s running place unknown
    refine (whenRunning_running running).trans (congrArg _ ?_)
    rw [takeFrame_unknown unknown, refuseFrame_place place]
  · intro tag payload s running full
    rw [timeSet_takes running, (takeFrame_checked .timeSet tag payload _ s).overrun full]
  · intro tag payload s running place short
    rw [timeSet_takes running]
    exact congrArg _ ((takeFrame_checked .timeSet tag payload _ s).length place (beq_eq_false_iff_ne.mpr short))
  · intro tag payload s running place fits restoring
    rw [timeSet_takes running]
    exact congrArg _ ((takeFrame_checked .timeSet tag payload _ s).notReady place (beq_iff_eq.mpr fits) restoring rfl)
  · intro code tag payload cut s first last
    obtain ⟨kind, rfl⟩ := codeOf_known first last
    have checked := takeFrame_checked kind tag payload cut s
    refine ⟨checked.overrun, checked.length, fun place fits restoring notReset notStatus => ?_⟩
    refine checked.notReady place fits restoring ?_
    cases kind with
    | reset => exact absurd rfl notReset
    | query =>
      change (payload == [0x00]) = false
      exact beq_eq_false_iff_ne.mpr fun status => notStatus ⟨rfl, status⟩
    | _ => rfl
  · intro tag p cut s running
    refine ⟨?_, ?_, ?_, ?_, ?_, ?_, ?_, ?_, ?_, ?_, ?_, ?_, ?_, ?_, ?_, ?_, ?_, ?_, ?_, ?_, ?_, ?_, ?_, ?_, ?_, ?_, ?_⟩ <;>
      exact whenRunning_running running

end Sys2Proof.Machine
end

