-- ==== Sys2Proof/Proofs/Queries.lean ====
section
/-! Proofs about the queries (R193 to R195): the names' bytes, each answer's fields, and the refusals. -/

namespace Sys2Proof.Machine

/-! ### Names in the order of their rules (R208) -/

theorem slotStateCode_eq (slot : Option Round) :
    slotStateCode slot = slot.elim 0 fun rd => nameByte [.loaded, .running, .closing] rd.state + 1 := by
  cases slot with
  | none => rfl
  | some rd => cases h : rd.state <;> simp only [slotStateCode, Option.elim, h] <;> rfl

theorem fillCode_eq (f : FillState) : f.code = nameByte [.low, .nearFull, .full, .overflow] f := by cases f <;> rfl

theorem healthCode_eq (h : Health) : h.code = nameByte [.noData, .good, .suspect, .fault] h := by cases h <;> rfl

theorem serviceCode_eq (v : ServiceName) : v.code = nameByte [.inUse, .serviceWait, .service, .held] v := by cases v <;> rfl

theorem holdCauseCode_eq (c : HoldCause) : c.code = nameByte [.timedOut, .unlocked] c := by cases c <;> rfl

theorem headerCode_eq (h : HeaderCondition) : h.code = nameByte [.good, .bad, .foreign, .blank] h := by cases h <;> rfl

theorem phaseCode_eq (p : Phase) : p.code = nameByte [.waitMissSlot, .waitFetch] p := by cases p <;> rfl

theorem grantCode_eq (k : GrantKind) : k.code = nameByte [.charged, .exempt, .provisional] k := by cases k <;> rfl

theorem stationCode_eq (x : StationState) :
    x.code = nameByte [.unbound, .absent, .joining, .awake, .dozing, .silent, .lost, .barred] x := by cases x <;> rfl

theorem joinCauseCode_eq (c : JoinCause) : joinCauseCode c = nameByte [.powerOn, .watchdog, .brownout, .soft] c := by
  cases c <;> rfl

theorem joinKindCode_eq (k : JoinKind) : k.code = nameByte [.first, .comeback, .restart] k := by cases k <;> rfl

theorem originCode_eq (o : Origin) : o.code = nameByte [.planned, .inserted, .adhoc] o := by cases o <;> rfl

theorem stepCode_eq (x : StepState) : x.code = nameByte [.pending, .lifting, .done, .missed] x := by cases x <;> rfl

theorem endCauseCode_eq (c : EndCause) : c.code = nameByte [.vehicleEnd, .expired, .cancelled] c := by cases c <;> rfl

theorem step_open_eq (st : Step) : st.open = (st.state == .pending || st.state == .lifting) := by
  cases h : st.state <;> simp only [Step.open, h] <;> rfl

/-! ### A query taken -/

/-- A query that has its answer is answered at once. -/
theorem answerQuery_reserved (tag : Byte) (bytes : List Byte) (s : State) :
    answerQuery tag bytes s.reserved = s.replied 0x14 tag .ok (.answer bytes) :=
  queueReply_reserved_eq_replied 0x14 tag .ok (.answer bytes) s

theorem queryStatus_answers {tag : Byte} {s : State} (running : s.hold = .running) (place : s.tp.occupancy < 128) :
    exec (.queryStatus tag []) s = .next (s.replied 0x14 tag .ok (.answer (statusAnswer s.reserved))) := by
  refine (whenRunning_running running).trans (congrArg _ ?_)
  refine (takeCommand_body (a := PUnit.unit) place (by simp)).trans ?_
  exact answerQuery_reserved tag _ s

theorem queryContainer_takes {tag : Byte} {n : Number} {s : State} (serves : s.serves) :
    exec (.queryContainer tag (bytesOf 4 n.toNat)) s = .next (
      if !validNumber n then s.replied 0x14 tag .badField .none
      else ((containerOf s n).bind fun r => (configOf s r).map fun c => (r, c)).elim (s.replied 0x14 tag .notFound .none)
        fun p => s.replied 0x14 tag .ok (.answer (containerAnswer s p.1 p.2))) := by
  refine (serves_takeCommand serves (numberArgs_bytesOf n)).trans (congrArg _ ?_)
  by_cases valid : (!validNumber n) = true
  · rw [if_pos valid, if_pos valid]
    exact answer_reserved rfl tag .badField s
  · rw [if_neg valid, if_neg valid]
    change (match (containerOf s n).bind fun r => (configOf s r).map fun c => (r, c) with
      | none => _
      | some (r, c) => _) = _
    rcases (containerOf s n).bind fun r => (configOf s r).map fun c => (r, c) with _ | ⟨r, c⟩
    · exact answer_reserved rfl tag .notFound s
    · exact answerQuery_reserved tag _ s

theorem queryStation_takes {tag : Byte} {bytes : List Byte} {a : Option Station} {s : State} (serves : s.serves)
    (named : addressArgs bytes = some a) :
    exec (.queryStation tag bytes) s = .next (a.elim (s.replied 0x14 tag .badField .none)
      fun a => s.replied 0x14 tag .ok (.answer (stationAnswer s a))) := by
  refine (serves_takeCommand serves named).trans (congrArg _ ?_)
  cases a with
  | none => exact answer_reserved rfl tag .badField s
  | some a => exact answerQuery_reserved tag _ s

theorem queryAccount_takes {tag : Byte} {n : Nat} {s : State} (serves : s.serves) (fits : n ≤ 65535) :
    exec (.queryAccount tag (bytesOf 2 n)) s = .next ((index? 4096 n).elim (s.replied 0x14 tag .badField .none)
      fun n => s.replied 0x14 tag .ok (.answer (accountAnswer s n))) := by
  have named : accountArgs (bytesOf 2 n) = some n := by
    rw [accountArgs, fixed_eq_some (length_bytesOf 2 n), fieldAt_whole (by omega)]
  refine (serves_takeCommand serves named).trans (congrArg _ ?_)
  cases index? 4096 n with
  | none => exact answer_reserved rfl tag .badField s
  | some n => exact answerQuery_reserved tag _ s

theorem queryRound_takes {tag : Byte} {n : Short} {offset : Nat} {s : State} (serves : s.serves) (fits : offset ≤ 255) :
    exec (.queryRound tag (bytesOf 2 n.toNat ++ bytesOf 1 offset)) s = .next (
      if n = 0 ∨ 47 < offset then s.replied 0x14 tag .badField .none
      else (slotWhere s fun rd => rd.number == n).elim (s.replied 0x14 tag .notFound .none)
        fun p => s.replied 0x14 tag .ok (.answer (roundAnswer s p.1 p.2 offset))) := by
  have named : queryRoundArgs (bytesOf 2 n.toNat ++ bytesOf 1 offset) = some (n, offset) := by
    have long : (bytesOf 2 n.toNat ++ bytesOf 1 offset).length = 3 := by simp
    rw [queryRoundArgs, fixed_eq_some long, fieldAt_here n.isLt, fieldAt_later (by simp), length_bytesOf, Nat.sub_self,
      fieldAt_whole (by omega), BitVec.ofNat_toNat, BitVec.setWidth_eq]
  refine (serves_takeCommand serves named).trans (congrArg _ ?_)
  by_cases bad : n = 0 ∨ 47 < offset
  · exact (if_pos bad).trans ((answer_reserved (kind := .query) rfl tag .badField s).trans (if_pos bad).symm)
  · refine (if_neg bad).trans (Eq.trans ?_ (if_neg bad).symm)
    change (match slotWhere s fun rd => rd.number == n with
      | none => _
      | some (i, rd) => _) = _
    rcases slotWhere s fun rd => rd.number == n with _ | ⟨i, rd⟩
    · exact answer_reserved rfl tag .notFound s
    · exact answerQuery_reserved tag _ s

theorem queryServiceQueue_takes {tag : Byte} {n : Nat} {s : State} (serves : s.serves) (fits : n ≤ 255) :
    exec (.queryServiceQueue tag (bytesOf 1 n)) s = .next (
      if 1 ≤ n ∧ n ≤ 16 then s.replied 0x14 tag .ok (.answer (queueAnswer s n)) else s.replied 0x14 tag .badField .none) := by
  have named : countArgs (bytesOf 1 n) = some n := by
    rw [countArgs, fixed_eq_some (length_bytesOf 1 n), fieldAt_whole (by omega)]
  refine (serves_takeCommand serves named).trans (congrArg _ ?_)
  by_cases legal : 1 ≤ n ∧ n ≤ 16
  · exact (if_pos legal).trans ((answerQuery_reserved tag _ s).trans (if_pos legal).symm)
  · exact (if_neg legal).trans ((answer_reserved (kind := .query) rfl tag .badField s).trans (if_neg legal).symm)

/-! ### The fields of the answers -/

theorem memoryBytes_target (body : WriteBody) : body.bytes = [body.code] ++ optBytes 4 (body.card.map numberBytes) ++
    optBytes 2 (body.target.map fun t => bytesOf 1 t.kind.val ++ bytesOf 1 t.position) := rfl

theorem own_eq (body : WriteBody) : body.own = (body == .header || body == .format) := by
  cases body <;> simp [WriteBody.own]

theorem stepBytes_eq (s : State) (st : Step) : stepBytes s st =
    bytesOf 1 st.row.val ++ [nameByte [.planned, .inserted, .adhoc] st.origin,
        nameByte [.pending, .lifting, .done, .missed] st.state, flagByte st.timedOut] ++
      optBytes 2 (st.before.map (bytesOf 2)) ++ optBytes 2 (st.after.map (bytesOf 2)) ++ bytesOf 2 st.weight.toNat ++
      optBytes 4 (st.doneMinute.map stampBytes) ++
      optBytes 2 (st.vehicle.map shortBytes) ++ bytesOf 4 (((configOf s st.row).map (·.number)).getD (0 : Number)).toNat := by
  rw [stepBytes, originCode_eq, stepCode_eq]
  rfl

theorem bodyBytes_eq (body : WriteBody) : body.bytes = match body with
    | .cardPut card => [0] ++ optBytes 4 (some (bytesOf 4 card.number.toNat)) ++ optBytes 2 none
    | .cardDrop n => [1] ++ optBytes 4 (some (bytesOf 4 n.toNat)) ++ optBytes 2 none
    | .record t _ _ => [2] ++ optBytes 4 none ++ optBytes 2 (some (bytesOf 1 t.kind.val ++ bytesOf 1 t.position))
    | .header => [3] ++ optBytes 4 none ++ optBytes 2 none
    | .format => [4] ++ optBytes 4 none ++ optBytes 2 none := by
  cases body <;> rfl

theorem restorePosition_eq (u : RecordMemory) : (restorePosition u).map (bytesOf 2) =
    if u.restoring then (match u.progress with
        | .identify _ | .header => some (bytesOf 2 0)
        | .records n => some (bytesOf 2 n)
        | .ended => some (bytesOf 2 303)) else none := by
  rw [restorePosition]
  cases u.restoring with
  | false => rfl
  | true => cases u.progress <;> rfl

theorem append_blockCounts (front : List Byte) (s : State) : front ++ (blockCounts s).flatMap (bytesOf 2) =
    front ++ bytesOf 2 s.au.grants ++ bytesOf 2 s.au.denials ++ bytesOf 2 s.au.releases ++ bytesOf 2 s.au.ignoredCloses ++
      bytesOf 2 s.slc.polls ++ bytesOf 2 s.slc.noAnswers ++ bytesOf 2 s.slc.collisions ++ bytesOf 2 s.slc.ignoredJoins ++
      bytesOf 2 s.clu.hits ++ bytesOf 2 s.clu.misses ++ bytesOf 2 s.clu.memoryErrors := by
  simp only [blockCounts, List.flatMap_cons, List.flatMap_nil, List.append_assoc, List.append_nil]

/-- The fields of a container's service record (R151, R171), with the seconds left on its service timer. -/
theorem serviceBytes_eq (s : State) (r : Row) : (serviceOf s r).bytes ++ optBytes 2 ((serviceLeft s r).map (bytesOf 2)) =
    match serviceOf s r with
    | .inUse => [0] ++ optBytes 2 none ++ optBytes 1 none ++ optBytes 4 none ++ optBytes 1 none ++ optBytes 2 none ++ optBytes 2 none
    | .serviceWait step relay => [1] ++ optBytes 2 (some step.bytes) ++ optBytes 1 (some (bytesOf 1 (addressOf relay))) ++
      optBytes 4 none ++ optBytes 1 none ++ optBytes 2 none ++ optBytes 2 none
    | .service step relay start => [2] ++ optBytes 2 (some step.bytes) ++ optBytes 1 (some (bytesOf 1 (addressOf relay))) ++
      optBytes 4 (some (clockBytes start)) ++ optBytes 1 none ++ optBytes 2 none ++
      optBytes 2 (some (bytesOf 2 (s.tp.effective.serviceLimit - elapsed s.tk.seconds start)))
    | .held cause step => [3] ++ optBytes 2 none ++ optBytes 1 none ++ optBytes 4 none ++
      optBytes 1 (some [nameByte [.timedOut, .unlocked] cause]) ++ optBytes 2 (step.map StepRef.bytes) ++ optBytes 2 none := by
  rw [serviceLeft]
  cases serviceOf s r with
  | held cause step =>
    simp only [Service.bytes, Option.map_some, holdCauseCode_eq]
    rfl
  | _ => rfl

theorem requestBytes_eq (q : Request) : q.bytes =
    bytesOf 4 q.card.toNat ++ [nameByte [.waitMissSlot, .waitFetch] q.phase] ++ bytesOf 4 q.arrival.toNat := by
  rw [Request.bytes, phaseCode_eq]
  rfl

theorem depositBytes_eq (d : OpenDeposit) : d.bytes =
    bytesOf 4 d.card.toNat ++ bytesOf 2 d.account.val ++ bytesOf 1 d.cost ++
      [nameByte [.charged, .exempt, .provisional] d.kind, d.tag, flagByte d.delivered] ++ bytesOf 4 d.granted.toNat := by
  rw [OpenDeposit.bytes, grantCode_eq]
  rfl

theorem openStep_eq (s : State) (r : Row) : openStep s r = s.rm.slots.rows.findSome? fun slot => slot.bind fun rd =>
    (rd.steps.findIdx? fun st => st.row == r && (st.state == .pending || st.state == .lifting)).map fun k => (rd.number, k + 1) := by
  rw [openStep]
  simp only [Round.findStep, step_open_eq]

theorem queueEntryBytes_eq (s : State) (r : Row) : queueEntryBytes s r = match configOf s r with
    | some c => bytesOf 4 c.number.toNat ++ bytesOf 1 r.val ++ bytesOf 2 (fillOf s r).ttf ++
      [nameByte [.low, .nearFull, .full, .overflow] (fillOf s r).fill,
        nameByte [.noData, .good, .suspect, .fault] (fillOf s r).health,
        nameByte [.inUse, .serviceWait, .service, .held] (serviceOf s r).name] ++
      bytesOf 1 c.cluster.val ++ bytesOf 1 c.fraction.val
    | none => [] := by
  rw [queueEntryBytes, fillCode_eq, healthCode_eq, serviceCode_eq]
  cases configOf s r <;> rfl

theorem boundBytes_eq (s : State) (a : Station) : boundBytes (boundList s a) =
    listBytes ((List.finRange 192).filterMap fun r => match configOf s r with
      | some c => if c.station = a then some (bytesOf 4 c.number.toNat ++ bytesOf 1 c.bay.val) else none
      | none => none) := by
  rw [boundBytes, boundList, List.map_filterMap, boundTo, Table.indexes, List.filterMap_filter]
  refine congrArg (fun f => listBytes (List.filterMap f _)) (funext fun r => ?_)
  change (if (configOf s r).any (fun c => c.station == a) then _ else none) = _
  cases config : configOf s r with
  | none => rfl
  | some c =>
    by_cases here : c.station = a
    · simp [here, numberBytes]
    · simp [here]

/-- Settles O29: each query's command read off, and each answer's fields in their order. -/
theorem queriesAnswer : Obligations.QueriesAnswer := by
  unfold Obligations.QueriesAnswer
  intro clock number short since place slotByte
  have slotByte_eq : slotStateCode = slotByte := by
    funext slot
    rw [slotStateCode_eq]
    cases slot <;> rfl
  refine ⟨⟨fun size bytes items => ⟨rfl, rfl, rfl⟩, rfl, rfl⟩, ?_, ?_, ?_, ?_, ?_, ?_, ?_⟩
  · intro tag s running free w entries target time lookup admission rounds memory trunk
    refine (queryStatus_answers running free).trans (congrArg (fun b => Host.Outcome.next (s.replied 0x14 tag .ok (.answer b))) ?_)
    have timeEq : timeBytes s.reserved = time := rfl
    have lookupEq : lookupBytes s.reserved = lookup := rfl
    have admissionEq : admissionBytes s.reserved = admission := rfl
    have roundsEq : slotsBytes s.reserved = rounds := by
      rw [slotsBytes, slotByte_eq]
      rfl
    have memoryEq : memoryBytes s.reserved = memory := by
      rw [memoryBytes, restorePosition_eq, funext headerCode_eq, funext own_eq, funext bodyBytes_eq]
      rfl
    have trunkEq : trunkBytes s.reserved = trunk := by
      rw [trunkBytes, append_blockCounts]
      rfl
    rw [statusAnswer, timeEq, lookupEq, admissionEq, roundsEq, memoryEq, trunkEq]
  · intro tag n r c s serves zero ones found config f p configured dynamic service admission
    rw [queryContainer_takes serves, found, if_neg (by simp [validNumber_iff.mpr ⟨zero, ones⟩]), Option.bind_some, config]
    refine congrArg (fun b => Host.Outcome.next (s.replied 0x14 tag .ok (.answer b))) ?_
    have serviceEq : (serviceOf s r).bytes ++ optBytes 2 ((serviceLeft s r).map (bytesOf 2)) ++
        optBytes 3 ((openStep s r).map fun p => shortBytes p.1 ++ bytesOf 1 p.2) = service := by
      rw [serviceBytes_eq, openStep_eq]
      rfl
    have admissionEq : optBytes 9 ((s.au.requests.find? (·.row == r)).map Request.bytes) ++
        optBytes 14 ((s.au.deposits.get r).map OpenDeposit.bytes) = admission := by
      rw [funext requestBytes_eq, funext depositBytes_eq]
    rw [containerAnswer, ← serviceEq, ← admissionEq, fillCode_eq, Fill.bytes, healthCode_eq]
    simp only [configured, dynamic, List.append_assoc, containerBytes, profileBytes]
    rfl
  · intro tag a s serves row
    rw [queryStation_takes serves (addressArgs_addressOf a)]
    refine congrArg (fun b => Host.Outcome.next (s.replied 0x14 tag .ok (.answer b))) ?_
    rw [stationAnswer, stationCode_eq, boundBytes_eq, funext joinCauseCode_eq, funext joinKindCode_eq]
    rfl
  · intro tag n s serves account rows
    rw [queryAccount_takes serves (by omega), index?_val]
    rfl
  · intro tag i rd offset s serves slot named small one left stepBytes'
    have found : slotWhere s (fun x => x.number == rd.number) = some (i, rd) :=
      slotWhere_eq_some slot (by simp) fun j other here same => one j other here (by simpa using same)
    rw [shortBytes, queryRound_takes serves (by omega), found, if_neg (not_or.mpr ⟨named, by omega⟩)]
    refine congrArg (fun b => Host.Outcome.next (s.replied 0x14 tag .ok (.answer b))) ?_
    have leftEq : minutesLeft s rd = left := by
      simp only [minutesLeft, left]
      cases rd.state <;> rfl
    have stepEq : stepBytes s = stepBytes' := by
      funext st
      rw [stepBytes_eq]
      simp only [stepBytes']
      refine congrArg₂ (· ++ ·) (congrArg₂ (· ++ ·) (congrArg₂ (· ++ ·) rfl ?_) rfl) rfl
      refine congrArg (fun f => optBytes 4 (Option.map f _)) (funext fun stamp => ?_)
      cases stamp <;> rfl
    rw [roundAnswer, slotByte_eq, funext endCauseCode_eq, leftEq, stepEq, stepCounts, StepCounts.bytes]
    simp only [List.append_assoc]
    rfl
  · intro tag n s serves first last
    rw [queryServiceQueue_takes serves (by omega), if_pos ⟨first, last⟩]
    refine congrArg (fun b => Host.Outcome.next (s.replied 0x14 tag .ok (.answer b))) ?_
    rw [queueAnswer, funext (queueEntryBytes_eq s)] <;> rfl
  · intro tag s serves badField notFound
    refine ⟨?_, ?_, ?_, ?_, ?_, ?_, ?_⟩
    · intro n bad
      rw [queryContainer_takes serves, if_pos (by simpa using validNumber_eq_false_iff.mpr bad)]
    · intro n zero ones missing
      rw [queryContainer_takes serves, missing, if_neg (by simp [validNumber_iff.mpr ⟨zero, ones⟩])]
      rfl
    · intro n bad
      have named : addressArgs (bytesOf 1 n) = some none := by
        rw [addressArgs, fixed_eq_some (length_bytesOf 1 n), fieldAt_whole (by omega), station?_eq_none_iff.mpr (by omega)]
      exact queryStation_takes serves named
    · intro n past fits
      have outside : index? 4096 n = none := by simp [index?, past]
      rw [queryAccount_takes serves fits, outside]
      rfl
    · intro n offset bad fits
      rw [queryRound_takes serves fits, if_pos bad]
    · intro n offset named small none_
      rw [queryRound_takes serves (by omega), if_neg (not_or.mpr ⟨named, by omega⟩),
        slotWhere_eq_none fun i rd slot => by simpa using none_ i rd slot]
      rfl
    · intro n bad
      rw [queryServiceQueue_takes serves (by omega), if_neg (by omega)]

end Sys2Proof.Machine
end

