-- ==== Sys2Proof/Proofs/Work.lean ====
section
/-! The work of a command as a chain of moves. Each move changes one thing and carries what the command has checked before it; a law
is kept by every step when it is kept by every move. What a command owes while it is carried out (a REPLY, a re-evaluation, the
settling of a station, a freed place) is its debt: a law holds but for the debt, and a whole command leaves none. -/

namespace Sys2Proof.Machine

/-! ### Premises and debts -/

/-- What is known of the state in which a command begins, and of its operands. Each law assumes what it needs of it. -/
structure Premises where
  /-- The device keeps its card buckets as they have been written (log 3, 29). -/
  device : Prop
  /-- In RESTORING no turn is on the loop (R180). -/
  turn : Prop
  /-- In READY none of the restore's operations is on the port (R176). -/
  rest : Prop
  /-- The rejoin limits on their way into force are in range (R192). -/
  coming : Prop

/-- What a command still owes. -/
structure Debt where
  /-- Commands that have left the write queue, or have not entered it yet, and whose REPLY is not queued. -/
  replies : Nat
  /-- Containers whose membership of the service queue is to be re-evaluated. -/
  off : Set Row
  /-- The container whose TTF has changed without a re-evaluation. -/
  moved : Option Row
  /-- Stations that have left service and whose containers are to be settled. -/
  stations : Set Station
  /-- A place of the miss list has become free and has not been offered to the slot-wait order. -/
  place : Bool

/-- Nothing owed. -/
def Debt.none : Debt := { replies := 0, off := ∅, moved := Option.none, stations := ∅, place := false }

/-- One debt covers another. -/
structure Debt.Covers (g' g : Debt) : Prop where
  replies : g'.replies = g.replies
  off : g.off ⊆ g'.off
  moved : g.moved = Option.none ∨ g.moved = g'.moved
  stations : g.stations ⊆ g'.stations
  place : g.place = true → g'.place = true

theorem Debt.Covers.refl (g : Debt) : g.Covers g := ⟨rfl, subset_rfl, .inr rfl, subset_rfl, id⟩

/-! ### The blocks' counts (R40, R147, R176, R205) -/

def StreetLoop.inRange (u : StreetLoop) : Prop :=
  u.sinceOpen ≤ 32 ∧ u.streak ≤ 7 ∧ u.polls ≤ 65535 ∧ u.noAnswers ≤ 65535 ∧ u.collisions ≤ 65535 ∧ u.ignoredJoins ≤ 65535

def CardLookup.inRange (u : CardLookup) : Prop := u.hits ≤ 65535 ∧ u.misses ≤ 65535 ∧ u.memoryErrors ≤ 65535

def AdmissionUnit.inRange (u : AdmissionUnit) : Prop :=
  u.grants ≤ 65535 ∧ u.denials ≤ 65535 ∧ u.releases ≤ 65535 ∧ u.ignoredCloses ≤ 65535

def TrunkPort.inRange (t : TrunkPort) : Prop := t.crcErrors ≤ 65535 ∧ t.droppedReports ≤ 65535 ∧ t.commandOverruns ≤ 65535

theorem bump_le (n k : Nat) : bump n k ≤ 65535 := Nat.min_le_left _ _

/-! ### Trunk Port -/

/-- A move of the Trunk Port. -/
inductive TrunkMove : Debt → State → Debt → State → Prop
  | placed {g s} (r : Report) : TrunkMove g s g (placeReport r s)
  | absorbed {g s} (d : DepositReport) (waiting : List UpEntry) (joined : absorb d s.tp.waiting = some waiting) :
      TrunkMove g s g { s with tp.waiting := waiting }
  | reserved {g s} (place : s.tp.occupancy < Config.upstreamPlaces) :
      TrunkMove g s { g with replies := g.replies + 1 } s.reserved
  | replied {g s} (k : Nat) (owed : g.replies = k + 1) (kind tag : Byte) (status : Status) (detail : Detail) :
      TrunkMove g s { g with replies := k } (queueReply kind tag status detail s)
  | port {g s} (t : TrunkPort) (line : t.line = s.tp.line) (waiting : t.waiting = s.tp.waiting)
      (reserved : t.reserved = s.tp.reserved) (effective : t.effective = s.tp.effective) (range : s.tp.inRange → t.inRange) :
      TrunkMove g s g { s with tp := t }
  | sent {g s} : TrunkMove g s g { s with tp := s.tp.sent }
  | traffic {g s} : TrunkMove g s g { s with tp := s.tp.traffic }

/-! ### Street Loop Controller -/

/-- A row's rejoin count is at most the limit, and at the limit in BARRED alone (R21, R26). -/
def StationRow.rejoins (limit : Nat) (row : StationRow) : Prop :=
  row.rejoin ≤ limit ∧ (row.state = .barred ↔ row.rejoin = limit)

/-- What every change of a station row keeps: its queue only loses commands, and its rejoin count stays within the limit. -/
structure StationRow.Follows (p : Premises) (s : State) (old new : StationRow) : Prop where
  queue : new.queue.Sublist old.queue
  rejoin : p.rest → (s.rmi.restoring = true → old.rejoin = 0) → 1 ≤ s.tp.effective.rejoinLimit →
    old.rejoins s.tp.effective.rejoinLimit → new.rejoins s.tp.effective.rejoinLimit
  zero : p.turn → s.rmi.restoring = true → old.rejoin = 0 → new.rejoin = 0

/-- A row stays in service if it was, or is not in service in RESTORING. -/
def StationRow.StaysLive (p : Premises) (s : State) (old new : StationRow) : Prop :=
  (new.state.live = false → old.state.live = false) ∨ (p.rest → s.rmi.restoring = true)

/-- A move of the Street Loop Controller. -/
inductive StreetMove (p : Premises) : Debt → State → Debt → State → Prop
  | sent {g s} (a : Station) (c : DownCommand) : StreetMove p g s g (sendDown a c s)
  | rows {g s} (rows : Table StationRow 62) (leaving : Set Station)
      (follows : ∀ a, (s.slc.rows.get a).Follows p s (rows.get a)) (serial : ∀ a, (rows.get a).serial = (s.slc.rows.get a).serial)
      (live : ∀ a, a ∈ leaving ∨ (s.slc.rows.get a).StaysLive p s (rows.get a)) :
      StreetMove p g s { g with stations := g.stations ∪ leaving } { s with slc.rows := rows }
  | bound {g s} (a : Station) (f : StationRow → StationRow) (follows : (s.slc.rows.get a).Follows p s (f (s.slc.rows.get a)))
      (live : (s.slc.rows.get a).StaysLive p s (f (s.slc.rows.get a)))
      (apart : ∀ b, b ≠ a → (f (s.slc.rows.get a)).serial.isSome = true →
        (s.slc.rows.get b).serial ≠ (f (s.slc.rows.get a)).serial) :
      StreetMove p g s g (setStation a f s)
  | loop {g s} (u : StreetLoop) (rows : u.rows = s.slc.rows)
      (turn : s.rmi.restoring = true → s.slc.turn = none → u.turn = none) (range : s.slc.inRange → u.inRange) :
      StreetMove p g s g { s with slc := u }
  | settled {g s} (a : Station) (idle : ∀ r c, configOf s r = some c → c.station = a → s.idle r) :
      StreetMove p g s { g with stations := g.stations \ {a} } s

/-! ### Admission Unit -/

/-- A move of the Admission Unit, with the requests that leave the Card Lookup Unit. -/
inductive DeskMove (p : Premises) : State → State → Prop
  | desk {s} (u : AdmissionUnit) (deposits : u.deposits = s.au.deposits)
      (requests : u.requests.map (·.row) = s.au.requests.map (·.row))
      (held : ∀ n, (u.accounts.get n).held = (s.au.accounts.get n).held) (range : s.au.inRange → u.inRange) :
      DeskMove p s { s with au := u }
  | cleared {s} : DeskMove p s { s with au.requests := [] }
  | admitted {s} (q : Request) (place : s.au.requests.length < Config.requestPlaces) (alone : chuteBusy s q.row = false)
      (live : ∃ c, configOf s q.row = some c ∧ (s.slc.rows.get c.station).state.live = true)
      (ready : p.turn → s.rmi.restoring = false) : DeskMove p s { s with au.requests := s.au.requests ++ [q] }
  | dropped {s} (r : Row) : DeskMove p s (dropRequest r s)
  | granted {s} (q : Request) (d : OpenDeposit) (asked : q ∈ s.au.requests) (free : d.kind ≠ .charged → d.cost = 0) :
      DeskMove p s (dropRequest q.row (setDeposit q.row (some d)
        (setAccount d.account (fun a => { a with held := a.held + d.cost }) s)))
  | ended {s} (r : Row) (d : OpenDeposit) (accounts : Table Account 4096) (deposit : s.au.deposits.get r = some d)
      (held : ∀ n, (accounts.get n).held =
        if n = d.account ∧ d.kind = .charged then (s.au.accounts.get n).held - d.cost else (s.au.accounts.get n).held) :
      DeskMove p s { s with au := { s.au with accounts := accounts, deposits := s.au.deposits.set r none } }
  | delivered {s} (r : Row) (d : OpenDeposit) (deposit : s.au.deposits.get r = some d) :
      DeskMove p s (setDeposit r (some { d with delivered := true }) s)

/-! ### Card Lookup Unit -/

/-- A move of the Card Lookup Unit. -/
inductive CardsMove (p : Premises) : Debt → State → Debt → State → Prop
  | counts {g s} (u : CardLookup) (entries : u.entries = s.clu.entries) (recency : u.recency = s.clu.recency)
      (missList : u.missList = s.clu.missList) (slotWait : u.slotWait = s.clu.slotWait) (range : s.clu.inRange → u.inRange) :
      CardsMove p g s g { s with clu := u }
  | touched {g s} (i : Fin 32) (valid : (s.clu.entries.get i).isSome = true) : CardsMove p g s g { s with clu := s.clu.touch i }
  | installed {g s} (m : MissEntry) (r : CardRecord) (asked : m ∈ s.clu.missList) (granted : m.granted = true)
      (fresh : m.stale = false) (wanted : r.number ∈ m.wanted)
      (held : p.device → bucketOf r.number = m.bucket →
        searchBucket (heldSlots s.memory (bucketOf r.number)) r.number = .found r) :
      CardsMove p g s g { s with clu := s.clu.install r }
  | flushed {g s} : CardsMove p g s g { s with clu := s.clu.flush }
  | marked {g s} (b : Bucket → Bool) : CardsMove p g s g { s with clu := s.clu.markStale b }
  | cleared {g s} : CardsMove p g s g { s with clu := { s.clu with missList := [], slotWait := [] } }
  | joined {g s} (w : Waiter) : CardsMove p g s g
      { s with clu.missList := s.clu.missList.map fun e => if e.bucket = bucketOf w.card then e.join w else e }
  | placed {g s} (w : Waiter) (clean : g.place = false) (place : s.clu.missList.length < Config.missPlaces)
      (new : ∀ e ∈ s.clu.missList, e.bucket ≠ bucketOf w.card) :
      CardsMove p g s g { s with clu.missList := s.clu.missList ++ [newEntry (bucketOf w.card) [w]] }
  | waits {g s} (w : Waiter) (full : ¬s.clu.missList.length < Config.missPlaces)
      (new : ∀ e ∈ s.clu.missList, e.bucket ≠ bucketOf w.card) :
      CardsMove p g s g { s with clu.slotWait := s.clu.slotWait ++ [w] }
  | taken {g s} (w : Waiter) (rest : List Waiter) (head : s.clu.slotWait = w :: rest) :
      CardsMove p g s g { s with clu.slotWait := rest }
  | served {g s} (w : Waiter) (rest : List Waiter) (head : s.clu.slotWait = w :: rest)
      (place : s.clu.missList.length < Config.missPlaces) : CardsMove p g s { g with place := false }
        { s with clu := { s.clu with
            slotWait := rest.filter fun v => bucketOf v.card != bucketOf w.card
            missList := s.clu.missList ++ [newEntry (bucketOf w.card) (slotGroup w rest)] } }
  | left {g s} (b : Bucket) (clean : g.place = false) : CardsMove p g s { g with place := true }
      { s with clu.missList := s.clu.missList.filter (·.bucket != b) }
  | offered {g s} (full : s.clu.slotWait ≠ [] → Config.missPlaces ≤ s.clu.missList.length) :
      CardsMove p g s { g with place := false } s

/-! ### Fill Tracker and Round Manager -/

/-- A service record that names a step while the lift lasts (R151). -/
def Service.lifts (step : StepRef) (v : Service) : Prop :=
  (∃ relay, v = .serviceWait step relay) ∨ ∃ relay start, v = .service step relay start

/-- A move of the Fill Tracker and the Round Manager that leaves every container's configuration. -/
inductive RowMove : Debt → State → Debt → State → Prop
  | aside {g s} (tk : Timekeeper) (profiles : Table Profile 16) (free : Nat) :
      RowMove g s g { s with tk := tk, ft.profiles := profiles, free := free }
  | filled {g s} (r : Row) (f : Fill → Fill) (still : g.moved = none ∨ g.moved = some r) :
      RowMove g s { g with off := insert r g.off, moved := some r } (setFill r f s)
  | marked {g s} (r : Row) (f : Fill → Fill) (quiet : ∀ x, (f x).ttf = x.ttf ∧ (f x).fill = x.fill) :
      RowMove g s g (setFill r f s)
  | recounted {g s} (rows : Table ContainerRow 192) (config : ∀ r, (rows.get r).config = configOf s r) :
      RowMove g s { g with off := ∅, moved := none } (rebuildQueue { s with ft.rows := rows })
  | member {g s} (r : Row) (still : g.moved = none ∨ g.moved = some r) :
      RowMove g s { g with off := g.off \ {r}, moved := none } (reevaluate r s)
  | served {g s} (r : Row) (v : Service) (refers : (serviceOf s r).refersTo s r → v.refersTo s r)
      (lifts : ∀ step, (serviceOf s r).lifts step → v.lifts step) : RowMove g s g (setService r v s)
  | appended {g s} (i : Fin 4) (rd rd' : Round) (r : Row) (origin : Origin) (slot : s.rm.slots.get i = some rd)
      (apart : onActiveRound s r = false) (occupied : (configOf s r).isSome = true)
      (steps : rd'.steps = rd.steps ++ [Step.fresh r origin]) (number : rd'.number = rd.number) (vehicle : rd'.vehicle = rd.vehicle) :
      RowMove g s { g with off := insert r g.off } (setSlot i (some rd') s)
  | lifted {g s} (step : StepRef) (x : Step) (v : Service) (f : Step → Step) (at_ : stepAt s step = some x)
      (pending : x.state = .pending) (row : ∀ y, (f y).row = y.row) (lifting : ∀ y, (f y).state = .lifting) (lifts : v.lifts step) :
      RowMove g s { g with off := insert x.row g.off } (setService x.row v (setStep step f s))
  | finished {g s} (step : StepRef) (r : Row) (v : Service) (f : Step → Step)
      (names : (serviceOf s r).lifts step ∨ ∃ cause, serviceOf s r = .held cause (some step))
      (row : ∀ y, (f y).row = y.row) (closed : ∀ y, (f y).open = false)
      (after : v = .inUse ∨ ∃ cause, v = .held cause none ∨ v = .held cause (some step)) :
      RowMove g s { g with off := insert r g.off } (setService r v (setStep step f s))
  | header {g s} (i : Fin 4) (rd rd' : Round) (slot : s.rm.slots.get i = some rd) (steps : rd'.steps = rd.steps)
      (number : rd'.number = rd.number) (vehicle : rd'.vehicle = rd.vehicle) : RowMove g s g (setSlot i (some rd') s)
  | loaded {g s} (i : Fin 4) (rd : Round) (rows : List Row) (slot : s.rm.slots.get i = none)
      (apart : ∀ j other, s.rm.slots.get j = some other → other.vehicle ≠ rd.vehicle ∧ other.number ≠ rd.number)
      (steps : rd.steps = rows.map fun r => Step.fresh r .planned) (once : rows.Nodup)
      (idle : ∀ r ∈ rows, onActiveRound s r = false ∧ (configOf s r).isSome = true) :
      RowMove g s { g with off := g.off ∪ {r | r ∈ rows} } (setSlot i (some rd) s)
  | missed {g s} (i : Fin 4) (rd rd' : Round) (slot : s.rm.slots.get i = some rd) (steps : rd'.steps = rd.steps.map Step.miss)
      (number : rd'.number = rd.number) (vehicle : rd'.vehicle = rd.vehicle) :
      RowMove g s { g with off := g.off ∪ {r | ∃ st ∈ rd.steps, st.state = .pending ∧ st.row = r} } (setSlot i (some rd') s)
  | freed {g s} (i : Fin 4) (rd : Round) (slot : s.rm.slots.get i = some rd) (done : rd.lifting = false) :
      RowMove g s { g with off := g.off ∪ {r | ∃ st ∈ rd.steps, st.row = r} }
        (setSlot i none { s with rm.service := s.rm.service.map (Service.loseStep i) })

/-! ### Record Memory Interface -/

/-- None of the restore's operations is on the port (R176). -/
def RecordMemory.atRest (u : RecordMemory) : Prop :=
  u.port ≠ some .identification ∧ u.port ≠ some .header ∧ u.port ≠ some .record

/-- A record write stays within its record (11.4). -/
def WriteBody.inside (body : WriteBody) : Prop :=
  ∀ target contents values, body = .record target contents values → contents.length ≤ 32

/-- A rejoin limit among carried values is in its range (R192). -/
def ranged (values : List (ParamId × Nat)) : Prop := ∀ v ∈ values, v.1 = .rejoinLimit → 1 ≤ v.2 ∧ v.2 ≤ 15

/-- A move of the Record Memory Interface. -/
inductive MemoryMove (p : Premises) : Debt → State → Debt → State → Prop
  | queued {g s} (target : RecordTarget) (contents : List Byte) (values : List (ParamId × Nat))
      (inside : contents.length ≤ 32) (range : ranged values) :
      MemoryMove p g s g (queueWrite (.record target contents values) none s)
  | promised {g s} (k : Nat) (owed : g.replies = k + 1) (target : RecordTarget) (contents : List Byte)
      (values : List (ParamId × Nat)) (reply : ReplyTo) (inside : contents.length ≤ 32) (range : ranged values) :
      MemoryMove p g s { g with replies := k } (queueWrite (.record target contents values) (some reply) s)
  | own {g s} (w : OwnWrite) : MemoryMove p g s g (queueOwn w s)
  | done {g s} (e : WriteEntry) (rest : List WriteEntry) (u : RecordMemory) (head : s.rmi.queue = e :: rest) (queue : u.queue = rest)
      (port : u.port = none) (restoring : u.restoring = s.rmi.restoring) (range : u.fetchRun = s.rmi.fetchRun) (k : Nat)
      (owed : k = g.replies + (if e.reply.isSome then 1 else 0) ∨ e.body.own = true ∧ k = g.replies) :
      MemoryMove p g s { g with replies := k } { s with rmi := u }
  | interface {g s} (u : RecordMemory)
      (queue : u.queue.map (fun e => (e.body, e.reply)) = s.rmi.queue.map fun e => (e.body, e.reply))
      (restoring : u.restoring = s.rmi.restoring) (port : s.rmi.restoring = false → s.rmi.atRest → u.atRest)
      (range : s.rmi.fetchRun ≤ 3 → u.fetchRun ≤ 3) : MemoryMove p g s g { s with rmi := u }
  | device {g s} (m : Memory) (wf : s.memory.wf = true → m.wf = true)
      (keeps : p.device → s.memory.wf = true → (∀ e ∈ s.rmi.queue, e.body.inside) → ∀ r : CardRecord,
        (∀ e ∈ s.rmi.queue, e.body.card ≠ some r.number) →
        searchBucket (heldSlots s.memory (bucketOf r.number)) r.number = .found r →
        searchBucket (heldSlots m (bucketOf r.number)) r.number = .found r) :
      MemoryMove p g s g { s with memory := m }

/-! ### Chains of moves -/

/-- Work that leads from one state to another, with what is owed in each. -/
inductive Work (p : Premises) : Debt → State → Debt → State → Prop
  | refl {g s} : Work p g s g s
  | trans {g s h t k u} : Work p g s h t → Work p h t k u → Work p g s k u
  | weaken {g g' s} (covers : g'.Covers g) : Work p g s g' s
  | trunk {g s h t} (move : TrunkMove g s h t) : Work p g s h t
  | street {g s h t} (move : StreetMove p g s h t) : Work p g s h t
  | desk {g s t} (move : DeskMove p s t) : Work p g s g t
  | cards {g s h t} (move : CardsMove p g s h t) : Work p g s h t
  | rows {g s h t} (move : RowMove g s h t) : Work p g s h t
  | memory {g s h t} (move : MemoryMove p g s h t) : Work p g s h t
  /-- CONTAINER_PUT's new row (R82). -/
  | entered {g s} (r : Row) (c : ContainerConfig) (fill : Fill) (service : Table Service 192)
      (idle : (configOf s r).isSome = true → s.idle r)
      (same : ∀ x, service.get x = if x = r ∧ configOf s r = none then .inUse else serviceOf s x)
      (still : g.moved = none) : Work p g s { g with off := insert r g.off, moved := some r }
        { s with ft.rows := s.ft.rows.set r { config := some c, fill := fill }, rm.service := service }
  /-- CONTAINER_DROP's empty row (R83). -/
  | emptied {g s} (r : Row) (traffic : hasTraffic s r = false) : Work p g s g
      { s with
        ft := { s.ft with queue := s.ft.queue.filter (· != r), rows := s.ft.rows.set r ContainerRow.cold }
        rm.service := s.rm.service.set r .inUse }
  /-- A container record restored (R183). -/
  | restored {g s} (r : Row) (c : ContainerConfig) (restoring : p.rest → s.rmi.restoring = true) : Work p g s g
      { s with ft.rows := s.ft.rows.update r fun row => { row with config := some c } }
  /-- Nothing is owed to the service queue in RESTORING. -/
  | cleaned {g s} (restoring : p.rest → s.rmi.restoring = true) : Work p g s { g with off := ∅, moved := none } s
  /-- The end of the restore (R185). -/
  | ready {g s} (port : s.rmi.port = none) : Work p g s { g with off := ∅, moved := none }
      (rebuildQueue { s with rmi := { s.rmi with restoring := false, progress := .ended } })
  /-- A parameter set taking effect (R192). -/
  | params {g s} (q : Params) (off : Set Row) (covers : g.off ⊆ off)
      (horizon : q.horizon ≠ s.tp.effective.horizon → off = Set.univ)
      (limit : p.coming → 1 ≤ s.tp.effective.rejoinLimit ∧ s.tp.effective.rejoinLimit ≤ 15 →
        1 ≤ q.rejoinLimit ∧ q.rejoinLimit ≤ 15) : Work p g s { g with off := off }
        (applyRejoinLimit s.tp.effective.rejoinLimit q.rejoinLimit { s with tp := s.tp.withEffective q })
  /-- A parameter record restored (R183). -/
  | loaded {g s} (q : Params) (restoring : p.rest → s.rmi.restoring = true) (limit : 1 ≤ q.rejoinLimit ∧ q.rejoinLimit ≤ 15) :
      Work p g s g { s with tp := { s.tp.withEffective q with written := q } }
  /-- A card write accepted (R115, R116). -/
  | accepted {g s} (k : Nat) (owed : g.replies = k + 1) (n : Number) (body : WriteBody) (card : body.card = some n)
      (bucket : body.bucket = some (bucketOf n)) (kind : CommandKind) (tag : Byte) :
      Work p g s { g with replies := k } (acceptCardWrite n body kind tag s)
  /-- A fetch granted (R109, R176). -/
  | fetched {g s} (b : Bucket) : Work p g s g (grantFetch b s)
  /-- A FULL reset taken (R199). -/
  | shut {g s} (m : Memory) (wf : s.memory.wf = true → m.wf = true) : Work p g s { g with replies := 1 }
      { s with memory := m, hold := .trunkFull, slc.turn := none, tp := s.tp.shut, rmi := { s.rmi with port := none, queue := [] } }
  /-- Every block at its COLD values (R12). -/
  | cold {g s} (m : Memory) (wf : s.memory.wf = true → m.wf = true) (cause : ResetCause) (hold : Hold) (straps : Straps) :
      Work p g s Debt.none (State.cold cause hold straps { s with memory := m })
  /-- The release of a hold (R181). -/
  | held {g s} (hold : Hold) (straps : Straps) (free : hold ≠ .trunkFull → s.hold ≠ .trunkFull) :
      Work p g s g { s with hold := hold, straps := straps }

end Sys2Proof.Machine
end

