-- ==== Sys2Proof/Proofs/Operations.lean ====
section
/-! The operations of the blocks as work: one lemma for each, in the order of the model. -/

namespace Sys2Proof.Machine

variable {p : Premises} {g : Debt} {s : State}

/-! ### Putting work together -/

theorem Work.foldl {α : Type} {f : State → α → State} (step : ∀ s x, Work p g s g (f s x)) : ∀ (l : List α) (s : State),
    Work p g s g (l.foldl f s)
  | [], _ => .refl
  | x :: rest, s => (step s x).trans (Work.foldl step rest (f s x))

theorem Work.ite {h : Debt} {t u : State} {c : Prop} [Decidable c] (first : Work p g s h t) (second : Work p g s h u) :
    Work p g s h (if c then t else u) := by split <;> assumption

/-! ### Shared operations -/

theorem work_postReport (r : Report) (s : State) : Work p g s g (postReport r s) := by
  cases r with
  | deposit d =>
    cases joined : absorb d s.tp.waiting with
    | none =>
      have new : postReport (.deposit d) s = placeReport (.deposit d) s := by simp only [postReport, joined]
      rw [new]
      exact .trunk (.placed _)
    | some waiting => rw [postReport_absorbed joined]; exact .trunk (.absorbed d waiting joined)
  | _ => exact .trunk (.placed _)

theorem work_sendDown (a : Station) (c : DownCommand) (s : State) : Work p g s g (sendDown a c s) := .street (.sent a c)

theorem work_reportChange (r : Row) (cause : StatusCause) (before s : State) : Work p g s g (reportChange r cause before s) := by
  unfold reportChange
  split
  · exact .refl
  · exact .ite (work_postReport _ _) .refl

theorem StationRow.Follows.of_same {old new : StationRow} (queue : new.queue.Sublist old.queue) (rejoin : new.rejoin = old.rejoin)
    (barred : new.state = .barred ↔ old.state = .barred) : old.Follows p s new where
  queue := queue
  rejoin _ _ _ := by simp only [StationRow.rejoins, rejoin, barred]; exact id
  zero _ _ zero := rejoin.trans zero

theorem StationRow.Follows.refl (row : StationRow) : row.Follows p s row := .of_same (List.Sublist.refl _) rfl Iff.rfl

/-- Rows changed, none of them leaving service. -/
theorem work_rows (rows : Table StationRow 62) (follows : ∀ a, (s.slc.rows.get a).Follows p s (rows.get a))
    (serial : ∀ a, (rows.get a).serial = (s.slc.rows.get a).serial)
    (live : ∀ a, (s.slc.rows.get a).StaysLive p s (rows.get a)) : Work p g s g { s with slc.rows := rows } :=
  .trans (.street (.rows rows ∅ follows serial fun a => .inr (live a)))
    (.weaken ⟨rfl, subset_rfl, .inr rfl, by simp, id⟩)

/-- One row changed, not leaving service. -/
theorem work_setStation {a : Station} {f : StationRow → StationRow} (follows : (s.slc.rows.get a).Follows p s (f (s.slc.rows.get a)))
    (serial : (f (s.slc.rows.get a)).serial = (s.slc.rows.get a).serial)
    (live : (s.slc.rows.get a).StaysLive p s (f (s.slc.rows.get a))) : Work p g s g (setStation a f s) := by
  refine work_rows _ (fun b => ?_) (fun b => ?_) fun b => ?_
  all_goals by_cases here : b = a
  · rw [here, Table.get_update_self]; exact follows
  · rw [Table.get_update_ne _ _ here]; exact .refl _
  · rw [here, Table.get_update_self]; exact serial
  · rw [Table.get_update_ne _ _ here]
  · rw [here, Table.get_update_self]; exact live
  · rw [Table.get_update_ne _ _ here]; exact .inl id

/-- One row changed; it may have left service, and its containers are to be settled. -/
theorem work_setStation_leaving {a : Station} {f : StationRow → StationRow}
    (follows : (s.slc.rows.get a).Follows p s (f (s.slc.rows.get a)))
    (serial : (f (s.slc.rows.get a)).serial = (s.slc.rows.get a).serial) :
    Work p g s { g with stations := g.stations ∪ {a} } (setStation a f s) := by
  refine .street (.rows _ {a} (fun b => ?_) (fun b => ?_) fun b => ?_)
  all_goals by_cases here : b = a
  · rw [here, Table.get_update_self]; exact follows
  · rw [Table.get_update_ne _ _ here]; exact .refl _
  · rw [here, Table.get_update_self]; exact serial
  · rw [Table.get_update_ne _ _ here]
  · exact .inl here
  · rw [Table.get_update_ne _ _ here]; exact .inr (.inl id)

theorem work_emptyDown (a : Station) (s : State) : Work p g s g (emptyDown a s) := by
  refine .trans (work_setStation (.of_same (List.nil_sublist _) rfl Iff.rfl) rfl (.inl id)) (.street (.loop _ rfl ?_ id))
  intro _ none_
  exact congrArg (Option.map (Turn.forget a)) none_

theorem work_dropRequest (r : Row) (s : State) : Work p g s g (dropRequest r s) := .desk (.dropped r)

theorem work_answer (k : Nat) (owed : g.replies = k + 1) (kind : CommandKind) (tag : Byte) (status : Status) (s : State) :
    Work p g s { g with replies := k } (answer kind tag status s) := .trunk (.replied k owed _ _ _ _)

theorem work_drawByte (s : State) : Work p g s g (drawByte s).2 := .rows (.aside s.tk s.ft.profiles (s.free + 1))

theorem work_clock (tk : Timekeeper) (s : State) : Work p g s g { s with tk := tk } := .rows (.aside tk s.ft.profiles s.free)

/-! ### Fill Tracker -/

/-- A container's membership re-evaluated in its turn. -/
theorem work_reevaluate {r : Row} (still : g.moved = none ∨ g.moved = some r) (s : State) :
    Work p g s { g with off := g.off \ {r}, moved := none } (reevaluate r s) := .rows (.member r still)

/-- A container's membership re-evaluated with nothing else in doubt. -/
theorem work_reevaluate_still (still : g.moved = none) (r : Row) (s : State) : Work p g s g (reevaluate r s) :=
  (work_reevaluate (.inl still) s).trans (.weaken ⟨rfl, Set.diff_subset, .inl rfl, subset_rfl, id⟩)

theorem work_insertOverflow {r : Row} (off : r ∈ g.off) (s : State) : Work p g s g (insertOverflow r s) := by
  unfold insertOverflow
  split
  · exact .refl
  · rename_i c config
    split
    · exact .refl
    · rename_i other
      split
      · exact .refl
      · rename_i i rd chosen
        have apart : onActiveRound s r = false := by simpa using (not_or.mp other).2
        refine .trans (.rows (.appended i rd (rd.inserting r) r .inserted (insertionSlot_some chosen).1 apart (by simp [config])
          rfl rfl rfl)) ?_
        exact .trans (work_postReport _ _) (.weaken ⟨rfl, Set.insert_subset off subset_rfl, .inr rfl, subset_rfl, id⟩)

/-- A container's row in doubt, then re-evaluated, is owed no more. -/
theorem covers_settled (r : Row) (still : g.moved = none) :
    g.Covers { g with off := insert r g.off \ {r}, moved := none } :=
  ⟨rfl, fun x hx => (Set.mem_insert_iff.mp hx.1).resolve_left hx.2, .inl rfl, subset_rfl, id⟩

theorem work_changeFill (still : g.moved = none) (r : Row) (f : Fill) (s : State) : Work p g s g (changeFill r f s) := by
  refine .trans (t := setFill r (fun _ => f) s) (.rows (.filled r _ (.inl still))) ?_
  have overflow : Work p { g with off := insert r g.off, moved := some r } (setFill r (fun _ => f) s)
      { g with off := insert r g.off, moved := some r }
      (if f.fill = .overflow ∧ (fillOf s r).fill ≠ .overflow then insertOverflow r (setFill r (fun _ => f) s)
        else setFill r (fun _ => f) s) :=
    .ite (work_insertOverflow (Set.mem_insert r _) _) .refl
  exact overflow.trans ((work_reevaluate (.inr rfl) _).trans (.weaken (covers_settled r still)))

theorem work_sampleEvent (still : g.moved = none) (r : Row) (echo : Nat) (temperature : Int) (lidOpen : Bool) (s : State) :
    Work p g s g (sampleEvent r echo temperature lidOpen s) := by
  unfold sampleEvent
  split
  · exact .refl
  · refine .ite .refl (.trans (.ite (.rows (.marked r _ fun x => ?_)) (work_changeFill still _ _ _)) (work_reportChange _ _ _ _))
    exact ⟨rfl, rfl⟩

theorem work_creditDeposit (still : g.moved = none) (r : Row) (s : State) : Work p g s g (creditDeposit r s) :=
  work_changeFill still _ _ _

theorem work_countDown (s : State) : Work p g s g (countDown s) := by
  unfold countDown
  refine .ite .refl (.trans (.rows (.recounted (s.ft.rows.map fun row =>
    if row.config.isSome then { row with fill := { row.fill with ttf := row.fill.ttf - 1 } } else row) fun r => ?_))
    (.weaken ⟨rfl, by simp, .inl rfl, subset_rfl, id⟩))
  rw [Table.get_map]
  split <;> rfl

theorem work_watchStale (r : Row) (s : State) : Work p g s g (watchStale r s) := by
  unfold watchStale
  exact .ite (.trans (.rows (.marked r (fun f => { f with health := .suspect }) fun x => ⟨rfl, rfl⟩))
    (work_reportChange _ _ _ _)) .refl

/-! ### Admission Unit -/

/-- The unit's counts or tables changed. -/
theorem work_desk (u : AdmissionUnit) (deposits : u.deposits = s.au.deposits) (requests : u.requests = s.au.requests)
    (accounts : u.accounts = s.au.accounts) (range : s.au.inRange → u.inRange) : Work p g s g { s with au := u } :=
  .desk (.desk u deposits (by rw [requests]) (fun n => by rw [accounts]) range)

theorem work_denied (s : State) : Work p g s g { s with au.denials := bump s.au.denials } :=
  work_desk _ rfl rfl rfl fun ⟨grants, _, releases, closes⟩ => ⟨grants, bump_le _ _, releases, closes⟩

theorem work_sendDeny (a : Station) (bay tag : Byte) (reason : DenyReason) (redirect : Option Redirect) (s : State) :
    Work p g s g (sendDeny a bay tag reason redirect s) := (work_sendDown _ _ _).trans (work_denied _)

theorem work_denyRequest (q : Request) (reason : DenyReason) (redirect : Option Redirect) (s : State) :
    Work p g s g (denyRequest q reason redirect s) := (work_sendDeny _ _ _ _ _ _).trans (work_dropRequest _ _)

theorem postDown_snd {a : Station} {c : DownCommand} {s t : State} {post : Post} (posted : postDown a c s = (post, t)) :
    t = sendDown a c s := by rw [sendDown, posted]

theorem sendDown_slc (a : Station) (c : DownCommand) (s : State) : sendDown a c s = { s with slc := (sendDown a c s).slc } := by
  rcases sendDown_eq a c s with same | pushed
  · rw [same]
  · rw [pushed]
    rfl

/-- A deposit withdrawn, its account as it was: its cost is let go, and is 0 unless it is charged. -/
theorem work_withdrawn {r : Row} {d : OpenDeposit} {old : Account} (deposit : s.au.deposits.get r = some d)
    (free : d.kind ≠ .charged → d.cost = 0) (held : old.held = (s.au.accounts.get d.account).held - d.cost) :
    Work p g s g (setAccount d.account (fun _ => old) (setDeposit r none s)) := by
  refine .desk (.ended r d (s.au.accounts.update d.account fun _ => old) deposit fun n => ?_)
  by_cases here : n = d.account
  · rw [here, Table.get_update_self, held]
    by_cases charged : d.kind = .charged
    · rw [if_pos ⟨rfl, charged⟩]
    · rw [if_neg fun h => charged h.2, free charged]
      rfl
  · rw [if_neg fun h => here h.1, Table.get_update_ne _ _ here]

theorem work_grantRequest {q : Request} {card : CardRecord} {kind : GrantKind} {cost : Nat} (asked : q ∈ s.au.requests)
    (free : kind ≠ .charged → cost = 0) : Work p g s g (grantRequest q card kind cost s) := by
  have granted : Work p g s g (dropRequest q.row (setDeposit q.row (some (grantedDeposit q card kind cost s))
      (setAccount card.account (fun a => { a with held := a.held + cost }) s))) :=
    .desk (.granted q (grantedDeposit q card kind cost s) asked free)
  unfold grantedDeposit at granted
  unfold grantRequest
  simp only
  split
  · rename_i posted
    rw [postDown_snd posted]
    refine granted.trans ((work_sendDown _ _ _).trans (work_desk _ rfl rfl rfl ?_))
    exact fun ⟨_, denials, releases, closes⟩ => ⟨bump_le _ _, denials, releases, closes⟩
  · rename_i posted
    rw [postDown_snd posted]
    have withdrawn := work_withdrawn (p := p) (g := g) (r := q.row) (old := s.au.accounts.get card.account) (d := grantedDeposit q card kind cost s)
      (s := sendDown q.station (.grant q.bay q.tag) (dropRequest q.row (setDeposit q.row
        (some (grantedDeposit q card kind cost s)) (setAccount card.account (fun a => { a with held := a.held + cost }) s))))
      (by rw [sendDown_slc]; exact Table.get_set_self _ _ _) free
      (by rw [sendDown_slc]; exact (congrArg (fun a : Account => a.held - cost) (Table.get_update_self _ _ _)).trans
            (Nat.add_sub_cancel _ _) |>.symm)
    exact granted.trans ((work_sendDown _ _ _).trans (withdrawn.trans (work_denied _)))
  · rename_i posted
    rw [postDown_snd posted]
    exact granted.trans (work_sendDown _ _ _)

theorem accountVerdict_free {c : ContainerConfig} {card : CardRecord} {kind : GrantKind} {cost : Nat}
    (verdict : accountVerdict s c card = .ok (kind, cost)) : kind ≠ .charged → cost = 0 := by
  intro other
  simp only [accountVerdict] at verdict
  split at verdict
  · cases verdict
  · split at verdict
    · split at verdict
      · cases verdict; rfl
      · cases verdict
    · split at verdict
      · cases verdict; rfl
      · split at verdict
        · cases verdict
        · cases verdict; exact absurd rfl other

theorem work_alertCard (q : Request) (c : ContainerConfig) (card : CardRecord) (s : State) :
    Work p g s g (alertCard q c card s) := .ite (work_postReport _ _) .refl

theorem work_decideFound {q : Request} (asked : q ∈ s.au.requests) (c : ContainerConfig) (card : CardRecord) :
    Work p g s g (decideFound q c card s) := by
  unfold decideFound
  split
  · exact .ite ((work_denyRequest _ _ _ _).trans (work_alertCard _ _ _ _)) (work_denyRequest _ _ _ _)
  · split
    · exact work_denyRequest _ _ _ _
    · rename_i verdict
      exact work_grantRequest asked (accountVerdict_free verdict)

theorem work_decideRequest {q : Request} (asked : q ∈ s.au.requests) (ans : CardAnswer) (late : Bool) :
    Work p g s g (decideRequest q ans late s) := by
  unfold decideRequest
  split
  · exact work_denyRequest _ _ _ _
  · split
    · exact work_denyRequest _ _ _ _
    · cases ans with
      | unknown => exact work_denyRequest _ _ _ _
      | memoryFault => exact work_denyRequest _ _ _ _
      | found card => exact work_decideFound asked _ _

theorem work_depositEnded (r : Row) (s : State) : Work p g s g (depositEnded r s) := by
  unfold depositEnded
  split
  · rename_i step relay c service config
    have moved : Work p g s g (sendRelease c (setService r (.service step relay s.tk.seconds) s)) := by
      refine .trans (.rows (.served r _ ?_ ?_)) (work_sendDown _ _ _)
      · rw [service]; exact id
      · rw [service]
        rintro other (⟨_, same⟩ | ⟨_, _, same⟩) <;> cases same
        exact .inr ⟨_, _, rfl⟩
    simp only
    split
    · exact moved.trans (work_sendDown _ _ _)
    · exact moved
  · exact .refl

/-- A deposit that has ended, its hold let go by `f`. -/
theorem work_ended {r : Row} {d : OpenDeposit} (deposit : s.au.deposits.get r = some d) (f : Account → Account)
    (held : ∀ a, (f a).held = a.held - d.cost) :
    Work p g s g (setDeposit r none (if d.kind = .charged then setAccount d.account f s else s)) := by
  by_cases charged : d.kind = .charged
  · rw [if_pos charged]
    refine .desk (.ended r d _ deposit fun n => ?_)
    by_cases here : n = d.account
    · rw [if_pos ⟨here, charged⟩, here, setAccount_accounts, Table.get_update_self, held]
    · rw [if_neg fun h => here h.1, setAccount_accounts, Table.get_update_ne _ _ here]
  · rw [if_neg charged]
    exact .desk (.ended r d s.au.accounts deposit fun n => by rw [if_neg fun h => charged h.2])

theorem work_commitDeposit (still : g.moved = none) (confirmed : Bool) (r : Row) (s : State) :
    Work p g s g (commitDeposit confirmed r s) := by
  unfold commitDeposit
  split
  · rename_i deposit _
    refine .trans ?_ (work_reportChange _ _ _ _)
    refine .trans ?_ (work_depositEnded _ _)
    refine .trans ?_ (work_creditDeposit still _ _)
    exact .trans (work_ended deposit _ fun _ => rfl) (work_postReport _ _)
  · exact .refl

theorem work_releaseDeposit (r : Row) (s : State) : Work p g s g (releaseDeposit r s) := by
  unfold releaseDeposit
  split
  · rename_i deposit
    refine .trans ?_ (work_reportChange _ _ _ _)
    refine .trans ?_ (work_depositEnded _ _)
    refine .trans (work_ended deposit _ fun _ => rfl) (work_desk _ rfl rfl rfl ?_)
    exact fun ⟨grants, denials, _, closes⟩ => ⟨grants, denials, bump_le _ _, closes⟩
  · exact .refl

theorem work_settleRow (still : g.moved = none) (restarted : Bool) (r : Row) (s : State) :
    Work p g s g (settleRow restarted r s) := by
  unfold settleRow
  simp only
  split
  · exact (work_dropRequest r s).trans (.ite (work_commitDeposit still _ _ _) (work_releaseDeposit _ _))
  · exact work_dropRequest r s

theorem work_settleStation (still : g.moved = none) (restarted : Bool) (a : Station) (s : State) :
    Work p g s g (settleStation restarted a s) := .foldl (fun s r => work_settleRow still restarted r s) _ s

theorem work_expireDeposits (still : g.moved = none) (s : State) : Work p g s g (expireDeposits s) := by
  refine .foldl (fun s r => ?_) _ s
  split
  · exact .ite (work_commitDeposit still _ _ _) .refl
  · exact .refl

theorem work_expireRequests (s : State) : Work p g s g (expireRequests s) :=
  .foldl (fun s q => work_denyRequest q _ _ s) _ s

theorem work_grantDelivered (a : Station) (bay : Bay) (tag : Byte) (s : State) : Work p g s g (grantDelivered a bay tag s) := by
  unfold grantDelivered
  split
  · exact .refl
  · split
    · rename_i deposit
      exact .ite (.desk (.delivered _ _ deposit)) .refl
    · exact .refl

theorem work_commitAll (still : g.moved = none) (s : State) : Work p g s g (commitAll s) :=
  .foldl (fun s r => work_commitDeposit still false r s) _ s

/-! ### Card Lookup Unit -/

theorem work_hits (s : State) : Work p g s g { s with clu := { s.clu with hits := bump s.clu.hits } } :=
  .cards (.counts _ rfl rfl rfl rfl fun ⟨_, misses, errors⟩ => ⟨bump_le _ _, misses, errors⟩)

theorem work_misses (s : State) : Work p g s g { s with clu := { s.clu with misses := bump s.clu.misses } } :=
  .cards (.counts _ rfl rfl rfl rfl fun ⟨hits, _, errors⟩ => ⟨hits, bump_le _ _, errors⟩)

theorem work_countErrors (n : Nat) (s : State) : Work p g s g (countErrors n s) :=
  .cards (.counts _ rfl rfl rfl rfl fun ⟨hits, misses, _⟩ => ⟨hits, misses, bump_le _ _⟩)

theorem work_setPhase (r : Row) (phase : Phase) (s : State) : Work p g s g (setPhase r phase s) := by
  refine .desk (.desk _ rfl ?_ (fun _ => rfl) id)
  rw [List.map_map]
  refine List.map_congr_left fun q _ => ?_
  rw [Function.comp_apply]
  split <;> rfl

theorem work_placeMiss (clean : g.place = false) (w : Waiter) (s : State) : Work p g s g (placeMiss w s) := by
  unfold placeMiss
  simp only
  split
  · exact .trans (.cards (.joined w)) (work_setPhase _ _ _)
  · rename_i none_
    have new : ∀ e ∈ s.clu.missList, e.bucket ≠ bucketOf w.card := by simpa using none_
    split
    · rename_i place
      exact .trans (.cards (.placed w clean place new)) (work_setPhase _ _ _)
    · rename_i full
      exact .trans (.cards (.waits w full new)) (work_setPhase _ _ _)

theorem cacheFind_valid {u : CardLookup} {n : Number} {i : Fin 32} (found : cacheFind u n = some i) :
    (u.entries.get i).isSome = true := by
  obtain ⟨r, entry, _⟩ := cacheFind_some found
  simp [entry]

theorem work_lookupCard (clean : g.place = false) {q : Request} (asked : q ∈ s.au.requests) : Work p g s g (lookupCard q s) := by
  unfold lookupCard
  split
  · exact work_decideRequest asked _ _
  · split
    · exact (work_misses s).trans (work_decideRequest (by exact asked) _ _)
    · split
      · rename_i i found
        have served : Work p g s g { s with clu := { s.clu.touch i with hits := bump (s.clu.touch i).hits } } :=
          .trans (.cards (.touched i (cacheFind_valid found))) (work_hits _)
        simp only
        split
        · exact served.trans (work_decideRequest (by exact asked) _ _)
        · exact served
      · exact (work_misses s).trans (work_placeMiss clean _ _)

theorem work_answerWaiter (ans : Number → CardAnswer) (w : Waiter) (s : State) : Work p g s g (answerWaiter ans w s) := by
  unfold answerWaiter
  split
  · rename_i found
    exact work_decideRequest (List.mem_of_find?_eq_some found) _ _
  · exact .refl

theorem work_placeSlotWaiting : ∀ (n : Nat) (s : State), s.clu.slotWait.length ≤ n →
    Work p g s { g with place := false } (placeSlotWaiting n s)
  | 0, s, bound => .cards (.offered fun waiting => absurd (List.eq_nil_of_length_eq_zero (by omega)) waiting)
  | n + 1, s, bound => by
    unfold placeSlotWaiting
    split
    · rename_i empty
      exact .cards (.offered fun waiting => absurd empty waiting)
    · rename_i w rest head
      split
      · rename_i full
        exact .cards (.offered fun _ => full)
      · rename_i place
        split
        · rename_i i r cached
          obtain ⟨j, found, entry⟩ := Option.bind_eq_some_iff.mp cached
          obtain ⟨_, _, same⟩ := Option.map_eq_some_iff.mp entry
          cases same
          have taken : Work p g s g { s with clu := { s.clu with slotWait := rest }.touch i } :=
            .trans (.cards (.taken w rest head)) (.cards (.touched i (cacheFind_valid found)))
          refine taken.trans ((work_answerWaiter _ w _).trans (work_placeSlotWaiting n _ ?_))
          have shrinks := (answerWaiter_spec (fun _ => .found r) w
            { s with clu := { s.clu with slotWait := rest }.touch i }).1.slotWait.length_le
          rw [head] at bound
          exact shrinks.trans (Nat.le_of_succ_le_succ bound)
        · refine .trans (.cards (.served w rest head (Nat.lt_of_not_le place))) ?_
          exact .foldl (fun s (v : Waiter) => work_setPhase v.row .waitFetch s) _ _

theorem work_serveSlotWait (s : State) : Work p g s { g with place := false } (serveSlotWait s) :=
  work_placeSlotWaiting _ s le_rfl

/-- Served with nothing owed, the slot-wait order leaves nothing owed. -/
theorem work_serveSlotWait_clean (clean : g.place = false) (s : State) : Work p g s g (serveSlotWait s) :=
  (work_serveSlotWait s).trans (.weaken ⟨rfl, subset_rfl, .inr rfl, subset_rfl, fun owed => absurd owed Bool.false_ne_true⟩)

theorem install_missList (r : CardRecord) (u : CardLookup) : (u.install r).missList = u.missList := by
  unfold CardLookup.install
  cases installPlace u r.number <;> rfl

/-- What a read of a bucket has brought: what the device holds, or nothing. -/
def readsHeld (p : Premises) (s : State) (b : Bucket) (slots : List SlotReading) : Prop :=
  p.device → slots = heldSlots s.memory b ∨ ∀ n, cardIn slots n = none

theorem work_installWanted {m : MissEntry} {slots : List SlotReading} (granted : m.granted = true) (fresh : m.stale = false)
    (held : readsHeld p s m.bucket slots) : ∀ {wanted : List Number} {u : CardLookup},
    (∀ n ∈ wanted, n ∈ m.wanted) → m ∈ u.missList → Work p g { s with clu := u } g { s with clu := installWanted slots wanted u }
  | [], _, _, _ => .refl
  | n :: rest, u, sub, asked => by
    rw [installWanted_cons]
    have later := fun x mem => sub x (List.mem_cons_of_mem n mem)
    cases found : cardIn slots n with
    | none => exact work_installWanted granted fresh held later asked
    | some r =>
      have number := cardIn_number found
      refine .trans (t := { s with clu := u.install r }) (.cards (.installed (s := { s with clu := u }) m r asked granted fresh
        (number ▸ sub n (List.mem_cons_self ..)) fun device bucket => ?_)) ?_
      · rcases held device with same | nothing
        · rw [← number, same, ← bucket] at found
          exact (congrArg (fun x => (x : CardAnswer)) (by rw [searchBucket, found]))
        · rw [nothing] at found
          cases found
      · exact work_installWanted granted fresh held later (show m ∈ (u.install r).missList by rwa [install_missList])

theorem work_completeFetch (clean : g.place = false) {b : Bucket} {read : Option (List Byte)}
    (held : readsHeld p s b (readBucket read)) : Work p g s g (completeFetch b read s) := by
  unfold completeFetch
  split
  · exact .refl
  · rename_i m found
    have asked := List.mem_of_find?_eq_some found
    have passes := List.find?_some found
    rw [Bool.and_eq_true, beq_iff_eq] at passes
    obtain ⟨bucket, granted⟩ := passes
    subst bucket
    simp only
    refine .trans ?_ ((Work.cards (.left m.bucket clean)).trans ((work_serveSlotWait _).trans
      (.weaken ⟨rfl, subset_rfl, .inr rfl, subset_rfl, fun owed => absurd owed Bool.false_ne_true⟩)))
    refine .trans ?_ (.foldl (fun s w => work_answerWaiter _ w s) _ _)
    refine .trans (work_countErrors (if read.isNone then 1 else badSlots (readBucket read)) s) ?_
    by_cases stale : m.stale = true
    · rw [if_pos stale]
      exact .refl
    · rw [if_neg stale]
      exact work_installWanted (s := countErrors (if read.isNone then 1 else badSlots (readBucket read)) s) granted (Bool.eq_false_iff.mpr stale) held (fun _ mem => mem) asked

end Sys2Proof.Machine
end

