-- ==== Sys2Proof/Proofs/Commands.lean ====
section
/-! The messages of the stations and the trunk commands as work, but for the rounds' and the record memory's. -/

namespace Sys2Proof.Machine

variable {p : Premises} {g : Debt} {s : State}

/-! ### Taking and answering (R190, R191) -/

/-- One more REPLY owed. -/
def Debt.owing (g : Debt) : Debt := { g with replies := g.replies + 1 }

theorem work_reply (kind tag : Byte) (status : Status) (detail : Detail) (s : State) :
    Work p g.owing s g (queueReply kind tag status detail s) := .trunk (.replied g.replies rfl _ _ _ _)

theorem work_answered (kind : CommandKind) (tag : Byte) (status : Status) (s : State) :
    Work p g.owing s g (answer kind tag status s) := work_reply _ _ _ _ _

theorem work_refuseRound (tag : Byte) (status : Status) (position : Nat) (s : State) :
    Work p g.owing s g (refuseRound tag status position s) := (work_drawByte s).trans (work_reply _ _ _ _ _)

theorem work_refuse (kind : CommandKind) (tag : Byte) (status : Status) (s : State) :
    Work p g.owing s g (refuse kind tag status s) := by
  cases kind with
  | roundLoad => exact work_refuseRound _ _ _ _
  | _ => exact work_answered _ _ _ _

theorem work_reserveReply {body : State → State}
    (carried : ∀ t, t.rmi = s.rmi → t.memory = s.memory → Work p g.owing t g (body t)) : Work p g s g (reserveReply body s) := by
  unfold reserveReply
  split
  · rename_i place
    exact .trans (.trunk (.reserved place)) (carried s.reserved rfl rfl)
  · exact .trunk (.port _ rfl rfl rfl rfl fun ⟨errors, dropped, _⟩ => ⟨errors, dropped, bump_le _ _⟩)

theorem work_takeCommand {α : Type} {kind : CommandKind} {tag : Byte} {args : Option α} {served : Bool} {body : α → State → State}
    (carried : ∀ a t, t.rmi = s.rmi → t.memory = s.memory → Work p g.owing t g (body a t)) :
    Work p g s g (takeCommand kind tag args served body s) := by
  refine work_reserveReply fun t rmi memory => ?_
  split
  · exact work_refuse _ _ _ _
  · exact .ite (work_refuse _ _ _ _) (carried _ t rmi memory)

/-! ### Messages at the Admission Unit -/

theorem work_depositRequest (clean : g.place = false) {a : Station} (live : (s.slc.rows.get a).state.live = true)
    (ready : p.turn → s.rmi.restoring = false) (bay : Byte) (card : Number) (tag : Byte) :
    Work p g s g (depositRequest a bay card tag s) := by
  unfold depositRequest
  split
  · exact work_sendDeny _ _ _ _ _ _
  · rename_i r found
    obtain ⟨c, config, station, -⟩ := containerAt_some found
    rw [config]
    simp only
    split
    · exact work_sendDeny _ _ _ _ _ _
    · split
      · exact work_sendDeny _ _ _ _ _ _
      · rename_i quiet
        refine .ite (work_sendDeny _ _ _ _ _ _) ?_
        unfold admitRequest
        split
        · exact work_sendDeny _ _ _ _ _ _
        · rename_i place
          let q : Request := { row := r, station := a, bay := c.bay, tag := tag, card := card, arrival := s.tk.seconds, phase := .waitFetch }
          exact .trans (.desk (.admitted q (Nat.lt_of_not_le place) (Bool.eq_false_iff.mpr quiet)
            ⟨c, config, station ▸ live⟩ ready)) (work_lookupCard clean (List.mem_append_right _ (List.mem_singleton.mpr rfl)))

theorem work_depositClose (still : g.moved = none) (a : Station) (bay : Byte) (outcome : CloseOutcome) (s : State) :
    Work p g s g (depositClose a bay outcome s) := by
  unfold depositClose
  simp only
  split
  · exact work_desk _ rfl rfl rfl fun ⟨grants, denials, releases, _⟩ => ⟨grants, denials, releases, bump_le _ _⟩
  · cases outcome with
    | used => exact work_commitDeposit still _ _ _
    | unused => exact work_releaseDeposit _ _

/-! ### Tables (R132, R134, R135, R138) -/

/-- Every record is 32 bytes (11.4). -/
theorem length_recordOf (target : RecordTarget) (s : State) : (recordOf target s).length ≤ 32 := by
  suffices (recordOf target s).length = 32 from this.le
  cases target with
  | container r =>
    unfold recordOf
    cases config : (s.ft.rows.get r).config with
    | none => simp only [config, length_emptyRecord]
    | some c => simp only [config, length_recordUnit]
  | station a =>
    unfold recordOf
    simp only
    split
    · exact length_emptyRecord _
    · exact length_recordUnit _ _ _
  | _ => exact length_recordUnit _ _ _

theorem work_writeThrough (kind : CommandKind) (tag : Byte) (target : RecordTarget) (s : State) :
    Work p g.owing s g (writeThrough kind tag target s) := by
  unfold writeThrough
  refine .ite (work_reply _ _ _ _ _) (.memory (.promised g.replies rfl _ _ _ _ (length_recordOf target s) ?_))
  exact fun v mem => absurd mem List.not_mem_nil

theorem work_changeTable {kind : CommandKind} {tag : Byte} {target : RecordTarget} {change : State → State}
    (changed : Work p g.owing s g.owing (change s)) : Work p g.owing s g (changeTable kind tag target change s) :=
  .ite (work_answered _ _ _ _) (changed.trans (work_writeThrough _ _ _ _))

theorem work_windowPut (tag : Byte) (payload : List Byte) (s : State) : Work p g s g (windowPutCommand tag payload s) := by
  refine work_takeCommand fun args t _ _ => ?_
  split
  · exact work_changeTable (work_desk _ rfl rfl rfl id)
  · exact work_answered _ _ _ _

theorem work_classPut (tag : Byte) (payload : List Byte) (s : State) : Work p g s g (classPutCommand tag payload s) := by
  refine work_takeCommand fun args t _ _ => ?_
  split
  · exact work_changeTable (work_desk _ rfl rfl rfl id)
  · exact work_answered _ _ _ _

theorem work_costPut (tag : Byte) (payload : List Byte) (s : State) : Work p g s g (costPutCommand tag payload s) := by
  refine work_takeCommand fun args t _ _ => ?_
  split
  · exact work_changeTable (work_desk _ rfl rfl rfl id)
  · exact work_answered _ _ _ _

/-- Accounts changed, each with its held amount kept. -/
theorem work_accounts (accounts : Table Account 4096) (held : ∀ n, (accounts.get n).held = (s.au.accounts.get n).held) :
    Work p g s g { s with au := { s.au with accounts := accounts } } :=
  .desk (.desk _ rfl rfl held id)

theorem work_accountPut (tag : Byte) (payload : List Byte) (s : State) : Work p g s g (accountPutCommand tag payload s) := by
  refine work_takeCommand fun args t _ _ => ?_
  split
  · rename_i n _ _
    refine .trans (work_accounts (t.au.accounts.update n (Account.put args)) fun m => ?_) (work_answered _ _ _ _)
    by_cases here : m = n
    · rw [here, Table.get_update_self]
      rfl
    · rw [Table.get_update_ne _ _ here]
  · exact work_answered _ _ _ _

theorem topUp_held (a : Account) : a.topUp.held = a.held := by
  unfold Account.topUp
  split <;> rfl

theorem work_refillAccounts (s : State) : Work p g s g (refillAccounts s) :=
  work_accounts _ fun n => by rw [Table.get_map, topUp_held]

/-! ### Card commands (R115, R116, R118) -/

theorem work_judgeCardWrite {n : Number} {body : WriteBody} (card : body.card = some n) (bucket : body.bucket = some (bucketOf n))
    (kind : CommandKind) (tag : Byte) (s : State) : Work p g.owing s g (judgeCardWrite n body kind tag s) := by
  unfold judgeCardWrite
  exact .ite (work_answered _ _ _ _) (.ite (work_answered _ _ _ _) (.accepted g.replies rfl n body card bucket kind tag))

theorem work_cardPut (tag : Byte) (payload : List Byte) (s : State) : Work p g s g (cardPutCommand tag payload s) := by
  refine work_takeCommand fun card t _ _ => ?_
  split
  · exact work_answered _ _ _ _
  · exact work_judgeCardWrite rfl rfl _ _ _

theorem work_cardDrop (tag : Byte) (payload : List Byte) (s : State) : Work p g s g (cardDropCommand tag payload s) := by
  refine work_takeCommand fun n t _ _ => ?_
  exact .ite (work_answered _ _ _ _) (work_judgeCardWrite rfl rfl _ _ _)

theorem work_cacheFlush (tag : Byte) (payload : List Byte) (s : State) : Work p g s g (cacheFlushCommand tag payload s) := by
  refine work_takeCommand fun _ t _ _ => ?_
  exact .trans (.cards .flushed) (.trans (.cards (.marked (s := { t with clu := t.clu.flush }) fun _ => true)) (work_answered _ _ _ _))

/-! ### The Timekeeper (chapter 1) -/

theorem work_evaluateRefill (day : Nat) (s : State) : Work p g s g (evaluateRefill day s) :=
  .ite (.trans (work_clock _ s) (work_refillAccounts _)) .refl

theorem work_setWall (new : WallTime) (s : State) : Work p g s g (setWall new s) :=
  .trans (work_clock _ s) (.ite (work_evaluateRefill _ _) .refl)

theorem work_timeSet (tag : Byte) (payload : List Byte) (s : State) : Work p g s g (timeSetCommand tag payload s) := by
  refine work_takeCommand fun args t _ _ => ?_
  exact .ite (work_answered _ _ _ _) ((work_setWall _ _).trans (work_answered _ _ _ _))

theorem work_minuteEvent (s : State) : Work p g s g (minuteEvent s) := by
  unfold minuteEvent
  refine .ite .refl (.trans (work_clock { s.tk with uptime := s.tk.uptime + 1, told := s.tk.told.minute } s) ?_)
  exact .trans (.trunk (.port s.tp.minute rfl rfl rfl rfl id)) (work_countDown _)

theorem work_refillTrigger (still : g.moved = none) (s : State) : Work p g s g (refillTrigger s) := by
  unfold refillTrigger
  refine .ite .refl ?_
  have closed : ∀ t, Work p g t g (if t.tk.told.close then expireDeposits { t with tk.told.close := false } else t) :=
    fun t => .ite (.trans (work_clock _ t) (work_expireDeposits still _)) .refl
  exact .trans (work_clock _ s) (.trans (closed _) (.ite (work_evaluateRefill _ _) .refl))

/-! ### Queries -/

theorem work_answerQuery (tag : Byte) (bytes : List Byte) (s : State) : Work p g.owing s g (answerQuery tag bytes s) :=
  work_reply _ _ _ _ _

end Sys2Proof.Machine
end

