-- ==== Sys2Proof/Proofs/ConfigurationWork.lean ====
section
/-! The configuration commands, STATION_CLEAR and PASS_DOWN as work. -/

namespace Sys2Proof.Machine

variable {p : Premises} {g : Debt} {s : State}

/-! ### Parameters (R192) -/

/-- A rejoin limit among the values that enter a set is in its range with them. -/
theorem enter_rejoinLimit {values : List (ParamId × Nat)} : ∀ {q : Params}, ranged values → 1 ≤ q.rejoinLimit ∧ q.rejoinLimit ≤ 15 →
    1 ≤ (q.enter values).rejoinLimit ∧ (q.enter values).rejoinLimit ≤ 15 := by
  induction values with
  | nil => exact fun _ inside => inside
  | cons v rest ih =>
    intro q all inside
    refine ih (q := q.set v.2 v.1) (fun w mem => all w (List.mem_cons_of_mem v mem)) ?_
    have first := all v List.mem_cons_self
    cases id_ : v.1 with
    | rejoinLimit => exact first id_
    | _ => exact inside

/-- A changed horizon leaves every membership to be re-evaluated; an unchanged one none. -/
theorem work_applyHorizon (still : g.moved = none) (old new : Nat) (s : State) :
    Work p { g with off := if old = new then g.off else Set.univ } s g (applyHorizon old new s) := by
  unfold applyHorizon
  split
  · exact .refl
  · exact .trans (.rows (.recounted s.ft.rows fun _ => rfl)) (.weaken ⟨rfl, Set.empty_subset _, .inl rfl, subset_rfl, id⟩)

theorem work_applyParams (still : g.moved = none) (values : List (ParamId × Nat)) (range : p.coming → ranged values) (s : State) :
    Work p g s g (applyParams values s) := by
  unfold applyParams
  refine .trans (.params (s.tp.effective.enter values)
    (if s.tp.effective.horizon = (s.tp.effective.enter values).horizon then g.off else Set.univ) ?_ ?_ ?_)
    (work_applyHorizon still _ _ _)
  · split
    · exact subset_rfl
    · exact Set.subset_univ _
  · exact fun changed => if_neg fun same => changed same.symm
  · exact fun coming inside => enter_rejoinLimit (range coming) inside

theorem ranged_of_paramPairs : ∀ {pairs : List (Byte × Nat)} {values : List (ParamId × Nat)},
    paramPairs pairs = some values → ranged values
  | [], values, named => by
    cases named
    exact fun v mem => absurd mem List.not_mem_nil
  | (b, n) :: rest, values, named => by
    simp only [paramPairs, Option.bind_eq_bind, Option.bind_eq_some_iff] at named
    obtain ⟨id_, -, others, named', chosen⟩ := named
    split at chosen
    · rename_i passes
      cases chosen
      rw [Bool.and_eq_true] at passes
      intro v mem limit
      rcases List.mem_cons.mp mem with rfl | later
      · have inside := passes.1
        simp only at limit
        rw [limit] at inside
        obtain ⟨least, most⟩ := Bool.and_eq_true _ _ ▸ inside
        exact ⟨of_decide_eq_true least, of_decide_eq_true most⟩
      · exact ranged_of_paramPairs named' v later limit
    · cases chosen

theorem work_written (q : Params) (s : State) : Work p g s g { s with tp.written := q } :=
  .trunk (.port _ rfl rfl rfl rfl id)

theorem work_paramPut (still : g.moved = none) (tag : Byte) (payload : List Byte) (s : State) :
    Work p g s g (paramPutCommand tag payload s) := by
  refine work_takeCommand fun pairs t _ _ => ?_
  split
  · exact work_answered _ _ _ _
  · rename_i values named
    have range := ranged_of_paramPairs named
    refine .ite (work_answered _ _ _ _) ?_
    refine .trans (work_written (t.tp.written.enter values) t) (.ite ?_ ?_)
    · exact .trans (work_applyParams (g := g.owing) still values (fun _ => range) _) (work_reply _ _ _ _ _)
    · exact .memory (.promised g.replies rfl _ _ _ _ (length_recordOf _ _) range)

/-! ### Profiles (R85) -/

/-- A row's debounce counts cleared (R58). -/
theorem work_recountFill (r : Row) (s : State) : Work p g s g (setFill r (fun f => { f with rise := 0, fall := 0 }) s) :=
  .rows (.marked r _ fun _ => ⟨rfl, rfl⟩)

theorem work_reprofileRow (still : g.moved = none) (n : Fin 16) (changed : Bool) (r : Row) (s : State) :
    Work p g s g (reprofileRow n changed s r) := by
  unfold reprofileRow
  split
  · exact .refl
  · refine .ite .refl ((work_recountFill r s).trans (.ite ?_ .refl))
    exact .trans (.rows (.filled r _ (.inl still))) ((work_reevaluate (.inr rfl) _).trans (.weaken (covers_settled r still)))

theorem work_profilePut (still : g.moved = none) (tag : Byte) (payload : List Byte) (s : State) :
    Work p g s g (profilePutCommand tag payload s) := by
  refine work_takeCommand fun args t _ _ => ?_
  split
  · rename_i n _ _
    refine work_changeTable (.trans (.rows (.aside t.tk (t.ft.profiles.set n args.2) t.free)) ?_)
    exact .foldl (fun s r => work_reprofileRow (g := g.owing) still n _ r s) _ _
  · exact work_answered _ _ _ _

/-! ### Containers (R81, R82, R83) -/

/-- A row that is bound, out of UNBOUND (R17). -/
def StationRow.bound (row : StationRow) : StationRow := { row with state := if row.state = .unbound then .absent else row.state }

theorem bindStation_bound (a : Station) (s : State) : bindStation a s = setStation a StationRow.bound s := by
  refine congrArg (fun f => setStation a f s) (funext fun row => ?_)
  obtain ⟨_, _, state⟩ := row
  cases state <;> rfl

theorem work_bindStation (a : Station) (s : State) : Work p g s g (bindStation a s) := by
  rw [bindStation_bound]
  refine work_setStation (.of_same (List.Sublist.refl _) rfl ?_) rfl ?_
  all_goals
    unfold StationRow.bound
    cases state : (s.slc.rows.get a).state <;> simp [StationRow.StaysLive, StationState.live, state]

/-- A row with neither a serial nor a container has nothing to settle. -/
theorem work_releaseStation (a : Station) (s : State) : Work p g s g (releaseStation a s) := by
  unfold releaseStation
  split
  · exact .refl
  · rename_i free
    have left : Work p g (emptyDown a s) { g with stations := g.stations ∪ {a} } (setStation a StationRow.unbind (emptyDown a s)) := by
      refine work_setStation_leaving ?_ rfl
      exact { queue := List.Sublist.refl _
              rejoin := fun _ _ limit _ =>
                ⟨Nat.zero_le _, iff_of_false nofun (Nat.ne_of_lt limit)⟩
              zero := fun _ _ _ => rfl }
    refine (work_emptyDown a s).trans (left.trans (.trans (.street (.settled a fun r c config here =>
      absurd (isBound_iff.mpr (.inr ⟨r, c, config, here⟩)) ?_))
      (.weaken ⟨rfl, subset_rfl, .inr rfl, fun b mem => mem.1.resolve_right mem.2, id⟩)))
    rw [isBound_setStation]
    simpa [isBound, emptyDown, StationRow.unbind, boundTo] using free

theorem idle_of_quiet {r : Row} (quiet : hasTraffic s r = false) : s.idle r := by
  simp only [hasTraffic, Bool.or_eq_false_iff, chuteBusy, List.any_eq_false] at quiet
  exact ⟨fun q mem here => quiet.1.1.1 q mem (beq_iff_eq.mpr here), by simpa using quiet.1.1.2⟩

/-- CONTAINER_PUT's row entered, from a row that is empty or has no traffic. -/
theorem work_putContainer (still : g.moved = none) {r : Row} {c : ContainerConfig}
    (quiet : (configOf s r).isSome = true → hasTraffic s r = false) : Work p g s g (putContainer r c s) := by
  have idle := fun occupied => idle_of_quiet (quiet occupied)
  have settled : ∀ t, Work p { g with off := insert r g.off, moved := some r } t g (reevaluate r t) :=
    fun t => (work_reevaluate (.inr rfl) t).trans (.weaken (covers_settled r still))
  unfold putContainer
  cases old : configOf s r with
  | none =>
    refine .trans (.entered r c Fill.cold (s.rm.service.set r .inUse) idle (fun x => ?_) still) (.trans (work_bindStation _ _) (settled _))
    by_cases here : x = r
    · rw [here, Table.get_set_self, if_pos ⟨rfl, old⟩]
    · rw [Table.get_set_ne here, if_neg fun h => here h.1]
      rfl
  | some o =>
    refine .trans (.entered r c ((fillOf s r).reconfigure (some o) c) s.rm.service idle (fun x => ?_) still)
      (.trans (work_bindStation _ _) (.trans (work_releaseStation _ _) (settled _)))
    rw [if_neg fun h => by rw [old] at h; cases h.2]
    rfl

theorem work_containerPut (still : g.moved = none) (tag : Byte) (payload : List Byte) (s : State) :
    Work p g s g (containerPutCommand tag payload s) := by
  refine work_takeCommand fun args t _ _ => ?_
  split
  · exact work_answered _ _ _ _
  · rename_i r c
    split
    · exact work_answered _ _ _ _
    · rename_i judged
      refine .trans (work_putContainer (g := g.owing) still fun occupied => ?_) (work_writeThrough _ _ _ _)
      simp only [judgeContainer] at judged
      split at judged
      · cases judged
      · split at judged
        · cases judged
        · rename_i quiet
          simpa [occupied] using quiet

theorem work_dropContainer {r : Row} (quiet : hasTraffic s r = false) (c : ContainerConfig) : Work p g s g (dropContainer r c s) :=
  .trans (.emptied r quiet) (work_releaseStation _ _)

theorem work_containerDrop (tag : Byte) (payload : List Byte) (s : State) : Work p g s g (containerDropCommand tag payload s) := by
  refine work_takeCommand fun n t _ _ => .ite (work_answered _ _ _ _) ?_
  split
  · exact work_answered _ _ _ _
  · split
    · exact work_answered _ _ _ _
    · rename_i quiet
      exact work_changeTable (work_dropContainer (Bool.eq_false_iff.mpr quiet) _)

/-! ### Stations (R15, R16, R24) -/

/-- A serial that changes, or one that is removed, in a row that is not in service (R15, R16). -/
theorem changeSerial_follows (serial : Option Serial) (bound pinned : Bool) (row : StationRow) :
    row.Follows p s { row.changeSerial serial bound with pinned := pinned } where
  queue := List.Sublist.refl _
  rejoin _ _ limit _ := ⟨Nat.zero_le _, iff_of_false (by cases bound <;> nofun) (Nat.ne_of_lt limit)⟩
  zero _ _ _ := rfl

theorem dead_of_not_inTraffic {state : StationState} (rest : ¬state.inTraffic = true) : state.live = false := by
  cases state <;> simp_all [StationState.inTraffic, StationState.live]

theorem work_stationPut (tag : Byte) (payload : List Byte) (s : State) : Work p g s g (stationPutCommand tag payload s) := by
  refine work_takeCommand fun args t _ _ => ?_
  split
  · exact work_answered _ _ _ _
  · rename_i a serial pinned
    split
    · exact work_answered _ _ _ _
    · rename_i alone
      split
      · exact work_answered _ _ _ _
      · rename_i free
        refine work_changeTable (.street (.bound a _ ?_ ?_ ?_))
        · split
          · exact .of_same (List.Sublist.refl _) rfl Iff.rfl
          · exact changeSerial_follows _ _ _ _
        · split
          · exact .inl id
          · rename_i changed
            refine .inl fun _ => dead_of_not_inTraffic fun traffic => free ?_
            simp [changed, traffic]
        · intro b other some_ same
          have new : (if (t.slc.rows.get a).serial = serial then { t.slc.rows.get a with pinned := pinned } else
              { (t.slc.rows.get a).changeSerial serial (serial.isSome || !(boundTo t a).isEmpty) with pinned := pinned }).serial =
              serial := by
            split
            · assumption
            · rfl
          rw [new] at some_ same
          exact alone (by simpa [serialElsewhere, some_, List.mem_finRange] using ⟨b, other, same⟩)

theorem work_stationDrop (tag : Byte) (payload : List Byte) (s : State) : Work p g s g (stationDropCommand tag payload s) := by
  refine work_takeCommand fun args t _ _ => ?_
  split
  · exact work_answered _ _ _ _
  · rename_i a
    split
    · exact work_answered _ _ _ _
    · rename_i rest
      refine work_changeTable (.street (.bound a _ (changeSerial_follows _ _ _ _) (.inl fun _ => dead_of_not_inTraffic rest) ?_))
      exact fun b _ some_ => by cases some_

theorem clearRejoin_follows (row : StationRow) : row.Follows p s row.clearRejoin where
  queue := List.Sublist.refl _
  rejoin _ _ limit _ := ⟨Nat.zero_le _, iff_of_false (by unfold StationRow.clearRejoin; cases row.state <;> nofun) (Nat.ne_of_lt limit)⟩
  zero _ _ _ := rfl

theorem work_stationClear (tag : Byte) (payload : List Byte) (s : State) : Work p g s g (stationClearCommand tag payload s) := by
  refine work_takeCommand fun args t _ _ => ?_
  split
  · exact work_answered _ _ _ _
  · rename_i a
    refine .trans (work_setStation (clearRejoin_follows _) rfl (.inl fun dead => ?_)) (work_answered _ _ _ _)
    cases state : (t.slc.rows.get a).state <;> simp_all [StationRow.clearRejoin, StationState.live]

/-! ### PASS_DOWN (R196) -/

theorem work_passDown (tag : Byte) (payload : List Byte) (s : State) : Work p g s g (passDownCommand tag payload s) := by
  refine work_takeCommand fun args t _ _ => .ite (work_answered _ _ _ _) ?_
  split
  · exact work_answered _ _ _ _
  · refine .ite (work_answered _ _ _ _) ?_
    split
    · rename_i posted
      exact .trans (postDown_snd posted ▸ work_sendDown _ _ _) (work_answered _ _ _ _)
    · rename_i posted
      exact .trans (postDown_snd posted ▸ work_sendDown _ _ _) (work_answered _ _ _ _)

end Sys2Proof.Machine
end

