-- ==== Sys2Proof/Proofs/RoundsWork.lean ====
section
/-! The Round Manager's messages, timers and commands as work. -/

namespace Sys2Proof.Machine

variable {p : Premises} {g : Debt} {s : State}

/-! ### Slots (R165, R166) -/

/-- Containers in doubt, of which only the one re-evaluated is not owed anyway. -/
theorem work_repaid {off : Set Row} {moved : Option Row} {r : Row} (still : g.moved = none) (same : moved = none ∨ moved = some r)
    (owed : ∀ q ∈ off, q = r ∨ q ∈ g.off) (s : State) : Work p { g with off := off, moved := moved } s g (reevaluate r s) :=
  (work_reevaluate (g := { g with off := off, moved := moved }) same s).trans
    (.weaken ⟨rfl, fun q doubt => (owed q doubt.1).resolve_left doubt.2, .inl rfl, subset_rfl, id⟩)

/-- The containers of a list of steps re-evaluated are owed no more. -/
theorem work_reevaluateSteps : ∀ {steps : List Step} {g : Debt} {s : State}, g.moved = none →
    Work p g s { g with off := g.off \ {r | ∃ st ∈ steps, st.row = r} } (reevaluateSteps steps s)
  | [], g, s, _ => .weaken ⟨rfl, fun _ owed => ⟨owed, fun ⟨_, mem, _⟩ => absurd mem List.not_mem_nil⟩, .inr rfl, subset_rfl, id⟩
  | st :: rest, g, s, still => by
    refine (work_reevaluate (.inl still) s).trans ((work_reevaluateSteps (steps := rest) rfl).trans (.weaken
      ⟨rfl, fun r owed => ⟨owed.1.1, fun ⟨x, mem, here⟩ => ?_⟩, .inl rfl, subset_rfl, id⟩))
    rcases List.mem_cons.mp mem with rfl | later
    · exact owed.1.2 here.symm
    · exact owed.2 ⟨x, later, here⟩

/-- A slot changed by a function that keeps its steps and its names. -/
theorem work_mapSlot {f : Round → Round} (steps : ∀ rd, (f rd).steps = rd.steps) (number : ∀ rd, (f rd).number = rd.number)
    (vehicle : ∀ rd, (f rd).vehicle = rd.vehicle) (i : Fin 4) (s : State) :
    Work p g s g { s with rm.slots := s.rm.slots.update i (Option.map f) } := by
  cases slot : s.rm.slots.get i with
  | none =>
    have same : s.rm.slots.update i (Option.map f) = s.rm.slots := by
      rw [Table.update_eq_set, slot, Option.map_none, ← slot, Table.set_get_self]
    rw [same]
    exact .refl
  | some rd =>
    rw [Table.update_eq_set, slot, Option.map_some]
    exact .rows (.header i rd (f rd) slot (steps rd) (number rd) (vehicle rd))

/-- What a debt takes on and pays again. -/
theorem covers_paid (still : g.moved = none) (rows : Set Row) : g.Covers { g with off := (g.off ∪ rows) \ rows } :=
  ⟨rfl, fun _ owed => owed.1.resolve_right owed.2, .inl still, subset_rfl, id⟩

/-- The containers of a list of steps taken on and re-evaluated. -/
theorem work_stepsPaid (still : g.moved = none) (steps : List Step) (s : State) :
    Work p { g with off := g.off ∪ {r | ∃ st ∈ steps, st.row = r} } s g (reevaluateSteps steps s) :=
  .trans (work_reevaluateSteps (g := { g with off := g.off ∪ {r | ∃ st ∈ steps, st.row = r} }) still) (.weaken (covers_paid still _))

theorem work_freeSlotAt (still : g.moved = none) {i : Fin 4}
    (done : ∀ rd, s.rm.slots.get i = some rd → rd.lifting = false) : Work p g s g (freeSlotAt i s) := by
  unfold freeSlotAt
  split
  · exact .refl
  · rename_i rd slot
    refine (work_postReport _ s).trans ((Work.rows (.freed i rd ?_ (done rd slot))).trans
      (work_stepsPaid still _ _))
    rw [postReport_rm]
    exact slot

theorem work_freeIfClosed (still : g.moved = none) (i : Fin 4) (s : State) : Work p g s g (freeIfClosed i s) := by
  unfold freeIfClosed
  split
  · rename_i rd slot
    split
    · rename_i closed
      refine work_freeSlotAt still fun other slot' => ?_
      rw [slot] at slot'
      cases slot'
      simpa using closed.2
    · exact .refl
  · exact .refl

theorem reevaluateSteps_rm (steps : List Step) (s : State) : (reevaluateSteps steps s).rm = s.rm := by rw [reevaluateSteps_eq]

theorem work_endRound (still : g.moved = none) (cause : EndCause) (i : Fin 4) (s : State) : Work p g s g (endRound cause i s) := by
  unfold endRound
  split
  · exact .refl
  · rename_i rd slot
    have pending : {r | ∃ st ∈ rd.steps, st.state = .pending ∧ st.row = r} =
        {r | ∃ st ∈ rd.steps.filter (·.state == .pending), st.row = r} := by
      ext r
      simp [and_assoc]
    have missed := Work.rows (p := p) (g := g) (.missed i rd { rd with steps := rd.steps.map Step.miss, endCause := some cause } slot rfl rfl rfl)
    rw [pending] at missed
    refine (missed.trans (work_stepsPaid still _ _)).trans ?_
    have here : (reevaluateSteps (rd.steps.filter (·.state == .pending))
        (setSlot i (some { rd with steps := rd.steps.map Step.miss, endCause := some cause }) s)).rm.slots.get i =
        some { rd with steps := rd.steps.map Step.miss, endCause := some cause } := by
      rw [reevaluateSteps_rm]
      exact Table.get_set_self _ _ _
    simp only
    split
    · exact .rows (.header i _ _ here rfl rfl rfl)
    · rename_i ended
      refine work_freeSlotAt still fun other slot' => ?_
      rw [here] at slot'
      cases slot'
      simpa using ended

/-! ### ROUND_LOAD, ROUND_CANCEL and HOLD_CLEAR (R152, R153, R160, R164) -/

theorem nodup_of_badEntry : ∀ {list seen : List Number}, badEntry seen list = none → list.Nodup ∧ ∀ n ∈ list, n ∉ seen
  | [], _, _ => ⟨List.nodup_nil, fun _ mem => absurd mem List.not_mem_nil⟩
  | n :: rest, seen, good => by
    unfold badEntry at good
    split at good
    · cases good
    · rename_i fresh
      obtain ⟨once, apart⟩ := nodup_of_badEntry good
      have new : n ∉ seen := by
        simp only [Bool.or_eq_true, not_or, List.contains_iff_mem] at fresh
        exact fresh.2
      refine ⟨List.nodup_cons.mpr ⟨fun mem => apart n mem (by simp), once⟩, fun m mem => ?_⟩
      rcases List.mem_cons.mp mem with rfl | later
      · exact new
      · exact fun old => apart m later (List.mem_append_left _ old)

/-- Distinct numbers name distinct rows. -/
theorem nodup_named {list : List Number} (once : list.Nodup) (s : State) : (list.filterMap (containerOf s)).Nodup := by
  refine once.filterMap fun n m r first second => ?_
  obtain ⟨c, config, number⟩ := containerOf_some first
  obtain ⟨d, config', number'⟩ := containerOf_some second
  rw [config] at config'
  cases config'
  rw [← number, ← number']

theorem work_acceptRound (tag : Byte) (i : Fin 4) (s : State) : Work p g.owing s g (acceptRound tag i s) :=
  (work_drawByte s).trans (work_reply _ _ _ _ _)

theorem slotWhere_none {s : State} {q : Round → Bool} (none_ : slotWhere s q = none) (j : Fin 4) (rd : Round)
    (slot : s.rm.slots.get j = some rd) : q rd = false := by
  by_contra pass
  have found : s.rm.slots.find (fun slot => slot.any q) ≠ none := fun h => by
    simpa [slot, pass] using Table.find_none.mp h j
  obtain ⟨i, at_⟩ := Option.ne_none_iff_exists'.mp found
  have holds := Table.find_some at_
  cases other : s.rm.slots.get i with
  | none => simp [other] at holds
  | some x => simp [slotWhere, at_, other] at none_

/-- What an accepted ROUND_LOAD has been checked for (R152). -/
theorem judgeRound_accepted {args : RoundArgs} {i : Fin 4} (judged : judgeRound s args = .ok i) :
    args.containers.Nodup ∧ (∀ j rd, s.rm.slots.get j = some rd → rd.vehicle ≠ args.vehicle ∧ rd.number ≠ args.number) ∧
      s.rm.slots.get i = none ∧ ∀ n ∈ args.containers, ∀ r, containerOf s n = some r → onActiveRound s r = false := by
  unfold judgeRound at judged
  split at judged
  · cases judged
  · split at judged
    · cases judged
    · rename_i good
      split at judged
      · cases judged
      · rename_i vehicle
        split at judged
        · cases judged
        · rename_i number
          split at judged
          · cases judged
          · rename_i j free
            split at judged
            · cases judged
            · split at judged
              · cases judged
              · rename_i idle
                cases judged
                refine ⟨(nodup_of_badEntry good).1, fun j rd slot => ⟨?_, ?_⟩, by simpa using Table.find_some free, ?_⟩
                · exact beq_eq_false_iff_ne.mp (slotWhere_none (by simpa using vehicle) j rd slot)
                · exact beq_eq_false_iff_ne.mp (slotWhere_none (by simpa using number) j rd slot)
                · intro n mem r named
                  rw [entryWhere, Option.map_eq_none_iff, List.findIdx?_eq_none_iff] at idle
                  simpa [named] using idle n mem

theorem work_loaded {args : RoundArgs} {i : Fin 4} (judged : judgeRound s args = .ok i) :
    Work p g s { g with off := g.off ∪ {r | ∃ st ∈ (loadedRound s args).steps, st.row = r} }
      (setSlot i (some (loadedRound s args)) s) := by
  obtain ⟨once, apart, free, idle⟩ := judgeRound_accepted judged
  have rows : {r | ∃ st ∈ (loadedRound s args).steps, st.row = r} = {r | r ∈ args.containers.filterMap (containerOf s)} := by
    ext r
    simp [loadedRound, Step.fresh]
  rw [rows]
  refine .rows (.loaded i (loadedRound s args) _ free apart rfl (nodup_named once s) fun r mem => ?_)
  obtain ⟨n, listed, named⟩ := List.mem_filterMap.mp mem
  obtain ⟨c, config, -⟩ := containerOf_some named
  exact ⟨idle n listed r named, by rw [config]; rfl⟩

theorem work_roundLoad (still : g.moved = none) (tag : Byte) (payload : List Byte) (s : State) :
    Work p g s g (roundLoadCommand tag payload s) := by
  refine work_takeCommand fun args t _ _ => ?_
  split
  · exact work_refuseRound _ _ _ _
  · rename_i i judged
    exact (work_loaded (g := g.owing) judged).trans ((work_stepsPaid (g := g.owing) still _ _).trans (work_acceptRound _ _ _))

theorem work_roundCancel (still : g.moved = none) (tag : Byte) (payload : List Byte) (s : State) :
    Work p g s g (roundCancelCommand tag payload s) := by
  refine work_takeCommand fun n t _ _ => .ite (work_answered _ _ _ _) ?_
  split
  · exact work_answered _ _ _ _
  · exact .ite (work_answered _ _ _ _) ((work_endRound (g := g.owing) still _ _ _).trans (work_answered _ _ _ _))

theorem work_holdClear (still : g.moved = none) (tag : Byte) (payload : List Byte) (s : State) :
    Work p g s g (holdClearCommand tag payload s) := by
  refine work_takeCommand fun n t _ _ => .ite (work_answered _ _ _ _) ?_
  split
  · exact work_answered _ _ _ _
  · rename_i r _
    split
    · exact work_answered _ _ _ _
    · rename_i held
      refine .trans (.rows (.served r .inUse (fun _ => trivial) ?_)) ((work_reevaluate_still (g := g.owing) still r _).trans
        ((work_reportChange _ _ _ _).trans (work_answered _ _ _ _)))
      rintro step (⟨relay, is⟩ | ⟨relay, start, is⟩)
      all_goals exact absurd (by rw [is]; nofun) held

/-! ### Vehicle messages (R154 to R157, R161 to R164) -/

theorem work_sendReply (relay : Station) (ans : VehicleAnswer) (vehicle : Short) (n : Number) (s : State) :
    Work p g s g (sendReply relay ans vehicle n s) := work_sendDown _ _ _

theorem work_sendRoundReply (relay : Station) (ans : VehicleAnswer) (vehicle round : Short) (s : State) :
    Work p g s g (sendRoundReply relay ans vehicle round s) :=
  (work_drawByte s).trans ((work_drawByte _).trans (work_sendDown _ _ _))

theorem work_denyForLift (r : Row) (c : ContainerConfig) (s : State) : Work p g s g (denyForLift r c s) := by
  unfold denyForLift
  split
  · exact work_denyRequest _ _ _ _
  · exact .refl

/-- A PENDING step lifted, its container to be re-evaluated. -/
theorem work_lifted {step : StepRef} {x : Step} (at_ : stepAt s step = some x) (pending : x.state = .pending) (vehicle : Short)
    (level : Nat) {v : Service} (lifts : v.lifts step) (slots : Table (Option Round) 4)
    (run : slots = (setStep step (Step.lift vehicle level) s).rm.slots.update step.slot (Option.map Round.run)) :
    Work p g s { g with off := insert x.row g.off }
      (setService x.row v { setStep step (Step.lift vehicle level) s with
        rm := { (setStep step (Step.lift vehicle level) s).rm with slots := slots } }) := by
  subst run
  refine .trans (.rows (.lifted step x v (Step.lift vehicle level) at_ pending (fun _ => rfl) (fun _ => rfl) lifts)) ?_
  refine work_mapSlot (f := Round.run) ?_ ?_ ?_ step.slot (setService x.row v (setStep step (Step.lift vehicle level) s))
  all_goals
    intro rd
    unfold Round.run
    split <;> rfl

theorem work_acceptLift (still : g.moved = none) {step : StepRef} {x : Step} (at_ : stepAt s step = some x)
    (pending : x.state = .pending) (relay : Station) (vehicle : Short) (c : ContainerConfig) (before : State) :
    Work p g s g (acceptLift relay vehicle x.row c step before s) := by
  unfold acceptLift
  simp only
  refine .trans (h := { g with off := insert x.row g.off }) ?_ ((work_repaid still (.inl still) (fun _ => id) _).trans
    (work_reportChange _ _ _ _))
  · split
    · exact (work_lifted at_ pending vehicle _ (.inl ⟨_, rfl⟩) _ rfl).trans (work_sendReply _ _ _ _ _)
    · exact (work_lifted at_ pending vehicle _ (.inr ⟨_, _, rfl⟩) _ rfl).trans ((work_denyForLift _ _ _).trans
        ((work_sendDown _ _ _).trans (work_sendReply _ _ _ _ _)))

theorem work_repeatLift (relay : Station) (vehicle : Short) (r : Row) (c : ContainerConfig) (s : State) :
    Work p g s g (repeatLift relay vehicle r c s) := by
  unfold repeatLift
  split
  · rename_i step old service
    refine .trans (.rows (.served r _ ?_ ?_)) (work_sendReply _ _ _ _ _)
    · rw [service]; exact id
    · rw [service]
      rintro other (⟨_, same⟩ | ⟨_, _, same⟩) <;> cases same
      exact .inl ⟨_, rfl⟩
  · rename_i step old start service
    refine .trans (.rows (.served r _ ?_ ?_)) ((work_sendDown _ _ _).trans (work_sendReply _ _ _ _ _))
    · rw [service]; exact id
    · rw [service]
      rintro other (⟨_, same⟩ | ⟨_, _, same⟩) <;> cases same
      exact .inr ⟨_, _, rfl⟩
  · exact .refl

/-- A container that a round lists PENDING or that is appended: the step that the verdict names. -/
theorem judgeLift_accepted {i : Fin 4} {rd : Round} {r : Row} {step : StepRef} (slot : s.rm.slots.get i = some rd)
    (judged : judgeLift s i rd r = .accepted step) : ∃ x, stepAt s step = some x ∧ x.row = r ∧ x.state = .pending := by
  unfold judgeLift at judged
  split at judged
  · rename_i k found
    split at judged
    · cases judged
    · cases judged
      rw [Round.findStep, List.findIdx?_eq_some_iff_getElem] at found
      obtain ⟨lt, pass, -⟩ := found
      exact ⟨rd.steps[k], (stepAt_of slot k).trans (List.getElem?_eq_getElem lt), step_test.mp pass⟩
  · split at judged
    · cases judged
    · unfold judgeOffList at judged
      split at judged
      · cases judged
      · split at judged
        · cases judged
        · split at judged <;> cases judged

theorem judgeLift_appended {i j : Fin 4} {rd : Round} {r : Row} (judged : judgeLift s i rd r = .appended j) :
    j = i ∧ onActiveRound s r = false := by
  unfold judgeLift at judged
  split at judged
  · split at judged <;> cases judged
  · split at judged
    · cases judged
    · unfold judgeOffList at judged
      split at judged
      · cases judged
      · rename_i apart
        split at judged
        · cases judged
        · split at judged
          · cases judged
            exact ⟨rfl, Bool.eq_false_iff.mpr apart⟩
          · cases judged

theorem work_liftRequest (still : g.moved = none) (relay : Station) (vehicle round : Short) (n : Number) (s : State) :
    Work p g s g (liftRequest relay vehicle round n s) := by
  unfold liftRequest
  simp only
  split
  · exact work_sendReply _ _ _ _ _
  · rename_i i rd found
    have slot := (slotWhere_some found).1
    split
    · exact work_sendReply _ _ _ _ _
    · rename_i r c held
      have config : (configOf s r).isSome = true := by
        obtain ⟨q, -, named⟩ := Option.bind_eq_some_iff.mp held
        obtain ⟨d, config, same⟩ := Option.map_eq_some_iff.mp named
        cases same
        rw [config]
        rfl
      split
      · exact work_sendReply _ _ _ _ _
      · exact work_repeatLift _ _ _ _ _
      · rename_i step judged
        obtain ⟨x, at_, rfl, pending⟩ := judgeLift_accepted slot judged
        exact work_acceptLift still at_ pending _ _ _ _
      · rename_i j judged
        obtain ⟨rfl, apart⟩ := judgeLift_appended judged
        have appended : Work p g s { g with off := insert r g.off }
            (setSlot j (some { rd with steps := rd.steps ++ [Step.fresh r .adhoc] }) s) :=
          .rows (.appended j rd _ r .adhoc slot apart config rfl rfl rfl)
        refine appended.trans ((work_repaid still (.inl still) (fun _ => id) _).trans ?_)
        refine work_acceptLift (x := Step.fresh r .adhoc) still ?_ rfl relay vehicle c s
        rw [stepAt_of (rd := { rd with steps := rd.steps ++ [Step.fresh r .adhoc] }) (Table.get_set_self _ _ _)]
        simp

theorem work_roundEnd (still : g.moved = none) (relay : Station) (vehicle round : Short) (s : State) :
    Work p g s g (roundEnd relay vehicle round s) := by
  unfold roundEnd
  split
  · exact work_sendRoundReply _ _ _ _ _
  · refine .ite (work_sendRoundReply _ _ _ _ _) (.ite (work_sendRoundReply _ _ _ _ _) ?_)
    exact (work_endRound still _ _ _).trans (work_sendRoundReply _ _ _ _ _)

/-! ### Completions and the service timer (R159, R161, R163) -/

theorem serviceAfter_after (lock : LockState) (step : StepRef) : serviceAfter lock = .inUse ∨
    ∃ cause, serviceAfter lock = .held cause none ∨ serviceAfter lock = .held cause (some step) := by
  cases lock with
  | locked => exact .inl rfl
  | unlocked => exact .inr ⟨_, .inl rfl⟩

theorem work_completeLift (still : g.moved = none) {r : Row} {step : StepRef} (lifts : (serviceOf s r).lifts step) (relay : Station)
    (vehicle weight : Short) (lock : LockState) (c : ContainerConfig) :
    Work p g s g (completeLift relay vehicle weight lock r c step s) := by
  unfold completeLift
  simp only
  refine .trans ?_ (work_freeIfClosed still _ _)
  refine .trans ?_ (work_sendReply _ _ _ _ _)
  refine .trans ?_ (work_reportChange _ _ _ _)
  refine .trans ?_ (work_repaid (moved := some r) (off := insert r (insert r g.off)) still (.inr rfl) (fun q doubt => doubt.elim .inl id) _)
  refine .trans ?_ (work_postReport _ _)
  refine .trans (.rows (.finished step r (serviceAfter lock) (Step.finish weight s.stamp) (.inl lifts) (fun _ => rfl) (fun _ => rfl)
    (serviceAfter_after lock step))) ?_
  refine .trans (work_mapSlot (f := fun rd => { rd with lastLift := some (s.tk.uptime, c.cluster) }) (fun _ => rfl) (fun _ => rfl)
    (fun _ => rfl) step.slot _) ?_
  exact .rows (.filled r _ (.inl still))

theorem work_completeLate (still : g.moved = none) {r : Row} {cause : HoldCause} {held : Option StepRef}
    (service : serviceOf s r = .held cause held) (relay : Station)
    (vehicle weight : Short) (lock : LockState) (c : ContainerConfig) :
    Work p g s g (completeLate relay vehicle weight lock r c held s) := by
  unfold completeLate
  simp only
  refine .trans ?_ (work_sendReply _ _ _ _ _)
  refine .trans ?_ (work_reportChange _ _ _ _)
  refine .trans ?_ (work_repaid (moved := some r) (off := insert r (insert r g.off)) still (.inr rfl) (fun q doubt => doubt.elim .inl id) _)
  refine .trans ?_ (work_postReport _ _)
  cases held with
  | none =>
    have ended : Work p g s g (setService r (serviceAfter lock) s) := by
      refine .rows (.served r _ (fun _ => ?_) ?_)
      · cases lock <;> trivial
      · rw [service]
        rintro other (⟨_, same⟩ | ⟨_, _, same⟩) <;> cases same
    refine ended.trans (.trans (.rows (.filled r (Fill.complete (profileOf s r)) (.inl still))) (.weaken ⟨rfl, ?_, .inr rfl, subset_rfl, id⟩))
    exact Set.insert_subset_insert (Set.subset_insert r g.off)
  | some step =>
    refine .trans (.rows (.finished step r (serviceAfter lock) (fun st => { st.finish weight s.stamp with vehicle := some vehicle })
      (.inr ⟨cause, service⟩) (fun _ => rfl) (fun _ => rfl) (serviceAfter_after lock step))) ?_
    exact .rows (.filled r _ (.inl still))

theorem work_liftDone (still : g.moved = none) (relay : Station) (vehicle : Short) (n : Number) (weight : Short) (lock : LockState)
    (s : State) : Work p g s g (liftDone relay vehicle n weight lock s) := by
  unfold liftDone
  split
  · exact work_sendReply _ _ _ _ _
  · split
    · rename_i service
      exact work_completeLate still service _ _ _ _ _
    · rename_i service
      exact .ite (work_completeLift still (.inr ⟨_, _, service⟩) _ _ _ _ _) (work_sendReply _ _ _ _ _)
    · exact work_sendReply _ _ _ _ _
    · exact work_sendReply _ _ _ _ _

theorem work_timeOutLift (still : g.moved = none) {r : Row} {step : StepRef} (lifts : (serviceOf s r).lifts step) (c : ContainerConfig) :
    Work p g s g (timeOutLift r c step s) := by
  unfold timeOutLift
  simp only
  refine .trans ?_ (work_freeIfClosed still _ _)
  refine .trans ?_ (work_reportChange _ _ _ _)
  refine .trans ?_ (work_repaid (off := insert r g.off) still (.inl still) (fun _ => id) _)
  refine .trans ?_ (work_postReport _ _)
  refine .trans ?_ (work_sendDown _ _ _)
  exact .rows (.finished step r (.held .timedOut (some step)) _ (.inl lifts) (fun _ => rfl) (fun _ => rfl) (.inr ⟨_, .inr rfl⟩))

theorem work_timeService (still : g.moved = none) (r : Row) (s : State) : Work p g s g (timeService r s) := by
  unfold timeService
  split
  · rename_i service _
    exact .ite (work_timeOutLift still (.inr ⟨_, _, service⟩) _) .refl
  · exact .refl

theorem work_expireRound (still : g.moved = none) (i : Fin 4) (s : State) : Work p g s g (expireRound i s) := by
  unfold expireRound
  split
  · exact .ite (work_endRound still _ _ _) .refl
  · exact .refl

end Sys2Proof.Machine
end

