-- ==== Sys2Proof/Proofs/Device.lean ====
section
/-! What the writes of the device leave of its card buckets: a write outside them leaves them all, and a card write leaves every other
card where it is found. -/

namespace Sys2Proof.Machine

/-! ### The search of a bucket whose slots have been written (R104) -/

theorem searchBucket_found_iff {slots : List SlotReading} {n : Number} {r : CardRecord} :
    searchBucket slots n = .found r ↔ cardIn slots n = some r := by
  unfold searchBucket
  cases cardIn slots n with
  | none => simp only [reduceCtorEq, iff_false]; split <;> nofun
  | some x => simp

theorem cardIn_first {slots : List SlotReading} {n : Number} {r : CardRecord} (found : cardIn slots n = some r) :
    ∃ i : Nat, slots[i]? = some (.card r) ∧ r.number = n ∧ ∀ j, j < i → ¬slotHolds slots n j := by
  obtain ⟨before, x, after, split, is, none_⟩ := List.findSome?_eq_some_iff.mp found
  subst split
  cases x with
  | free => cases is
  | bad => cases is
  | card c =>
    simp only at is
    split at is
    · rename_i number
      cases is
      refine ⟨before.length, by simp, number, fun j lt ⟨d, here, number'⟩ => ?_⟩
      rw [List.getElem?_append_left lt] at here
      have gone := none_ _ (List.mem_of_getElem? here)
      simp [number'] at gone
    · cases is

/-- A search finds what it found when every slot is as it was, or held another card and holds another card. -/
theorem cardIn_of_untouched {slots slots' : List SlotReading} {n : Number} {r : CardRecord} (found : cardIn slots n = some r)
    (same : ∀ i : Nat, slots'[i]? = slots[i]? ∨ ¬slotHolds slots n i ∧ ¬slotHolds slots' n i) : cardIn slots' n = some r := by
  obtain ⟨i, here, number, first⟩ := cardIn_first found
  refine cardIn_of_first (i := i) ?_ number fun j lt holds => ?_
  · rcases same i with is | ⟨other, -⟩
    · rw [is, here]
    · exact absurd ⟨r, here, number⟩ other
  · rcases same j with is | ⟨-, other⟩
    · obtain ⟨c, here', number'⟩ := holds
      exact first j lt ⟨c, is ▸ here', number'⟩
    · exact other holds

/-! ### Cards that a change of the device leaves -/

/-- A card of these numbers that is found on one device is found the same on another. -/
def Memory.keepsCards (others : Number → Prop) (m m' : Memory) : Prop := ∀ r : CardRecord, others r.number →
  searchBucket (heldSlots m (bucketOf r.number)) r.number = .found r → searchBucket (heldSlots m' (bucketOf r.number)) r.number = .found r

theorem Memory.keepsCards.refl (others : Number → Prop) (m : Memory) : m.keepsCards others m := fun _ _ found => found

theorem bucketAddress_bounds (b : Bucket) : 0x010000 ≤ bucketAddress b ∧ bucketAddress b + 64 ≤ 0x050000 := by
  have := b.isLt
  simp only [bucketAddress]
  omega

/-- A device that reads the same from 010000h on keeps every card. -/
theorem keepsCards_of_low {m m' : Memory} (others : Number → Prop) (same : ∀ a, 0x010000 ≤ a → m'.read a = m.read a) :
    m.keepsCards others m' := by
  intro r _ found
  have low := (bucketAddress_bounds (bucketOf r.number)).1
  have bytes := Memory.readBytes_congr (m := m) (m' := m') (size := 64) (a := bucketAddress (bucketOf r.number))
    fun k _ => same _ (by omega)
  rw [heldSlots, bytes]
  exact found

theorem Memory.read_writeCompared_outside {a : Nat} : ∀ {units : List MemUnit} {returned : List (List Byte)} {m : Memory},
    (∀ u ∈ units, u.misses a) → (m.writeCompared units returned).1.read a = m.read a
  | [], _, _, _ => rfl
  | u :: units, [], m, outside => Memory.read_writeUnits_outside (units := u :: units) outside
  | u :: units, b :: returned, m, outside => by
    have first := outside u List.mem_cons_self
    unfold Memory.writeCompared
    split
    · rw [Memory.read_writeCompared_outside fun v mem => outside v (List.mem_cons_of_mem u mem)]
      exact Memory.read_writeBytes_outside first
    · exact Memory.read_writeBytes_outside (by rw [length_padTo]; exact first)

theorem Memory.read_writeCut_outside {a : Nat} {units : List MemUnit} (m : Memory) (r : Residue)
    (outside : ∀ u ∈ units, u.misses a) : (m.writeCut units r).read a = m.read a := by
  have before : (m.writeUnits (units.take r.completed)).read a = m.read a :=
    Memory.read_writeUnits_outside fun u mem => outside u (List.mem_of_mem_take mem)
  unfold Memory.writeCut
  split
  · exact before
  · rename_i u rest next
    have mem : u ∈ units := List.mem_of_mem_drop (next ▸ List.mem_cons_self : u ∈ units.drop r.completed)
    refine (Memory.read_writeBytes_outside ?_).trans before
    rw [List.length_take]
    rcases outside u mem with below | above
    · exact .inl below
    · exact .inr (by omega)

theorem Memory.read_perform_outside {a : Nat} {units : List MemUnit} (m : Memory) (write : MemWrite)
    (outside : ∀ u ∈ units, u.misses a) : (m.perform units write).1.read a = m.read a := by
  cases write with
  | done => exact Memory.read_writeUnits_outside outside
  | readBack returned => exact Memory.read_writeCompared_outside outside
  | failed r => exact Memory.read_writeCut_outside m r outside

theorem imageIndex_lt (t : RecordTarget) : t.imageIndex < 303 := by
  cases t with
  | parameter => decide
  | profile n | container n | station n | window n | cls n | cost n =>
    have := n.isLt
    simp only [RecordTarget.imageIndex]
    omega

/-- What the record, header and format writes write lies below the card buckets (11.4). -/
theorem units_low {body : WriteBody} (card : body.card = none) (inside : body.inside) (m : Memory) :
    ∀ u ∈ body.units m, u.address + u.bytes.length ≤ 0x010000 := by
  cases body with
  | cardPut r => cases card
  | cardDrop n => cases card
  | record target contents values =>
    intro u mem
    obtain rfl := List.mem_singleton.mp mem
    have small := inside target contents values rfl
    have index := imageIndex_lt target
    simp only [recordAddress, recordSize]
    omega
  | header =>
    intro u mem
    obtain rfl := List.mem_singleton.mp mem
    simp only [headerAddress, length_headerUnit]
    omega
  | format =>
    intro u mem
    have either : u ∈ formatRecords ++ [{ address := headerAddress, bytes := headerUnit }] := mem
    rcases List.mem_append.mp either with record | header
    · have := (formatRecord_inside record).2
      omega
    · obtain rfl := List.mem_singleton.mp header
      simp only [headerAddress, length_headerUnit]
      omega

/-- A record, header or format write keeps every card, however it ends. -/
theorem keepsCards_perform {body : WriteBody} (card : body.card = none) (inside : body.inside) (others : Number → Prop) (m : Memory)
    (write : MemWrite) : m.keepsCards others (m.perform (body.units m) write).1 :=
  keepsCards_of_low others fun _ high => Memory.read_perform_outside m write fun u mem =>
    .inr ((units_low card inside m u mem).trans high)

/-- A read below the card buckets keeps every card, whatever it returns. -/
theorem keepsCards_access (others : Number → Prop) (m : Memory) {a size : Nat} (low : a + size ≤ 0x010000) (read : MemRead) :
    m.keepsCards others (m.access a size read).1 := by
  cases read with
  | asHeld => exact .refl others m
  | failed => exact .refl others m
  | other bytes =>
    refine keepsCards_of_low others fun x high => Memory.read_writeBytes_outside ?_
    rw [length_padTo]
    omega

/-! ### A card write (R117) -/

theorem cardFields_number {bytes : List Byte} {r : CardRecord} (fields : cardFields bytes = some r) : r.number = numberAt bytes 0 := by
  simp only [cardFields, Option.bind_eq_bind, Option.bind_eq_some_iff] at fields
  obtain ⟨_, -, _, -, _, -, chosen⟩ := fields
  split at chosen
  all_goals
    obtain ⟨_, -, whole⟩ := Option.bind_eq_some_iff.mp chosen
    split at whole
    · exact congrArg CardRecord.number (Option.some.inj whole).symm
    · cases whole

theorem readSlot_number {bytes : List Byte} {r : CardRecord} (card : readSlot bytes = .card r) : r.number = numberAt bytes 0 := by
  unfold readSlot at card
  split at card
  · cases card
  · split at card
    · cases card
    · split at card
      · cases card
      · split at card
        · rename_i x fields
          cases card
          exact cardFields_number fields
        · cases card

theorem numberAt_slotOf (r : CardRecord) : numberAt (slotOf r) 0 = r.number := by
  simp only [slotOf, withCheck, List.append_assoc]
  exact numberAt_here r.number _

/-- The slots that a card write writes: distinct, each of 16 bytes, and none with another card before or after. -/
structure SlotWrites (slots : List SlotReading) (n : Number) (ws : List (Nat × List Byte)) : Prop where
  once : (ws.map (·.1)).Nodup
  fits : ∀ w ∈ ws, w.1 < 4 ∧ w.2.length = 16
  before : ∀ w ∈ ws, ∀ x, x ≠ n → ¬slotHolds slots x w.1
  after : ∀ w ∈ ws, ∀ r, readSlot w.2 = .card r → r.number = n

theorem SlotWrites.take {slots : List SlotReading} {n : Number} {ws : List (Nat × List Byte)} (writes : SlotWrites slots n ws)
    (k : Nat) : SlotWrites slots n (ws.take k) where
  once := writes.once.sublist ((List.take_sublist k ws).map _)
  fits w mem := writes.fits w (List.mem_of_mem_take mem)
  before w mem := writes.before w (List.mem_of_mem_take mem)
  after w mem := writes.after w (List.mem_of_mem_take mem)

theorem slotHolds_unique {slots : List SlotReading} {n x : Number} {i : Nat} (here : slotHolds slots n i) (other : slotHolds slots x i) :
    x = n := by
  obtain ⟨r, at_, rfl⟩ := here
  obtain ⟨c, at', rfl⟩ := other
  rw [at_] at at'
  cases at'
  rfl

theorem slotWrites_free {slots : List SlotReading} {n : Number} {is : List Nat} (once : is.Nodup)
    (held : ∀ i ∈ is, i < 4 ∧ slotHolds slots n i) : SlotWrites slots n (is.map fun i => (i, freeSlot)) where
  once := by simpa [Function.comp_def] using once
  fits w mem := by
    obtain ⟨i, here, rfl⟩ := List.mem_map.mp mem
    exact ⟨(held i here).1, length_freeSlot⟩
  before w mem x other := by
    obtain ⟨i, here, rfl⟩ := List.mem_map.mp mem
    exact fun holds => other (slotHolds_unique (held i here).2 holds)
  after w mem r card := by
    obtain ⟨i, here, rfl⟩ := List.mem_map.mp mem
    rw [readSlot_freeSlot] at card
    cases card

theorem slotWrites_put {slots : List SlotReading} {r : CardRecord} {i : Nat} (lt : i < 4)
    (free : ∀ x, x ≠ r.number → ¬slotHolds slots x i) {ws : List (Nat × List Byte)} (later : SlotWrites slots r.number ws)
    (new : i ∉ ws.map (·.1)) : SlotWrites slots r.number ((i, slotOf r) :: ws) where
  once := List.nodup_cons.mpr ⟨new, later.once⟩
  fits w mem := by
    rcases List.mem_cons.mp mem with rfl | mem
    · exact ⟨lt, length_slotOf r⟩
    · exact later.fits w mem
  before w mem := by
    rcases List.mem_cons.mp mem with rfl | mem
    · exact free
    · exact later.before w mem
  after w mem x card := by
    rcases List.mem_cons.mp mem with rfl | mem
    · rw [readSlot_number card, numberAt_slotOf]
    · exact later.after w mem x card

theorem slotWrites_dropCard (slots : List SlotReading) (n : Number) : SlotWrites slots n (dropCard slots n).2 := by
  unfold dropCard
  have free := slotWrites_free (slots := slots) (n := n) ((slotsHolding_rising slots n).imp Nat.ne_of_lt) fun i mem => mem_slotsHolding.mp mem
  cases held : slotsHolding slots n with
  | nil => exact ⟨List.nodup_nil, nofun, nofun, nofun⟩
  | cons i rest => rw [held] at free; exact free

theorem slotWrites_putCard (slots : List SlotReading) (r : CardRecord) : SlotWrites slots r.number (putCard slots r).2 := by
  have rising := slotsHolding_rising slots r.number
  cases held : slotsHolding slots r.number with
  | cons first later =>
    rw [putCard_holding held]
    rw [held] at rising
    obtain ⟨above, rising'⟩ := List.pairwise_cons.mp rising
    have here : ∀ i ∈ first :: later, i < 4 ∧ slotHolds slots r.number i := fun i mem => mem_slotsHolding.mp (held ▸ mem)
    refine slotWrites_put (here first List.mem_cons_self).1 (fun x other holds => ?_)
      (slotWrites_free (rising'.imp Nat.ne_of_lt) fun i mem => here i (List.mem_cons_of_mem first mem)) ?_
    · exact other (slotHolds_unique (here first List.mem_cons_self).2 holds)
    · simpa [Function.comp_def] using fun mem => Nat.lt_irrefl first (above first mem)
  | nil =>
    cases takes : (List.range 4).find? fun i => (slots.getD i .bad).takes with
    | some i =>
      rw [putCard_taking held takes]
      have lt := List.mem_range.mp (List.mem_of_find?_eq_some takes)
      have free := takes_iff.mp (List.find?_some (p := fun i => (slots.getD i .bad).takes) takes)
      exact slotWrites_put lt (fun x _ ⟨c, here, _⟩ => free c here) ⟨List.nodup_nil, nofun, nofun, nofun⟩ List.not_mem_nil
    | none =>
      rw [putCard_full held takes]
      exact ⟨List.nodup_nil, nofun, nofun, nofun⟩

/-- Slots written keep every card but the one that the write is of. -/
theorem keepsCards_slots {m : Memory} {b : Bucket} {n : Number} {ws : List (Nat × List Byte)} (wf : m.wf = true)
    (writes : SlotWrites (heldSlots m b) n ws) : m.keepsCards (· ≠ n) (m.writeUnits (slotUnits b ws)) := by
  intro r other found
  obtain ⟨written, kept, outside⟩ := slots_written (b := b) wf writes.once writes.fits
  rw [searchBucket_found_iff] at found ⊢
  by_cases here : bucketOf r.number = b
  · rw [here] at found ⊢
    refine cardIn_of_untouched found fun i => ?_
    by_cases lt : i < 4
    · by_cases mem : i ∈ ws.map (·.1)
      · obtain ⟨w, inside, rfl⟩ := List.mem_map.mp mem
        refine .inr ⟨writes.before w inside _ other, fun ⟨c, at_, number⟩ => other ?_⟩
        rw [written w inside] at at_
        rw [← number]
        exact writes.after w inside c (Option.some.inj at_)
      · exact .inl (heldSlots_same lt (kept i lt mem))
    · refine .inl ?_
      rw [List.getElem?_eq_none, List.getElem?_eq_none] <;> rw [length_heldSlots] <;> omega
  · have apart : ∀ k, k < 64 → (m.writeUnits (slotUnits b ws)).read (bucketAddress (bucketOf r.number) + k) =
        m.read (bucketAddress (bucketOf r.number) + k) := fun k lt => outside _ (by
      have ne : (bucketOf r.number).val ≠ b.val := fun is => here (Fin.ext is)
      simp only [bucketAddress]
      omega)
    rw [heldSlots, Memory.readBytes_congr apart]
    exact found

end Sys2Proof.Machine
end

