-- ==== Sys2Proof/Proofs/MemoryWork.lean ====
section
/-! The Record Memory Interface's operations as work: the port, the restore, the fetches and the writes. -/

namespace Sys2Proof.Machine

variable {p : Premises} {g : Debt} {s : State}

/-! ### The write queue (R175, R178, R182) -/

theorem work_queueOwn (w : OwnWrite) (s : State) : Work p g s g (queueOwn w s) := .memory (.own w)

/-- The interface changed, with its queue's entries, its restore and its restful port kept. -/
theorem work_interface (u : RecordMemory) (queue : u.queue = s.rmi.queue) (restoring : u.restoring = s.rmi.restoring)
    (port : s.rmi.restoring = false → s.rmi.atRest → u.atRest) (range : s.rmi.fetchRun ≤ 3 → u.fetchRun ≤ 3) :
    Work p g s g { s with rmi := u } := .memory (.interface u (by rw [queue]) restoring port range)

theorem work_freePort (s : State) : Work p g s g (freePort s) :=
  work_interface _ rfl rfl (fun _ _ => ⟨nofun, nofun, nofun⟩) id

theorem work_remakeOwn (s : State) : Work p g s g (remakeOwn s) := by
  unfold remakeOwn
  split
  · exact .ite (.trans (work_interface { s.rmi with remake := none } rfl rfl (fun _ rest => rest) id) (work_queueOwn _ _)) .refl
  · exact .refl

/-- The REPLYs that wait on an entry. -/
def repliesOf (reply : Option ReplyTo) : Nat := if reply.isSome then 1 else 0

theorem work_replyWrite (reply : Option ReplyTo) (status : Status) (detail : Detail) (s : State) :
    Work p { g with replies := g.replies + repliesOf reply } s g (replyWrite reply status detail s) := by
  cases reply with
  | none => exact .refl
  | some r => exact work_reply _ _ _ _ _

theorem work_endWrite {e : WriteEntry} {rest : List WriteEntry} (queue : s.rmi.queue = e :: rest) :
    Work p g s { g with replies := g.replies + repliesOf e.reply } (endWrite s) := by
  unfold endWrite
  refine .trans (.memory (.done e rest
    { s.rmi with queue := s.rmi.queue.tail, port := none, remake := s.rmi.remake.map fun r => { r with due := true } }
    queue ?_ rfl rfl rfl _ (.inl rfl))) (work_remakeOwn _)
  rw [queue]
  rfl

/-- An entry that leaves the queue and answers its command. -/
theorem work_closeWrite {e : WriteEntry} {rest : List WriteEntry} (queue : s.rmi.queue = e :: rest) (status : Status) (detail : Detail) :
    Work p g s g (replyWrite e.reply status detail (endWrite s)) := (work_endWrite queue).trans (work_replyWrite _ _ _ _)

/-- One of the part's own writes leaves the queue: no command waits on it. -/
theorem work_endOwn {e : WriteEntry} {rest : List WriteEntry} (queue : s.rmi.queue = e :: rest) (own : e.body.own = true) :
    Work p g s g (endWrite s) := by
  unfold endWrite
  refine .trans (.memory (.done (k := g.replies) e rest
    { s.rmi with queue := s.rmi.queue.tail, port := none, remake := s.rmi.remake.map fun r => { r with due := true } }
    queue ?_ rfl rfl rfl (.inr ⟨own, rfl⟩))) (work_remakeOwn _)
  rw [queue]
  rfl

theorem activeWrite_some {e : WriteEntry} (active : activeWrite s = some e) : ∃ rest, s.rmi.queue = e :: rest := by
  unfold activeWrite at active
  split at active
  · exact List.head?_eq_some_iff.mp active
  · cases active

/-! ### The port arbiter (R176) -/

theorem work_grantWrite (s : State) : Work p g s g (grantWrite s) := by
  unfold grantWrite
  refine .memory (.interface _ ?_ rfl (fun _ _ => ⟨nofun, nofun, nofun⟩) fun _ => Nat.zero_le 3)
  cases s.rmi.queue <;> rfl

theorem work_grantPort (s : State) : Work p g s g (grantPort s) := by
  unfold grantPort
  split
  · exact .refl
  · split
    · rename_i restoring
      exact work_interface _ rfl rfl (fun ready => absurd (ready.symm.trans restoring) Bool.false_ne_true) id
    · refine .ite (work_grantWrite s) ?_
      split
      · exact .fetched _
      · exact .ite .refl (work_grantWrite s)

/-! ### The device -/

/-- A read that returns nothing but what is held. -/
def faithful (read : MemRead) : Prop := ∀ bytes, read ≠ .other bytes

theorem work_device (m : Memory) (wf : s.memory.wf = true → m.wf = true)
    (keeps : p.device → s.memory.wf = true → (∀ e ∈ s.rmi.queue, e.body.inside) →
      s.memory.keepsCards (fun n => ∀ e ∈ s.rmi.queue, e.body.card ≠ some n) m) : Work p g s g { s with memory := m } :=
  .memory (.device m wf keeps)

theorem faithful_failed : faithful .failed := fun _ => nofun

/-- A read of a bucket, or one below the buckets. -/
theorem work_access {a size : Nat} {read : MemRead} (calm : a + size ≤ 0x010000 ∨ (p.device → faithful read)) :
    Work p g s g { s with memory := (s.memory.access a size read).1 } := by
  refine work_device _ (fun wf => Memory.access_wf wf a size read) fun device _ _ => ?_
  rcases calm with low | faithful
  · exact keepsCards_access _ _ low read
  · cases read with
    | other bytes => exact absurd rfl (faithful device bytes)
    | _ => exact .refl _ _

/-! ### The restore (R181 to R185) -/

/-- The entry that is due at the end of the restore made (R182). -/
def State.queueDue (s : State) : State :=
  match ownDue s.rmi with
  | some w => queueOwn w s
  | none => s

theorem work_queueDue (s : State) : Work p g s g s.queueDue := by
  unfold State.queueDue
  split
  · exact work_queueOwn _ _
  · exact .refl

theorem queueDue_port (s : State) : s.queueDue.rmi.port = s.rmi.port := by
  unfold State.queueDue
  split <;> rfl

/-- READY, with the service queue built and an open slot next (R185). -/
def State.restoreEnded (s : State) : State :=
  { rebuildQueue { s with rmi := { s.rmi with restoring := false, progress := .ended } } with
    slc := { s.slc with sinceOpen := 32 } }

/-- Some turns since the last open slot, in range. -/
theorem work_sinceOpen {n : Nat} (small : n ≤ 32) (s : State) : Work p g s g { s with slc := { s.slc with sinceOpen := n } } :=
  .street (.loop _ rfl (fun _ none_ => none_) fun ⟨_, streak, polls, noAnswers, collisions, ignored⟩ =>
    ⟨small, streak, polls, noAnswers, collisions, ignored⟩)

theorem work_restoreEnded (still : g.moved = none) (port : s.rmi.port = none) : Work p g s g s.restoreEnded := by
  have next := work_sinceOpen (p := p) (g := g) (n := 32) le_rfl
    (rebuildQueue { s with rmi := { s.rmi with restoring := false, progress := .ended } })
  exact .trans (.ready port) (.trans (h := g) (.weaken ⟨rfl, Set.empty_subset _, .inl rfl, subset_rfl, id⟩) next)

theorem work_endRestore (still : g.moved = none) {s : State} (port : s.rmi.port = none) : Work p g s g (endRestore s) := by
  refine (work_postReport _ s).trans ((work_queueDue _).trans (work_restoreEnded still ?_))
  rw [queueDue_port, postReport_rmi]
  exact port

theorem work_endIdentification (still : g.moved = none) (answer : Option (List Byte)) (s : State) :
    Work p g s g (endIdentification answer s) := by
  unfold endIdentification
  split
  · refine (work_freePort s).trans (.ite ?_ (.ite ?_ ?_))
    · exact work_interface _ rfl rfl (fun _ rest => rest) id
    · exact work_interface _ rfl rfl (fun _ rest => rest) id
    · exact .trans (work_interface { (freePort s).rmi with absent := true } rfl rfl (fun _ rest => rest) id)
        (work_endRestore still rfl)
  · exact .refl

theorem work_progress (next : RestoreProgress) (s : State) : Work p g s g { s with rmi := { s.rmi with progress := next } } :=
  work_interface _ rfl rfl (fun _ rest => rest) id

theorem work_endHeader (still : g.moved = none) (read : MemRead) (s : State) : Work p g s g (endHeader read s) := by
  unfold endHeader
  split
  · have low : headerAddress + recordSize ≤ 0x010000 := by decide
    simp only
    refine (work_access (read := read) (.inl low)).trans ((work_freePort _).trans (.trans
      (work_interface { (freePort { s with memory := (s.memory.access headerAddress recordSize read).1 }).rmi with
        header := some (readHeader (s.memory.access headerAddress recordSize read).2) } rfl rfl (fun _ rest => rest) id) ?_))
    have blank : ∀ t : State, t.rmi.port = none → Work p g t g (endRestore { t with rmi := { t.rmi with counts := allEmpty } }) :=
      fun t port => .trans (work_interface { t.rmi with counts := allEmpty } rfl rfl (fun _ rest => rest) id) (work_endRestore still port)
    split
    · exact work_progress _ _
    · exact (work_progress _ _).trans (work_countErrors 1 _)
    · exact blank _ rfl
    · exact blank _ rfl
  · exact .refl

/-! ### The records (R183, R184) -/

theorem work_countRecord (t : RecordTarget) (f : RecordCounts → RecordCounts) (s : State) : Work p g s g (countRecord t f s) :=
  work_interface _ rfl rfl (fun _ rest => rest) id

/-- A parameter record's rejoin limit is in its range. -/
theorem paramsOf_rejoinLimit {b : List Byte} {q : Params} (good : paramsOf b = some q) : 1 ≤ q.rejoinLimit ∧ q.rejoinLimit ≤ 15 := by
  simp only [paramsOf] at good
  split at good
  · rename_i inside
    cases good
    refine enter_rejoinLimit (fun v mem limit => ?_) (by decide)
    have here := List.all_eq_true.mp inside v mem
    rw [limit] at here
    obtain ⟨least, most⟩ := Bool.and_eq_true _ _ ▸ here
    exact ⟨of_decide_eq_true least, of_decide_eq_true most⟩
  · cases good

theorem work_loadRecord {target : RecordTarget} {b : List Byte} {t : State} (restoring : p.rest → s.rmi.restoring = true)
    (loaded : loadRecord target b s = some t) : Work p g s g t := by
  cases target with
  | parameter =>
    obtain ⟨q, good, rfl⟩ := Option.map_eq_some_iff.mp loaded
    exact .loaded q restoring (paramsOf_rejoinLimit good)
  | profile n =>
    simp only [loadRecord] at loaded
    split at loaded
    · cases loaded
      exact .rows (.aside s.tk (s.ft.profiles.set n _) s.free)
    · cases loaded
  | container r =>
    simp only [loadRecord] at loaded
    split at loaded
    · cases loaded
    · rename_i c _
      split at loaded
      · cases loaded
      · cases loaded
        exact .trans (.restored r c restoring) (work_bindStation _ _)
  | station a =>
    simp only [loadRecord] at loaded
    split at loaded
    · cases loaded
    · rename_i alone
      cases loaded
      have set : Work p g s g (setStation a (fun r => { r with serial := (stationFields b).1, pinned := (stationFields b).2 }) s) := by
        refine .street (.bound a _ (.of_same (List.Sublist.refl _) rfl Iff.rfl) (.inl id) fun c other some_ same => alone ?_)
        simp only at some_ same
        simpa [serialElsewhere, some_, List.mem_finRange] using ⟨c, other, same⟩
      exact set.trans (.ite (work_bindStation _ _) .refl)
  | window n =>
    simp only [loadRecord] at loaded
    split at loaded
    · cases loaded
      exact work_desk _ rfl rfl rfl id
    · cases loaded
  | cls n =>
    cases loaded
    exact work_desk _ rfl rfl rfl id
  | cost n =>
    cases loaded
    exact work_desk _ rfl rfl rfl id

theorem loadRecord_rmi {target : RecordTarget} {b : List Byte} {t : State} (loaded : loadRecord target b s = some t) :
    t.rmi = s.rmi := by
  cases target with
  | parameter =>
    obtain ⟨q, -, rfl⟩ := Option.map_eq_some_iff.mp loaded
    rfl
  | profile n | window n =>
    simp only [loadRecord] at loaded
    split at loaded <;> cases loaded
    rfl
  | container r =>
    simp only [loadRecord] at loaded
    split at loaded
    · cases loaded
    · split at loaded <;> cases loaded
      rfl
  | station a =>
    simp only [loadRecord] at loaded
    split at loaded <;> cases loaded
    split <;> rfl
  | cls n | cost n => cases loaded; rfl

theorem takeRecord_rmi (target : RecordTarget) (bytes : Option (List Byte)) (s : State) :
    (takeRecord target bytes s).rmi.port = s.rmi.port ∧ (takeRecord target bytes s).rmi.restoring = s.rmi.restoring := by
  unfold takeRecord
  simp only
  split
  · exact ⟨rfl, rfl⟩
  · exact ⟨rfl, rfl⟩
  · split
    · rename_i loaded
      simp only [countRecord, loadRecord_rmi loaded, and_self]
    · exact ⟨rfl, rfl⟩

theorem settleBinding_rmi (s : State) : (settleBinding s).rmi = s.rmi := by
  obtain ⟨⟨rows, is⟩, -⟩ := settleBinding_spec s
  rw [is]

theorem targetAt_lt {n : Nat} {t : RecordTarget} (target : targetAt n = some t) : n < 303 := by
  by_contra far
  unfold targetAt at target
  simp only [index?] at target
  split_ifs at target
  all_goals try omega
  simp at target

theorem work_takeRecord (restoring : p.rest → s.rmi.restoring = true) (target : RecordTarget) (bytes : Option (List Byte)) :
    Work p g s g (takeRecord target bytes s) := by
  have bad : Work p g s g (countErrors 1 (countRecord target (fun c => { c with bad := c.bad + 1 }) s)) :=
    (work_countRecord _ _ s).trans (work_countErrors 1 _)
  unfold takeRecord
  simp only
  split
  · exact work_countRecord _ _ s
  · exact bad
  · split
    · rename_i loaded
      exact (work_loadRecord restoring loaded).trans (work_countRecord _ _ _)
    · exact bad

theorem work_settleBinding (restoring : p.rest → s.rmi.restoring = true) : Work p g s g (settleBinding s) := by
  obtain ⟨⟨rows, is⟩, row⟩ := settleBinding_spec s
  rw [is] at row ⊢
  have state : ∀ a, (rows.get a).state = .absent ∨ (rows.get a).state = .unbound := fun a => by
    have here := congrArg StationRow.state (row a)
    simp only at here
    rw [here]
    split
    · exact .inl rfl
    · exact .inr rfl
  have notBarred : ∀ a, (rows.get a).state ≠ .barred := fun a => by rcases state a with is | is <;> rw [is] <;> nofun
  refine work_rows rows (fun a => ?_) (fun a => ?_) fun a => .inr restoring
  · refine ⟨?_, fun rest zero limit old => ?_, fun _ _ zero => ?_⟩
    · have here := congrArg StationRow.queue (row a)
      exact here ▸ List.Sublist.refl _
    · have here : (rows.get a).rejoin = 0 := (congrArg StationRow.rejoin (row a)).trans (zero (restoring rest))
      exact ⟨by rw [here]; exact Nat.zero_le _, iff_of_false (notBarred a) (by rw [here]; exact Nat.ne_of_lt limit)⟩
    · exact (congrArg StationRow.rejoin (row a)).trans zero
  · have here := congrArg StationRow.serial (row a)
    exact here

theorem work_endRecord (still : g.moved = none) (restful : p.rest → s.rmi.restoring = false → s.rmi.atRest) (read : MemRead) :
    Work p g s g (endRecord read s) := by
  unfold endRecord
  split
  · rename_i n port progress
    have restoring : p.rest → s.rmi.restoring = true := fun rest => by
      by_contra ready
      exact (restful rest (Bool.eq_false_iff.mpr ready)).2.2 port
    split
    · exact .refl
    · rename_i t target
      have low : recordAddress n + recordSize ≤ 0x010000 := by
        have := targetAt_lt target
        simp only [recordAddress, recordSize]
        omega
      let u := freePort { s with memory := (s.memory.access (recordAddress n) recordSize read).1 }
      have taken : Work p g s g (takeRecord t (s.memory.access (recordAddress n) recordSize read).2 u) :=
        (work_access (read := read) (.inl low)).trans ((work_freePort _).trans (work_takeRecord (s := u) restoring _ _))
      obtain ⟨port', restoring'⟩ := takeRecord_rmi t (s.memory.access (recordAddress n) recordSize read).2 u
      refine taken.trans ((work_progress (.records (n + 1)) _).trans (.ite .refl ((work_settleBinding fun rest => ?_).trans
        (work_endRestore still ?_))))
      · exact restoring'.trans (restoring rest)
      · rw [settleBinding_rmi]
        exact port'
  · exact .refl

/-! ### Fetches (R111, R177) -/

theorem access_reads {m : Memory} {b : Bucket} {read : MemRead} (calm : faithful read) :
    readBucket (m.access (bucketAddress b) 64 read).2 = heldSlots (m.access (bucketAddress b) 64 read).1 b ∨
      ∀ n, cardIn (readBucket (m.access (bucketAddress b) 64 read).2) n = none := by
  cases read with
  | asHeld => exact .inl rfl
  | other bytes => exact absurd rfl (calm bytes)
  | failed =>
    refine .inr fun n => ?_
    simp [Memory.access, readBucket, cardIn]

theorem work_endFetch (clean : g.place = false) {read : MemRead} (calm : p.device → faithful read) (s : State) :
    Work p g s g (endFetch read s) := by
  unfold endFetch
  split
  · rename_i b discarded port
    simp only
    refine (work_access (read := read) (.inr calm)).trans ((work_freePort _).trans (.ite (.ite (work_countErrors 1 _) .refl) ?_))
    exact work_completeFetch clean fun device => access_reads (calm device)
  · exact .refl

/-! ### Writes (R117, R178, R182) -/

/-- Card writes that the device makes as it is told, or fails at with nothing of the unit it fails at (log 29). -/
def clean (write : MemWrite) : Prop := write = .done ∨ ∃ r, write = .failed r ∧ r.left = []

theorem writeCut_clean (m : Memory) (b : Bucket) (ws : List (Nat × List Byte)) {r : Residue} (left : r.left = []) :
    m.writeCut (slotUnits b ws) r = m.writeUnits (slotUnits b (ws.take r.completed)) := by
  have taken : (slotUnits b ws).take r.completed = slotUnits b (ws.take r.completed) := List.map_take.symm
  unfold Memory.writeCut
  rw [taken, left]
  split
  · rfl
  · rw [List.take_nil]
    rfl

/-- A card write's slots keep every other card. -/
theorem keepsCards_cardWrite {m : Memory} {b : Bucket} {n : Number} {ws : List (Nat × List Byte)} (wf : m.wf = true)
    (writes : SlotWrites (heldSlots m b) n ws) {write : MemWrite} (calm : clean write) :
    m.keepsCards (· ≠ n) (m.perform (slotUnits b ws) write).1 := by
  rcases calm with rfl | ⟨r, rfl, left⟩
  · exact keepsCards_slots wf writes
  · rw [Memory.perform, writeCut_clean m b ws left]
    exact keepsCards_slots wf (writes.take _)

theorem Memory.keepsCards.mono {others more : Number → Prop} {m m' : Memory} (keeps : m.keepsCards others m')
    (fewer : ∀ n, more n → others n) : m.keepsCards more m' := fun r other => keeps r (fewer _ other)

/-- A card write's number and the slots it writes. -/
theorem cardWrites_slots {body : WriteBody} {b : Bucket} (bucket : body.bucket = some b) (slots : List SlotReading) :
    ∃ n ws, body.card = some n ∧ (cardWrites body slots).2 = slotUnits b ws ∧ SlotWrites slots n ws := by
  cases body with
  | cardPut r =>
    cases bucket
    exact ⟨_, _, rfl, rfl, slotWrites_putCard slots r⟩
  | cardDrop n =>
    cases bucket
    exact ⟨_, _, rfl, rfl, slotWrites_dropCard slots n⟩
  | _ => cases bucket

theorem work_finishCardWrite {e : WriteEntry} {rest : List WriteEntry} {b : Bucket} {bytes : Option (List Byte)} {write : MemWrite}
    (queue : s.rmi.queue = e :: rest) (bucket : e.body.bucket = some b)
    (calm : p.device → clean write ∧ (bytes.isSome = true → readBucket bytes = heldSlots s.memory b)) :
    Work p g s g (finishCardWrite e bytes write s) := by
  unfold finishCardWrite
  simp only
  generalize (if bytes.isNone = true then 1 else badSlots (readBucket bytes)) = errors
  refine (work_countErrors errors s).trans ?_
  split
  · exact work_closeWrite (by exact queue) _ _
  · rename_i read
    split
    · exact work_closeWrite (by exact queue) _ _
    · have written : Work p g (countErrors errors s) g { countErrors errors s with
            memory := (s.memory.perform (cardWrites e.body (readBucket bytes)).2 write).1 } := by
        refine work_device _ (fun wf => Memory.perform_wf wf _ _) fun device wf _ => ?_
        obtain ⟨calm', held⟩ := calm device
        obtain ⟨n, ws, card, units, writes⟩ := cardWrites_slots bucket (readBucket bytes)
        rw [units]
        rw [held (by simpa [Option.isSome_iff_ne_none] using read)] at writes
        refine (keepsCards_cardWrite wf writes calm').mono fun x other same => ?_
        exact other e (by rw [show (countErrors _ s).rmi.queue = e :: rest from queue]; exact List.mem_cons_self) (same ▸ card)
      refine written.trans ?_
      split
      · exact work_closeWrite (by exact queue) _ _
      · exact (work_countErrors 1 _).trans (work_closeWrite (by exact queue) _ _)

theorem work_endCardWrite {read : MemRead} {write : MemWrite} (calm : p.device → faithful read ∧ clean write) (s : State) :
    Work p g s g (endCardWrite read write s) := by
  unfold endCardWrite
  split
  · exact .refl
  · rename_i e active
    obtain ⟨rest, queue⟩ := activeWrite_some active
    split
    · exact .refl
    · rename_i b bucket
      refine (work_access (read := read) (.inr fun device => (calm device).1)).trans
        (work_finishCardWrite queue bucket fun device => ⟨(calm device).2, fun some_ => ?_⟩)
      cases read with
      | asHeld => rfl
      | other bytes => exact absurd rfl ((calm device).1 bytes)
      | failed => cases some_

theorem work_performEntry {e : WriteEntry} {rest : List WriteEntry} (queue : s.rmi.queue = e :: rest) (card : e.body.card = none)
    (write : MemWrite) : Work p g s g (performEntry e write s).2 := by
  have written : Work p g s g { s with memory := (s.memory.perform (e.body.units s.memory) write).1 } := by
    refine work_device _ (fun wf => Memory.perform_wf wf _ _) fun _ _ inside => ?_
    exact keepsCards_perform card (inside e (queue ▸ List.mem_cons_self)) _ _ write
  exact written.trans (.ite .refl (work_countErrors 1 _))

theorem performEntry_rmi (e : WriteEntry) (write : MemWrite) (s : State) : (performEntry e write s).2.rmi = s.rmi := by
  simp only [performEntry]
  split <;> rfl

theorem work_endRecordWrite (still : g.moved = none) (coming : p.coming → ∀ e ∈ s.rmi.queue, ∀ target contents values,
    e.body = .record target contents values → ranged values) (write : MemWrite) : Work p g s g (endRecordWrite write s) := by
  unfold endRecordWrite
  split
  · rename_i e active
    obtain ⟨rest, queue⟩ := activeWrite_some active
    split
    · rename_i target contents values body
      have range : p.coming → ranged values := fun known => coming known e (queue ▸ List.mem_cons_self) _ _ _ body
      simp only
      refine (work_performEntry queue (by rw [body]; rfl) write).trans ((work_endWrite ((performEntry_rmi e write s).symm ▸ queue)).trans
        (.trans
        (work_applyParams (g := { g with replies := g.replies + repliesOf e.reply }) still values range _) (work_replyWrite _ _ _ _)))
    · exact .refl
  · exact .refl

theorem own_body (w : OwnWrite) : w.body.own = true ∧ w.body.card = none := by cases w <;> exact ⟨rfl, rfl⟩

theorem work_endOwnWrite {w : OwnWrite} {e : WriteEntry} {rest : List WriteEntry} (queue : s.rmi.queue = e :: rest)
    (body : e.body = w.body) (write : MemWrite) : Work p g s g (endOwnWrite w e write s) := by
  obtain ⟨own, card⟩ := own_body w
  rw [← body] at own card
  unfold endOwnWrite
  simp only
  have queue' : (performEntry e write s).2.rmi.queue = e :: rest := (performEntry_rmi e write s).symm ▸ queue
  refine (work_performEntry queue card write).trans (.ite (work_endOwn queue' own) (.ite ?_ ?_))
  · refine (work_queueOwn w _).trans (work_endOwn (e := e) (rest := rest ++ [{ body := w.body, reply := none, inProgress := false }]) ?_ own)
    rw [queueOwn, queueWrite_queue, queue']
    rfl
  · exact (work_endOwn queue' own).trans (work_interface _ rfl rfl (fun _ rest => rest) id)

theorem work_endHeaderWrite (write : MemWrite) (s : State) : Work p g s g (endHeaderWrite write s) := by
  unfold endHeaderWrite
  split
  · rename_i e active
    obtain ⟨rest, queue⟩ := activeWrite_some active
    split
    · rename_i body
      exact work_endOwnWrite (w := .header) queue body write
    · exact .refl
  · exact .refl

theorem work_endFormat (write : MemWrite) (s : State) : Work p g s g (endFormat write s) := by
  unfold endFormat
  split
  · rename_i e active
    obtain ⟨rest, queue⟩ := activeWrite_some active
    split
    · rename_i body
      exact work_endOwnWrite (w := .format) queue body write
    · exact .refl
  · exact .refl

theorem readBeforeTimeout_faithful {read : MemRead} (calm : faithful read) (body : WriteBody) (b : Bucket) (m : Memory) :
    faithful (readBeforeTimeout body b read m) := by
  unfold readBeforeTimeout
  split
  · exact fun _ => nofun
  · exact calm

theorem work_failAccess (still : g.moved = none) (clean_ : g.place = false) {read : MemRead} {left : Residue}
    (restful : p.rest → s.rmi.restoring = false → s.rmi.atRest)
    (coming : p.coming → ∀ e ∈ s.rmi.queue, ∀ target contents values, e.body = .record target contents values → ranged values)
    (calm : p.device → faithful read ∧ left.left = []) : Work p g s g (failAccess read left s) := by
  have failed : p.device → clean (.failed left) := fun device => .inr ⟨left, rfl, (calm device).2⟩
  unfold failAccess
  split
  · exact .refl
  · exact work_endIdentification still _ _
  · exact work_endHeader still _ _
  · exact work_endRecord still restful _
  · exact work_endFetch clean_ (fun _ => faithful_failed) _
  · split
    · exact .refl
    · split
      · exact work_endCardWrite (fun device => ⟨readBeforeTimeout_faithful (calm device).1 _ _ _, failed device⟩) _
      · exact work_endCardWrite (fun device => ⟨readBeforeTimeout_faithful (calm device).1 _ _ _, failed device⟩) _
      · exact work_endRecordWrite still coming _
      · exact work_endHeaderWrite _ _
      · exact work_endFormat _ _

end Sys2Proof.Machine
end

