-- ==== Sys2Proof/Proofs/StreetWork.lean ====
section
/-! The Street Loop Controller's turns, losses, joins and answers as work. -/

namespace Sys2Proof.Machine

variable {p : Premises} {g : Debt} {s : State}

/-! ### Turns (R40, R46) -/

/-- The loop's own state changed, its turn ended or kept, its counts in range. -/
theorem work_loop (u : StreetLoop) (rows : u.rows = s.slc.rows) (turn : s.rmi.restoring = true → s.slc.turn = none → u.turn = none)
    (range : s.slc.inRange → u.inRange) : Work p g s g { s with slc := u } := .street (.loop u rows turn range)

theorem work_startPoll {s : State} (ready : s.rmi.restoring = false) (a : Station) : Work p g s g (startPoll a s) := by
  refine work_loop _ rfl (fun restoring => absurd (ready.symm.trans restoring) Bool.false_ne_true) ?_
  exact fun ⟨since, streak, _, noAnswers, collisions, ignored⟩ => ⟨since, streak, bump_le _ _, noAnswers, collisions, ignored⟩

theorem work_startNextTurn (s : State) : Work p g s g (startNextTurn s) := by
  unfold startNextTurn
  split
  · exact .refl
  · rename_i free
    have ready : s.rmi.restoring = false := by
      rw [Bool.or_eq_true, not_or] at free
      exact Bool.eq_false_iff.mpr free.1
    unfold startTurn
    split
    · exact work_loop _ rfl (fun restoring => absurd (ready.symm.trans restoring) Bool.false_ne_true)
        fun ⟨_, rest⟩ => ⟨Nat.zero_le _, rest⟩
    · refine .trans (work_loop { s.slc with lastAttention := _, streak := min 7 (s.slc.streak + 1) } rfl (fun _ none_ => none_) ?_)
        (work_startPoll (by exact ready) _)
      exact fun ⟨since, _, rest⟩ => ⟨since, Nat.min_le_left _ _, rest⟩
    · exact .trans (work_loop { s.slc with streak := 0 } rfl (fun _ none_ => none_) fun ⟨since, _, rest⟩ =>
        ⟨since, Nat.zero_le _, rest⟩) (work_startPoll (by exact ready) _)
    · exact .trans (work_loop { s.slc with lastRoutine := _, streak := 0 } rfl (fun _ none_ => none_) fun ⟨since, _, rest⟩ =>
        ⟨since, Nat.zero_le _, rest⟩) (work_startPoll (by exact ready) _)

theorem work_endPoll (s : State) : Work p g s g (endPoll s) :=
  work_loop _ rfl (fun _ _ => rfl) fun ⟨_, rest⟩ => ⟨Nat.min_le_left _ _, rest⟩

theorem work_endSlot (contention : Bool) (s : State) : Work p g s g (endSlot contention s) :=
  work_loop _ rfl (fun _ _ => rfl) id

theorem work_garbledSlot (s : State) : Work p g s g (garbledSlot s) := by
  refine (work_endSlot true s).trans (work_loop _ rfl (fun _ none_ => none_) ?_)
  exact fun ⟨since, streak, polls, noAnswers, _, ignored⟩ => ⟨since, streak, polls, noAnswers, bump_le _ _, ignored⟩

theorem work_rowEvent (event : StationEventKind) (a : Station) (kind : Option JoinKind) (cause : Option JoinCause)
    (notPersisted : Option Bool) (s : State) : Work p g s g (rowEvent event a kind cause notPersisted s) := by
  unfold rowEvent
  exact work_postReport _ s

/-! ### Losses and misses (R22, R28, R29) -/

/-- A station that has left service, its containers settled (R143). -/
theorem work_settled (still : g.moved = none) (restarted : Bool) (a : Station) (s : State) :
    Work p { g with stations := g.stations ∪ {a} } s g (settleStation restarted a s) := by
  refine (work_settleStation (g := { g with stations := g.stations ∪ {a} }) still restarted a s).trans
    (.trans (.street (.settled a fun r c config here => ?_))
      (.weaken ⟨rfl, subset_rfl, .inr rfl, fun b owed => owed.1.resolve_right owed.2, id⟩))
  rw [settleStation_settle] at config ⊢
  obtain ⟨kept, settled, -⟩ := settle_bound restarted a s
  exact settled r c ((kept.config r).symm.trans config) here

/-- A row whose state changes but is not, and was not, BARRED. -/
theorem follows_of_state {old new : StationRow} (queue : new.queue = old.queue) (rejoin : new.rejoin = old.rejoin)
    (before : old.state ≠ .barred) (after : new.state ≠ .barred) : old.Follows p s new :=
  .of_same (queue ▸ List.Sublist.refl _) rejoin (iff_of_false after before)

theorem not_barred_of_live {state : StationState} (live : state.live = true) : state ≠ .barred := by
  rintro rfl
  cases live

theorem work_loseStation (still : g.moved = none) {a : Station} (live : (s.slc.rows.get a).state.live = true) :
    Work p g s g (loseStation a s) := by
  unfold loseStation
  have lost : Work p g s { g with stations := g.stations ∪ {a} }
      (setStation a (fun r => { r with state := .lost, raised := false, due := false }) s) :=
    work_setStation_leaving (follows_of_state rfl rfl (not_barred_of_live live) nofun) rfl
  exact lost.trans ((work_emptyDown a _).trans ((work_rowEvent _ _ _ _ _ _).trans (work_settled still false a _)))

theorem work_joinTimeout {a : Station} (joining : (s.slc.rows.get a).state = .joining) : Work p g s g (joinTimeout a s) := by
  have missed : Work p g s g (setStation a (fun r => { r with state := .absent, miss := 0, joinPrior := none }) s) :=
    work_setStation (follows_of_state rfl rfl (by rw [joining]; nofun) nofun) rfl (.inl fun _ => by rw [joining]; rfl)
  exact missed.trans (work_rowEvent _ _ _ _ _ _)

/-- A row's counts and marks changed alone. -/
theorem work_marks {a : Station} {f : StationRow → StationRow} (same : ∀ row, (f row).queue = row.queue ∧ (f row).rejoin = row.rejoin ∧
    (f row).state = row.state ∧ (f row).serial = row.serial) : Work p g s g (setStation a f s) := by
  obtain ⟨queue, rejoin, state, serial⟩ := same (s.slc.rows.get a)
  exact work_setStation (.of_same (queue ▸ List.Sublist.refl _) rejoin (by rw [state])) serial (.inl (by rw [state]; exact id))

theorem work_countMiss (still : g.moved = none) {a : Station} (live : (s.slc.rows.get a).state.live = true) :
    Work p g s g (countMiss a s) := by
  have missed : Work p g s g (setStation a (fun r => { r with miss := r.miss + 1 }) s) :=
    work_marks fun _ => ⟨rfl, rfl, rfl, rfl⟩
  have live' : ((setStation a (fun r => { r with miss := r.miss + 1 }) s).slc.rows.get a).state.live = true := by
    rw [setStation_rows, Table.get_update_self]
    exact live
  refine missed.trans (.ite (work_loseStation still live') (work_setStation ?_ rfl (.inl nofun)))
  exact follows_of_state rfl rfl (not_barred_of_live live') nofun

theorem work_missPoll (still : g.moved = none) (a : Station) (s : State) : Work p g s g (missPoll a s) := by
  unfold missPoll
  refine .ite .refl ?_
  have marked : Work p g s g (setStation a (fun r => { r with raised := false, due := false }) s) :=
    work_marks fun _ => ⟨rfl, rfl, rfl, rfl⟩
  refine marked.trans ?_
  simp only
  split
  · rename_i state
    exact work_joinTimeout state
  · rename_i state
    exact work_countMiss still (by rw [state]; rfl)
  · rename_i state
    exact work_countMiss still (by rw [state]; rfl)
  · rename_i state
    exact work_countMiss still (by rw [state]; rfl)
  · exact .refl

theorem work_failPoll (still : g.moved = none) (on : s.slc.turn ≠ none) (q : Poll) : Work p g s g (failPoll q s) := by
  unfold failPoll
  have failed : Work p g s g { s with slc := { s.slc with noAnswers := bump s.slc.noAnswers } } := work_loop _ rfl (fun _ none_ => none_)
    fun ⟨since, streak, polls, _, collisions, ignored⟩ => ⟨since, streak, polls, bump_le _ _, collisions, ignored⟩
  refine failed.trans ?_
  simp only
  split
  · refine work_loop _ rfl (fun _ none_ => absurd none_ on) ?_
    exact fun ⟨since, streak, _, noAnswers, collisions, ignored⟩ => ⟨since, streak, bump_le _ _, noAnswers, collisions, ignored⟩
  · exact (work_endPoll _).trans (work_missPoll still _ _)

/-! ### Joins (R18 to R21) -/

theorem work_enterJoining (still : g.moved = none) {a : Station} (rest : (s.slc.rows.get a).state ≠ .barred) (cause : JoinCause) :
    Work p g s g (enterJoining a cause s) := by
  unfold enterJoining
  simp only
  have left : Work p g s { g with stations := g.stations ∪ {a} } (emptyDown a (setStation a (fun r =>
      { r with joinPrior := some (s.slc.rows.get a).state, joinCause := some cause, state := .joining, miss := 0,
               raised := false, due := false }) s)) := by
    refine .trans ?_ (work_emptyDown a _)
    exact work_setStation_leaving (follows_of_state rfl rfl rest nofun) rfl
  have stayed (dead : (s.slc.rows.get a).state.live = false) : Work p g s g (emptyDown a (setStation a (fun r =>
      { r with joinPrior := some (s.slc.rows.get a).state, joinCause := some cause, state := .joining, miss := 0,
               raised := false, due := false }) s)) := by
    refine .trans ?_ (work_emptyDown a _)
    exact work_setStation (follows_of_state rfl rfl rest nofun) rfl (.inl fun _ => dead)
  split
  · exact left.trans (work_settled still true a _)
  · exact left.trans (work_settled still true a _)
  · exact left.trans (work_settled still false a _)
  · rename_i awake dozing silent
    refine stayed ?_
    cases state : (s.slc.rows.get a).state with
    | awake => exact absurd state awake
    | dozing => exact absurd state dozing
    | silent => exact absurd state silent
    | _ => rfl

theorem work_announceAt (still : g.moved = none) (a : Station) (cause : JoinCause) (s : State) :
    Work p g s g (announceAt a cause s) := by
  unfold announceAt
  split
  · refine work_loop _ rfl (fun _ none_ => none_) ?_
    exact fun ⟨since, streak, polls, noAnswers, collisions, _⟩ => ⟨since, streak, polls, noAnswers, collisions, bump_le _ _⟩
  · exact work_marks fun _ => ⟨rfl, rfl, rfl, rfl⟩
  all_goals
    rename_i state
    first
      | exact work_enterJoining still (by rw [state]; nofun) cause
      | exact .refl

theorem work_autoBind {serial : Serial} (new : ∀ b, (s.slc.rows.get b).serial ≠ some serial) (a : Station) :
    Work p g s g (autoBind a serial s) := by
  unfold autoBind
  simp only
  refine .trans (.street (.bound a _ (.of_same (List.Sublist.refl _) rfl Iff.rfl) (.inl id) fun b _ _ => new b)) (.ite .refl ?_)
  exact .memory (.queued _ _ _ (length_recordOf _ _) fun v mem => absurd mem List.not_mem_nil)

theorem work_takeAnnounce (still : g.moved = none) (serial : Serial) (cause : JoinCause) (s : State) :
    Work p g s g (takeAnnounce serial cause s) := by
  unfold takeAnnounce
  split
  · refine .trans ?_ (work_announceAt still _ _ _)
    exact work_marks fun _ => ⟨rfl, rfl, rfl, rfl⟩
  · rename_i none_
    have new : ∀ b, (s.slc.rows.get b).serial ≠ some serial := fun b => by simpa using Table.find_none.mp none_ b
    split
    · exact (work_autoBind new _).trans (work_announceAt still _ _ _)
    · exact work_postReport _ _

/-! ### Open slots (R46, R47) -/

theorem work_takeAttention (a : Station) (s : State) : Work p g s g (takeAttention a s) := by
  unfold takeAttention
  split
  case h_4 state =>
    exact work_setStation (follows_of_state rfl rfl (by rw [state]; nofun) nofun) rfl (.inl nofun)
  case h_1 | h_2 | h_3 => exact work_marks fun _ => ⟨rfl, rfl, rfl, rfl⟩
  all_goals exact .refl

theorem work_slotAttention (address : Byte) (s : State) : Work p g s g (slotAttention address s) := by
  unfold slotAttention
  split
  · exact (work_endSlot false s).trans (work_takeAttention _ _)
  · exact work_endSlot false s

theorem work_slotBytes (still : g.moved = none) (bytes : List Byte) (s : State) : Work p g s g (slotBytes bytes s) := by
  unfold slotBytes
  split
  · exact work_endSlot false s
  · split
    · unfold slotFrame
      split
      · exact work_slotAttention _ s
      · exact .ite ((work_endSlot false s).trans (work_takeAnnounce still _ _ _)) (work_endSlot false s)
      · exact work_endSlot false s
    · exact work_endSlot false s
    · exact work_garbledSlot s

/-! ### Answers (R21, R27, R30, R31, R52) -/

/-- A completed join keeps the rejoin count within the limit, and reaches it in BARRED alone (R21). -/
theorem completeJoin_follows {row : StationRow} (joining : row.state = .joining) (ready : p.turn → s.rmi.restoring = false) :
    row.Follows p s (row.completeJoin s.tk.uptime s.tp.effective.rejoinLimit) where
  queue := by
    unfold StationRow.completeJoin
    simp only
    split
    · exact List.Sublist.refl _
    · split <;> exact List.Sublist.refl _
  rejoin _ _ _ old := by
    obtain ⟨most, barred⟩ := old
    have below : row.rejoin < s.tp.effective.rejoinLimit := by
      refine Nat.lt_of_le_of_ne most fun full => ?_
      rw [← barred, joining] at full
      cases full
    unfold StationRow.completeJoin
    simp only
    split
    · exact ⟨most, iff_of_false nofun below.ne⟩
    · split
      · rename_i full
        exact ⟨below, iff_of_true rfl full⟩
      · rename_i short
        exact ⟨below, iff_of_false nofun short⟩
  zero turn restoring _ := absurd ((ready turn).symm.trans restoring) Bool.false_ne_true

theorem completeJoin_serial (row : StationRow) (uptime : Clock) (limit : Nat) : (row.completeJoin uptime limit).serial = row.serial := by
  unfold StationRow.completeJoin
  simp only
  split
  · rfl
  · split <;> rfl

theorem completeJoin_barred_or_live (row : StationRow) (uptime : Clock) (limit : Nat) :
    (row.completeJoin uptime limit).state = .barred ∨ (row.completeJoin uptime limit).state.live = true := by
  unfold StationRow.completeJoin
  simp only
  split
  · exact .inr rfl
  · split
    · exact .inl rfl
    · exact .inr rfl

theorem work_completeJoin {a : Station} (joining : (s.slc.rows.get a).state = .joining) (ready : p.turn → s.rmi.restoring = false) :
    Work p g s g (completeJoin a s) := by
  have joined : Work p g s g (setStation a (StationRow.completeJoin s.tk.uptime s.tp.effective.rejoinLimit) s) :=
    work_setStation (completeJoin_follows joining ready) (completeJoin_serial _ _ _) (.inl fun _ => by rw [joining]; rfl)
  exact joined.trans (work_rowEvent _ _ _ _ _ _)

/-- A row woken by its answer. -/
theorem work_woken {a : Station} (rest : (s.slc.rows.get a).state ≠ .barred) (uptime : Clock) :
    Work p g s g (setStation a (StationRow.wake' uptime) s) :=
  work_setStation (follows_of_state rfl rfl rest nofun) rfl (.inl nofun)

theorem work_answerState {a : Station} (ready : p.turn → s.rmi.restoring = false) (rest : Bool) :
    Work p g s g (answerState rest a s) := by
  unfold answerState
  have heard : Work p g s g (setStation a (fun r => { r with miss := 0, due := false }) s) := work_marks fun _ => ⟨rfl, rfl, rfl, rfl⟩
  refine heard.trans ?_
  simp only
  split
  · rename_i state
    exact (work_woken (by rw [state]; nofun) _).trans (work_rowEvent _ _ _ _ _ _)
  · rename_i state
    exact work_woken (by rw [state]; nofun) _
  · rename_i state
    refine work_setStation ?_ ?_ (.inl ?_)
    · unfold StationRow.answerDozing
      cases rest
      · exact follows_of_state rfl rfl (by rw [state]; nofun) nofun
      · exact .of_same (List.Sublist.refl _) rfl Iff.rfl
    · cases rest <;> rfl
    · cases rest
      · exact nofun
      · exact id
  · rename_i state
    exact work_completeJoin state ready
  all_goals exact .refl

theorem work_deliver (q : Poll) (s : State) : Work p g s g (deliver q s) := by
  unfold deliver
  split
  · rename_i entry _ _
    have left : Work p g s g (setStation q.address (fun r => { r with queue := r.queue.tail }) s) :=
      work_setStation (.of_same (List.tail_sublist _) rfl Iff.rfl) rfl (.inl id)
    refine left.trans ?_
    simp only
    split
    · exact work_grantDelivered _ _ _ _
    · exact .refl
  · exact .refl

theorem work_markRaised (more : Bool) (a : Station) (s : State) : Work p g s g (markRaised more a s) :=
  work_marks fun _ => ⟨rfl, rfl, rfl, rfl⟩

theorem grantDelivered_slc (a : Station) (bay : Bay) (tag : Byte) (s : State) : (grantDelivered a bay tag s).slc = s.slc ∧
    (grantDelivered a bay tag s).rmi = s.rmi := by
  unfold grantDelivered
  split
  · exact ⟨rfl, rfl⟩
  · split
    · split <;> exact ⟨rfl, rfl⟩
    · exact ⟨rfl, rfl⟩

/-- A delivery changes no row's state. -/
theorem deliver_state (q : Poll) (s : State) : (deliver q s).rmi = s.rmi ∧
    ((deliver q s).slc.rows.get q.address).state = (s.slc.rows.get q.address).state := by
  have left : ((setStation q.address (fun r => { r with queue := r.queue.tail }) s).slc.rows.get q.address).state =
      (s.slc.rows.get q.address).state := by rw [setStation_rows, Table.get_update_self]
  unfold deliver
  split
  · simp only
    split
    · obtain ⟨slc, rmi⟩ := grantDelivered_slc q.address ‹_› ‹_› (setStation q.address (fun r => { r with queue := r.queue.tail }) s)
      exact ⟨rmi, by rw [slc]; exact left⟩
    · exact ⟨rfl, left⟩
  · exact ⟨rfl, rfl⟩

/-- The row of an answered poll is in service, or the join has made it BARRED. -/
theorem answerState_state {a : Station} (polled : (s.slc.rows.get a).state.polled = true) (rest : Bool) :
    (answerState rest a s).rmi = s.rmi ∧ (((answerState rest a s).slc.rows.get a).state = .barred ∨
      ((answerState rest a s).slc.rows.get a).state.live = true) := by
  have same : ((setStation a (fun r => { r with miss := 0, due := false }) s).slc.rows.get a).state = (s.slc.rows.get a).state := by
    rw [setStation_rows, Table.get_update_self]
  unfold answerState
  simp only [same]
  cases state : (s.slc.rows.get a).state with
  | absent =>
    simp only [rowEvent, postReport_slc, postReport_rmi, setStation_rows, Table.get_update_self]
    exact ⟨rfl, .inr rfl⟩
  | silent =>
    simp only [setStation_rows, Table.get_update_self]
    exact ⟨rfl, .inr rfl⟩
  | dozing =>
    simp only [setStation_rows, Table.get_update_self]
    refine ⟨rfl, .inr ?_⟩
    cases rest
    · rfl
    · exact congrArg StationState.live state
  | joining =>
    simp only [completeJoin, rowEvent, postReport_slc, postReport_rmi, setStation_rows, Table.get_update_self]
    exact ⟨rfl, completeJoin_barred_or_live _ _ _⟩
  | awake => exact ⟨rfl, .inr (by rw [same, state]; rfl)⟩
  | unbound | lost | barred =>
    rw [state] at polled
    cases polled

theorem work_answerPoll {flags : Byte} {rest : Bool} {item : Station → State → State} {q : Poll}
    (ready : p.turn → s.rmi.restoring = false)
    (carried : ∀ t, t.rmi = s.rmi → (t.slc.rows.get q.address).state.live = true → Work p g t g (item q.address t)) :
    Work p g s g (answerPoll q flags rest item s) := by
  unfold answerPoll
  refine (work_endPoll s).trans ?_
  simp only
  split
  · exact .refl
  · rename_i polled
    have polled' : ((endPoll s).slc.rows.get q.address).state.polled = true := by simpa using polled
    obtain ⟨rmi, state⟩ := answerState_state polled' rest
    obtain ⟨rmi', state'⟩ := deliver_state q (answerState rest q.address (endPoll s))
    have answered : Work p g (endPoll s) g
        (markRaised (morePending flags) q.address (deliver q (answerState rest q.address (endPoll s)))) :=
      (work_answerState (s := endPoll s) ready rest).trans ((work_deliver _ _).trans (work_markRaised _ _ _))
    refine answered.trans ?_
    have same : ((markRaised (morePending flags) q.address (deliver q (answerState rest q.address (endPoll s)))).slc.rows.get
        q.address).state = ((answerState rest q.address (endPoll s)).slc.rows.get q.address).state := by
      rw [markRaised, setStation_rows, Table.get_update_self]
      exact state'
    split
    · exact .refl
    · rename_i taken
      refine carried _ (rmi'.trans rmi) ?_
      rw [same] at taken ⊢
      exact state.resolve_left taken

theorem work_vehicleRequest (still : g.moved = none) (a : Station) (vehicle round : Short) (container : Number) (s : State) :
    Work p g s g (vehicleRequest a vehicle round container s) :=
  .ite (work_roundEnd still _ _ _ _) (work_liftRequest still _ _ _ _ _)

theorem work_dozeNotice {a : Station} (live : (s.slc.rows.get a).state.live = true) (interval : Short) :
    Work p g s g (dozeNotice a interval s) :=
  work_setStation (follows_of_state rfl rfl (not_barred_of_live live) nofun) rfl (.inl nofun)

theorem work_handItem (still : g.moved = none) (clean : g.place = false) {a : Station}
    (live : (s.slc.rows.get a).state.live = true) (ready : p.turn → s.rmi.restoring = false) (item : UpItem) :
    Work p g s g (handItem item a s) := by
  cases item with
  | nothing => exact .refl
  | depositRequest bay card tag => exact work_depositRequest clean live ready _ _ _
  | depositClose bay outcome => exact work_depositClose still _ _ _ _
  | levelSample bay echo temperature lidOpen =>
    unfold handItem levelSample
    simp only
    split
    · exact .refl
    · exact work_sampleEvent still _ _ _ _ _
  | liftRequest vehicle round container => exact work_vehicleRequest still _ _ _ _ _
  | liftDone vehicle container weight lock => exact work_liftDone still _ _ _ _ _ _
  | dozeNotice interval => exact work_dozeNotice live _
  | passUp bytes =>
    unfold handItem passUp
    exact work_postReport _ s
  | attention => exact .refl
  | joinAnnounce serial cause => exact .refl

theorem work_answered_item (still : g.moved = none) (clean : g.place = false) (ready : p.turn → s.rmi.restoring = false) (q : Poll)
    (flags : Byte) (item : UpItem) : Work p g s g (answerPoll q flags (item.rests flags) (handItem item) s) :=
  work_answerPoll ready fun _ rmi live => work_handItem still clean live (by rw [rmi]; exact ready) item

theorem work_pollBytes (still : g.moved = none) (clean : g.place = false) (ready : p.turn → s.rmi.restoring = false)
    (on : s.slc.turn ≠ none) (q : Poll) (bytes : List Byte) : Work p g s g (pollBytes q bytes s) := by
  unfold pollBytes
  split
  · exact .ite (work_answered_item still clean ready q _ _) (work_failPoll still on q)
  · exact work_failPoll still on q
  · exact work_failPoll still on q

/-- What arrives in a window, by the turn that is on the loop (R53). -/
theorem work_onTurn {poll : Poll → State → State} {slot : State → State} (turn : p.turn → s.rmi.restoring = true → s.slc.turn = none)
    (polls : (p.turn → s.rmi.restoring = false) → s.slc.turn ≠ none → ∀ q, Work p g s g (poll q s))
    (slots : Work p g s g (slot s)) : Work p g s g (onTurn poll slot s) := by
  unfold onTurn
  split
  · exact .refl
  · exact slots
  · rename_i q here
    have on : s.slc.turn ≠ none := by rw [here]; nofun
    exact polls (fun known => Bool.eq_false_iff.mpr fun restoring => on (turn known restoring)) on q

end Sys2Proof.Machine
end

