-- ==== Sys2Proof/Proofs/Steps.lean ====
section
/-! Resets, frames, the SUMMARY and the work of the clock as work; and with them every command of the table. -/

namespace Sys2Proof.Machine

variable {p : Premises} {g : Debt} {s : State}

/-! ### Resets (R12, R198, R199) -/

theorem traffic_follows (row : StationRow) : row.Follows p s row.traffic := by
  refine .of_same (List.nil_sublist _) rfl ?_
  cases state : row.state <;> simp [StationRow.traffic, state]

theorem traffic_live (row : StationRow) : row.StaysLive p s row.traffic := by
  refine .inl fun dead => ?_
  cases state : row.state <;> simp_all [StationRow.traffic, StationState.live]

theorem work_trafficValues (s : State) : Work p g s g (trafficValues s) := by
  have rows : Work p g s g { s with slc.rows := s.slc.rows.map StationRow.traffic } := by
    refine work_rows _ (fun a => ?_) (fun a => ?_) fun a => ?_
    all_goals rw [Table.get_map]
    · exact traffic_follows _
    · rfl
    · exact traffic_live _
  have loop : Work p g { s with slc.rows := s.slc.rows.map StationRow.traffic } g { s with slc := s.slc.traffic } :=
    work_loop _ rfl (fun _ _ => rfl) fun _ =>
      ⟨le_rfl, Nat.zero_le _, Nat.zero_le _, Nat.zero_le _, Nat.zero_le _, Nat.zero_le _⟩
  have cards : ∀ t : State, Work p g t g { t with clu := t.clu.traffic } := fun t =>
    .trans (.cards .flushed) (.trans (.cards (.cleared (s := { t with clu := t.clu.flush })))
      (.cards (.counts t.clu.traffic rfl rfl rfl rfl fun _ => ⟨Nat.zero_le _, Nat.zero_le _, Nat.zero_le _⟩)))
  have desk : ∀ t : State, Work p g t g { t with au := t.au.traffic } := fun t =>
    .trans (.desk .cleared) (work_desk t.au.traffic rfl rfl rfl fun _ => ⟨Nat.zero_le _, Nat.zero_le _, Nat.zero_le _, Nat.zero_le _⟩)
  have memory : ∀ t : State, Work p g t g { t with rmi := t.rmi.traffic } := fun t => by
    refine work_interface _ rfl rfl (fun _ ⟨identification, header, record⟩ => ?_) fun _ => Nat.zero_le _
    cases port : t.rmi.port with
    | none => simp [RecordMemory.atRest, RecordMemory.traffic, port]
    | some op => cases op <;> simp_all [RecordMemory.atRest, RecordMemory.traffic, PortOp.discard]
  exact rows.trans (loop.trans ((cards _).trans ((desk _).trans ((memory _).trans (.trunk .traffic)))))

theorem work_resetTraffic (still : g.moved = none) (tag : Byte) (rest : List Byte) (s : State) :
    Work p g s g (resetTrafficCommand tag rest s) := by
  refine work_takeCommand fun _ t _ _ => .ite (work_answered _ _ _ _) ?_
  exact (work_trafficValues t).trans ((work_answered _ _ _ _).trans (work_commitAll still _))

theorem abandonPort_memory (cut : Residue) (s : State) : ∃ m, abandonPort cut s = { s with memory := m } ∧
    (s.memory.wf = true → m.wf = true) := by
  unfold abandonPort
  split
  · exact ⟨_, rfl, fun wf => Memory.writeCut_wf wf _ _⟩
  · exact ⟨s.memory, rfl, id⟩

theorem work_resetFull (paid : g.replies = 0) (tag : Byte) (rest : List Byte) (cut : Residue) (s : State) :
    Work p g s g (resetFullCommand tag rest cut s) := by
  refine work_takeCommand fun _ t _ _ => ?_
  obtain ⟨m, is, wf⟩ := abandonPort_memory cut t
  have shut : Work p g.owing t g.owing { t with
      memory := m, hold := .trunkFull, slc.turn := none, tp := t.tp.shut, rmi := { t.rmi with port := none, queue := [] } } := by
    have one : g.owing = { g.owing with replies := 1 } := by rw [Debt.owing, paid]
    have move := Work.shut (p := p) (g := g.owing) (s := t) m wf
    rw [← one] at move
    exact move
  refine shut.trans ?_
  rw [is]
  exact work_answered _ _ _ _

/-! ### Frames (R189, R190, R193) -/

theorem work_refuseFrame (kind tag : Byte) (status : Status) (s : State) : Work p g s g (refuseFrame kind tag status s) :=
  work_reserveReply fun _ _ _ => work_reply _ _ _ _ _

theorem work_queryStatus (tag : Byte) (arg : List Byte) (s : State) : Work p g s g (queryStatusCommand tag arg s) :=
  work_takeCommand fun _ _ _ _ => work_answerQuery _ _ _

theorem work_queryContainer (tag : Byte) (arg : List Byte) (s : State) : Work p g s g (queryContainerCommand tag arg s) := by
  refine work_takeCommand fun n t _ _ => .ite (work_answered _ _ _ _) ?_
  split
  · exact work_answered _ _ _ _
  · exact work_answerQuery _ _ _

theorem work_queryStation (tag : Byte) (arg : List Byte) (s : State) : Work p g s g (queryStationCommand tag arg s) := by
  refine work_takeCommand fun a t _ _ => ?_
  split
  · exact work_answered _ _ _ _
  · exact work_answerQuery _ _ _

theorem work_queryAccount (tag : Byte) (arg : List Byte) (s : State) : Work p g s g (queryAccountCommand tag arg s) := by
  refine work_takeCommand fun n t _ _ => ?_
  split
  · exact work_answered _ _ _ _
  · exact work_answerQuery _ _ _

theorem work_queryRound (tag : Byte) (arg : List Byte) (s : State) : Work p g s g (queryRoundCommand tag arg s) := by
  refine work_takeCommand fun args t _ _ => .ite (work_answered _ _ _ _) ?_
  split
  · exact work_answered _ _ _ _
  · exact work_answerQuery _ _ _

theorem work_queryServiceQueue (tag : Byte) (arg : List Byte) (s : State) : Work p g s g (queryServiceQueueCommand tag arg s) :=
  work_takeCommand fun _ _ _ _ => .ite (work_answerQuery _ _ _) (work_answered _ _ _ _)

theorem work_queryFrame (tag : Byte) (payload : List Byte) (s : State) : Work p g s g (queryFrame tag payload s) := by
  generalize is : queryFrame tag payload = frame
  unfold queryFrame at is
  split at is
  · exact is ▸ work_refuseFrame _ _ _ s
  · split at is <;> subst is
    · exact work_queryStatus _ _ s
    · exact work_queryContainer _ _ s
    · exact work_queryStation _ _ s
    · exact work_queryAccount _ _ s
    · exact work_queryRound _ _ s
    · exact work_queryServiceQueue _ _ s
    · exact work_takeCommand fun _ _ _ _ => work_answered _ _ _ _

theorem work_resetFrame (still : g.moved = none) (paid : g.replies = 0) (tag : Byte) (payload : List Byte) (cut : Residue) (s : State) :
    Work p g s g (resetFrame tag payload cut s) := by
  generalize is : resetFrame tag payload cut = frame
  unfold resetFrame at is
  split at is
  · exact is ▸ work_refuseFrame _ _ _ s
  · split at is <;> subst is
    · exact work_resetTraffic still _ _ s
    · exact work_resetFull paid _ _ _ s
    · exact work_takeCommand fun _ _ _ _ => work_answered _ _ _ _

theorem work_takeFrame (still : g.moved = none) (paid : g.replies = 0) (kind tag : Byte) (payload : List Byte) (cut : Residue)
    (s : State) : Work p g s g (takeFrame kind tag payload cut s) := by
  generalize is : takeFrame kind tag payload cut = frame
  unfold takeFrame at is
  split at is <;> subst is
  · exact work_timeSet _ _ s
  · exact work_paramPut still _ _ s
  · exact work_profilePut still _ _ s
  · exact work_containerPut still _ _ s
  · exact work_containerDrop _ _ s
  · exact work_stationPut _ _ s
  · exact work_stationDrop _ _ s
  · exact work_stationClear _ _ s
  · exact work_windowPut _ _ s
  · exact work_classPut _ _ s
  · exact work_costPut _ _ s
  · exact work_cardPut _ _ s
  · exact work_cardDrop _ _ s
  · exact work_accountPut _ _ s
  · exact work_roundLoad still _ _ s
  · exact work_roundCancel still _ _ s
  · exact work_holdClear still _ _ s
  · exact work_cacheFlush _ _ s
  · exact work_passDown _ _ s
  · exact work_queryFrame _ _ s
  · exact work_resetFrame still paid _ _ _ s
  · exact work_refuseFrame _ _ _ s

theorem work_receiver (receiver : Receiver) (s : State) : Work p g s g { s with tp.receiver := receiver } :=
  .trunk (.port _ rfl rfl rfl rfl id)

theorem work_rxByte (still : g.moved = none) (paid : g.replies = 0) (b : Byte) (s : State) : Work p g s g (rxByte b s) := by
  unfold rxByte
  split
  · exact .refl
  · split
    · exact .ite (work_receiver _ s) .refl
    · exact work_receiver _ s
    · exact work_receiver _ s
    · exact work_receiver _ s
    · unfold endFrame
      refine (work_receiver .hunt s).trans (.ite (work_takeFrame still paid _ _ _ _ _) ?_)
      exact .trunk (.port _ rfl rfl rfl rfl fun ⟨_, rest⟩ => ⟨bump_le _ _, rest⟩)

theorem work_rxBytes (still : g.moved = none) (paid : g.replies = 0) (bytes : List Byte) (s : State) : Work p g s g (rxBytes bytes s) :=
  .foldl (fun s b => work_rxByte still paid b s) bytes s

/-! ### The SUMMARY (R204) -/

theorem work_clearCounts (s : State) : Work p g s g (clearCounts s) := by
  refine .trans (work_loop { s.slc with polls := 0, noAnswers := 0, collisions := 0, ignoredJoins := 0 } rfl (fun _ none_ => none_)
    fun ⟨since, streak, _⟩ => ⟨since, streak, Nat.zero_le _, Nat.zero_le _, Nat.zero_le _, Nat.zero_le _⟩) ?_
  refine .trans (.cards (.counts { s.clu with hits := 0, misses := 0, memoryErrors := 0 } rfl rfl rfl rfl
    fun _ => ⟨Nat.zero_le _, Nat.zero_le _, Nat.zero_le _⟩)) ?_
  refine .trans (work_desk { s.au with grants := 0, denials := 0, releases := 0, ignoredCloses := 0 } rfl rfl rfl
    fun _ => ⟨Nat.zero_le _, Nat.zero_le _, Nat.zero_le _, Nat.zero_le _⟩) ?_
  exact .trunk (.port _ rfl rfl rfl rfl fun _ => ⟨Nat.zero_le _, Nat.zero_le _, Nat.zero_le _⟩)

theorem work_summaryDue (s : State) : Work p g s g (summaryDue s) := by
  unfold summaryDue
  refine .ite .refl ((work_clock _ s).trans (.ite ?_ .refl))
  unfold postSummary
  simp only
  refine .trans (.trunk (.port { s.tp with sinceSummary := 0 } rfl rfl rfl rfl id)) (.ite ?_ ?_)
  · exact .trans (.trunk (.placed _)) (work_clearCounts _)
  · exact .trunk (.placed _)

/-! ### Every command (the table) -/

/-- What a law may assume of a command and of the state in which it begins. -/
def Premises.of (c : Instr) (s : State) : Premises where
  device := keepsBuckets c
  turn := s.rmi.restoring = true → s.slc.turn = none
  rest := s.rmi.restoring = false → s.rmi.atRest
  coming := ∀ e ∈ s.rmi.queue, ∀ target contents values, e.body = .record target contents values → ranged values

theorem work_whenRunning {f : State → State} {t : State} (carried : Work p g s g (f s)) (next : whenRunning f s = .next t) :
    Work p g s g t := by
  unfold whenRunning at next
  split at next <;> cases next
  · exact carried
  · exact .refl

/-- Work of a clock event: done once for each time the block has been told of it (log 4). -/
theorem work_told {told : Bool} {tk : Timekeeper} {f : State → State} (carried : ∀ t, Work p g t g (f t)) (s : State) :
    Work p g s g (if told then f { s with tk := tk } else s) := .ite ((work_clock tk s).trans (carried _)) .refl

theorem work_becomeDue (s : State) : Work p g s g { s with slc.rows := s.slc.rows.map (StationRow.becomeDue s.tk.seconds) } := by
  have row : ∀ old : StationRow, ∃ due, old.becomeDue s.tk.seconds = { old with due := due } := fun old => by
    unfold StationRow.becomeDue
    split
    · exact ⟨_, rfl⟩
    · exact ⟨old.due, rfl⟩
  refine work_rows _ (fun a => ?_) (fun a => ?_) fun a => ?_
  all_goals
    rw [Table.get_map]
    obtain ⟨due, is⟩ := row (s.slc.rows.get a)
    rw [is]
  · exact .of_same (List.Sublist.refl _) rfl Iff.rfl
  · exact .inl id

/-- A row whose rejoin count is cleared in service stays within the limit (R25). -/
theorem stableClear_follows (row : StationRow) (uptime : Clock) (hours : Nat) : row.Follows p s (row.stableClear uptime hours) := by
  unfold StationRow.stableClear
  split
  · rename_i stable
    refine ⟨List.Sublist.refl _, fun _ _ limit _ => ⟨Nat.zero_le _, iff_of_false ?_ (Nat.ne_of_lt limit)⟩, fun _ _ _ => rfl⟩
    rcases stable.1 with state | state
    all_goals
      change row.state ≠ .barred
      rw [state]
      nofun
  · exact .refl row

theorem work_stableClear (s : State) : Work p g s g { s with
    slc.rows := s.slc.rows.map (StationRow.stableClear s.tk.uptime s.tp.effective.stableClearTime) } := by
  refine work_rows _ (fun a => ?_) (fun a => ?_) fun a => ?_
  all_goals rw [Table.get_map]
  · exact stableClear_follows _ _ _
  · unfold StationRow.stableClear
    split <;> rfl
  · unfold StationRow.stableClear
    split <;> exact .inl id

/-- What a window or an answer brings, in READY or with no turn on the loop (R53). -/
theorem work_loopAnswer (still : g.moved = none) (clean : g.place = false)
    (turn : p.turn → s.rmi.restoring = true → s.slc.turn = none) (flags : Byte) (item : UpItem) :
    Work p g s g (loopAnswer flags item s) :=
  work_onTurn turn (fun ready _ q => work_answered_item still clean ready q flags item) (work_endSlot false s)

theorem work_loopBytes (still : g.moved = none) (clean : g.place = false)
    (turn : p.turn → s.rmi.restoring = true → s.slc.turn = none) (bytes : List Byte) : Work p g s g (loopBytes bytes s) :=
  work_onTurn turn (fun ready on q => work_pollBytes still clean ready on q bytes) (work_slotBytes still bytes s)

/-- Every command is work that leaves nothing owed. -/
theorem exec_work {c : Instr} {s t : State} (next : exec c s = .next t) :
    Work (Premises.of c s) Debt.none s Debt.none t := by
  have turn : (Premises.of c s).turn → s.rmi.restoring = true → s.slc.turn = none := id
  have still : Debt.none.moved = none := rfl
  have clean : Debt.none.place = false := rfl
  have paid : Debt.none.replies = 0 := rfl
  cases c with
  | coldReset cut =>
    obtain ⟨m, is, wf⟩ := abandonPort_memory cut s
    cases next
    rw [holdCold, is]
    exact .cold m wf _ _ _
  | coldResetRelease straps =>
    cases next
    unfold releaseCold
    split
    · rename_i hold
      exact .held _ _ fun _ held => by rw [hold] at held; cases held
    · exact .refl
    · exact .refl
  | secondEvent => exact work_whenRunning (work_clock _ s) next
  | minuteEvent => exact work_whenRunning (work_minuteEvent s) next
  | refillTrigger => exact work_whenRunning (work_refillTrigger still s) next
  | decisionLimitExpiry => exact work_whenRunning (work_told work_expireRequests s) next
  | closeLimitExpiry => exact work_whenRunning (work_told (work_expireDeposits still) s) next
  | serviceTimerExpiry => exact work_whenRunning (work_told (.foldl (fun s r => work_timeService still r s) _) s) next
  | dozeWakeDue => exact work_whenRunning (work_told work_becomeDue s) next
  | staleWatch =>
    refine work_whenRunning (f := fun s => _) ?_ next
    refine .ite .refl ((work_clock _ s).trans (.ite .refl (.foldl (fun s r => work_watchStale r s) _ _)))
  | stableClear => exact work_whenRunning (work_told work_stableClear s) next
  | roundExpiry => exact work_whenRunning (work_told (.foldl (fun s i => work_expireRound still i s) _) s) next
  | summary => exact work_whenRunning (work_summaryDue s) next
  | trunkGapTimeout bytes =>
    refine work_whenRunning (f := fun s => if (rxBytes bytes s).hold = .running then hunt (rxBytes bytes s) else rxBytes bytes s) ?_ next
    exact (work_rxBytes still paid bytes s).trans (.ite (work_receiver .hunt _) .refl)
  | trunkCrcError bytes => exact work_whenRunning (work_rxBytes still paid bytes s) next
  | trunkBadLength bytes => exact work_whenRunning (work_rxBytes still paid bytes s) next
  | unknownKind kind tag payload => exact work_whenRunning (work_takeFrame still paid kind tag payload _ s) next
  | timeSet tag payload => exact work_whenRunning (work_timeSet tag payload s) next
  | paramPut tag payload => exact work_whenRunning (work_paramPut still tag payload s) next
  | profilePut tag payload => exact work_whenRunning (work_profilePut still tag payload s) next
  | containerPut tag payload => exact work_whenRunning (work_containerPut still tag payload s) next
  | containerDrop tag payload => exact work_whenRunning (work_containerDrop tag payload s) next
  | stationPut tag payload => exact work_whenRunning (work_stationPut tag payload s) next
  | stationDrop tag payload => exact work_whenRunning (work_stationDrop tag payload s) next
  | stationClear tag payload => exact work_whenRunning (work_stationClear tag payload s) next
  | windowPut tag payload => exact work_whenRunning (work_windowPut tag payload s) next
  | classPut tag payload => exact work_whenRunning (work_classPut tag payload s) next
  | costPut tag payload => exact work_whenRunning (work_costPut tag payload s) next
  | accountPut tag payload => exact work_whenRunning (work_accountPut tag payload s) next
  | cardPut tag payload => exact work_whenRunning (work_cardPut tag payload s) next
  | cardDrop tag payload => exact work_whenRunning (work_cardDrop tag payload s) next
  | cacheFlush tag payload => exact work_whenRunning (work_cacheFlush tag payload s) next
  | roundLoad tag payload => exact work_whenRunning (work_roundLoad still tag payload s) next
  | roundCancel tag payload => exact work_whenRunning (work_roundCancel still tag payload s) next
  | holdClear tag payload => exact work_whenRunning (work_holdClear still tag payload s) next
  | passDown tag payload => exact work_whenRunning (work_passDown tag payload s) next
  | queryStatus tag arg => exact work_whenRunning (work_queryStatus tag arg s) next
  | queryContainer tag arg => exact work_whenRunning (work_queryContainer tag arg s) next
  | queryStation tag arg => exact work_whenRunning (work_queryStation tag arg s) next
  | queryAccount tag arg => exact work_whenRunning (work_queryAccount tag arg s) next
  | queryRound tag arg => exact work_whenRunning (work_queryRound tag arg s) next
  | queryServiceQueue tag arg => exact work_whenRunning (work_queryServiceQueue tag arg s) next
  | resetTraffic tag rest => exact work_whenRunning (work_resetTraffic still tag rest s) next
  | resetFull tag rest cut => exact work_whenRunning (work_resetFull paid tag rest cut s) next
  | fullResetReplySent straps =>
    cases next
    unfold fullResetReplySent
    split
    · exact .cold s.memory id _ _ _
    · exact .refl
  | upstreamFrameSent =>
    cases next
    unfold frameSent
    split
    · exact .trunk .sent
    · exact .ite .refl (.trunk .sent)
    · exact .refl
  | portGrant => exact work_whenRunning (work_grantPort s) next
  | memoryAccessTimeout read left =>
    exact work_whenRunning (work_failAccess still clean (fun rest => rest) (fun coming => coming) (fun device => device)) next
  | identificationReadComplete answer => exact work_whenRunning (work_endIdentification still answer s) next
  | headerReadComplete read => exact work_whenRunning (work_endHeader still read s) next
  | restoreRecordReadComplete read => exact work_whenRunning (work_endRecord still (fun rest => rest) read) next
  | bucketFetchComplete read => exact work_whenRunning (work_endFetch clean (fun device => device) s) next
  | missSlotPlacement => exact work_whenRunning (work_serveSlotWait_clean clean s) next
  | cardWriteComplete read write => exact work_whenRunning (work_endCardWrite (fun device => device) s) next
  | recordWriteComplete write => exact work_whenRunning (work_endRecordWrite still (fun coming => coming) write) next
  | headerWriteComplete write => exact work_whenRunning (work_endHeaderWrite write s) next
  | imageFormatComplete write => exact work_whenRunning (work_endFormat write s) next
  | headerFormatRequeue => exact work_whenRunning (work_remakeOwn s) next
  | loopTurnStart => exact work_whenRunning (work_startNextTurn s) next
  | responseWindowExpiry =>
    exact work_whenRunning (work_onTurn turn (fun _ on q => work_failPoll still on q) (work_endSlot false s)) next
  | loopByteGapTimeout =>
    exact work_whenRunning (work_onTurn turn (fun _ on q => work_failPoll still on q) (work_garbledSlot s)) next
  | pollAnswerGarbled bytes => exact work_whenRunning (work_loopBytes still clean turn bytes) next
  | openSlotGarbled bytes => exact work_whenRunning (work_loopBytes still clean turn bytes) next
  | openSlotSilentFrame bytes => exact work_whenRunning (work_loopBytes still clean turn bytes) next
  | attention address =>
    exact work_whenRunning (work_onTurn turn (fun _ on q => work_failPoll still on q) (work_slotAttention address s)) next
  | joinAnnounce serial cause =>
    refine work_whenRunning (work_onTurn (slot := fun s => takeAnnounce serial cause (endSlot false s)) turn
      (fun _ on q => work_failPoll still on q) ?_) next
    exact (work_endSlot false s).trans (work_takeAnnounce still serial cause _)
  | answerNothing flags => exact work_whenRunning (work_loopAnswer still clean turn flags _) next
  | dozeNotice flags interval => exact work_whenRunning (work_loopAnswer still clean turn flags (.dozeNotice interval)) next
  | depositRequest flags bay card tag =>
    exact work_whenRunning (work_loopAnswer still clean turn flags (.depositRequest bay card tag)) next
  | depositClose flags bay outcome =>
    exact work_whenRunning (work_loopAnswer still clean turn flags (.depositClose bay outcome)) next
  | levelSample flags bay echo temperature lidOpen =>
    exact work_whenRunning (work_loopAnswer still clean turn flags (.levelSample bay echo temperature lidOpen)) next
  | liftRequest flags vehicle round container =>
    exact work_whenRunning (work_loopAnswer still clean turn flags (.liftRequest vehicle round container)) next
  | roundEnd flags vehicle round =>
    exact work_whenRunning (work_loopAnswer still clean turn flags (.liftRequest vehicle round 0xFFFFFFFF)) next
  | liftDone flags vehicle container weight lock =>
    exact work_whenRunning (work_loopAnswer still clean turn flags (.liftDone vehicle container weight lock)) next
  | passUp flags bytes =>
    have either : Work (Premises.of (.passUp flags bytes) s) Debt.none s Debt.none
        ((if 1 ≤ bytes.length ∧ bytes.length ≤ 32 then loopAnswer flags (.passUp bytes) else onTurn failPoll garbledSlot) s) := by
      split
      · exact work_loopAnswer still clean turn flags (.passUp bytes)
      · exact work_onTurn turn (fun _ on q => work_failPoll still on q) (work_garbledSlot s)
    exact work_whenRunning either next

end Sys2Proof.Machine
end

