-- ==== Sys2Proof/Proofs/Canonical.lean ====
section
/-! The steps keep the record memory in its canonical form (log 3). -/

namespace Sys2Proof.Machine

variable {p : Premises} {g h : Debt} {s t : State}

/-- A step keeps what its command keeps, as far as the waiting commands do not matter. -/
theorem step_keeps {law : State → Prop} (blind : ∀ s rest, law s → law { s with pending := rest })
    (kept : ∀ c s t, law s → exec c s = .next t → law t)
    {s t : State} (holds : law s) (next : step s = .next t) : law t := by
  unfold step at next
  split at next
  · cases next
    exact holds
  · rename_i c rest _
    exact kept c _ t (blind s rest holds) next

theorem trunkMove_memory (move : TrunkMove g s h t) : t.memory = s.memory := by
  cases move with
  | placed r => exact (kept_placeReport r s).memory
  | replied => exact (kept_queueReply _ _ _ _ s).memory
  | _ => rfl

theorem streetMove_memory (move : StreetMove p g s h t) : t.memory = s.memory := by
  cases move with
  | sent a c => exact (kept_sendDown a c s).memory
  | _ => rfl

theorem cardsMove_memory (move : CardsMove p g s h t) : t.memory = s.memory := by cases move <;> rfl

theorem deskMove_memory (move : DeskMove p s t) : t.memory = s.memory := by cases move <;> rfl

theorem rowMove_memory (move : RowMove g s h t) : t.memory = s.memory := by
  cases move with
  | lifted step x v f => exact (kept_setStep step f s).memory
  | finished step r v f => exact (kept_setStep step f s).memory
  | _ => rfl

theorem memoryMove_wf (move : MemoryMove p g s h t) (wf : s.memory.wf = true) : t.memory.wf = true := by
  cases move with
  | device m keeps => exact keeps wf
  | _ => exact wf

theorem applyRejoinLimit_memory (old new : Nat) (s : State) : (applyRejoinLimit old new s).memory = s.memory := by
  unfold applyRejoinLimit
  split <;> rfl

theorem work_wf (work : Work p g s h t) (wf : s.memory.wf = true) : t.memory.wf = true := by
  induction work with
  | trans _ _ first second => exact second (first wf)
  | trunk move => exact trunkMove_memory move ▸ wf
  | street move => exact streetMove_memory move ▸ wf
  | desk move => exact deskMove_memory move ▸ wf
  | cards move => exact cardsMove_memory move ▸ wf
  | rows move => exact rowMove_memory move ▸ wf
  | memory move => exact memoryMove_wf move wf
  | params => rw [applyRejoinLimit_memory]; exact wf
  | shut m keeps => exact keeps wf
  | cold m keeps => exact keeps wf
  | _ => exact wf

/-- Settles O55, by the work of a command: a move that writes the device keeps the form, and every other leaves the device. -/
theorem stepKeepsTheMemoryCanonical : Obligations.StepKeepsTheMemoryCanonical := by
  intro s t wf next
  exact step_keeps (law := State.memoryWf) (fun _ _ wf => wf) (fun _ _ _ wf next => work_wf (exec_work next) wf) wf next

end Sys2Proof.Machine
end

