-- ==== Sys2Proof/Proofs/Frames.lean ====
section
/-! What the moves of each block leave: the other blocks, and the other debts. -/

namespace Sys2Proof.Machine

variable {p : Premises} {g h : Debt} {s t : State}

theorem placeReport_frame (r : Report) (s : State) : ∃ u, placeReport r s = { s with tp := u } := ⟨_, placeReport_tp r s⟩

theorem trunkMove_frame (move : TrunkMove g s h t) : ∃ u k, t = { s with tp := u } ∧ h = { g with replies := k } := by
  cases move with
  | placed r =>
    obtain ⟨u, same⟩ := placeReport_frame r s
    exact ⟨u, _, same, rfl⟩
  | _ => exact ⟨_, _, rfl, rfl⟩

theorem sendDown_frame (a : Station) (c : DownCommand) (s : State) : ∃ u, sendDown a c s = { s with slc := u } := by
  rcases sendDown_eq a c s with same | same
  · exact ⟨_, same⟩
  · exact ⟨_, same⟩

theorem streetMove_frame (move : StreetMove p g s h t) : ∃ u st, t = { s with slc := u } ∧ h = { g with stations := st } := by
  cases move with
  | sent a c =>
    obtain ⟨u, same⟩ := sendDown_frame a c s
    exact ⟨u, _, same, rfl⟩
  | _ => exact ⟨_, _, rfl, rfl⟩

theorem deskMove_frame (move : DeskMove p s t) : ∃ u v, t = { s with au := u, clu := v } := by
  cases move <;> exact ⟨_, _, rfl⟩

theorem cardsMove_frame (move : CardsMove p g s h t) : ∃ u b, t = { s with clu := u } ∧ h = { g with place := b } := by
  cases move <;> exact ⟨_, _, rfl, rfl⟩

theorem setStep_frame (step : StepRef) (f : Step → Step) (s : State) : ∃ u, setStep step f s = { s with rm := u } := by
  unfold setStep
  split <;> exact ⟨_, rfl⟩

theorem rowMove_frame (move : RowMove g s h t) : ∃ tk ft rm free off moved,
    t = { s with tk := tk, ft := ft, rm := rm, free := free } ∧ h = { g with off := off, moved := moved } := by
  cases move with
  | lifted step x v f | finished step x v f =>
    obtain ⟨u, same⟩ := setStep_frame step f s
    rw [same]
    exact ⟨_, _, _, _, _, _, rfl, rfl⟩
  | _ => exact ⟨_, _, _, _, _, _, rfl, rfl⟩

theorem memoryMove_frame (move : MemoryMove p g s h t) :
    ∃ u m k, t = { s with rmi := u, memory := m } ∧ h = { g with replies := k } := by
  cases move <;> exact ⟨_, _, _, rfl, rfl⟩

theorem applyRejoinLimit_frame (old new : Nat) (s : State) : ∃ rows, applyRejoinLimit old new s = { s with slc.rows := rows } := by
  unfold applyRejoinLimit
  split <;> exact ⟨_, rfl⟩

end Sys2Proof.Machine
end

