-- ==== Sys2Proof/Proofs/Upstream.lean ====
section
/-! The steps keep the upstream queue within its places (R200, R201), and every count in its range. -/

namespace Sys2Proof.Machine

variable {p : Premises} {g h : Debt} {s t : State}

/-! ### The entries -/

theorem TrunkPort.occupancy_eq (u : TrunkPort) : u.occupancy = u.entries.length + u.reserved := by
  unfold TrunkPort.occupancy TrunkPort.entries
  cases u.line <;> simp [Nat.add_comm]

theorem TrunkPort.entries_enqueue {u : TrunkPort} (begun : u.line = none → u.waiting = []) (e : UpEntry) :
    (u.enqueue e).entries = u.entries ++ [e] := by
  unfold TrunkPort.enqueue TrunkPort.entries
  cases line : u.line with
  | none => simp [begun line]
  | some x => simp

theorem TrunkPort.enqueue_begun {u : TrunkPort} (begun : u.line = none → u.waiting = []) (e : UpEntry) :
    (u.enqueue e).line = none → (u.enqueue e).waiting = [] := by
  unfold TrunkPort.enqueue
  cases line : u.line <;> simp [line]

@[simp] theorem TrunkPort.enqueue_reserved (u : TrunkPort) (e : UpEntry) : (u.enqueue e).reserved = u.reserved := by
  unfold TrunkPort.enqueue
  split <;> rfl

/-- A DEPOSIT_REPORT absorbed leaves every entry at its place, a report or a REPLY as it was (R203). -/
theorem absorb_kinds {d : DepositReport} : ∀ {l l' : List UpEntry}, absorb d l = some l' →
    l'.map UpEntry.isReply = l.map UpEntry.isReply
  | [], l', joined => by cases joined
  | e :: rest, l', joined => by
    unfold absorb at joined
    split at joined
    · contradiction
    · rename_i same
      obtain ⟨rfl, rfl⟩ := List.cons.inj same
      split at joined
      · cases joined
        rfl
      · obtain ⟨rest', later, rfl⟩ := Option.map_eq_some_iff.mp joined
        simp [absorb_kinds later]
    · rename_i same
      obtain ⟨rfl, rfl⟩ := List.cons.inj same
      obtain ⟨rest', later, rfl⟩ := Option.map_eq_some_iff.mp joined
      simp [absorb_kinds later]

/-! ### The law while replies are owed -/

/-- The law on the upstream queue, with `owed` commands whose entry is not in the write queue. -/
structure TrunkPort.Lawful (owed : Nat) (queue : List WriteEntry) (u : TrunkPort) : Prop where
  begun : u.line = none → u.waiting = []
  reserved : u.reserved = queue.countP (·.reply.isSome) + owed
  own : ∀ e ∈ queue, e.body.own = true → e.reply = none
  places : u.entries.length + u.reserved ≤ 128
  reports : u.entries.countP (fun e => !e.isReply) ≤ 120

theorem upstreamLaw_iff : s.upstreamLaw ↔ s.tp.Lawful 0 s.rmi.queue := by
  constructor
  · rintro ⟨begun, reserved, own, places, reports⟩
    exact ⟨begun, reserved, own, TrunkPort.occupancy_eq s.tp ▸ places, reports⟩
  · rintro ⟨begun, reserved, own, places, reports⟩
    exact ⟨begun, reserved, own, (TrunkPort.occupancy_eq s.tp).trans_le places, reports⟩

namespace TrunkPort.Lawful

variable {owed : Nat} {queue : List WriteEntry} {u v : TrunkPort}

theorem of_port (law : u.Lawful owed queue) (line : v.line = u.line) (waiting : v.waiting = u.waiting)
    (reserved : v.reserved = u.reserved) : v.Lawful owed queue := by
  have entries : v.entries = u.entries := by unfold TrunkPort.entries; rw [line, waiting]
  exact ⟨by rw [line, waiting]; exact law.begun, reserved.trans law.reserved, law.own, by rw [entries, reserved]; exact law.places,
    by rw [entries]; exact law.reports⟩

/-- A report finds a place below 120, so that at most 120 entries are not REPLYs. -/
theorem reported (law : u.Lawful owed queue) (room : u.occupancy < Config.reportPlaces) (seq : Byte) (r : Report) :
    (u.enqueue (.report seq r)).Lawful owed queue := by
  rw [TrunkPort.occupancy_eq, Config.reportPlaces] at room
  have most : u.entries.countP (fun e => !e.isReply) ≤ u.entries.length := List.countP_le_length
  refine ⟨TrunkPort.enqueue_begun law.begun _, (TrunkPort.enqueue_reserved _ _).trans law.reserved, law.own, ?_, ?_⟩
  · simp [TrunkPort.entries_enqueue law.begun]
    omega
  · rw [TrunkPort.entries_enqueue law.begun, List.countP_append]
    rw [List.countP_singleton]
    split <;> omega

/-- A REPLY takes the place reserved for it. -/
theorem replied (law : u.Lawful (owed + 1) queue) (kind tag : Byte) (status : Status) (detail : Detail) :
    ({ u with reserved := u.reserved - 1 }.enqueue (.reply kind tag status detail)).Lawful owed queue := by
  have entries := TrunkPort.entries_enqueue (u := { u with reserved := u.reserved - 1 }) law.begun (.reply kind tag status detail)
  have same : ({ u with reserved := u.reserved - 1 } : TrunkPort).entries = u.entries := rfl
  have places := law.places
  have reserved := law.reserved
  refine ⟨TrunkPort.enqueue_begun (u := { u with reserved := u.reserved - 1 }) law.begun _, ?_, law.own, ?_, ?_⟩
  · simp
    omega
  · simp [entries, same]
    omega
  · simpa [entries, same, UpEntry.isReply] using law.reports

/-- Entries that keep their kinds keep the law. -/
theorem absorbed (law : u.Lawful owed queue) {waiting : List UpEntry}
    (same : waiting.map UpEntry.isReply = u.waiting.map UpEntry.isReply) : ({ u with waiting := waiting }).Lawful owed queue := by
  have kinds : ({ u with waiting := waiting } : TrunkPort).entries.map UpEntry.isReply = u.entries.map UpEntry.isReply := by
    simp [TrunkPort.entries, same]
  have count (l : List UpEntry) : l.countP (fun e => !e.isReply) = (l.map UpEntry.isReply).countP fun b => !b := by
    rw [List.countP_map]
    rfl
  have length := congrArg List.length kinds
  simp only [List.length_map] at length
  refine ⟨fun idle => ?_, law.reserved, law.own, by rw [length]; exact law.places, by rw [count, kinds, ← count]; exact law.reports⟩
  have none := law.begun idle
  simpa [none] using same

theorem sent (law : u.Lawful owed queue) : u.sent.Lawful owed queue := by
  have places := law.places
  have reports := law.reports
  unfold TrunkPort.sent
  cases waiting : u.waiting with
  | nil =>
    refine ⟨fun _ => rfl, law.reserved, law.own, ?_, ?_⟩
    · simp [TrunkPort.entries, waiting] at places ⊢
      omega
    · simp [TrunkPort.entries, waiting]
  | cons e rest =>
    refine ⟨fun idle => by simp at idle, law.reserved, law.own, ?_, ?_⟩
    · simp [TrunkPort.entries, waiting] at places ⊢
      omega
    · simp [TrunkPort.entries, waiting, List.countP_cons] at reports ⊢
      omega

theorem traffic (law : u.Lawful owed queue) : u.traffic.Lawful owed queue := by
  have sub : u.traffic.entries.Sublist u.entries := by
    unfold TrunkPort.entries TrunkPort.traffic
    exact (List.Sublist.refl _).append List.filter_sublist
  refine ⟨fun idle => ?_, law.reserved, law.own, ?_, sub.countP_le.trans law.reports⟩
  · have none := law.begun idle
    simp [TrunkPort.traffic, none]
  · have shorter := sub.length_le
    have places := law.places
    have same : u.traffic.reserved = u.reserved := rfl
    omega

/-- The queue of the writes matters by its bodies and by the commands that wait on them. -/
theorem of_queue {queue' : List WriteEntry} (law : u.Lawful owed queue)
    (same : queue'.map (fun e => (e.body, e.reply)) = queue.map fun e => (e.body, e.reply)) : u.Lawful owed queue' := by
  have count (l : List WriteEntry) :
      l.countP (·.reply.isSome) = (l.map fun e => (e.body, e.reply)).countP fun x => x.2.isSome := by
    rw [List.countP_map]
    rfl
  refine ⟨law.begun, by rw [count, same, ← count]; exact law.reserved, fun e mem own => ?_, law.places, law.reports⟩
  obtain ⟨x, there, eq⟩ := List.mem_map.mp (same ▸ List.mem_map_of_mem mem)
  obtain ⟨body, reply⟩ := Prod.mk.inj eq
  rw [← reply]
  exact law.own x there (body ▸ own)

/-- An entry at the end of the write queue takes over the reply of its command. -/
theorem queued (law : u.Lawful owed queue) (e : WriteEntry) {k : Nat} (own : e.body.own = true → e.reply = none)
    (takes : owed = k + if e.reply.isSome then 1 else 0) : u.Lawful k (queue ++ [e]) := by
  refine ⟨law.begun, ?_, fun x mem => ?_, law.places, law.reports⟩
  · rw [law.reserved, List.countP_append, List.countP_singleton]
    omega
  · rcases List.mem_append.mp mem with old | new
    · exact law.own x old
    · rwa [List.mem_singleton.mp new]

/-- The head of the write queue leaves, and its command's reply is owed. -/
theorem done {e : WriteEntry} (law : u.Lawful owed (e :: queue)) {k : Nat}
    (gives : k = owed + (if e.reply.isSome then 1 else 0) ∨ e.body.own = true ∧ k = owed) : u.Lawful k queue := by
  have takes : k = owed + if e.reply.isSome then 1 else 0 := by
    rcases gives with eq | ⟨own, rfl⟩
    · exact eq
    · simp [law.own e List.mem_cons_self own]
  refine ⟨law.begun, ?_, fun x mem => law.own x (List.mem_cons_of_mem _ mem), law.places, law.reports⟩
  rw [law.reserved, List.countP_cons]
  omega

end TrunkPort.Lawful

/-! ### The moves -/

theorem trunkMove_upstream (move : TrunkMove g s h t) (law : s.tp.Lawful g.replies s.rmi.queue) :
    t.tp.Lawful h.replies t.rmi.queue := by
  cases move with
  | placed r =>
    by_cases room : s.tp.occupancy < Config.reportPlaces
    · rw [placeReport_entered room]
      exact TrunkPort.Lawful.reported (u := { s.tp with reportSeq := s.tp.reportSeq + 1 }) (law.of_port rfl rfl rfl) room _ r
    · rw [placeReport_dropped room]
      exact law.of_port rfl rfl rfl
  | absorbed d waiting joined => exact law.absorbed (absorb_kinds joined)
  | reserved place =>
    rw [TrunkPort.occupancy_eq, Config.upstreamPlaces] at place
    exact ⟨law.begun, congrArg (· + 1) law.reserved, law.own, place, law.reports⟩
  | replied k owed kind tag status detail => exact (owed ▸ law).replied kind tag status detail
  | port u line waiting reserved => exact law.of_port line waiting reserved
  | sent => exact law.sent
  | traffic => exact law.traffic

theorem memoryMove_upstream (move : MemoryMove p g s h t) (law : s.tp.Lawful g.replies s.rmi.queue) :
    t.tp.Lawful h.replies t.rmi.queue := by
  cases move with
  | queued target contents values => exact law.queued _ (fun _ => rfl) rfl
  | promised k owed target contents values reply => exact (owed ▸ law).queued _ (fun own => by cases own) rfl
  | own w => exact law.queued _ (fun _ => rfl) rfl
  | done e rest u head queue port restoring range k owed =>
    rw [head] at law
    exact queue ▸ law.done owed
  | interface u queue => exact law.of_queue queue
  | device m => exact law

theorem work_upstream (work : Work p g s h t) (law : s.tp.Lawful g.replies s.rmi.queue) : t.tp.Lawful h.replies t.rmi.queue := by
  induction work with
  | trans _ _ first second => exact second (first law)
  | weaken covers => exact covers.replies ▸ law
  | trunk move => exact trunkMove_upstream move law
  | street move =>
    obtain ⟨u, st, rfl, rfl⟩ := streetMove_frame move
    exact law
  | desk move =>
    obtain ⟨u, v, rfl⟩ := deskMove_frame move
    exact law
  | cards move =>
    obtain ⟨u, b, rfl, rfl⟩ := cardsMove_frame move
    exact law
  | rows move =>
    obtain ⟨tk, ft, rm, free, off, moved, rfl, rfl⟩ := rowMove_frame move
    exact law
  | memory move => exact memoryMove_upstream move law
  | @params g s q =>
    obtain ⟨rows, same⟩ := applyRejoinLimit_frame s.tp.effective.rejoinLimit q.rejoinLimit { s with tp := s.tp.withEffective q }
    rw [same]
    exact law.of_port rfl rfl rfl
  | loaded => exact law.of_port rfl rfl rfl
  | accepted k owed n body card =>
    have own : body.own = false := by
      cases body with
      | cardPut | cardDrop => rfl
      | record | header | format => cases card
    exact (owed ▸ law).queued _ (fun is => by simp [own] at is) rfl
  | @shut g s m =>
    refine ⟨fun _ => rfl, rfl, fun e mem => (by cases mem), ?_, ?_⟩
    · cases line : s.tp.line <;> simp [TrunkPort.entries, TrunkPort.shut, line]
    · cases line : s.tp.line <;> simp [TrunkPort.entries, TrunkPort.shut, line, List.countP_cons]
      split <;> omega
  | cold => exact ⟨fun _ => rfl, rfl, fun e mem => (by cases mem), Nat.zero_le _, Nat.zero_le _⟩
  | _ => exact law

theorem exec_upstream (c : Instr) (s t : State) (law : s.upstreamLaw) (next : exec c s = .next t) : t.upstreamLaw :=
  upstreamLaw_iff.mpr (work_upstream (exec_work next) (upstreamLaw_iff.mp law))

/-! ### The counts -/

/-- The bounds by blocks. -/
theorem countsInRange_iff {s : State} : s.countsInRange ↔
    s.rmi.fetchRun ≤ 3 ∧ s.slc.inRange ∧ s.clu.inRange ∧ s.au.inRange ∧ s.tp.inRange := by
  constructor
  · intro ⟨fetchRun, sinceOpen, streak, polls, noAnswers, collisions, ignoredJoins, hits, misses, memoryErrors, grants, denials,
      releases, ignoredCloses, crcErrors, droppedReports, commandOverruns⟩
    exact ⟨fetchRun, ⟨sinceOpen, streak, polls, noAnswers, collisions, ignoredJoins⟩, ⟨hits, misses, memoryErrors⟩,
      ⟨grants, denials, releases, ignoredCloses⟩, crcErrors, droppedReports, commandOverruns⟩
  · rintro ⟨fetchRun, ⟨sinceOpen, streak, polls, noAnswers, collisions, ignoredJoins⟩, ⟨hits, misses, memoryErrors⟩,
      ⟨grants, denials, releases, ignoredCloses⟩, crcErrors, droppedReports, commandOverruns⟩
    exact ⟨fetchRun, sinceOpen, streak, polls, noAnswers, collisions, ignoredJoins, hits, misses, memoryErrors, grants, denials,
      releases, ignoredCloses, crcErrors, droppedReports, commandOverruns⟩

theorem TrunkPort.enqueue_counts (u : TrunkPort) (e : UpEntry) (range : u.inRange) : (u.enqueue e).inRange := by
  unfold TrunkPort.enqueue
  split <;> exact range

theorem trunkMove_inRange (move : TrunkMove g s h t) (range : s.tp.inRange) : t.tp.inRange := by
  cases move with
  | placed r =>
    by_cases room : s.tp.occupancy < Config.reportPlaces
    · rw [placeReport_entered room]
      exact TrunkPort.enqueue_counts _ _ range
    · rw [placeReport_dropped room]
      exact ⟨range.1, bump_le _ _, range.2.2⟩
  | replied => exact TrunkPort.enqueue_counts _ _ range
  | port u _ _ _ _ kept => exact kept range
  | sent =>
    unfold TrunkPort.sent
    split <;> exact range
  | traffic => exact ⟨Nat.zero_le _, Nat.zero_le _, Nat.zero_le _⟩
  | _ => exact range

theorem streetMove_inRange (move : StreetMove p g s h t) (range : s.slc.inRange) : t.slc.inRange := by
  cases move with
  | sent a c => rcases sendDown_eq a c s with same | same <;> rw [same] <;> exact range
  | loop u _ _ kept => exact kept range
  | _ => exact range

theorem deskMove_inRange (move : DeskMove p s t) (au : s.au.inRange) (clu : s.clu.inRange) : t.au.inRange ∧ t.clu.inRange := by
  cases move with
  | desk u _ _ _ kept => exact ⟨kept au, clu⟩
  | _ => exact ⟨au, clu⟩

theorem cardsMove_inRange (move : CardsMove p g s h t) (range : s.clu.inRange) : t.clu.inRange := by
  cases move with
  | counts u _ _ _ _ kept => exact kept range
  | installed m r =>
    unfold CardLookup.install
    split <;> exact range
  | _ => exact range

theorem memoryMove_inRange (move : MemoryMove p g s h t) (range : s.rmi.fetchRun ≤ 3) : t.rmi.fetchRun ≤ 3 := by
  cases move with
  | done e rest u _ _ _ _ same => exact same.trans_le range
  | interface u _ _ _ kept => exact kept range
  | _ => exact range

theorem invalidate_inRange {u : CardLookup} (n : Number) (range : u.inRange) : (u.invalidate n).inRange := by
  unfold CardLookup.invalidate
  split <;> exact range

theorem cold_inRange : StreetLoop.cold.inRange ∧ CardLookup.cold.inRange ∧ AdmissionUnit.cold.inRange ∧ TrunkPort.cold.inRange := by
  simp [StreetLoop.inRange, StreetLoop.cold, CardLookup.inRange, CardLookup.cold, AdmissionUnit.inRange, AdmissionUnit.cold,
    TrunkPort.inRange, TrunkPort.cold]

theorem work_inRange (work : Work p g s h t) (range : s.countsInRange) : t.countsInRange := by
  rw [countsInRange_iff] at range ⊢
  induction work with
  | refl => exact range
  | weaken => exact range
  | trans _ _ first second => exact second (first range)
  | trunk move =>
    obtain ⟨run, slc, clu, au, tp⟩ := range
    have kept := trunkMove_inRange move tp
    obtain ⟨u, k, rfl, rfl⟩ := trunkMove_frame move
    exact ⟨run, slc, clu, au, kept⟩
  | street move =>
    obtain ⟨run, slc, clu, au, tp⟩ := range
    have kept := streetMove_inRange move slc
    obtain ⟨u, st, rfl, rfl⟩ := streetMove_frame move
    exact ⟨run, kept, clu, au, tp⟩
  | desk move =>
    obtain ⟨run, slc, clu, au, tp⟩ := range
    obtain ⟨desk, cards⟩ := deskMove_inRange move au clu
    obtain ⟨u, v, rfl⟩ := deskMove_frame move
    exact ⟨run, slc, cards, desk, tp⟩
  | cards move =>
    obtain ⟨run, slc, clu, au, tp⟩ := range
    have kept := cardsMove_inRange move clu
    obtain ⟨u, b, rfl, rfl⟩ := cardsMove_frame move
    exact ⟨run, slc, kept, au, tp⟩
  | rows move =>
    obtain ⟨tk, ft, rm, free, off, moved, rfl, rfl⟩ := rowMove_frame move
    exact range
  | memory move =>
    obtain ⟨run, slc, clu, au, tp⟩ := range
    have kept := memoryMove_inRange move run
    obtain ⟨u, m, k, rfl, rfl⟩ := memoryMove_frame move
    exact ⟨kept, slc, clu, au, tp⟩
  | @params g s q =>
    obtain ⟨rows, same⟩ := applyRejoinLimit_frame s.tp.effective.rejoinLimit q.rejoinLimit { s with tp := s.tp.withEffective q }
    rw [same]
    exact range
  | accepted k owed n body =>
    obtain ⟨run, slc, clu, au, tp⟩ := range
    exact ⟨run, slc, invalidate_inRange n clu, au, tp⟩
  | fetched b =>
    obtain ⟨run, slc, clu, au, tp⟩ := range
    exact ⟨Nat.min_le_left _ _, slc, clu, au, tp⟩
  | cold => exact ⟨Nat.zero_le _, cold_inRange⟩
  | _ => exact range

/-- Settles O56: the queue by the work of a command with the replies it owes, the counts block by block. -/
theorem stepKeepsTheUpstreamQueue : Obligations.StepKeepsTheUpstreamQueue := by
  refine ⟨fun s t law next => ?_, fun s t range next => ?_⟩
  · exact step_keeps (law := State.upstreamLaw) (fun s _ law => upstreamLaw_iff.mpr (upstreamLaw_iff (s := s).mp law)) exec_upstream law next
  · exact step_keeps (law := State.countsInRange) (fun s _ range => countsInRange_iff.mpr (countsInRange_iff (s := s).mp range))
      (fun _ _ _ range next => work_inRange (exec_work next) range) range next

end Sys2Proof.Machine
end

