-- ==== Sys2Proof/Proofs/Held.lean ====
section
/-! The steps keep held equal to the charged costs of the account's open deposits (R137). -/

namespace Sys2Proof.Machine

variable {p : Premises} {g h : Debt} {s t : State}

/-! ### The charges as a sum over the containers -/

/-- What a place for an open deposit adds to the charges on an account. -/
def chargeOf (n : Fin 4096) : Option OpenDeposit → Nat
  | some d => if d.account = n then d.cost else 0
  | none => 0

theorem foldl_charges (n : Fin 4096) (l : List (Option OpenDeposit)) (start : Nat) :
    ((l.filterMap id).filter (·.account == n)).foldl (fun sum d => sum + d.cost) start = start + (l.map (chargeOf n)).sum := by
  induction l generalizing start with
  | nil => rfl
  | cons x rest ih =>
    cases x with
    | none => simpa [chargeOf] using ih start
    | some d =>
      by_cases account : d.account = n
      · simpa [chargeOf, account, Nat.add_assoc] using ih (start + d.cost)
      · simpa [chargeOf, account] using ih start

theorem Table.rows_eq {α : Type} {n : Nat} (table : Table α n) : table.rows = (List.finRange n).map table.get := by
  apply List.ext_getElem
  · simp [table.size]
  · intro i _ _
    simp [Table.get]

theorem charges_eq (s : State) (n : Fin 4096) : s.charges n = ∑ r : Fin 192, chargeOf n (s.au.deposits.get r) := by
  rw [State.charges, foldl_charges, Nat.zero_add, Table.rows_eq, List.map_map, Fin.sum_univ_def]
  rfl

theorem charges_congr {n : Fin 4096} (same : t.au.deposits = s.au.deposits) : t.charges n = s.charges n := by
  unfold State.charges
  rw [same]

/-- The charges after one place has changed. -/
theorem charges_set {r : Row} {d : Option OpenDeposit} (set : t.au.deposits = s.au.deposits.set r d) (n : Fin 4096) :
    t.charges n + chargeOf n (s.au.deposits.get r) = s.charges n + chargeOf n d := by
  have rest : ∑ x ∈ Finset.univ.erase r, chargeOf n (t.au.deposits.get x) =
      ∑ x ∈ Finset.univ.erase r, chargeOf n (s.au.deposits.get x) :=
    Finset.sum_congr rfl fun x other => by rw [set, Table.get_set_ne (Finset.ne_of_mem_erase other)]
  have after := Finset.add_sum_erase _ (fun x => chargeOf n (t.au.deposits.get x)) (Finset.mem_univ r)
  have before := Finset.add_sum_erase _ (fun x => chargeOf n (s.au.deposits.get x)) (Finset.mem_univ r)
  simp only [set, Table.get_set_self] at after rest
  rw [charges_eq, charges_eq, set, ← after, ← before, rest]
  ring

/-! ### The moves -/

/-- The law is about the Admission Unit alone. -/
theorem State.heldLaw.of_au (law : s.heldLaw) (accounts : ∀ n, (t.au.accounts.get n).held = (s.au.accounts.get n).held)
    (deposits : t.au.deposits = s.au.deposits)
    (requests : ∀ q ∈ t.au.requests, ∃ q' ∈ s.au.requests, q'.row = q.row) : t.heldLaw := by
  refine ⟨fun n => ?_, fun r d open_ => law.free r d (deposits ▸ open_), fun q asked => ?_⟩
  · rw [accounts, charges_congr deposits]
    exact law.held n
  · obtain ⟨q', before, row⟩ := requests q asked
    rw [deposits, ← row]
    exact law.one q' before

theorem heldLaw_granted {q : Request} {d : OpenDeposit} (law : s.heldLaw) (asked : q ∈ s.au.requests)
    (free : d.kind ≠ .charged → d.cost = 0) :
    (dropRequest q.row (setDeposit q.row (some d) (setAccount d.account (fun a => { a with held := a.held + d.cost }) s))).heldLaw := by
  have empty := law.one q asked
  refine ⟨fun n => ?_, fun r x open_ => ?_, fun q' kept => ?_⟩
  · have sum := charges_set (s := s) (d := some d) (t := dropRequest q.row (setDeposit q.row (some d)
      (setAccount d.account (fun a => { a with held := a.held + d.cost }) s))) rfl n
    rw [empty] at sum
    have held := law.held n
    simp only [chargeOf, dropRequest, setDeposit, setAccount] at sum ⊢
    by_cases same : d.account = n
    · subst same
      simp at sum ⊢
      omega
    · simp [same, Ne.symm same] at sum ⊢
      omega
  · simp only [dropRequest, setDeposit_deposits, Table.get_set] at open_
    split at open_
    · cases open_
      exact free
    · exact law.free r x open_
  · simp only [dropRequest, setDeposit_deposits, Table.get_set]
    obtain ⟨before, other⟩ := List.mem_filter.mp kept
    rw [if_neg (by simpa using other)]
    exact law.one q' before

theorem heldLaw_ended {r : Row} {d : OpenDeposit} {accounts : Table Account 4096} (law : s.heldLaw)
    (deposit : s.au.deposits.get r = some d)
    (held : ∀ n, (accounts.get n).held =
      if n = d.account ∧ d.kind = .charged then (s.au.accounts.get n).held - d.cost else (s.au.accounts.get n).held) :
    ({ s with au := { s.au with accounts := accounts, deposits := s.au.deposits.set r none } }).heldLaw := by
  refine ⟨fun n => ?_, fun x y open_ => ?_, fun q asked => ?_⟩
  · have sum := charges_set (s := s) (d := none)
      (t := { s with au := { s.au with accounts := accounts, deposits := s.au.deposits.set r none } }) rfl n
    rw [deposit] at sum
    have before := law.held n
    refine (held n).trans ?_
    simp only [chargeOf] at sum
    by_cases account : d.account = n
    · subst account
      by_cases kind : d.kind = .charged
      · simp [kind] at sum ⊢
        omega
      · have zero := law.free r d deposit kind
        simp [kind, zero] at sum ⊢
        omega
    · simp [account, Ne.symm account] at sum ⊢
      omega
  · simp only [Table.get_set] at open_
    split at open_
    · cases open_
    · exact law.free x y open_
  · simp only [Table.get_set]
    split
    · rfl
    · exact law.one q asked

theorem heldLaw_delivered {r : Row} {d : OpenDeposit} (law : s.heldLaw) (deposit : s.au.deposits.get r = some d) :
    (setDeposit r (some { d with delivered := true }) s).heldLaw := by
  refine ⟨fun n => ?_, fun x y open_ => ?_, fun q asked => ?_⟩
  · have sum := charges_set (s := s) (t := setDeposit r (some { d with delivered := true }) s) rfl n
    rw [deposit] at sum
    have same : chargeOf n (some { d with delivered := true }) = chargeOf n (some d) := rfl
    rw [same] at sum
    exact (law.held n).trans (Nat.add_right_cancel sum).symm
  · simp only [setDeposit_deposits, Table.get_set] at open_
    split at open_
    · cases open_
      exact law.free r d deposit
    · exact law.free x y open_
  · have other : q.row ≠ r := fun same => by simp [← same, law.one q asked] at deposit
    simp only [setDeposit_deposits, Table.get_set, other, if_false]
    exact law.one q asked

theorem deskMove_heldLaw (move : DeskMove p s t) (law : s.heldLaw) : t.heldLaw := by
  cases move with
  | desk u deposits requests held =>
    refine law.of_au held deposits fun q asked => ?_
    have row : q.row ∈ s.au.requests.map (·.row) := requests ▸ List.mem_map_of_mem asked
    exact List.mem_map.mp row
  | cleared => exact law.of_au (fun _ => rfl) rfl fun q asked => by cases asked
  | admitted q place alone =>
    refine ⟨law.held, law.free, fun q' asked => ?_⟩
    rcases List.mem_append.mp asked with before | new
    · exact law.one q' before
    · rw [List.mem_singleton.mp new]
      have quiet : (s.au.deposits.get q.row).isSome = false := (Bool.or_eq_false_iff.mp alone).2
      simpa using quiet
  | dropped r => exact law.of_au (fun _ => rfl) rfl fun q asked => ⟨q, List.mem_of_mem_filter asked, rfl⟩
  | granted q d asked free => exact heldLaw_granted law asked free
  | ended r d accounts deposit held => exact heldLaw_ended law deposit held
  | delivered r d deposit => exact heldLaw_delivered law deposit

/-- With no open deposit and nothing held the law holds. -/
theorem heldLaw_cold (cause : ResetCause) (hold : Hold) (straps : Straps) (s : State) : (s.cold cause hold straps).heldLaw := by
  refine ⟨fun n => ?_, fun r d open_ => ?_, fun q asked => by cases asked⟩
  · rw [charges_eq]
    simp [State.cold, AdmissionUnit.cold, Account.cold, chargeOf]
  · simp [State.cold, AdmissionUnit.cold] at open_

theorem work_heldLaw (work : Work p g s h t) (law : s.heldLaw) : t.heldLaw := by
  have same {s t : State} (law : s.heldLaw) (au : t.au = s.au) : t.heldLaw :=
    law.of_au (fun n => by rw [au]) (by rw [au]) fun q asked => ⟨q, au ▸ asked, rfl⟩
  induction work with
  | refl | weaken => exact law
  | trans _ _ first second => exact second (first law)
  | trunk move =>
    obtain ⟨u, k, rfl, rfl⟩ := trunkMove_frame move
    exact same law rfl
  | street move =>
    obtain ⟨u, st, rfl, rfl⟩ := streetMove_frame move
    exact same law rfl
  | desk move => exact deskMove_heldLaw move law
  | cards move =>
    obtain ⟨u, b, rfl, rfl⟩ := cardsMove_frame move
    exact same law rfl
  | rows move =>
    obtain ⟨tk, ft, rm, free, off, moved, rfl, rfl⟩ := rowMove_frame move
    exact same law rfl
  | memory move =>
    obtain ⟨u, m, k, rfl, rfl⟩ := memoryMove_frame move
    exact same law rfl
  | @params g s q =>
    obtain ⟨rows, eq⟩ := applyRejoinLimit_frame s.tp.effective.rejoinLimit q.rejoinLimit { s with tp := s.tp.withEffective q }
    rw [eq]
    exact same law rfl
  | cold => exact heldLaw_cold _ _ _ _
  | _ => exact same law rfl

/-- Settles O57, by the work of a command: a hold is taken with its deposit and let go with it, and no other move touches either. -/
theorem stepKeepsHeldAmounts : Obligations.StepKeepsHeldAmounts := by
  intro s t law next
  exact step_keeps (law := State.heldLaw)
    (fun s _ law => law.of_au (fun _ => rfl) rfl fun q asked => ⟨q, asked, rfl⟩)
    (fun _ _ _ law next => work_heldLaw (exec_work next) law) law next

end Sys2Proof.Machine
end

