-- ==== Sys2Proof/Proofs/StepViews.lean ====
section
/-! The rounds as their steps: what each change of a slot leaves at a place, and what a service record and the service queue read of
the steps. -/

namespace Sys2Proof.Machine

variable {s t : State}

/-! ### The step at a place -/

theorem stepAt_congr (slots : t.rm.slots = s.rm.slots) (q : StepRef) : stepAt t q = stepAt s q := by
  unfold stepAt
  rw [slots]

theorem stepAt_setSlot (i : Fin 4) (new : Option Round) (s : State) (q : StepRef) :
    stepAt (setSlot i new s) q = if q.slot = i then new.bind (·.steps[q.position]?) else stepAt s q := by
  simp only [stepAt, setSlot, Table.get_set]
  split <;> rfl

theorem stepAt_of_slot {i : Fin 4} {rd : Round} (slot : s.rm.slots.get i = some rd) {q : StepRef} (there : q.slot = i) :
    stepAt s q = rd.steps[q.position]? := by
  unfold stepAt
  rw [there, slot]
  rfl

/-- A slot whose steps stay. -/
theorem stepAt_header {i : Fin 4} {rd rd' : Round} (slot : s.rm.slots.get i = some rd) (steps : rd'.steps = rd.steps) (q : StepRef) :
    stepAt (setSlot i (some rd') s) q = stepAt s q := by
  rw [stepAt_setSlot]
  split
  · rename_i there
    rw [stepAt_of_slot slot there, ← steps]
    rfl
  · rfl

/-- A step appended: the others stay, and it stands behind them. -/
theorem stepAt_appended {i : Fin 4} {rd rd' : Round} {x : Step} (slot : s.rm.slots.get i = some rd) (steps : rd'.steps = rd.steps ++ [x])
    (q : StepRef) : stepAt (setSlot i (some rd') s) q = if q = ⟨i, rd.steps.length⟩ then some x else stepAt s q := by
  obtain ⟨j, k⟩ := q
  rw [stepAt_setSlot]
  by_cases there : j = i
  · subst there
    by_cases last : k = rd.steps.length
    · simp [last, steps]
    · rw [stepAt_of slot]
      simp only [Option.bind_some, steps, StepRef.mk.injEq, true_and, last, if_true, if_false]
      rcases Nat.lt_or_ge k rd.steps.length with before | after
      · exact List.getElem?_append_left before
      · rw [List.getElem?_eq_none after]
        exact List.getElem?_eq_none (by simp; omega)
  · simp [there]

theorem stepAt_behind {i : Fin 4} {rd : Round} (slot : s.rm.slots.get i = some rd) : stepAt s ⟨i, rd.steps.length⟩ = none := by
  rw [stepAt_of slot]
  exact List.getElem?_eq_none le_rfl

/-- One step changed. -/
theorem stepAt_setStep (step : StepRef) (f : Step → Step) (s : State) (q : StepRef) :
    stepAt (setStep step f s) q = if q = step then (stepAt s q).map f else stepAt s q := by
  obtain ⟨i, k⟩ := step
  obtain ⟨j, m⟩ := q
  unfold setStep
  split
  · rename_i rd slot
    rw [stepAt_setSlot]
    by_cases there : j = i
    · subst there
      rw [stepAt_of slot]
      by_cases same : m = k
      · simp [same]
      · simp [same, List.getElem?_modify, Ne.symm same]
    · simp [there]
  · rename_i none
    by_cases same : (⟨j, m⟩ : StepRef) = ⟨i, k⟩
    · rw [if_pos same, same]
      simp only [stepAt, none]
      rfl
    · rw [if_neg same]

/-- The PENDING steps of a round missed. -/
theorem stepAt_missed {i : Fin 4} {rd rd' : Round} (slot : s.rm.slots.get i = some rd) (steps : rd'.steps = rd.steps.map Step.miss)
    (q : StepRef) : stepAt (setSlot i (some rd') s) q = if q.slot = i then (stepAt s q).map Step.miss else stepAt s q := by
  rw [stepAt_setSlot]
  split
  · rename_i there
    rw [stepAt_of_slot slot there]
    simp [steps]
  · rfl

theorem Step.miss_row (x : Step) : x.miss.row = x.row := by
  unfold Step.miss
  split <;> rfl

theorem Step.miss_lifting (x : Step) : x.miss.state = .lifting ↔ x.state = .lifting := by
  unfold Step.miss
  split
  · rename_i pending
    simp [pending]
  · rfl

theorem Step.open_miss (x : Step) (open_ : x.miss.open = true) : x.state = .lifting ∧ x.miss = x := by
  unfold Step.miss at open_ ⊢
  split at open_
  · simp [Step.open] at open_
  · rename_i other
    refine ⟨?_, rfl⟩
    unfold Step.open at open_
    split at open_ <;> simp_all

theorem Step.open_iff (x : Step) : x.open = true ↔ x.state = .pending ∨ x.state = .lifting := by
  unfold Step.open
  cases x.state <;> simp

/-! ### Containers on an active round -/

theorem onActiveRound_steps {r : Row} : onActiveRound s r = true ↔ ∃ q x, stepAt s q = some x ∧ x.row = r ∧ x.open = true := by
  rw [onActiveRound_iff]
  constructor
  · rintro ⟨i, rd, slot, holds⟩
    obtain ⟨x, mem, is⟩ := List.any_eq_true.mp holds
    obtain ⟨row, open_⟩ := Bool.and_eq_true_iff.mp is
    obtain ⟨k, at_⟩ := List.getElem?_of_mem mem
    exact ⟨⟨i, k⟩, x, (stepAt_of slot k).trans at_, by simpa using row, open_⟩
  · rintro ⟨q, x, at_, row, open_⟩
    obtain ⟨rd, slot, mem⟩ := Option.bind_eq_some_iff.mp at_
    exact ⟨q.slot, rd, slot, List.any_eq_true.mpr ⟨x, List.mem_of_getElem? mem, by simp [row, open_]⟩⟩

/-- A container is on an active round as before when its open steps come from open steps, and the other way. -/
theorem onActiveRound_of_steps {r : Row}
    (from_ : ∀ q x, stepAt t q = some x → x.row = r → x.open = true → onActiveRound s r = true)
    (back : ∀ q x, stepAt s q = some x → x.row = r → x.open = true → onActiveRound t r = true) : onActiveRound t r = onActiveRound s r := by
  rw [Bool.eq_iff_iff]
  constructor
  · intro active
    obtain ⟨q, x, at_, row, open_⟩ := onActiveRound_steps.mp active
    exact from_ q x at_ row open_
  · intro active
    obtain ⟨q, x, at_, row, open_⟩ := onActiveRound_steps.mp active
    exact back q x at_ row open_

/-! ### Service records -/

/-- A service record that names a step (R151, R161). -/
def Service.names (step : StepRef) (v : Service) : Prop := v.lifts step ∨ ∃ cause, v = .held cause (some step)

theorem refersTo_iff {r : Row} {v : Service} : v.refersTo s r ↔ ∀ q, v.names q →
    ∃ x, stepAt s q = some x ∧ x.row = r ∧ (x.state = .lifting ↔ v.lifts q) := by
  constructor
  · intro refers q names
    rcases names with (⟨relay, rfl⟩ | ⟨relay, start, rfl⟩) | ⟨cause, rfl⟩
    · obtain ⟨x, at_, row, state⟩ := refers
      exact ⟨x, at_, row, fun _ => .inl ⟨relay, rfl⟩, fun _ => state⟩
    · obtain ⟨x, at_, row, state⟩ := refers
      exact ⟨x, at_, row, fun _ => .inr ⟨relay, start, rfl⟩, fun _ => state⟩
    · obtain ⟨x, at_, row, state⟩ := refers
      refine ⟨x, at_, row, fun is => absurd is state, ?_⟩
      rintro (⟨relay, is⟩ | ⟨relay, start, is⟩) <;> cases is
  · intro all
    cases v with
    | inUse => trivial
    | serviceWait step relay =>
      obtain ⟨x, at_, row, state⟩ := all step (.inl (.inl ⟨relay, rfl⟩))
      exact ⟨x, at_, row, state.mpr (.inl ⟨relay, rfl⟩)⟩
    | service step relay start =>
      obtain ⟨x, at_, row, state⟩ := all step (.inl (.inr ⟨relay, start, rfl⟩))
      exact ⟨x, at_, row, state.mpr (.inr ⟨relay, start, rfl⟩)⟩
    | held cause step =>
      cases step with
      | none => trivial
      | some step =>
        obtain ⟨x, at_, row, state⟩ := all step (.inr ⟨cause, rfl⟩)
        refine ⟨x, at_, row, fun lifting => ?_⟩
        rcases state.mp lifting with ⟨relay, is⟩ | ⟨relay, start, is⟩ <;> cases is

/-- A record refers to its step when the step stands where it did, of the same container and lifted as before. -/
theorem refersTo_of {r : Row} {v : Service} (refers : v.refersTo s r)
    (stays : ∀ q x, v.names q → stepAt s q = some x → x.row = r →
      ∃ y, stepAt t q = some y ∧ y.row = r ∧ (y.state = .lifting ↔ x.state = .lifting)) : v.refersTo t r := by
  refine refersTo_iff.mpr fun q names => ?_
  obtain ⟨x, at_, row, state⟩ := refersTo_iff.mp refers q names
  obtain ⟨y, there, row', state'⟩ := stays q x names at_ row
  exact ⟨y, there, row', state'.trans state⟩

theorem refersTo_congr {r : Row} {v : Service} (slots : t.rm.slots = s.rm.slots) (refers : v.refersTo s r) : v.refersTo t r :=
  refersTo_of refers fun q x _ at_ row => ⟨x, (stepAt_congr slots q).trans at_, row, Iff.rfl⟩

theorem Service.lifts_unique {v : Service} {p q : StepRef} (lifts : v.lifts p) (names : v.names q) : q = p := by
  rcases lifts with ⟨relay, rfl⟩ | ⟨relay, start, rfl⟩ <;> rcases names with (⟨_, same⟩ | ⟨_, _, same⟩) | ⟨_, same⟩ <;> cases same <;> rfl

theorem Service.names_loseStep {v : Service} {i : Fin 4} {q : StepRef} (names : (v.loseStep i).names q) :
    v.names q ∧ (v.lifts q ∨ q.slot ≠ i) := by
  unfold Service.loseStep at names
  split at names
  · rename_i cause step
    rcases names with (⟨_, is⟩ | ⟨_, _, is⟩) | ⟨_, is⟩
    · cases is
    · cases is
    · by_cases there : step.slot = i
      · simp [there] at is
      · simp only [there, if_false, Service.held.injEq, Option.some.injEq] at is
        obtain ⟨rfl, rfl⟩ := is
        exact ⟨.inr ⟨_, rfl⟩, .inr there⟩
  · rename_i other
    refine ⟨names, ?_⟩
    rcases names with lifts | ⟨cause, is⟩
    · exact .inl lifts
    · exact absurd is (other cause q)

theorem Service.lifts_loseStep {v : Service} {i : Fin 4} {q : StepRef} : (v.loseStep i).lifts q ↔ v.lifts q := by
  unfold Service.loseStep
  split
  · constructor <;> rintro (⟨_, is⟩ | ⟨_, _, is⟩) <;> cases is
  · rfl

end Sys2Proof.Machine
end

