-- ==== Sys2Proof/Proofs/Serviced.lean ====
section
/-! The steps keep the service queue's law and what the service records name (R94, R151). -/

namespace Sys2Proof.Machine

variable {p : Premises} {g h : Debt} {s t : State}

/-! ### What the blocks' moves keep for the law -/

theorem trunkMove_effective (move : TrunkMove g s h t) : t.tp.effective = s.tp.effective := by
  cases move with
  | placed r =>
    by_cases room : s.tp.occupancy < Config.reportPlaces
    · rw [placeReport_entered room]
      unfold TrunkPort.enqueue
      split <;> rfl
    · rw [placeReport_dropped room]
  | replied =>
    simp only [queueReply, TrunkPort.enqueue]
    split <;> rfl
  | port u _ _ _ effective => exact effective
  | sent =>
    simp only [TrunkPort.sent]
    split <;> rfl
  | _ => rfl

theorem memoryMove_restoring (move : MemoryMove p g s h t) : t.rmi.restoring = s.rmi.restoring := by
  cases move with
  | done e rest u _ _ _ restoring => exact restoring
  | interface u _ restoring => exact restoring
  | _ => rfl

theorem memoryMove_atRest (move : MemoryMove p g s h t) (ready : s.rmi.restoring = false) (rests : s.rmi.atRest) :
    t.rmi.atRest := by
  cases move with
  | done e rest u _ _ port => simp [RecordMemory.atRest, port]
  | interface u _ _ kept => exact kept ready rests
  | _ => exact rests

/-- In READY none of the restore's operations comes to the port (R176). -/
theorem work_atRest (work : Work p g s h t) (rests : s.rmi.restoring = false → s.rmi.atRest) :
    t.rmi.restoring = false → t.rmi.atRest := by
  induction work with
  | trans _ _ first second => exact second (first rests)
  | trunk move =>
    obtain ⟨u, k, rfl, rfl⟩ := trunkMove_frame move
    exact rests
  | street move =>
    obtain ⟨u, st, rfl, rfl⟩ := streetMove_frame move
    exact rests
  | desk move =>
    obtain ⟨u, v, rfl⟩ := deskMove_frame move
    exact rests
  | cards move =>
    obtain ⟨u, b, rfl, rfl⟩ := cardsMove_frame move
    exact rests
  | rows move =>
    obtain ⟨tk, ft, rm, free, off, moved, rfl, rfl⟩ := rowMove_frame move
    exact rests
  | memory move =>
    intro ready
    rw [memoryMove_restoring move] at ready
    exact memoryMove_atRest move ready (rests ready)
  | ready port =>
    intro _
    simp [RecordMemory.atRest, rebuildQueue, port]
  | @params g s q =>
    obtain ⟨rows, same⟩ := applyRejoinLimit_frame s.tp.effective.rejoinLimit q.rejoinLimit { s with tp := s.tp.withEffective q }
    rw [same]
    exact rests
  | fetched b => exact fun _ => ⟨by simp [grantFetch], by simp [grantFetch], by simp [grantFetch]⟩
  | shut => exact fun _ => ⟨nofun, nofun, nofun⟩
  | cold => exact fun ready => by cases ready
  | _ => exact rests

/-! ### The law while containers wait to be re-evaluated -/

/-- The service queue's law but for what is owed, with the references of the service records. -/
structure State.Serviced (g : Debt) (s : State) : Prop where
  queue : s.rmi.restoring = false → s.queueLawBut (· ∈ g.off) (g.moved = some ·)
  steps : ∀ r, (serviceOf s r).refersTo s r

theorem serviced_none (law : s.serviceLaw) : s.Serviced Debt.none :=
  ⟨fun ready => (law.queue ready).but _ _, law.steps⟩

theorem State.Serviced.queueLaw (law : s.Serviced Debt.none) (ready : s.rmi.restoring = false) : s.queueLaw :=
  State.queueLawBut.law ((law.queue ready).mono (fun _ owed => owed) fun _ is => by cases is)

/-- The law is about the container rows and their queue, the rounds, the horizon and the part state. -/
theorem State.Serviced.of_blocks (law : s.Serviced g) (rows : t.ft.rows = s.ft.rows) (queue : t.ft.queue = s.ft.queue)
    (rm : t.rm = s.rm) (horizon : t.tp.effective.horizon = s.tp.effective.horizon) (restoring : t.rmi.restoring = s.rmi.restoring)
    (off : h.off = g.off) (moved : h.moved = g.moved) : t.Serviced h := by
  have slots : t.rm.slots = s.rm.slots := by rw [rm]
  refine ⟨fun ready => ?_, fun r => ?_⟩
  · rw [off, moved]
    exact (law.queue (restoring ▸ ready)).of_rows queue (fun r _ => qualifies_of_blocks rows slots horizon r)
      fun r _ => by rw [fillOf, rows, fillOf]
  · have same : serviceOf t r = serviceOf s r := by rw [serviceOf, rm, serviceOf]
    rw [same]
    exact refersTo_congr slots (law.steps r)

/-- More may be owed. -/
theorem State.Serviced.mono (law : s.Serviced g) (off : g.off ⊆ h.off) (moved : g.moved = none ∨ g.moved = h.moved) : s.Serviced h :=
  ⟨fun ready => (law.queue ready).mono (fun _ owed => off owed) fun r is => by
    rcases moved with none | same
    · simp [none] at is
    · exact same ▸ is, law.steps⟩

/-- A change of the rounds that leaves, of the containers not owed, which are on an active round. -/
theorem State.Serviced.of_rounds (law : s.Serviced g) (rest : t = { s with rm := t.rm }) {off : Set Row} (more : g.off ⊆ off)
    (active : ∀ r, r ∉ off → onActiveRound t r = onActiveRound s r) (steps : ∀ r, (serviceOf t r).refersTo t r) :
    t.Serviced { g with off := off } := by
  refine ⟨fun ready => ?_, steps⟩
  have ft : t.ft = s.ft := by rw [rest]
  have tp : t.tp = s.tp := by rw [rest]
  have rmi : t.rmi = s.rmi := by rw [rest]
  have law' := (law.queue (rmi ▸ ready)).mono (off' := (· ∈ off)) (fun _ owed => more owed) fun _ is => is
  exact law'.of_rows (by rw [ft])
    (fun r out => qualifies_congr (by rw [configOf, ft, configOf]) (by rw [fillOf, ft, fillOf]) (by rw [fillOf, ft, fillOf])
      (active r out) (by rw [tp])) fun r _ => by rw [fillOf, ft, fillOf]

/-! ### The moves of the rows -/

theorem serviced_filled {r : Row} {f : Fill → Fill} (law : s.Serviced g) (still : g.moved = none ∨ g.moved = some r) :
    (setFill r f s).Serviced { g with off := insert r g.off, moved := some r } := by
  refine ⟨fun ready => ?_, law.steps⟩
  have law' := (law.queue ready).mono (off' := (· ∈ insert r g.off)) (moved' := (some r = some ·))
    (fun _ owed => Set.mem_insert_of_mem _ owed) fun x is => by
      rcases still with none | same
      · simp [none] at is
      · exact same ▸ is
  refine law'.of_rows rfl (fun x out => ?_) fun x other => ?_
  · have other : x ≠ r := fun same => out (same ▸ Set.mem_insert _ _)
    exact qualifies_congr (configOf_setFill r x f s) (by rw [fillOf_setFill_ne other]) (by rw [fillOf_setFill_ne other]) rfl rfl
  · rw [fillOf_setFill_ne fun same => other (congrArg some same.symm)]

theorem serviced_marked {r : Row} {f : Fill → Fill} (law : s.Serviced g) (quiet : ∀ x, (f x).ttf = x.ttf ∧ (f x).fill = x.fill) :
    (setFill r f s).Serviced g := by
  have same (x : Row) : (fillOf (setFill r f s) x).ttf = (fillOf s x).ttf ∧ (fillOf (setFill r f s) x).fill = (fillOf s x).fill := by
    by_cases at_ : x = r
    · rw [at_, fillOf_setFill_self]
      exact quiet _
    · rw [fillOf_setFill_ne at_]
      exact ⟨rfl, rfl⟩
  exact ⟨fun ready => (law.queue ready).of_rows rfl
    (fun x _ => qualifies_congr (configOf_setFill r x f s) (same x).2 (same x).1 rfl rfl) fun x _ => (same x).1, law.steps⟩

theorem serviced_rebuilt (law : s.Serviced g) (steps : ∀ r, (serviceOf t r).refersTo t r) :
    (rebuildQueue t).Serviced { g with off := ∅, moved := none } :=
  ⟨fun _ => (queueLaw_rebuildQueue t).but _ _, steps⟩

theorem serviced_member {r : Row} (law : s.Serviced g) (still : g.moved = none ∨ g.moved = some r) :
    (reevaluate r s).Serviced { g with off := g.off \ {r}, moved := none } := by
  refine ⟨fun ready => ?_, law.steps⟩
  have law' := (law.queue ready).reevaluate (r := r) fun x is => by
    rcases still with none | same
    · simp [none] at is
    · simpa [same] using is.symm
  exact law'.mono (fun _ owed => owed) fun _ no => no.elim

theorem serviced_served {r : Row} {v : Service} (law : s.Serviced g) (refers : (serviceOf s r).refersTo s r → v.refersTo s r) :
    (setService r v s).Serviced g := by
  refine law.of_rounds (t := setService r v s) rfl le_rfl (fun _ _ => rfl) fun x => ?_
  by_cases at_ : x = r
  · rw [at_, serviceOf_setService_self]
    exact refers (law.steps r)
  · rw [serviceOf_setService_ne at_]
    exact law.steps x

theorem serviced_appended {i : Fin 4} {rd rd' : Round} {r : Row} {origin : Origin} (law : s.Serviced g)
    (slot : s.rm.slots.get i = some rd) (steps : rd'.steps = rd.steps ++ [Step.fresh r origin]) :
    (setSlot i (some rd') s).Serviced { g with off := insert r g.off } := by
  have stays {q : StepRef} {x : Step} (at_ : stepAt s q = some x) : stepAt (setSlot i (some rd') s) q = some x := by
    rw [stepAt_appended slot steps, if_neg, at_]
    rintro rfl
    simp [stepAt_behind slot] at at_
  refine law.of_rounds (t := setSlot i (some rd') s) rfl (Set.subset_insert _ _) (fun x out => ?_) fun x => ?_
  · refine onActiveRound_of_steps (fun q y at_ row open_ => ?_) fun q y at_ row open_ => ?_
    · rw [stepAt_appended slot steps] at at_
      split at at_
      · cases at_
        exact absurd (row ▸ Set.mem_insert _ _) out
      · exact onActiveRound_steps.mpr ⟨q, y, at_, row, open_⟩
    · exact onActiveRound_steps.mpr ⟨q, y, stays at_, row, open_⟩
  · exact refersTo_of (law.steps x) fun q y _ at_ row => ⟨y, stays at_, row, Iff.rfl⟩

/-- One step and the service record of its container changed. -/
theorem serviced_stepped {step : StepRef} {x : Step} {r : Row} {v : Service} {f : Step → Step} (law : s.Serviced g)
    (at_ : stepAt s step = some x) (own : x.row = r) (row : ∀ y, (f y).row = y.row)
    (refers : v.refersTo (setStep step f s) r) :
    (setService r v (setStep step f s)).Serviced { g with off := insert r g.off } := by
  have elsewhere {q : StepRef} {y : Step} (there : stepAt s q = some y) (other : y.row ≠ r) :
      stepAt (setStep step f s) q = some y := by
    rw [stepAt_setStep, if_neg, there]
    rintro rfl
    rw [at_] at there
    cases there
    exact other own
  have rest : setService r v (setStep step f s) = { s with rm := (setService r v (setStep step f s)).rm } := by
    obtain ⟨u, same⟩ := setStep_frame step f s
    rw [same]
    rfl
  have services (y : Row) : serviceOf (setStep step f s) y = serviceOf s y := by
    unfold setStep
    split <;> rfl
  refine law.of_rounds rest (Set.subset_insert _ _) (fun y out => ?_) fun y => ?_
  · have other : y ≠ r := fun same => out (same ▸ Set.mem_insert _ _)
    refine onActiveRound_of_steps (t := setStep step f s) (fun q z there is open_ => ?_) fun q z there is open_ => ?_
    · rw [stepAt_setStep] at there
      split at there
      · rename_i same
        rw [same, at_] at there
        cases there
        exact absurd (is.symm.trans ((row x).trans own)) other
      · exact onActiveRound_steps.mpr ⟨q, z, there, is, open_⟩
    · exact onActiveRound_steps.mpr ⟨q, z, elsewhere there (is ▸ other), is, open_⟩
  · by_cases same : y = r
    · rw [same, serviceOf_setService_self]
      exact refersTo_congr rfl refers
    · rw [serviceOf_setService_ne same, services]
      exact refersTo_of (law.steps y) fun q z _ there is => ⟨z, elsewhere there (is ▸ same), is, Iff.rfl⟩

theorem serviced_lifted {step : StepRef} {x : Step} {v : Service} {f : Step → Step} (law : s.Serviced g)
    (at_ : stepAt s step = some x) (row : ∀ y, (f y).row = y.row) (lifting : ∀ y, (f y).state = .lifting) (lifts : v.lifts step) :
    (setService x.row v (setStep step f s)).Serviced { g with off := insert x.row g.off } := by
  refine serviced_stepped law at_ rfl row (refersTo_iff.mpr fun q names => ?_)
  cases Service.lifts_unique lifts names
  exact ⟨f x, by rw [stepAt_setStep, if_pos rfl, at_]; rfl, row x, fun _ => lifts, fun _ => lifting x⟩

theorem serviced_finished {step : StepRef} {r : Row} {v : Service} {f : Step → Step} (law : s.Serviced g)
    (names : (serviceOf s r).names step) (row : ∀ y, (f y).row = y.row) (closed : ∀ y, (f y).open = false)
    (after : v = .inUse ∨ ∃ cause, v = .held cause none ∨ v = .held cause (some step)) :
    (setService r v (setStep step f s)).Serviced { g with off := insert r g.off } := by
  obtain ⟨x, at_, own, _⟩ := refersTo_iff.mp (law.steps r) step names
  refine serviced_stepped law at_ own row ?_
  rcases after with rfl | ⟨cause, rfl | rfl⟩
  · trivial
  · trivial
  · refine ⟨f x, by rw [stepAt_setStep, if_pos rfl, at_]; rfl, (row x).trans own, fun lifting => ?_⟩
    have open_ : (f x).open = true := (Step.open_iff _).mpr (.inr lifting)
    simp [closed x] at open_

theorem serviced_header {i : Fin 4} {rd rd' : Round} (law : s.Serviced g) (slot : s.rm.slots.get i = some rd)
    (steps : rd'.steps = rd.steps) : (setSlot i (some rd') s).Serviced g := by
  have same := stepAt_header slot steps
  refine law.of_rounds (t := setSlot i (some rd') s) rfl le_rfl (fun x _ => ?_) fun x => ?_
  · exact onActiveRound_of_steps (fun q y at_ row open_ => onActiveRound_steps.mpr ⟨q, y, same q ▸ at_, row, open_⟩)
      fun q y at_ row open_ => onActiveRound_steps.mpr ⟨q, y, (same q).trans at_, row, open_⟩
  · exact refersTo_of (law.steps x) fun q y _ at_ row => ⟨y, (same q).trans at_, row, Iff.rfl⟩

theorem serviced_loaded {i : Fin 4} {rd : Round} {rows : List Row} (law : s.Serviced g) (slot : s.rm.slots.get i = none)
    (steps : rd.steps = rows.map fun r => Step.fresh r .planned) :
    (setSlot i (some rd) s).Serviced { g with off := g.off ∪ {r | r ∈ rows} } := by
  have stays {q : StepRef} {x : Step} (at_ : stepAt s q = some x) : stepAt (setSlot i (some rd) s) q = some x := by
    rw [stepAt_setSlot, if_neg, at_]
    intro there
    simp [stepAt, there, slot] at at_
  refine law.of_rounds (t := setSlot i (some rd) s) rfl Set.subset_union_left (fun x out => ?_) fun x => ?_
  · refine onActiveRound_of_steps (fun q y at_ row open_ => ?_) fun q y at_ row open_ => ?_
    · rw [stepAt_setSlot] at at_
      split at at_
      · have mem : y ∈ rd.steps := List.mem_of_getElem? at_
        rw [steps] at mem
        obtain ⟨x', listed, rfl⟩ := List.mem_map.mp mem
        exact absurd (.inr (row ▸ listed)) out
      · exact onActiveRound_steps.mpr ⟨q, y, at_, row, open_⟩
    · exact onActiveRound_steps.mpr ⟨q, y, stays at_, row, open_⟩
  · exact refersTo_of (law.steps x) fun q y _ at_ row => ⟨y, stays at_, row, Iff.rfl⟩

theorem serviced_missed {i : Fin 4} {rd rd' : Round} (law : s.Serviced g) (slot : s.rm.slots.get i = some rd)
    (steps : rd'.steps = rd.steps.map Step.miss) :
    (setSlot i (some rd') s).Serviced { g with off := g.off ∪ {r | ∃ st ∈ rd.steps, st.state = .pending ∧ st.row = r} } := by
  refine law.of_rounds (t := setSlot i (some rd') s) rfl Set.subset_union_left (fun x out => ?_) fun x => ?_
  · refine onActiveRound_of_steps (fun q y at_ row open_ => ?_) fun q y at_ row open_ => ?_
    · rw [stepAt_missed slot steps] at at_
      split at at_
      · obtain ⟨z, before, rfl⟩ := Option.map_eq_some_iff.mp at_
        obtain ⟨_, same⟩ := z.open_miss open_
        rw [same] at row open_
        exact onActiveRound_steps.mpr ⟨q, z, before, row, open_⟩
      · exact onActiveRound_steps.mpr ⟨q, y, at_, row, open_⟩
    · refine onActiveRound_steps.mpr ⟨q, y, ?_, row, open_⟩
      rw [stepAt_missed slot steps]
      split
      · rename_i there
        have mem : y ∈ rd.steps := List.mem_of_getElem? (stepAt_of_slot slot there ▸ at_)
        have lifting : y.state = .lifting := ((Step.open_iff y).mp open_).resolve_left fun pending =>
          out (.inr ⟨y, mem, pending, row⟩)
        rw [at_]
        simp [Step.miss, lifting]
      · exact at_
  · refine refersTo_of (law.steps x) fun q y _ at_ row => ?_
    rw [stepAt_missed slot steps]
    split
    · exact ⟨y.miss, by rw [at_]; rfl, y.miss_row.trans row, y.miss_lifting⟩
    · exact ⟨y, at_, row, Iff.rfl⟩

theorem serviceOf_loseStep (i : Fin 4) (s : State) (r : Row) :
    serviceOf { s with rm.service := s.rm.service.map (Service.loseStep i) } r = (serviceOf s r).loseStep i :=
  Table.get_map _ _ _

theorem serviced_freed {i : Fin 4} {rd : Round} (law : s.Serviced g) (slot : s.rm.slots.get i = some rd) (done : rd.lifting = false) :
    (setSlot i none { s with rm.service := s.rm.service.map (Service.loseStep i) }).Serviced
      { g with off := g.off ∪ {r | ∃ st ∈ rd.steps, st.row = r} } := by
  have view (q : StepRef) : stepAt (setSlot i none { s with rm.service := s.rm.service.map (Service.loseStep i) }) q =
      if q.slot = i then none else stepAt s q := stepAt_setSlot i none _ q
  refine law.of_rounds (t := setSlot i none { s with rm.service := s.rm.service.map (Service.loseStep i) }) rfl
    Set.subset_union_left (fun x out => ?_) fun x => ?_
  · refine onActiveRound_of_steps (fun q y at_ row open_ => ?_) fun q y at_ row open_ => ?_
    · rw [view] at at_
      split at at_
      · cases at_
      · exact onActiveRound_steps.mpr ⟨q, y, at_, row, open_⟩
    · refine onActiveRound_steps.mpr ⟨q, y, ?_, row, open_⟩
      rw [view, if_neg]
      · exact at_
      · intro there
        exact out (.inr ⟨y, List.mem_of_getElem? (stepAt_of_slot slot there ▸ at_), row⟩)
  · refine refersTo_iff.mpr fun q names => ?_
    change ((serviceOf { s with rm.service := s.rm.service.map (Service.loseStep i) } x).names q) at names
    rw [serviceOf_loseStep] at names
    obtain ⟨before, apart⟩ := Service.names_loseStep names
    obtain ⟨y, at_, row, state⟩ := refersTo_iff.mp (law.steps x) q before
    have elsewhere : q.slot ≠ i := by
      rcases apart with lifts | other
      · intro there
        have mem : y ∈ rd.steps := List.mem_of_getElem? (stepAt_of_slot slot there ▸ at_)
        have lifting : rd.lifting = true := List.any_eq_true.mpr ⟨y, mem, by simp [state.mpr lifts]⟩
        simp [done] at lifting
      · exact other
    refine ⟨y, by rw [view, if_neg elsewhere, at_], row, state.trans ?_⟩
    change _ ↔ (serviceOf { s with rm.service := s.rm.service.map (Service.loseStep i) } x).lifts q
    rw [serviceOf_loseStep, Service.lifts_loseStep]

theorem rowMove_serviced (move : RowMove g s h t) (law : s.Serviced g) : t.Serviced h := by
  cases move with
  | aside => exact law.of_blocks rfl rfl rfl rfl rfl rfl rfl
  | filled r f still => exact serviced_filled law still
  | marked r f quiet => exact serviced_marked law quiet
  | recounted rows config => exact serviced_rebuilt law law.steps
  | member r still => exact serviced_member law still
  | served r v refers => exact serviced_served law refers
  | appended i rd rd' r origin slot _ _ steps => exact serviced_appended law slot steps
  | lifted step x v f at_ _ row lifting lifts => exact serviced_lifted law at_ row lifting lifts
  | finished step r v f names row closed after => exact serviced_finished law names row closed after
  | header i rd rd' slot steps => exact serviced_header law slot steps
  | loaded i rd rows slot _ steps => exact serviced_loaded law slot steps
  | missed i rd rd' slot steps => exact serviced_missed law slot steps
  | freed i rd slot done => exact serviced_freed law slot done

/-! ### The configuration -/

theorem serviced_entered {r : Row} {c : ContainerConfig} {fill : Fill} {service : Table Service 192} (law : s.Serviced g)
    (same : ∀ x, service.get x = if x = r ∧ configOf s r = none then .inUse else serviceOf s x) (still : g.moved = none) :
    ({ s with ft.rows := s.ft.rows.set r { config := some c, fill := fill }, rm.service := service }).Serviced
      { g with off := insert r g.off, moved := some r } := by
  refine ⟨fun ready => ?_, fun x => ?_⟩
  · have law' := (law.queue ready).mono (off' := (· ∈ insert r g.off)) (moved' := (some r = some ·))
      (fun _ owed => Set.mem_insert_of_mem _ owed) fun x is => by simp [still] at is
    refine law'.of_rows rfl (fun x out => ?_) fun x other => ?_
    · have other : x ≠ r := fun same => out (same ▸ Set.mem_insert _ _)
      exact qualifies_congr (by simp [configOf, other]) (by simp [fillOf, other]) (by simp [fillOf, other]) rfl rfl
    · have other : x ≠ r := fun same => other (congrArg some same.symm)
      simp [fillOf, other]
  · refine refersTo_congr (s := s) rfl ?_
    change (service.get x).refersTo s x
    rw [same x]
    split
    · trivial
    · exact law.steps x

theorem serviced_emptied {r : Row} (law : s.Serviced g) :
    ({ s with
        ft := { s.ft with queue := s.ft.queue.filter (· != r), rows := s.ft.rows.set r ContainerRow.cold }
        rm.service := s.rm.service.set r .inUse }).Serviced g := by
  refine ⟨fun ready => ⟨fun x settled => ?_, ?_⟩, fun x => ?_⟩
  · by_cases at_ : x = r
    · subst at_
      simp [qualifies, configOf, ContainerRow.cold]
    · have same : qualifies { s with
          ft := { s.ft with queue := s.ft.queue.filter (· != r), rows := s.ft.rows.set r ContainerRow.cold }
          rm.service := s.rm.service.set r .inUse } x = qualifies s x :=
        qualifies_congr (by simp [configOf, at_]) (by simp [fillOf, at_]) (by simp [fillOf, at_]) rfl rfl
      rw [same, ← (law.queue ready).exact x settled]
      simp [at_]
  · refine List.pairwise_filter.mpr ((law.queue ready).sorted.imp fun before hx hy ax ay => ?_)
    rw [queueBefore_congr (s := s)]
    · exact before ax ay
    · simp [fillOf, bne_iff_ne.mp hx]
    · simp [fillOf, bne_iff_ne.mp hy]
  · refine refersTo_congr (s := s) rfl ?_
    change ((s.rm.service.set r .inUse).get x).refersTo s x
    rw [Table.get_set]
    split
    · trivial
    · exact law.steps x

theorem serviced_params {q : Params} {off : Set Row} (law : s.Serviced g) (covers : g.off ⊆ off)
    (horizon : q.horizon ≠ s.tp.effective.horizon → off = Set.univ) :
    ({ s with tp := s.tp.withEffective q }).Serviced { g with off := off } := by
  refine ⟨fun ready => ?_, law.steps⟩
  have law' := (law.queue ready).mono (off' := (· ∈ off)) (fun _ owed => covers owed) fun _ is => is
  refine law'.of_rows rfl (fun x out => qualifies_congr rfl rfl rfl rfl ?_) fun _ _ => rfl
  by_contra changed
  exact out (horizon changed ▸ Set.mem_univ x)

theorem work_serviced (rest : p.rest) (work : Work p g s h t) (law : s.Serviced g) : t.Serviced h := by
  induction work with
  | refl => exact law
  | trans _ _ first second => exact second (first law)
  | weaken covers => exact law.mono covers.off covers.moved
  | trunk move =>
    have effective := trunkMove_effective move
    obtain ⟨u, k, rfl, rfl⟩ := trunkMove_frame move
    exact law.of_blocks rfl rfl rfl (congrArg Params.horizon effective) rfl rfl rfl
  | street move =>
    obtain ⟨u, st, rfl, rfl⟩ := streetMove_frame move
    exact law.of_blocks rfl rfl rfl rfl rfl rfl rfl
  | desk move =>
    obtain ⟨u, v, rfl⟩ := deskMove_frame move
    exact law.of_blocks rfl rfl rfl rfl rfl rfl rfl
  | cards move =>
    obtain ⟨u, b, rfl, rfl⟩ := cardsMove_frame move
    exact law.of_blocks rfl rfl rfl rfl rfl rfl rfl
  | rows move => exact rowMove_serviced move law
  | memory move =>
    have restoring := memoryMove_restoring move
    obtain ⟨u, m, k, rfl, rfl⟩ := memoryMove_frame move
    exact law.of_blocks rfl rfl rfl rfl restoring rfl rfl
  | entered r c fill service _ same still => exact serviced_entered law same still
  | emptied r => exact serviced_emptied law
  | restored r c restoring => exact ⟨fun ready => by simp [restoring rest] at ready, law.steps⟩
  | cleaned restoring => exact ⟨fun ready => by simp [restoring rest] at ready, law.steps⟩
  | ready => exact serviced_rebuilt law law.steps
  | @params g s q off covers horizon =>
    obtain ⟨rows, same⟩ := applyRejoinLimit_frame s.tp.effective.rejoinLimit q.rejoinLimit { s with tp := s.tp.withEffective q }
    rw [same]
    exact (serviced_params law covers horizon).of_blocks rfl rfl rfl rfl rfl rfl rfl
  | loaded q restoring => exact ⟨fun ready => by simp [restoring rest] at ready, law.steps⟩
  | cold => exact ⟨fun ready => (by cases ready), fun r => by simp [State.cold, RoundManager.cold, serviceOf, Service.refersTo]⟩
  | _ => exact law.of_blocks rfl rfl rfl rfl rfl rfl rfl

theorem exec_serviceLaw (c : Instr) (s t : State) (law : s.serviceLaw) (next : exec c s = .next t) : t.serviceLaw := by
  have served := work_serviced (p := Premises.of c s) law.restore (exec_work next) (serviced_none law)
  exact ⟨served.queueLaw, served.steps, work_atRest (exec_work next) law.restore⟩

end Sys2Proof.Machine
end

