-- ==== Sys2Proof/Proofs/RoundsLaw.lean ====
section
/-! The steps keep the rounds' law (R149, R151). -/

namespace Sys2Proof.Machine

variable {p : Premises} {g h : Debt} {s t : State}

/-- A change that makes no round, no step and no open step keeps the law, if every LIFTING step stays named and every step's row
stays occupied. -/
theorem State.roundsLaw.of_steps (law : s.roundsLaw)
    (heads : ∀ i b, t.rm.slots.get i = some b → ∃ a, s.rm.slots.get i = some a ∧ a.vehicle = b.vehicle ∧ a.number = b.number)
    (steps : ∀ q y, stepAt t q = some y → ∃ x, stepAt s q = some x ∧ x.row = y.row ∧ (y.open = true → x.open = true))
    (lifting : ∀ q y, stepAt t q = some y → y.state = .lifting → (serviceOf t y.row).lifts q)
    (occupied : ∀ q y, stepAt t q = some y → (configOf s y.row).isSome = true → (configOf t y.row).isSome = true) : t.roundsLaw where
  vehicle i j a b slot slot' same := by
    obtain ⟨a', before, vehicle, _⟩ := heads i a slot
    obtain ⟨b', before', vehicle', _⟩ := heads j b slot'
    exact law.vehicle i j a' b' before before' (vehicle.trans (same.trans vehicle'.symm))
  number i j a b slot slot' same := by
    obtain ⟨a', before, _, number⟩ := heads i a slot
    obtain ⟨b', before', _, number'⟩ := heads j b slot'
    exact law.number i j a' b' before before' (number.trans (same.trans number'.symm))
  single q q' y y' at_ at_' same open_ open_' := by
    obtain ⟨x, before, row, was⟩ := steps q y at_
    obtain ⟨x', before', row', was'⟩ := steps q' y' at_'
    exact law.single q q' x x' before before' (row.trans (same.trans row'.symm)) (was open_) (was' open_')
  lifting := lifting
  occupied q y at_ := by
    obtain ⟨x, before, row, _⟩ := steps q y at_
    exact occupied q y at_ (row ▸ law.occupied q x before)

/-- A change that leaves the slots keeps the law, if no lift loses its service record and no occupied row is emptied. -/
theorem State.roundsLaw.of_slots (law : s.roundsLaw) (slots : t.rm.slots = s.rm.slots)
    (lifts : ∀ r q, (configOf s r).isSome = true → (serviceOf s r).lifts q → (serviceOf t r).lifts q)
    (occupied : ∀ r, (configOf s r).isSome = true → (configOf t r).isSome = true) : t.roundsLaw := by
  refine law.of_steps (fun i b slot => ⟨b, slots ▸ slot, rfl, rfl⟩) (fun q y at_ => ⟨y, ?_, rfl, id⟩) (fun q y at_ is => ?_)
    fun q y _ => occupied y.row
  · rwa [stepAt_congr slots] at at_
  · rw [stepAt_congr slots] at at_
    exact lifts y.row q (law.occupied q y at_) (law.lifting q y at_ is)

/-- The law is about the rounds and about which rows are occupied. -/
theorem State.roundsLaw.of_blocks (law : s.roundsLaw) (rm : t.rm = s.rm) (config : ∀ r, configOf t r = configOf s r) :
    t.roundsLaw := by
  refine law.of_slots (by rw [rm]) (fun r q _ lifts => ?_) fun r there => by rw [config]; exact there
  rw [serviceOf, rm]
  exact lifts

/-! ### The moves of the rows -/

theorem setStep_heads {step : StepRef} {f : Step → Step} {i : Fin 4} {b : Round} (slot : (setStep step f s).rm.slots.get i = some b) :
    ∃ a, s.rm.slots.get i = some a ∧ a.vehicle = b.vehicle ∧ a.number = b.number := by
  unfold setStep at slot
  split at slot
  · rename_i rd there
    simp only [setSlot, Table.get_set] at slot
    split at slot
    · rename_i same
      cases slot
      exact ⟨rd, same ▸ there, rfl, rfl⟩
    · exact ⟨b, slot, rfl, rfl⟩
  · exact ⟨b, slot, rfl, rfl⟩

theorem serviceOf_setStep (step : StepRef) (f : Step → Step) (s : State) (r : Row) :
    serviceOf (setStep step f s) r = serviceOf s r := by
  unfold setStep
  split <;> rfl

theorem configOf_setStep (step : StepRef) (f : Step → Step) (s : State) (r : Row) :
    configOf (setStep step f s) r = configOf s r := by
  unfold setStep
  split <;> rfl

/-- One step and the service record of its container changed. -/
theorem roundsLaw_stepped {step : StepRef} {r : Row} {v : Service} {f : Step → Step} (law : s.roundsLaw)
    (row : ∀ y, (f y).row = y.row) (opens : ∀ x, stepAt s step = some x → (f x).open = true → x.open = true)
    (own : ∀ x, stepAt s step = some x → (f x).state = .lifting → x.row = r ∧ v.lifts step)
    (others : ∀ q y, q ≠ step → stepAt s q = some y → y.row = r → y.state ≠ .lifting) :
    (setService r v (setStep step f s)).roundsLaw := by
  have view (q : StepRef) : stepAt (setService r v (setStep step f s)) q = if q = step then (stepAt s q).map f else stepAt s q :=
    stepAt_setStep step f s q
  refine law.of_steps (fun i b slot => setStep_heads slot) (fun q y at_ => ?_) (fun q y at_ is => ?_) fun q y _ there => ?_
  · rw [view] at at_
    split at at_
    · rename_i same
      obtain ⟨x, before, rfl⟩ := Option.map_eq_some_iff.mp at_
      exact ⟨x, before, (row x).symm, opens x (same ▸ before)⟩
    · exact ⟨y, at_, rfl, id⟩
  · rw [view] at at_
    split at at_
    · rename_i same
      obtain ⟨x, before, rfl⟩ := Option.map_eq_some_iff.mp at_
      obtain ⟨is_, lifts⟩ := own x (same ▸ before) is
      rw [row, is_, serviceOf_setService_self, same]
      exact lifts
    · rename_i other
      have elsewhere : y.row ≠ r := fun same => others q y other at_ same is
      rw [serviceOf_setService_ne elsewhere, serviceOf_setStep]
      exact law.lifting q y at_ is
  · change (configOf (setStep step f s) y.row).isSome = true
    rw [configOf_setStep]
    exact there

theorem roundsLaw_lifted {step : StepRef} {x : Step} {v : Service} {f : Step → Step} (law : s.roundsLaw)
    (at_ : stepAt s step = some x) (pending : x.state = .pending) (row : ∀ y, (f y).row = y.row) (lifts : v.lifts step) :
    (setService x.row v (setStep step f s)).roundsLaw := by
  have waits : x.open = true := (Step.open_iff x).mpr (.inl pending)
  refine roundsLaw_stepped law row (fun y there _ => ?_) (fun y there _ => ?_) fun q y other there same lifting => ?_
  · cases at_.symm.trans there
    exact waits
  · cases at_.symm.trans there
    exact ⟨rfl, lifts⟩
  · exact other (law.single q step y x there at_ same ((Step.open_iff y).mpr (.inr lifting)) waits)

theorem roundsLaw_finished {step : StepRef} {r : Row} {v : Service} {f : Step → Step} (law : s.roundsLaw)
    (names : (serviceOf s r).names step) (row : ∀ y, (f y).row = y.row) (closed : ∀ y, (f y).open = false) :
    (setService r v (setStep step f s)).roundsLaw := by
  refine roundsLaw_stepped law row (fun x _ open_ => ?_) (fun x _ lifting => ?_) fun q y other there same lifting => ?_
  · simp [closed x] at open_
  · have open_ : (f x).open = true := (Step.open_iff _).mpr (.inr lifting)
    simp [closed x] at open_
  · have lifts : (serviceOf s r).lifts q := same ▸ law.lifting q y there lifting
    exact other (Service.lifts_unique lifts names).symm

/-- A round replaced by one of the same vehicle and number. -/
theorem setSlot_heads {i : Fin 4} {rd rd' : Round} (slot : s.rm.slots.get i = some rd) (number : rd'.number = rd.number)
    (vehicle : rd'.vehicle = rd.vehicle) (j : Fin 4) (b : Round) (there : (setSlot i (some rd') s).rm.slots.get j = some b) :
    ∃ a, s.rm.slots.get j = some a ∧ a.vehicle = b.vehicle ∧ a.number = b.number := by
  simp only [setSlot, Table.get_set] at there
  split at there
  · rename_i same
    cases there
    exact ⟨rd, same ▸ slot, vehicle.symm, number.symm⟩
  · exact ⟨b, there, rfl, rfl⟩

theorem roundsLaw_header {i : Fin 4} {rd rd' : Round} (law : s.roundsLaw) (slot : s.rm.slots.get i = some rd)
    (steps : rd'.steps = rd.steps) (number : rd'.number = rd.number) (vehicle : rd'.vehicle = rd.vehicle) :
    (setSlot i (some rd') s).roundsLaw := by
  have same := stepAt_header slot steps
  exact law.of_steps (setSlot_heads slot number vehicle) (fun q y at_ => ⟨y, same q ▸ at_, rfl, id⟩)
    (fun q y at_ is => law.lifting q y (same q ▸ at_) is) fun _ _ _ there => there

theorem roundsLaw_missed {i : Fin 4} {rd rd' : Round} (law : s.roundsLaw) (slot : s.rm.slots.get i = some rd)
    (steps : rd'.steps = rd.steps.map Step.miss) (number : rd'.number = rd.number) (vehicle : rd'.vehicle = rd.vehicle) :
    (setSlot i (some rd') s).roundsLaw := by
  have before {q : StepRef} {y : Step} (at_ : stepAt (setSlot i (some rd') s) q = some y) :
      ∃ x, stepAt s q = some x ∧ (y = x ∨ y = x.miss) := by
    rw [stepAt_missed slot steps] at at_
    split at at_
    · obtain ⟨x, there, rfl⟩ := Option.map_eq_some_iff.mp at_
      exact ⟨x, there, .inr rfl⟩
    · exact ⟨y, at_, .inl rfl⟩
  refine law.of_steps (setSlot_heads slot number vehicle) (fun q y at_ => ?_) (fun q y at_ is => ?_) fun _ _ _ there => there
  · obtain ⟨x, there, rfl | rfl⟩ := before at_
    · exact ⟨y, there, rfl, id⟩
    · exact ⟨x, there, x.miss_row.symm, fun open_ => (Step.open_iff x).mpr (.inr (x.open_miss open_).1)⟩
  · obtain ⟨x, there, rfl | rfl⟩ := before at_
    · exact law.lifting q y there is
    · rw [x.miss_row]
      exact law.lifting q x there (x.miss_lifting.mp is)

theorem roundsLaw_freed {i : Fin 4} (law : s.roundsLaw) :
    (setSlot i none { s with rm.service := s.rm.service.map (Service.loseStep i) }).roundsLaw := by
  have before {q : StepRef} {y : Step}
      (at_ : stepAt (setSlot i none { s with rm.service := s.rm.service.map (Service.loseStep i) }) q = some y) : stepAt s q = some y := by
    rw [stepAt_setSlot] at at_
    split at at_
    · cases at_
    · exact at_
  refine law.of_steps (fun j b there => ⟨b, ?_, rfl, rfl⟩) (fun q y at_ => ⟨y, before at_, rfl, id⟩) (fun q y at_ is => ?_)
    fun _ _ _ there => there
  · simp only [setSlot, Table.get_set] at there
    split at there
    · cases there
    · exact there
  · change (serviceOf { s with rm.service := s.rm.service.map (Service.loseStep i) } y.row).lifts q
    rw [serviceOf_loseStep, Service.lifts_loseStep]
    exact law.lifting q y (before at_) is

/-- A container that is on no active round has no open step. -/
theorem no_open_step {r : Row} (apart : onActiveRound s r = false) {q : StepRef} {y : Step} (at_ : stepAt s q = some y)
    (open_ : y.open = true) : y.row ≠ r := by
  intro row
  rw [onActiveRound_steps.mpr ⟨q, y, at_, row, open_⟩] at apart
  cases apart

theorem roundsLaw_appended {i : Fin 4} {rd rd' : Round} {r : Row} {origin : Origin} (law : s.roundsLaw)
    (slot : s.rm.slots.get i = some rd) (apart : onActiveRound s r = false) (occupied : (configOf s r).isSome = true)
    (steps : rd'.steps = rd.steps ++ [Step.fresh r origin]) (number : rd'.number = rd.number) (vehicle : rd'.vehicle = rd.vehicle) :
    (setSlot i (some rd') s).roundsLaw := by
  have heads := setSlot_heads slot number vehicle
  have view {q : StepRef} {y : Step} (at_ : stepAt (setSlot i (some rd') s) q = some y) :
      q = ⟨i, rd.steps.length⟩ ∧ y = Step.fresh r origin ∨ stepAt s q = some y := by
    rw [stepAt_appended slot steps] at at_
    split at at_
    · rename_i last
      cases at_
      exact .inl ⟨last, rfl⟩
    · exact .inr at_
  refine ⟨fun j k a b there there' same => ?_, fun j k a b there there' same => ?_, fun q q' y y' at_ at_' same open_ open_' => ?_,
    fun q y at_ is => ?_, fun q y at_ => ?_⟩
  · obtain ⟨a', before, eq, _⟩ := heads j a there
    obtain ⟨b', before', eq', _⟩ := heads k b there'
    exact law.vehicle j k a' b' before before' (eq.trans (same.trans eq'.symm))
  · obtain ⟨a', before, _, eq⟩ := heads j a there
    obtain ⟨b', before', _, eq'⟩ := heads k b there'
    exact law.number j k a' b' before before' (eq.trans (same.trans eq'.symm))
  · rcases view at_ with ⟨rfl, rfl⟩ | old <;> rcases view at_' with ⟨rfl, rfl⟩ | old'
    · rfl
    · exact absurd same.symm (no_open_step apart old' open_')
    · exact absurd same (no_open_step apart old open_)
    · exact law.single q q' y y' old old' same open_ open_'
  · rcases view at_ with ⟨rfl, rfl⟩ | old
    · cases is
    · exact law.lifting q y old is
  · rcases view at_ with ⟨rfl, rfl⟩ | old
    · exact occupied
    · exact law.occupied q y old

theorem roundsLaw_loaded {i : Fin 4} {rd : Round} {rows : List Row} (law : s.roundsLaw)
    (apart : ∀ j other, s.rm.slots.get j = some other → other.vehicle ≠ rd.vehicle ∧ other.number ≠ rd.number)
    (steps : rd.steps = rows.map fun r => Step.fresh r .planned) (once : rows.Nodup)
    (idle : ∀ r ∈ rows, onActiveRound s r = false ∧ (configOf s r).isSome = true) : (setSlot i (some rd) s).roundsLaw := by
  have view {q : StepRef} {y : Step} (at_ : stepAt (setSlot i (some rd) s) q = some y) :
      (q.slot = i ∧ ∃ r, rows[q.position]? = some r ∧ y = Step.fresh r .planned) ∨ stepAt s q = some y := by
    rw [stepAt_setSlot] at at_
    split at at_
    · rename_i there
      rw [Option.bind_some, steps, List.getElem?_map] at at_
      obtain ⟨r, listed, rfl⟩ := Option.map_eq_some_iff.mp at_
      exact .inl ⟨there, r, listed, rfl⟩
    · exact .inr at_
  have slots {j : Fin 4} {a : Round} (there : (setSlot i (some rd) s).rm.slots.get j = some a) :
      j = i ∧ a = rd ∨ s.rm.slots.get j = some a := by
    simp only [setSlot, Table.get_set] at there
    split at there
    · rename_i same
      cases there
      exact .inl ⟨same, rfl⟩
    · exact .inr there
  refine ⟨fun j k a b there there' same => ?_, fun j k a b there there' same => ?_, fun q q' y y' at_ at_' same open_ open_' => ?_,
    fun q y at_ is => ?_, fun q y at_ => ?_⟩
  · rcases slots there with ⟨rfl, rfl⟩ | old <;> rcases slots there' with ⟨rfl, rfl⟩ | old'
    · rfl
    · exact absurd same.symm (apart k b old').1
    · exact absurd same (apart j a old).1
    · exact law.vehicle j k a b old old' same
  · rcases slots there with ⟨rfl, rfl⟩ | old <;> rcases slots there' with ⟨rfl, rfl⟩ | old'
    · rfl
    · exact absurd same.symm (apart k b old').2
    · exact absurd same (apart j a old).2
    · exact law.number j k a b old old' same
  · rcases view at_ with ⟨slot, r, listed, rfl⟩ | old <;> rcases view at_' with ⟨slot', r', listed', rfl⟩ | old'
    · obtain ⟨i', k⟩ := q
      obtain ⟨j', k'⟩ := q'
      obtain rfl : r = r' := same
      obtain rfl : i' = i := slot
      obtain rfl : j' = i' := slot'
      obtain ⟨inside, eq⟩ := List.getElem?_eq_some_iff.mp listed
      obtain ⟨inside', eq'⟩ := List.getElem?_eq_some_iff.mp listed'
      exact congrArg (StepRef.mk j') ((once.getElem_inj_iff).mp (eq.trans eq'.symm))
    · exact absurd same.symm (no_open_step (idle r (List.mem_of_getElem? listed)).1 old' open_')
    · exact absurd same (no_open_step (idle r' (List.mem_of_getElem? listed')).1 old open_)
    · exact law.single q q' y y' old old' same open_ open_'
  · rcases view at_ with ⟨_, r, _, rfl⟩ | old
    · cases is
    · exact law.lifting q y old is
  · rcases view at_ with ⟨_, r, listed, rfl⟩ | old
    · exact (idle r (List.mem_of_getElem? listed)).2
    · exact law.occupied q y old

theorem rowMove_roundsLaw (move : RowMove g s h t) (law : s.roundsLaw) : t.roundsLaw := by
  cases move with
  | aside => exact law.of_blocks rfl fun _ => rfl
  | filled r f | marked r f => exact law.of_blocks rfl fun x => configOf_setFill r x f s
  | recounted rows config => exact law.of_blocks rfl config
  | member => exact law.of_blocks rfl fun _ => rfl
  | served r v refers lifts =>
    refine law.of_slots rfl (fun x q _ there => ?_) fun _ there => there
    by_cases at_ : x = r
    · subst at_
      rw [serviceOf_setService_self]
      exact lifts q there
    · rwa [serviceOf_setService_ne at_]
  | appended i rd rd' r origin slot apart occupied steps number vehicle =>
    exact roundsLaw_appended law slot apart occupied steps number vehicle
  | lifted step x v f at_ pending row _ lifts => exact roundsLaw_lifted law at_ pending row lifts
  | finished step r v f names row closed => exact roundsLaw_finished law names row closed
  | header i rd rd' slot steps number vehicle => exact roundsLaw_header law slot steps number vehicle
  | loaded i rd rows _ apart steps once idle => exact roundsLaw_loaded law apart steps once idle
  | missed i rd rd' slot steps number vehicle => exact roundsLaw_missed law slot steps number vehicle
  | freed i rd => exact roundsLaw_freed law

/-! ### The configuration -/

theorem roundsLaw_entered {r : Row} {c : ContainerConfig} {fill : Fill} {service : Table Service 192} (law : s.roundsLaw)
    (same : ∀ x, service.get x = if x = r ∧ configOf s r = none then .inUse else serviceOf s x) :
    ({ s with ft.rows := s.ft.rows.set r { config := some c, fill := fill }, rm.service := service }).roundsLaw := by
  refine law.of_slots rfl (fun x q there lifts => ?_) fun x there => ?_
  · change (service.get x).lifts q
    rw [same x, if_neg]
    · exact lifts
    · rintro ⟨rfl, empty⟩
      simp [empty] at there
  · simp only [configOf, Table.get_set]
    split
    · rfl
    · exact there

theorem roundsLaw_emptied {r : Row} (law : s.roundsLaw) (traffic : hasTraffic s r = false) :
    ({ s with
        ft := { s.ft with queue := s.ft.queue.filter (· != r), rows := s.ft.rows.set r ContainerRow.cold }
        rm.service := s.rm.service.set r .inUse }).roundsLaw := by
  obtain ⟨_, noSteps⟩ := Bool.or_eq_false_iff.mp traffic
  have elsewhere {q : StepRef} {y : Step} (at_ : stepAt s q = some y) : y.row ≠ r := by
    intro row
    obtain ⟨rd, slot, mem⟩ := Option.bind_eq_some_iff.mp at_
    have some_ : (s.rm.slots.rows.any fun slot => slot.any fun rd => rd.steps.any fun st => st.row == r) = true :=
      Table.any_rows.mpr ⟨q.slot, by rw [slot]; exact List.any_eq_true.mpr ⟨y, List.mem_of_getElem? mem, by simp [row]⟩⟩
    simp [noSteps] at some_
  refine law.of_steps (fun i b slot => ⟨b, slot, rfl, rfl⟩) (fun q y at_ => ⟨y, at_, rfl, id⟩) (fun q y at_ is => ?_)
    fun q y at_ there => ?_
  · change ((s.rm.service.set r .inUse).get y.row).lifts q
    rw [Table.get_set_ne (elsewhere at_)]
    exact law.lifting q y at_ is
  · change ((s.ft.rows.set r ContainerRow.cold).get y.row).config.isSome = true
    rw [Table.get_set_ne (elsewhere at_)]
    exact there

theorem roundsLaw_restored {r : Row} {c : ContainerConfig} (law : s.roundsLaw) :
    ({ s with ft.rows := s.ft.rows.update r fun row => { row with config := some c } }).roundsLaw := by
  refine law.of_slots rfl (fun _ _ _ lifts => lifts) fun x there => ?_
  by_cases at_ : x = r
  · simp [configOf, at_]
  · simpa [configOf, at_] using there

/-- With every slot free the law holds. -/
theorem roundsLaw_free (free : t.rm.slots = Table.replicate 4 none) : t.roundsLaw := by
  have none (q : StepRef) : stepAt t q = none := by simp [stepAt, free]
  exact ⟨fun _ _ _ _ slot => by simp [free] at slot, fun _ _ _ _ slot => by simp [free] at slot,
    fun q _ _ _ at_ => by simp [none] at at_, fun q _ at_ => by simp [none] at at_, fun q _ at_ => by simp [none] at at_⟩

theorem work_roundsLaw (work : Work p g s h t) (law : s.roundsLaw) : t.roundsLaw := by
  induction work with
  | refl | weaken | cleaned => exact law
  | trans _ _ first second => exact second (first law)
  | trunk move =>
    obtain ⟨u, k, rfl, rfl⟩ := trunkMove_frame move
    exact law.of_blocks rfl fun _ => rfl
  | street move =>
    obtain ⟨u, st, rfl, rfl⟩ := streetMove_frame move
    exact law.of_blocks rfl fun _ => rfl
  | desk move =>
    obtain ⟨u, v, rfl⟩ := deskMove_frame move
    exact law.of_blocks rfl fun _ => rfl
  | cards move =>
    obtain ⟨u, b, rfl, rfl⟩ := cardsMove_frame move
    exact law.of_blocks rfl fun _ => rfl
  | rows move => exact rowMove_roundsLaw move law
  | memory move =>
    obtain ⟨u, m, k, rfl, rfl⟩ := memoryMove_frame move
    exact law.of_blocks rfl fun _ => rfl
  | entered r c fill service _ same => exact roundsLaw_entered law same
  | emptied r traffic => exact roundsLaw_emptied law traffic
  | restored => exact roundsLaw_restored law
  | @params g s q =>
    obtain ⟨rows, same⟩ := applyRejoinLimit_frame s.tp.effective.rejoinLimit q.rejoinLimit { s with tp := s.tp.withEffective q }
    rw [same]
    exact law.of_blocks rfl fun _ => rfl
  | cold => exact roundsLaw_free rfl
  | _ => exact law.of_blocks rfl fun _ => rfl

/-- Settles O58, by the work of a command with the containers it has yet to re-evaluate. -/
theorem stepKeepsTheServiceQueue : Obligations.StepKeepsTheServiceQueue := by
  refine ⟨fun s t law next => ?_, fun s t _ law next => ?_⟩
  · refine step_keeps (law := State.serviceLaw) (fun s rest law => ?_) exec_serviceLaw law next
    have served : ({ s with pending := rest }).Serviced Debt.none := (serviced_none law).of_blocks rfl rfl rfl rfl rfl rfl rfl
    exact ⟨served.queueLaw, served.steps, law.restore⟩
  · exact step_keeps (law := State.roundsLaw) (fun _ _ law => law.of_blocks rfl fun _ => rfl)
      (fun _ _ _ law next => work_roundsLaw (exec_work next) law) law next

end Sys2Proof.Machine
end

