-- ==== Sys2Proof/Proofs/Settled.lean ====
section
/-! The steps keep containers of stations out of service free of requests and deposits (R29), rejoin counts within the limit (R21,
R26) and serials distinct (R13). -/

namespace Sys2Proof.Machine

variable {p : Premises} {g h : Debt} {s t : State}

/-! ### Containers of stations out of service -/

/-- R29's law but for the stations whose containers are still to be settled. -/
structure State.SettledBut (g : Debt) (s : State) : Prop where
  station : ∀ r c, configOf s r = some c → c.station ∉ g.stations → (s.slc.rows.get c.station).state.live = false → s.idle r
  empty : ∀ r, configOf s r = none → s.idle r
  restore : s.rmi.restoring = true → s.slc.turn = none ∧ ∀ r, s.idle r

/-- What a change must keep, container by container. -/
theorem State.SettledBut.of_idle (law : s.SettledBut g)
    (idle : ∀ r, s.idle r → t.idle r)
    (config : ∀ r, configOf t r = configOf s r ∨ s.idle r)
    (live : ∀ a, a ∉ h.stations → (t.slc.rows.get a).state.live = false →
      a ∉ g.stations ∧ (s.slc.rows.get a).state.live = false ∨ ∀ r c, configOf s r = some c → c.station = a → s.idle r)
    (restore : t.rmi.restoring = true → t.slc.turn = none ∧ ∀ r, s.idle r) : t.SettledBut h where
  station r c there settled out := by
    refine idle r ((config r).elim (fun same => ?_) id)
    rw [same] at there
    rcases live c.station settled out with ⟨settled', out'⟩ | all
    · exact law.station r c there settled' out'
    · exact all r c there rfl
  empty r none := idle r ((config r).elim (fun same => law.empty r (same ▸ none)) id)
  restore restoring := ⟨(restore restoring).1, fun r => idle r ((restore restoring).2 r)⟩

/-- The law is about the rows of both tables, the turn, the Admission Unit and the part state. -/
theorem State.SettledBut.of_blocks (law : s.SettledBut g) (slc : t.slc = s.slc) (config : ∀ r, configOf t r = configOf s r)
    (au : t.au = s.au) (restoring : t.rmi.restoring = s.rmi.restoring) (stations : h.stations = g.stations) : t.SettledBut h := by
  refine law.of_idle (fun r is => ?_) (fun r => .inl (config r)) (fun a settled out => ?_) fun is => ?_
  · unfold State.idle at is ⊢
    rwa [au]
  · exact .inl ⟨stations ▸ settled, slc ▸ out⟩
  · rw [slc]
    exact law.restore (restoring ▸ is)

/-- A change of the station rows that takes no row but the ones named out of service, or is made in RESTORING. -/
theorem settledBut_rows {leaving : Set Station} (rest : p.rest) (law : s.SettledBut g) (frame : t = { s with slc := t.slc })
    (turn : t.slc.turn = s.slc.turn)
    (live : ∀ a, a ∈ leaving ∨ (s.slc.rows.get a).StaysLive p s (t.slc.rows.get a)) :
    t.SettledBut { g with stations := g.stations ∪ leaving } := by
  have au : t.au = s.au := by rw [frame]
  have ft : t.ft = s.ft := by rw [frame]
  have rmi : t.rmi = s.rmi := by rw [frame]
  refine law.of_idle (fun r is => ?_) (fun r => .inl (by rw [configOf, ft, configOf])) (fun a settled out => ?_) fun is => ?_
  · unfold State.idle at is ⊢
    rwa [au]
  · rcases live a with leaves | stays | restoring
    · exact absurd (.inr leaves) settled
    · exact .inl ⟨fun owed => settled (.inl owed), stays out⟩
    · exact .inr fun r _ _ _ => (law.restore (restoring rest)).2 r
  · rw [turn]
    exact law.restore (rmi ▸ is)

theorem streetMove_settledBut (rest : p.rest) (move : StreetMove p g s h t) (law : s.SettledBut g) : t.SettledBut h := by
  have none_leaves : g.stations ∪ ∅ = g.stations := Set.union_empty _
  cases move with
  | sent a c =>
    rcases sendDown_eq a c s with same | same
    · rw [same]
      exact law
    · rw [same]
      have kept := settledBut_rows (leaving := ∅) rest law (t := setStation a (StationRow.push c) s) rfl rfl fun b => .inr (.inl ?_)
      · rwa [none_leaves] at kept
      · by_cases at_ : b = a
        · subst at_
          simp [setStation, StationRow.push]
        · simp [setStation, at_]
  | rows rows leaving _ _ live => exact settledBut_rows rest law (t := { s with slc.rows := rows }) rfl rfl live
  | bound a f _ live =>
    have kept := settledBut_rows (leaving := ∅) rest law (t := setStation a f s) rfl rfl fun b => .inr ?_
    · rwa [none_leaves] at kept
    · by_cases at_ : b = a
      · subst at_
        simpa [setStation] using live
      · exact .inl (by simp [setStation, at_])
  | loop u rows turn =>
    refine law.of_idle (t := { s with slc := u }) (fun _ is => is) (fun _ => .inl rfl)
      (fun a settled out => .inl ⟨settled, by rwa [rows] at out⟩) fun is => ?_
    obtain ⟨off, idle⟩ := law.restore is
    exact ⟨turn is off, idle⟩
  | settled a idle =>
    refine law.of_idle (fun _ is => is) (fun _ => .inl rfl) (fun b settled out => ?_) law.restore
    by_cases at_ : b = a
    · exact .inr fun r c there station => idle r c there (station.trans at_)
    · exact .inl ⟨fun owed => settled ⟨owed, at_⟩, out⟩

/-- Where no container that was idle takes on traffic, the law stays. -/
theorem settledBut_desk {u : AdmissionUnit} {v : CardLookup} (law : s.SettledBut g)
    (idle : ∀ r, s.idle r → ({ s with au := u, clu := v }).idle r) : ({ s with au := u, clu := v }).SettledBut g :=
  law.of_idle idle (fun _ => .inl rfl) (fun _ settled out => .inl ⟨settled, out⟩) law.restore

theorem deskMove_settledBut (turn : p.turn) (move : DeskMove p s t) (law : s.SettledBut g) : t.SettledBut g := by
  cases move with
  | desk u deposits requests =>
    refine settledBut_desk law fun r is => ⟨fun q asked row => ?_, deposits ▸ is.2⟩
    have listed : q.row ∈ s.au.requests.map (·.row) := requests ▸ List.mem_map_of_mem asked
    obtain ⟨q', before, same⟩ := List.mem_map.mp listed
    exact is.1 q' before (same.trans row)
  | cleared => exact settledBut_desk law fun r is => ⟨fun q asked => (by cases asked), is.2⟩
  | admitted q place alone live ready =>
    have others {r : Row} (other : q.row ≠ r) (is : s.idle r) : ({ s with au.requests := s.au.requests ++ [q] }).idle r :=
      ⟨fun x asked => (List.mem_append.mp asked).elim (is.1 x) fun new => List.mem_singleton.mp new ▸ other, is.2⟩
    obtain ⟨c, there, inService⟩ := live
    refine ⟨fun r c' there' settled out => ?_, fun r none => ?_, fun restoring => ?_⟩
    · refine others ?_ (law.station r c' there' settled out)
      rintro rfl
      cases there.symm.trans there'
      simp [inService] at out
    · refine others ?_ (law.empty r none)
      rintro rfl
      cases there.symm.trans none
    · simp [ready turn] at restoring
  | dropped r => exact settledBut_desk law fun x is => ⟨fun q asked => is.1 q (List.mem_of_mem_filter asked), is.2⟩
  | granted q d asked =>
    refine settledBut_desk (s := s) law fun r is => ⟨fun x there => is.1 x (List.mem_of_mem_filter there), ?_⟩
    have other : r ≠ q.row := fun same => is.1 q asked same.symm
    exact (Table.get_set_ne other _ _).trans is.2
  | ended r d accounts =>
    refine settledBut_desk law (v := s.clu) fun x is => ⟨is.1, ?_⟩
    refine (Table.get_set _ _ _ _).trans ?_
    split
    · rfl
    · exact is.2
  | delivered r d deposit =>
    refine settledBut_desk law (v := s.clu) fun x is => ⟨is.1, ?_⟩
    have other : x ≠ r := fun same => by
      have none := is.2
      rw [same, deposit] at none
      cases none
    exact (Table.get_set_ne other _ _).trans is.2

theorem rowMove_config (move : RowMove g s h t) (r : Row) : configOf t r = configOf s r := by
  cases move with
  | filled x f | marked x f => exact configOf_setFill x r f s
  | recounted rows config => exact config r
  | lifted step x v f | finished step x v f => exact configOf_setStep step f s r
  | _ => rfl

/-- A container without traffic has neither a pending request nor an open deposit (R83). -/
theorem idle_of_chute {r : Row} (quiet : chuteBusy s r = false) : s.idle r := by
  obtain ⟨requests, deposit⟩ := Bool.or_eq_false_iff.mp quiet
  exact ⟨fun q asked row => by simpa [row] using List.any_eq_false.mp requests q asked, by simpa using deposit⟩

theorem StationRow.limitRejoin_state (limit : Nat) (row : StationRow) : (row.limitRejoin limit).state = row.state := by
  rw [StationRow.limitRejoin_eq]
  split_ifs <;> rfl

theorem work_settledBut (rest : p.rest) (turn : p.turn) (work : Work p g s h t) (law : s.SettledBut g) : t.SettledBut h := by
  induction work with
  | refl => exact law
  | trans _ _ first second => exact second (first law)
  | weaken covers =>
    exact law.of_idle (fun _ is => is) (fun _ => .inl rfl)
      (fun a settled out => .inl ⟨fun owed => settled (covers.stations owed), out⟩) law.restore
  | trunk move =>
    obtain ⟨u, k, rfl, rfl⟩ := trunkMove_frame move
    exact law.of_blocks rfl (fun _ => rfl) rfl rfl rfl
  | street move => exact streetMove_settledBut rest move law
  | desk move => exact deskMove_settledBut turn move law
  | cards move =>
    obtain ⟨u, b, rfl, rfl⟩ := cardsMove_frame move
    exact law.of_blocks rfl (fun _ => rfl) rfl rfl rfl
  | rows move =>
    have config := rowMove_config move
    obtain ⟨tk, ft, rm, free, off, moved, rfl, rfl⟩ := rowMove_frame move
    exact law.of_blocks rfl config rfl rfl rfl
  | memory move =>
    have restoring := memoryMove_restoring move
    obtain ⟨u, m, k, rfl, rfl⟩ := memoryMove_frame move
    exact law.of_blocks rfl (fun _ => rfl) rfl restoring rfl
  | @entered g s r c fill service idle same still =>
    refine law.of_idle (fun _ is => is) (fun x => ?_) (fun _ settled out => .inl ⟨settled, out⟩) law.restore
    by_cases at_ : x = r
    · subst at_
      cases held : configOf s x with
      | none => exact .inr (law.empty x held)
      | some old => exact .inr (idle (by rw [held]; rfl))
    · exact .inl (by simp [configOf, at_])
  | @emptied g s r traffic =>
    refine law.of_idle (fun _ is => is) (fun x => ?_) (fun _ settled out => .inl ⟨settled, out⟩) law.restore
    by_cases at_ : x = r
    · subst at_
      exact .inr (idle_of_chute (Bool.or_eq_false_iff.mp (Bool.or_eq_false_iff.mp traffic).1).1)
    · exact .inl (by simp [configOf, at_])
  | restored r c restoring =>
    have idle := (law.restore (restoring rest)).2
    exact law.of_idle (fun _ is => is) (fun x => .inr (idle x)) (fun _ settled out => .inl ⟨settled, out⟩) law.restore
  | ready =>
    exact law.of_idle (fun _ is => is) (fun _ => .inl rfl) (fun _ settled out => .inl ⟨settled, out⟩) fun is => by cases is
  | @params g s q =>
    unfold applyRejoinLimit
    split
    · exact law.of_blocks rfl (fun _ => rfl) rfl rfl rfl
    · refine law.of_idle (fun _ is => is) (fun _ => .inl rfl) (fun a settled out => .inl ⟨settled, ?_⟩) law.restore
      rwa [Table.get_map, StationRow.limitRejoin_state] at out
  | shut => exact law.of_idle (fun _ is => is) (fun _ => .inl rfl) (fun _ settled out => .inl ⟨settled, out⟩) fun is =>
      ⟨rfl, (law.restore is).2⟩
  | cold =>
    have idle (r : Row) (u : State) (au : u.au = AdmissionUnit.cold) : u.idle r := by
      unfold State.idle
      rw [au]
      simp [AdmissionUnit.cold]
    exact ⟨fun r _ _ _ _ => idle r _ rfl, fun r _ => idle r _ rfl, fun _ => ⟨rfl, fun r => idle r _ rfl⟩⟩
  | _ => exact law.of_blocks rfl (fun _ => rfl) rfl rfl rfl

theorem settledLaw_iff : s.settledLaw ↔ s.SettledBut Debt.none ∧ (s.rmi.restoring = false → s.rmi.atRest) := by
  constructor
  · rintro ⟨station, empty, restore, port⟩
    exact ⟨⟨fun r c there _ => station r c there, empty, restore⟩, port⟩
  · rintro ⟨⟨station, empty, restore⟩, port⟩
    exact ⟨fun r c there => station r c there id, empty, restore, port⟩

theorem exec_settledLaw (c : Instr) (s t : State) (law : s.settledLaw) (next : exec c s = .next t) : t.settledLaw := by
  obtain ⟨settled, rests⟩ := settledLaw_iff.mp law
  exact settledLaw_iff.mpr ⟨work_settledBut (p := Premises.of c s) rests (fun restoring => (law.restore restoring).1) (exec_work next)
    settled, work_atRest (exec_work next) rests⟩

end Sys2Proof.Machine
end

