-- ==== Sys2Proof/Proofs/Rejoins.lean ====
section
/-! The steps keep rejoin counts within the limit (R21, R26) and serials distinct (R13). -/

namespace Sys2Proof.Machine

variable {p : Premises} {g h : Debt} {s t : State}

/-! ### Rejoin counts -/

/-- The rejoin law: every row's count against the limit, the limit's range, and the counts in RESTORING. -/
structure State.Rejoins (s : State) : Prop where
  rows : ∀ a, (s.slc.rows.get a).rejoins s.tp.effective.rejoinLimit
  limit : 1 ≤ s.tp.effective.rejoinLimit ∧ s.tp.effective.rejoinLimit ≤ 15
  restore : s.rmi.restoring = true → s.slc.turn = none ∧ ∀ a, (s.slc.rows.get a).rejoin = 0

/-- The law is about the station rows, the turn, the limit in force and the part state. -/
theorem State.Rejoins.of_blocks (law : s.Rejoins) (slc : t.slc = s.slc) (effective : t.tp.effective = s.tp.effective)
    (restoring : t.rmi.restoring = s.rmi.restoring) : t.Rejoins := by
  refine ⟨fun a => ?_, ?_, fun is => ?_⟩
  · rw [slc, effective]
    exact law.rows a
  · rw [effective]
    exact law.limit
  · rw [slc]
    exact law.restore (restoring ▸ is)

/-- Rows that follow the ones before them. -/
theorem State.Rejoins.of_follows (rest : p.rest) (turn : p.turn) (law : s.Rejoins) (frame : t = { s with slc := t.slc })
    (same : t.slc.turn = s.slc.turn) (follows : ∀ a, (s.slc.rows.get a).Follows p s (t.slc.rows.get a)) : t.Rejoins := by
  have tp : t.tp = s.tp := by rw [frame]
  have rmi : t.rmi = s.rmi := by rw [frame]
  refine ⟨fun a => ?_, ?_, fun is => ?_⟩
  · rw [tp]
    exact (follows a).rejoin rest (fun restoring => (law.restore restoring).2 a) law.limit.1 (law.rows a)
  · rw [tp]
    exact law.limit
  · rw [rmi] at is
    rw [same]
    exact ⟨(law.restore is).1, fun a => (follows a).zero turn is ((law.restore is).2 a)⟩

theorem setStation_follows {a : Station} {f : StationRow → StationRow} (follows : (s.slc.rows.get a).Follows p s (f (s.slc.rows.get a)))
    (b : Station) : (s.slc.rows.get b).Follows p s ((setStation a f s).slc.rows.get b) := by
  by_cases at_ : b = a
  · subst at_
    simpa [setStation] using follows
  · have same : (setStation a f s).slc.rows.get b = s.slc.rows.get b := by simp [setStation, at_]
    rw [same]
    exact ⟨.refl _, fun _ _ _ rejoins => rejoins, fun _ _ zero => zero⟩

theorem streetMove_rejoins (rest : p.rest) (turn : p.turn) (move : StreetMove p g s h t) (law : s.Rejoins) : t.Rejoins := by
  cases move with
  | sent a c =>
    rcases sendDown_eq a c s with same | same
    · rw [same]
      exact law
    · rw [same]
      have row (b : Station) : ((setStation a (StationRow.push c) s).slc.rows.get b).rejoin = (s.slc.rows.get b).rejoin ∧
          ((setStation a (StationRow.push c) s).slc.rows.get b).state = (s.slc.rows.get b).state := by
        by_cases at_ : b = a
        · subst at_
          simp [setStation, StationRow.push]
        · simp [setStation, at_]
      refine ⟨fun b => ?_, law.limit, fun is => ⟨(law.restore is).1, fun b => (row b).1.trans ((law.restore is).2 b)⟩⟩
      unfold StationRow.rejoins
      rw [(row b).1, (row b).2]
      exact law.rows b
  | rows rows leaving follows => exact State.Rejoins.of_follows rest turn law (t := { s with slc.rows := rows }) rfl rfl follows
  | bound a f follows =>
    exact State.Rejoins.of_follows rest turn law (t := setStation a f s) rfl rfl (setStation_follows follows)
  | loop u rows turn =>
    refine ⟨fun a => ?_, law.limit, fun is => ?_⟩
    · change (u.rows.get a).rejoins _
      rw [rows]
      exact law.rows a
    · obtain ⟨off, zero⟩ := law.restore is
      exact ⟨turn is off, fun a => (congrArg (fun t => (Table.get t a).rejoin) rows).trans (zero a)⟩
  | settled => exact law

/-- A changed limit moves the counts with it (R26). -/
theorem limitRejoin_rejoins {old new : Nat} {row : StationRow} (positive : 1 ≤ new) (rejoins : row.rejoins old) :
    (if new = old then row else row.limitRejoin new).rejoins new := by
  split
  · rename_i same
    rwa [same]
  · rw [StationRow.limitRejoin_eq]
    split_ifs with barred above
    · exact ⟨le_rfl, fun _ => rfl, fun _ => barred⟩
    · exact ⟨Nat.sub_le _ _, fun is => absurd is barred, fun is => by simp at is; omega⟩
    · exact ⟨(Nat.lt_of_not_le above).le, fun is => absurd is barred, fun is => absurd is.ge above⟩

theorem limitRejoin_zero {old new : Nat} {row : StationRow} (positive : 1 ≤ old) (rejoins : row.rejoins old) (zero : row.rejoin = 0)
    (limit : 1 ≤ new) : (if new = old then row else row.limitRejoin new).rejoin = 0 := by
  split
  · exact zero
  · have free : row.state ≠ .barred := fun barred => by
      have full := rejoins.2.mp barred
      omega
    rw [StationRow.limitRejoin_eq, if_neg free, if_neg (by omega)]
    exact zero

theorem rejoins_params {q : Params} (law : s.Rejoins) (range : 1 ≤ q.rejoinLimit ∧ q.rejoinLimit ≤ 15) :
    (applyRejoinLimit s.tp.effective.rejoinLimit q.rejoinLimit { s with tp := s.tp.withEffective q }).Rejoins := by
  have rows := applyRejoinLimit_rows s.tp.effective.rejoinLimit q.rejoinLimit { s with tp := s.tp.withEffective q }
  obtain ⟨table, same⟩ := applyRejoinLimit_frame s.tp.effective.rejoinLimit q.rejoinLimit { s with tp := s.tp.withEffective q }
  rw [same] at rows ⊢
  refine ⟨fun a => ?_, range, fun is => ⟨(law.restore is).1, fun a => ?_⟩⟩
  · rw [rows a]
    exact limitRejoin_rejoins range.1 (law.rows a)
  · rw [rows a]
    exact limitRejoin_zero law.limit.1 (law.rows a) ((law.restore is).2 a) range.1

/-- In RESTORING every count is 0, below any limit. -/
theorem rejoins_loaded {q : Params} (law : s.Rejoins) (restoring : s.rmi.restoring = true)
    (range : 1 ≤ q.rejoinLimit ∧ q.rejoinLimit ≤ 15) : ({ s with tp := { s.tp.withEffective q with written := q } }).Rejoins := by
  refine ⟨fun a => ?_, range, law.restore⟩
  obtain ⟨_, barred⟩ := law.rows a
  have zero := (law.restore restoring).2 a
  have positive := law.limit.1
  refine ⟨zero.trans_le (Nat.zero_le _), fun is => ?_, fun full => ?_⟩
  · have full := barred.mp is
    omega
  · have least : 1 ≤ q.rejoinLimit := range.1
    change (s.slc.rows.get a).rejoin = q.rejoinLimit at full
    omega

theorem rejoins_cold (cause : ResetCause) (hold : Hold) (straps : Straps) (s : State) : (s.cold cause hold straps).Rejoins := by
  have row (a : Station) : (s.cold cause hold straps).slc.rows.get a = StationRow.cold := Table.get_replicate _ _
  have limit : (s.cold cause hold straps).tp.effective.rejoinLimit = 3 := rfl
  refine ⟨fun a => ?_, by rw [limit]; omega, fun _ => ⟨rfl, fun a => by rw [row]; rfl⟩⟩
  rw [row, limit]
  exact ⟨Nat.zero_le _, nofun, nofun⟩

theorem work_rejoins (rest : p.rest) (turn : p.turn) (coming : p.coming) (work : Work p g s h t) (law : s.Rejoins) : t.Rejoins := by
  induction work with
  | refl | weaken => exact law
  | trans _ _ first second => exact second (first law)
  | trunk move =>
    have effective := trunkMove_effective move
    obtain ⟨u, k, rfl, rfl⟩ := trunkMove_frame move
    exact law.of_blocks rfl effective rfl
  | street move => exact streetMove_rejoins rest turn move law
  | desk move =>
    obtain ⟨u, v, rfl⟩ := deskMove_frame move
    exact law.of_blocks rfl rfl rfl
  | cards move =>
    obtain ⟨u, b, rfl, rfl⟩ := cardsMove_frame move
    exact law.of_blocks rfl rfl rfl
  | rows move =>
    obtain ⟨tk, ft, rm, free, off, moved, rfl, rfl⟩ := rowMove_frame move
    exact law.of_blocks rfl rfl rfl
  | memory move =>
    have restoring := memoryMove_restoring move
    obtain ⟨u, m, k, rfl, rfl⟩ := memoryMove_frame move
    exact law.of_blocks rfl rfl restoring
  | ready => exact ⟨law.rows, law.limit, fun is => by cases is⟩
  | params q off _ _ limit => exact rejoins_params law (limit coming law.limit)
  | loaded q restoring limit => exact rejoins_loaded law (restoring rest) limit
  | shut => exact ⟨law.rows, law.limit, fun is => ⟨rfl, (law.restore is).2⟩⟩
  | cold => exact rejoins_cold _ _ _ _
  | _ => exact law.of_blocks rfl rfl rfl

/-! ### The limits on their way into force -/

/-- The rejoin limits that a waiting write carries are in range (R192). -/
def WriteBody.carriesRanged (body : WriteBody) : Prop :=
  ∀ target contents values, body = .record target contents values → ranged values

theorem memoryMove_coming (move : MemoryMove p g s h t) (coming : ∀ e ∈ s.rmi.queue, e.body.carriesRanged) :
    ∀ e ∈ t.rmi.queue, e.body.carriesRanged := by
  have added {body : WriteBody} {reply : Option ReplyTo} (range : body.carriesRanged) :
      ∀ e ∈ (queueWrite body reply s).rmi.queue, e.body.carriesRanged := fun e mem =>
    (List.mem_append.mp mem).elim (coming e) fun new => List.mem_singleton.mp new ▸ range
  cases move with
  | queued target contents values _ range => exact added fun _ _ _ is => by cases is; exact range
  | promised k owed target contents values reply _ range => exact added fun _ _ _ is => by cases is; exact range
  | own w => exact added fun _ _ _ is => by cases w <;> cases is
  | done e rest u head queue =>
    intro x mem
    exact coming x (head ▸ List.mem_cons_of_mem e (queue ▸ mem))
  | interface u queue =>
    intro x mem
    have listed : (x.body, x.reply) ∈ s.rmi.queue.map fun e => (e.body, e.reply) := queue ▸ List.mem_map_of_mem mem
    obtain ⟨y, there, same⟩ := List.mem_map.mp listed
    rw [← (Prod.mk.inj same).1]
    exact coming y there
  | device => exact coming

theorem work_coming (work : Work p g s h t) (coming : ∀ e ∈ s.rmi.queue, e.body.carriesRanged) :
    ∀ e ∈ t.rmi.queue, e.body.carriesRanged := by
  induction work with
  | trans _ _ first second => exact second (first coming)
  | trunk move =>
    obtain ⟨u, k, rfl, rfl⟩ := trunkMove_frame move
    exact coming
  | street move =>
    obtain ⟨u, st, rfl, rfl⟩ := streetMove_frame move
    exact coming
  | desk move =>
    obtain ⟨u, v, rfl⟩ := deskMove_frame move
    exact coming
  | cards move =>
    obtain ⟨u, b, rfl, rfl⟩ := cardsMove_frame move
    exact coming
  | rows move =>
    obtain ⟨tk, ft, rm, free, off, moved, rfl, rfl⟩ := rowMove_frame move
    exact coming
  | memory move => exact memoryMove_coming move coming
  | @params g s q =>
    obtain ⟨rows, same⟩ := applyRejoinLimit_frame s.tp.effective.rejoinLimit q.rejoinLimit { s with tp := s.tp.withEffective q }
    rw [same]
    exact coming
  | accepted k owed n body card =>
    intro e mem
    rcases List.mem_append.mp mem with old | new
    · exact coming e old
    · rw [List.mem_singleton.mp new]
      rintro target contents values rfl
      cases card
  | shut | cold => exact fun e mem => by cases mem
  | _ => exact coming

theorem rejoinLaw_iff : s.rejoinLaw ↔
    s.Rejoins ∧ (∀ e ∈ s.rmi.queue, e.body.carriesRanged) ∧ (s.rmi.restoring = false → s.rmi.atRest) := by
  constructor
  · rintro ⟨count, barred, limit, coming, restore, port⟩
    exact ⟨⟨fun a => ⟨count a, barred a⟩, limit, restore⟩, coming, port⟩
  · rintro ⟨⟨rows, limit, restore⟩, coming, port⟩
    exact ⟨fun a => (rows a).1, fun a => (rows a).2, limit, coming, restore, port⟩

theorem exec_rejoinLaw (c : Instr) (s t : State) (law : s.rejoinLaw) (next : exec c s = .next t) : t.rejoinLaw := by
  obtain ⟨rejoins, coming, rests⟩ := rejoinLaw_iff.mp law
  exact rejoinLaw_iff.mpr ⟨work_rejoins (p := Premises.of c s) rests (fun restoring => (law.restore restoring).1) coming
    (exec_work next) rejoins, work_coming (exec_work next) coming, work_atRest (exec_work next) rests⟩

/-! ### Serials -/

theorem State.serialLaw.of_serials (law : s.serialLaw) (same : ∀ a, (t.slc.rows.get a).serial = (s.slc.rows.get a).serial) :
    t.serialLaw := by
  intro a b some_ equal
  rw [same] at some_
  rw [same, same] at equal
  exact law a b some_ equal

theorem streetMove_serialLaw (move : StreetMove p g s h t) (law : s.serialLaw) : t.serialLaw := by
  cases move with
  | sent a c =>
    rcases sendDown_eq a c s with same | same <;> rw [same]
    · exact law
    · refine law.of_serials fun b => ?_
      by_cases at_ : b = a
      · subst at_
        simp [setStation, StationRow.push]
      · simp [setStation, at_]
  | rows rows leaving _ serial => exact law.of_serials serial
  | bound a f _ _ apart =>
    have other {b : Station} (ne : b ≠ a) : (setStation a f s).slc.rows.get b = s.slc.rows.get b := by simp [setStation, ne]
    have own : (setStation a f s).slc.rows.get a = f (s.slc.rows.get a) := by simp [setStation]
    intro x y some_ equal
    by_cases atx : x = a <;> by_cases aty : y = a
    · rw [atx, aty]
    · rw [atx, own] at some_ equal
      rw [other aty] at equal
      exact absurd equal.symm (apart y aty some_)
    · rw [other atx] at some_ equal
      rw [aty, own] at equal
      exact absurd equal (apart x atx (equal ▸ some_))
    · rw [other atx] at some_ equal
      rw [other aty] at equal
      exact law x y some_ equal
  | loop u rows => exact law.of_serials fun a => by rw [rows]
  | settled => exact law

theorem StationRow.limitRejoin_serial (limit : Nat) (row : StationRow) : (row.limitRejoin limit).serial = row.serial := by
  rw [StationRow.limitRejoin_eq]
  split_ifs <;> rfl

theorem work_serialLaw (work : Work p g s h t) (law : s.serialLaw) : t.serialLaw := by
  induction work with
  | trans _ _ first second => exact second (first law)
  | trunk move =>
    obtain ⟨u, k, rfl, rfl⟩ := trunkMove_frame move
    exact law
  | street move => exact streetMove_serialLaw move law
  | desk move =>
    obtain ⟨u, v, rfl⟩ := deskMove_frame move
    exact law
  | cards move =>
    obtain ⟨u, b, rfl, rfl⟩ := cardsMove_frame move
    exact law
  | rows move =>
    obtain ⟨tk, ft, rm, free, off, moved, rfl, rfl⟩ := rowMove_frame move
    exact law
  | memory move =>
    obtain ⟨u, m, k, rfl, rfl⟩ := memoryMove_frame move
    exact law
  | @params g s q =>
    refine law.of_serials fun a => ?_
    rw [applyRejoinLimit_rows]
    split
    · rfl
    · exact StationRow.limitRejoin_serial _ _
  | cold =>
    intro a b some_
    simp [State.cold, StreetLoop.cold, StationRow.cold] at some_
  | _ => exact law

/-- Settles O60, by the work of a command: the stations it takes out of service are settled before it ends, a count is moved against
the limit in force, and a serial is bound to a row when no other holds it. -/
theorem stepKeepsStationsSettled : Obligations.StepKeepsStationsSettled := by
  refine ⟨fun s t law next => ?_, fun s t law next => ?_, fun s t law next => ?_⟩
  · exact step_keeps (law := State.settledLaw) (fun _ _ law => ⟨law.station, law.empty, law.restore, law.port⟩) exec_settledLaw law next
  · exact step_keeps (law := State.rejoinLaw)
      (fun _ _ law => ⟨law.count, law.barred, law.limit, law.coming, law.restore, law.port⟩) exec_rejoinLaw law next
  · exact step_keeps (law := State.serialLaw) (fun _ _ law => law)
      (fun _ _ _ law next => work_serialLaw (exec_work next) law) law next

end Sys2Proof.Machine
end

