-- ==== Sys2Proof/Proofs/CacheLaw.lean ====
section
/-! What holds of O59: its first clause. Every step keeps the card cache free of two entries for one card, its recency order listing
the valid entries (R105). -/

namespace Sys2Proof.Machine

variable {p : Premises} {g h : Debt} {s t : State}

theorem cardsMove_cacheLaw (move : CardsMove p g s h t) (law : s.cacheLaw) : t.cacheLaw := by
  cases move with
  | counts u entries recency => exact law.of_cache entries recency
  | touched i valid => exact cacheLaw_touch law valid
  | installed m r => exact cacheLaw_install law r
  | flushed => exact cacheLaw_empty rfl rfl
  | _ => exact law.of_cache rfl rfl

theorem deskMove_cache (move : DeskMove p s t) : t.clu.entries = s.clu.entries ∧ t.clu.recency = s.clu.recency := by
  cases move <;> exact ⟨rfl, rfl⟩

theorem work_cacheLaw (work : Work p g s h t) (law : s.cacheLaw) : t.cacheLaw := by
  induction work with
  | refl | weaken => exact law
  | trans _ _ first second => exact second (first law)
  | trunk move =>
    obtain ⟨u, k, rfl, rfl⟩ := trunkMove_frame move
    exact law.of_cache rfl rfl
  | street move =>
    obtain ⟨u, st, rfl, rfl⟩ := streetMove_frame move
    exact law.of_cache rfl rfl
  | desk move => exact law.of_cache (deskMove_cache move).1 (deskMove_cache move).2
  | cards move => exact cardsMove_cacheLaw move law
  | rows move =>
    obtain ⟨tk, ft, rm, free, off, moved, rfl, rfl⟩ := rowMove_frame move
    exact law.of_cache rfl rfl
  | memory move =>
    obtain ⟨u, m, k, rfl, rfl⟩ := memoryMove_frame move
    exact law.of_cache rfl rfl
  | @params g s q =>
    obtain ⟨rows, same⟩ := applyRejoinLimit_frame s.tp.effective.rejoinLimit q.rejoinLimit { s with tp := s.tp.withEffective q }
    rw [same]
    exact law.of_cache rfl rfl
  | accepted k owed n => exact (cacheLaw_invalidate law n).of_cache rfl rfl
  | cold => exact cacheLaw_empty rfl rfl
  | _ => exact law.of_cache rfl rfl

/-- The first clause of O59. -/
theorem step_keeps_cacheLaw (law : s.cacheLaw) (next : step s = .next t) : t.cacheLaw :=
  step_keeps (law := State.cacheLaw) (fun _ _ law => law.of_cache rfl rfl) (fun _ _ _ law next => work_cacheLaw (exec_work next) law)
    law next

end Sys2Proof.Machine
end

