-- ==== Sys2Proof/Proofs/Lists.lean ====
section
/-! What holds of O59: its second clause. Every step keeps the bounded lists within their places (R48, R107, R121, R122). -/

namespace Sys2Proof.Machine

variable {p : Premises} {g h : Debt} {s t : State}

/-! ### Downstream queues -/

/-- R48's bounds on a row's queue. -/
def StationRow.fits (row : StationRow) : Prop :=
  row.queue.length ≤ Config.downPlaces ∧ row.queue.countP (fun q => q.command.isPassDown) ≤ 1

theorem StationRow.fits.of_sublist {old new : StationRow} (fits : old.fits) (sub : new.queue.Sublist old.queue) : new.fits :=
  ⟨sub.length_le.trans fits.1, sub.countP_le.trans fits.2⟩

/-- A row takes a command only into a free place, and a PASS_DOWN only when it holds none (R48). -/
theorem fits_push {row : StationRow} {c : DownCommand} (fits : row.fits) (takes : row.accepts c = .queued) :
    (row.push c).fits := by
  have free : (decide (Config.downPlaces ≤ row.queue.length) || (c.isPassDown && row.queue.any fun q => q.command.isPassDown)) = false := by
    by_contra full
    rw [Bool.not_eq_false] at full
    simp only [StationRow.accepts, full, if_true] at takes
    split at takes <;> cases takes
  obtain ⟨place, single⟩ := Bool.or_eq_false_iff.mp free
  have room : row.queue.length < Config.downPlaces := by simpa using place
  refine ⟨by simpa [StationRow.push] using room, ?_⟩
  simp only [StationRow.push, List.countP_append, List.countP_singleton]
  cases pass : c.isPassDown with
  | false => simpa using fits.2
  | true =>
    have none : row.queue.countP (fun q => q.command.isPassDown) = 0 := by
      rw [List.countP_eq_zero]
      simpa [pass] using single
    simp [none]

theorem streetMove_fits (move : StreetMove p g s h t) (fits : ∀ a, (s.slc.rows.get a).fits) (a : Station) : (t.slc.rows.get a).fits := by
  cases move with
  | sent b c =>
    unfold sendDown
    rcases postDown_cases b c s with ⟨takes, same⟩ | ⟨_, same⟩ <;> rw [same]
    · by_cases at_ : a = b
      · subst at_
        simpa [setStation] using fits_push (fits a) takes
      · simpa [setStation, at_] using fits a
    · exact fits a
  | rows rows leaving follows => exact (fits a).of_sublist (follows a).queue
  | bound b f follows =>
    by_cases at_ : a = b
    · subst at_
      simpa [setStation] using (fits a).of_sublist follows.queue
    · simpa [setStation, at_] using fits a
  | loop u rows =>
    change (u.rows.get a).fits
    rw [rows]
    exact fits a
  | settled => exact fits a

/-! ### Pending requests -/

/-- R121's and R122's bounds on the pending requests. -/
def AdmissionUnit.fits (u : AdmissionUnit) : Prop := u.requests.length ≤ Config.requestPlaces ∧ (u.requests.map (·.row)).Nodup

theorem AdmissionUnit.fits.of_sublist {u v : AdmissionUnit} (fits : u.fits) (sub : v.requests.Sublist u.requests) : v.fits :=
  ⟨sub.length_le.trans fits.1, fits.2.sublist (sub.map _)⟩

theorem deskMove_fits (move : DeskMove p s t) (fits : s.au.fits) : t.au.fits := by
  cases move with
  | desk u _ requests =>
    have length := congrArg List.length requests
    simp only [List.length_map] at length
    exact ⟨length.trans_le fits.1, requests ▸ fits.2⟩
  | cleared => exact ⟨Nat.zero_le _, List.nodup_nil⟩
  | admitted q place alone =>
    have apart := List.any_eq_false.mp (Bool.or_eq_false_iff.mp alone).1
    refine ⟨by simpa using place, ?_⟩
    rw [List.map_append, List.map_singleton]
    refine List.nodup_append.mpr ⟨fits.2, List.nodup_singleton _, fun r old x new => ?_⟩
    obtain ⟨q', before, rfl⟩ := List.mem_map.mp old
    rw [List.mem_singleton.mp new]
    simpa using apart q' before
  | dropped r | granted q => exact fits.of_sublist List.filter_sublist
  | ended | delivered => exact fits

/-! ### The miss list -/

/-- R107's bounds on the miss list, with what keeps them. While a freed place has not been offered, the list may be one short. -/
structure CardLookup.Fits (place : Bool) (u : CardLookup) : Prop where
  missList : u.missList.length ≤ 8
  buckets : (u.missList.map (·.bucket)).Nodup
  full : u.slotWait ≠ [] → 8 ≤ u.missList.length + if place then 1 else 0
  apart : ∀ w ∈ u.slotWait, ∀ e ∈ u.missList, e.bucket ≠ bucketOf w.card

namespace CardLookup.Fits

variable {place place' : Bool} {u v : CardLookup}

/-- Entries that keep their buckets, and a slot-wait order that only loses requests. -/
theorem of_buckets (fits : u.Fits place) (buckets : v.missList.map (·.bucket) = u.missList.map (·.bucket))
    (sub : v.slotWait.Sublist u.slotWait) : v.Fits place := by
  have length := congrArg List.length buckets
  simp only [List.length_map] at length
  refine ⟨length.trans_le fits.missList, buckets ▸ fits.buckets, fun waits => ?_, fun w mem e listed same => ?_⟩
  · rw [length]
    exact fits.full fun none => waits (List.sublist_nil.mp (none ▸ sub))
  · have bucket : e.bucket ∈ u.missList.map (·.bucket) := buckets ▸ List.mem_map_of_mem listed
    obtain ⟨e', before, same'⟩ := List.mem_map.mp bucket
    exact fits.apart w (sub.mem mem) e' before (same'.trans same)

/-- An entry made for a bucket that has none. -/
theorem added (fits : u.Fits place) {b : Bucket} {ws rest : List Waiter} (room : u.missList.length < 8)
    (new : ∀ e ∈ u.missList, e.bucket ≠ b) (waits : rest ≠ [] → 8 ≤ u.missList.length + 1)
    (apart : ∀ w ∈ rest, w ∈ u.slotWait ∧ bucketOf w.card ≠ b) :
    ({ u with missList := u.missList ++ [newEntry b ws], slotWait := rest }).Fits false := by
  have bucket : (newEntry b ws).bucket = b := (newEntry_spec b ws).1
  refine ⟨by simpa using room, ?_, fun some_ => by simpa using waits some_, fun w mem e listed => ?_⟩
  · simp only [List.map_append, List.map_singleton, bucket]
    refine List.nodup_append.mpr ⟨fits.buckets, List.nodup_singleton _, fun x old y last => ?_⟩
    obtain ⟨e, listed, rfl⟩ := List.mem_map.mp old
    rw [List.mem_singleton.mp last]
    exact new e listed
  · obtain ⟨waiting, other⟩ := apart w mem
    rcases List.mem_append.mp listed with old | last
    · exact fits.apart w waiting e old
    · rw [List.mem_singleton.mp last, bucket]
      exact Ne.symm other

end CardLookup.Fits

theorem install_waits (r : CardRecord) (u : CardLookup) : (u.install r).slotWait = u.slotWait := by
  unfold CardLookup.install
  cases installPlace u r.number <;> rfl

theorem cardsMove_fits (move : CardsMove p g s h t) (fits : s.clu.Fits g.place) : t.clu.Fits h.place := by
  cases move with
  | counts u _ _ missList slotWait => exact fits.of_buckets (by rw [missList]) (by rw [slotWait])
  | touched | flushed => exact fits.of_buckets rfl (.refl _)
  | installed m r => exact fits.of_buckets (by rw [install_missList]) (by rw [install_waits])
  | marked b =>
    refine fits.of_buckets ?_ (.refl _)
    simp only [CardLookup.markStale, List.map_map]
    exact List.map_congr_left fun e _ => by simp only [Function.comp_apply]; split <;> rfl
  | cleared => exact ⟨Nat.zero_le _, List.nodup_nil, fun waits => absurd rfl waits, fun w mem => by cases mem⟩
  | joined w =>
    refine fits.of_buckets ?_ (.refl _)
    simp only [List.map_map]
    exact List.map_congr_left fun e _ => by simp only [Function.comp_apply]; split <;> rfl
  | placed w clean place new =>
    have none : s.clu.slotWait = [] := by
      by_contra waits
      have full := fits.full waits
      simp only [clean, Bool.false_eq_true, if_false, Config.missPlaces] at full place
      omega
    rw [clean]
    exact fits.added (rest := s.clu.slotWait) place new (fun waits => absurd none waits) fun w mem => by simp [none] at mem
  | waits w full new =>
    refine ⟨fits.missList, fits.buckets, fun _ => (Nat.le_of_not_lt full).trans (Nat.le_add_right _ _), fun x mem e listed => ?_⟩
    rcases List.mem_append.mp mem with old | last
    · exact fits.apart x old e listed
    · rw [List.mem_singleton.mp last]
      exact new e listed
  | taken w rest head => exact fits.of_buckets rfl (head ▸ List.sublist_cons_self _ _)
  | served w rest head place =>
    have waiting (x : Waiter) (mem : x ∈ rest) : x ∈ s.clu.slotWait := head ▸ List.mem_cons_of_mem _ mem
    have first : w ∈ s.clu.slotWait := head ▸ List.mem_cons_self
    refine fits.added place (fits.apart w first) (fun _ => (fits.full fun none => by simp [none] at first).trans ?_) fun x mem => ?_
    · split <;> omega
    · obtain ⟨listed, other⟩ := List.mem_filter.mp mem
      exact ⟨waiting x listed, by simpa using other⟩
  | left b clean =>
    have sub : (s.clu.missList.filter (·.bucket != b)).Sublist s.clu.missList := List.filter_sublist
    refine ⟨sub.length_le.trans fits.missList, fits.buckets.sublist (sub.map _), fun waits => ?_,
      fun w mem e listed => fits.apart w mem e (List.mem_of_mem_filter listed)⟩
    have full := fits.full waits
    have once : s.clu.missList.countP (·.bucket == b) ≤ 1 := by
      have count := List.nodup_iff_count_le_one.mp fits.buckets b
      rwa [List.count_eq_countP, List.countP_map] at count
    have all := List.length_eq_countP_add_countP (fun e : MissEntry => e.bucket == b) (l := s.clu.missList)
    have rest : (s.clu.missList.filter (·.bucket != b)).length = s.clu.missList.countP (fun e => !(e.bucket == b)) := by
      rw [List.countP_eq_length_filter]
      rfl
    simp only [clean, Bool.false_eq_true, if_false] at full
    simp only [if_true, rest]
    simp only [Bool.not_eq_true, Bool.decide_eq_false] at all
    omega
  | offered full =>
    exact ⟨fits.missList, fits.buckets, fun waits => full waits, fits.apart⟩

theorem deskMove_missList (move : DeskMove p s t) {place : Bool} (fits : s.clu.Fits place) : t.clu.Fits place := by
  cases move with
  | dropped r | granted q d =>
    refine fits.of_buckets ?_ List.filter_sublist
    exact (List.map_map ..).trans (List.map_congr_left fun _ _ => rfl)
  | _ => exact fits

theorem invalidate_missList (n : Number) (u : CardLookup) :
    (u.invalidate n).missList = u.missList ∧ (u.invalidate n).slotWait = u.slotWait := by
  unfold CardLookup.invalidate
  split <;> exact ⟨rfl, rfl⟩

/-! ### The lists together -/

/-- The bounds on the lists, while a freed place may not have been offered. -/
structure State.Fits (place : Bool) (s : State) : Prop where
  down : ∀ a, (s.slc.rows.get a).fits
  requests : s.au.fits
  misses : s.clu.Fits place

theorem listLaw_iff : s.listLaw ↔ s.Fits false := by
  constructor
  · rintro ⟨down, passDown, requests, single, missList, buckets, full, apart⟩
    exact ⟨fun a => ⟨down a, passDown a⟩, ⟨requests, single⟩, missList, buckets, fun waits => (full waits).ge, apart⟩
  · rintro ⟨down, ⟨requests, single⟩, missList, buckets, full, apart⟩
    exact ⟨fun a => (down a).1, fun a => (down a).2, requests, single, missList, buckets,
      fun waits => le_antisymm missList (full waits), apart⟩

theorem work_fits (work : Work p g s h t) (fits : s.Fits g.place) : t.Fits h.place := by
  induction work with
  | refl => exact fits
  | trans _ _ first second => exact second (first fits)
  | @weaken g g' s covers =>
    obtain ⟨down, requests, missList, buckets, full, apart⟩ := fits
    refine ⟨down, requests, missList, buckets, fun waits => (full waits).trans (Nat.add_le_add_left ?_ _), apart⟩
    split
    · rename_i owed
      simp [covers.place owed]
    · exact Nat.zero_le _
  | trunk move =>
    obtain ⟨u, k, rfl, rfl⟩ := trunkMove_frame move
    exact ⟨fits.down, fits.requests, fits.misses⟩
  | street move =>
    have down := streetMove_fits move fits.down
    obtain ⟨u, st, rfl, rfl⟩ := streetMove_frame move
    exact ⟨down, fits.requests, fits.misses⟩
  | desk move =>
    have requests := deskMove_fits move fits.requests
    have misses := deskMove_missList move fits.misses
    obtain ⟨u, v, rfl⟩ := deskMove_frame move
    exact ⟨fits.down, requests, misses⟩
  | cards move =>
    have misses := cardsMove_fits move fits.misses
    obtain ⟨u, b, rfl, rfl⟩ := cardsMove_frame move
    exact ⟨fits.down, fits.requests, misses⟩
  | rows move =>
    obtain ⟨tk, ft, rm, free, off, moved, rfl, rfl⟩ := rowMove_frame move
    exact ⟨fits.down, fits.requests, fits.misses⟩
  | memory move =>
    obtain ⟨u, m, k, rfl, rfl⟩ := memoryMove_frame move
    exact ⟨fits.down, fits.requests, fits.misses⟩
  | @params g s q =>
    have down (a : Station) : ((applyRejoinLimit s.tp.effective.rejoinLimit q.rejoinLimit
        { s with tp := s.tp.withEffective q }).slc.rows.get a).fits := by
      rw [applyRejoinLimit_rows]
      split
      · exact fits.down a
      · rw [StationRow.limitRejoin_eq]
        split_ifs <;> exact fits.down a
    obtain ⟨rows, same⟩ := applyRejoinLimit_frame s.tp.effective.rejoinLimit q.rejoinLimit { s with tp := s.tp.withEffective q }
    rw [same] at down ⊢
    exact ⟨down, fits.requests, fits.misses⟩
  | @accepted g s k owed n body =>
    refine ⟨fits.down, fits.requests, fits.misses.of_buckets (v := ((s.clu.invalidate n).markStale fun b => b == bucketOf n)) ?_ ?_⟩
    · simp only [CardLookup.markStale, List.map_map, (invalidate_missList n s.clu).1]
      exact List.map_congr_left fun e _ => by simp only [Function.comp_apply]; split <;> rfl
    · exact (invalidate_missList n s.clu).2 ▸ .refl _
  | fetched b =>
    refine ⟨fits.down, fits.requests, fits.misses.of_buckets ?_ (.refl _)⟩
    exact (List.map_map ..).trans (List.map_congr_left fun e _ => by simp only [Function.comp_apply]; split <;> rfl)
  | cold =>
    refine ⟨fun a => ?_, ⟨Nat.zero_le _, List.nodup_nil⟩, Nat.zero_le _, List.nodup_nil, fun waits => absurd rfl waits,
      fun w mem => by cases mem⟩
    change ((Table.replicate 62 StationRow.cold).get a).fits
    rw [Table.get_replicate]
    exact ⟨Nat.zero_le _, Nat.zero_le _⟩
  | _ => exact ⟨fits.down, fits.requests, fits.misses⟩

/-- The second clause of O59. -/
theorem step_keeps_listLaw (law : s.listLaw) (next : step s = .next t) : t.listLaw :=
  listLaw_iff.mpr (step_keeps (law := State.Fits false) (fun _ _ fits => ⟨fits.down, fits.requests, fits.misses⟩)
    (fun _ _ _ fits next => work_fits (exec_work next) fits) (listLaw_iff.mp law) next)

end Sys2Proof.Machine
end

