-- ==== Sys2Proof/Proofs/CachedLaw.lean ====
section
/-! What holds of O59: its last clause, with the cache's own law beside it (R105), which the clause leaves out. A valid entry equals its
card's record in the record memory, with no write of that card outstanding. -/

namespace Sys2Proof.Machine

variable {p : Premises} {g h : Debt} {s t : State}

/-! ### The law and what it speaks of -/

/-- A miss list entry as the law has it: a granted fetch that is not stale has no card write to its bucket, and what it is to bring is
of its bucket. -/
def MissEntry.Sound (queue : List WriteEntry) (m : MissEntry) : Prop :=
  (m.granted = true → m.stale = false → ∀ e ∈ queue, e.body.bucket ≠ some m.bucket) ∧ ∀ n ∈ m.wanted, bucketOf n = m.bucket

theorem State.cachedLaw.sound (law : s.cachedLaw) {m : MissEntry} (listed : m ∈ s.clu.missList) : m.Sound s.rmi.queue :=
  ⟨law.stale m listed, law.wanted m listed⟩

/-- A cache that gives entries up, sound miss list entries and a write queue that only loses bodies keep the law. -/
theorem State.cachedLaw.of_cards (law : s.cachedLaw) (memory : t.memory = s.memory)
    (queue : ∀ e ∈ t.rmi.queue, ∃ e' ∈ s.rmi.queue, e'.body = e.body)
    (entries : ∀ i r, t.clu.entries.get i = some r → s.clu.entries.get i = some r)
    (misses : ∀ m ∈ t.clu.missList, m.Sound s.rmi.queue) : t.cachedLaw where
  equal i r entry := by
    obtain ⟨held, unwritten⟩ := law.equal i r (entries i r entry)
    refine ⟨memory ▸ held, fun e mem => ?_⟩
    obtain ⟨e', before, body⟩ := queue e mem
    exact body ▸ unwritten e' before
  stale m listed granted fresh e mem := by
    obtain ⟨e', before, body⟩ := queue e mem
    exact body ▸ (misses m listed).1 granted fresh e' before
  wanted m listed := (misses m listed).2
  inside e mem := by
    obtain ⟨e', before, body⟩ := queue e mem
    exact body ▸ law.inside e' before

theorem State.cachedLaw.of_blocks (law : s.cachedLaw) (memory : t.memory = s.memory) (queue : t.rmi.queue = s.rmi.queue)
    (clu : t.clu = s.clu) : t.cachedLaw :=
  law.of_cards memory (fun e mem => ⟨e, queue ▸ mem, rfl⟩) (fun i r entry => by rwa [← clu]) fun m listed => law.sound (clu ▸ listed)

/-! ### The moves of the cards -/

theorem install_entries {r x : CardRecord} {u : CardLookup} {i : Fin 32} (entry : (u.install r).entries.get i = some x) :
    x = r ∨ u.entries.get i = some x := by
  unfold CardLookup.install at entry
  split at entry
  · simp only [CardLookup.touch, Table.get_set] at entry
    split at entry
    · exact .inl (Option.some.inj entry).symm
    · exact .inr entry
  · exact .inr entry

theorem mem_addWanted {wanted : List Number} {waiting : List Waiter} {n x : Number} (mem : x ∈ addWanted wanted waiting n) :
    x ∈ wanted ∨ x = n := by
  unfold addWanted at mem
  split at mem
  · exact .inl mem
  · split at mem <;> rcases List.mem_append.mp mem with old | new
    · exact .inl old
    · exact .inr (List.mem_singleton.mp new)
    · exact .inl (List.mem_of_mem_eraseP old)
    · exact .inr (List.mem_singleton.mp new)

theorem MissEntry.Sound.join {queue : List WriteEntry} {m : MissEntry} {w : Waiter} (sound : m.Sound queue)
    (bucket : bucketOf w.card = m.bucket) : (m.join w).Sound queue := by
  refine ⟨sound.1, fun n wanted => ?_⟩
  rcases mem_addWanted wanted with old | rfl
  · exact sound.2 n old
  · exact bucket

/-- A new entry is QUEUED and wants the cards of its requests. -/
theorem sound_newEntry (queue : List WriteEntry) {b : Bucket} {ws : List Waiter} (same : ∀ w ∈ ws, bucketOf w.card = b) :
    (newEntry b ws).Sound queue := by
  have joins : ∀ (l : List Waiter) (m : MissEntry), m.bucket = b → m.Sound queue → (∀ w ∈ l, bucketOf w.card = b) →
      (l.foldl (fun e w => e.join w) m).Sound queue := by
    intro l
    induction l with
    | nil => exact fun _ _ sound _ => sound
    | cons w rest ih =>
      exact fun m bucket sound all => ih (m.join w) bucket (sound.join ((all w List.mem_cons_self).trans bucket.symm))
        fun x mem => all x (List.mem_cons_of_mem w mem)
  exact joins ws _ rfl ⟨nofun, nofun⟩ same

theorem WriteBody.bucket_of_card {body : WriteBody} {n : Number} (card : body.card = some n) : body.bucket = some (bucketOf n) := by
  cases body <;> simp_all [WriteBody.card, WriteBody.bucket]

theorem WriteBody.writesBucket_iff {body : WriteBody} {b : Bucket} : body.writesBucket b = true ↔ body.bucket = some b := by
  cases body <;> simp [WriteBody.writesBucket, WriteBody.bucket]

/-- Entries marked stale stay sound. -/
theorem sound_markStale {queue : List WriteEntry} {u : CardLookup} {b : Bucket → Bool} (sound : ∀ m ∈ u.missList, m.Sound queue) :
    ∀ m ∈ (u.markStale b).missList, m.Sound queue := by
  intro m listed
  obtain ⟨e, before, rfl⟩ := List.mem_map.mp listed
  split
  · exact ⟨fun _ fresh => (by cases fresh), (sound e before).2⟩
  · exact sound e before

theorem cachedLaw_installed {m : MissEntry} {r : CardRecord} (law : s.cachedLaw) (asked : m ∈ s.clu.missList)
    (granted : m.granted = true) (fresh : m.stale = false) (wanted : r.number ∈ m.wanted)
    (held : bucketOf r.number = m.bucket → searchBucket (heldSlots s.memory (bucketOf r.number)) r.number = .found r) :
    ({ s with clu := s.clu.install r }).cachedLaw := by
  have bucket := law.wanted m asked r.number wanted
  refine ⟨fun i x entry => ?_, fun m listed => ?_, fun m listed => ?_, law.inside⟩
  · rcases install_entries entry with rfl | old
    · refine ⟨held bucket, fun e mem card => ?_⟩
      exact law.stale m asked granted fresh e mem ((WriteBody.bucket_of_card card).trans (congrArg some bucket))
    · exact law.equal i x old
  · exact law.stale m (install_missList r s.clu ▸ listed)
  · exact law.wanted m (install_missList r s.clu ▸ listed)

theorem cardsMove_cachedLaw (device : p.device) (move : CardsMove p g s h t) (law : s.cachedLaw) : t.cachedLaw := by
  have waiting {t : State} (memory : t.memory = s.memory) (rmi : t.rmi = s.rmi) (entries : t.clu.entries = s.clu.entries)
      (misses : ∀ m ∈ t.clu.missList, m.Sound s.rmi.queue) : t.cachedLaw :=
    law.of_cards memory (fun e mem => ⟨e, rmi ▸ mem, rfl⟩) (fun i r entry => by rwa [← entries]) misses
  cases move with
  | counts u entries recency missList => exact waiting rfl rfl entries fun m listed => law.sound (missList ▸ listed)
  | touched | waits | taken => exact waiting rfl rfl rfl fun m listed => law.sound listed
  | installed m r asked granted fresh wanted held => exact cachedLaw_installed law asked granted fresh wanted (held device)
  | flushed =>
    exact law.of_cards rfl (fun e mem => ⟨e, mem, rfl⟩) (fun i r entry => by simp [CardLookup.flush] at entry)
      fun m listed => law.sound listed
  | marked b => exact waiting rfl rfl rfl (sound_markStale fun m listed => law.sound listed)
  | cleared => exact waiting rfl rfl rfl fun m listed => by cases listed
  | joined w =>
    refine waiting rfl rfl rfl fun m listed => ?_
    obtain ⟨e, before, rfl⟩ := List.mem_map.mp listed
    split
    · rename_i bucket
      exact (law.sound before).join bucket.symm
    · exact law.sound before
  | placed w =>
    refine waiting rfl rfl rfl fun m listed => ?_
    rcases List.mem_append.mp listed with old | new
    · exact law.sound old
    · rw [List.mem_singleton.mp new]
      exact sound_newEntry _ fun x mem => by rw [List.mem_singleton.mp mem]
  | served w rest =>
    refine waiting rfl rfl rfl fun m listed => ?_
    rcases List.mem_append.mp listed with old | new
    · exact law.sound old
    · rw [List.mem_singleton.mp new]
      refine sound_newEntry _ fun x mem => ?_
      rcases List.mem_cons.mp mem with rfl | later
      · rfl
      · simpa using (List.mem_filter.mp later).2
  | left b => exact waiting rfl rfl rfl fun m listed => law.sound (List.mem_of_mem_filter listed)
  | offered => exact law

theorem deskMove_cachedLaw (move : DeskMove p s t) (law : s.cachedLaw) : t.cachedLaw := by
  cases move with
  | dropped r | granted q d =>
    refine law.of_cards rfl (fun e mem => ⟨e, mem, rfl⟩) (fun _ _ entry => entry) fun m listed => ?_
    obtain ⟨e, before, rfl⟩ := List.mem_map.mp listed
    exact ⟨(law.sound before).1, (law.sound before).2⟩
  | _ => exact law.of_blocks rfl rfl rfl

/-! ### The moves of the record memory -/

/-- A write that is not of a card enters the queue. -/
theorem cachedLaw_queued {e : WriteEntry} (law : s.cachedLaw) (card : e.body.card = none) (bucket : e.body.bucket = none)
    (inside : e.body.inside) : ({ s with rmi.queue := s.rmi.queue ++ [e] }).cachedLaw := by
  refine ⟨fun i r entry => ⟨(law.equal i r entry).1, fun x mem => ?_⟩, fun m listed granted fresh x mem => ?_, law.wanted,
    fun x mem => ?_⟩
  all_goals rcases List.mem_append.mp mem with old | new
  · exact (law.equal i r entry).2 x old
  · rw [List.mem_singleton.mp new, card]
    nofun
  · exact law.stale m listed granted fresh x old
  · rw [List.mem_singleton.mp new, bucket]
    nofun
  · exact law.inside x old
  · rw [List.mem_singleton.mp new]
    exact inside

theorem memoryMove_cachedLaw (device : p.device) (move : MemoryMove p g s h t) (wf : s.memory.wf = true) (law : s.cachedLaw) :
    t.cachedLaw := by
  cases move with
  | queued target contents values inside | promised k owed target contents values reply inside =>
    exact cachedLaw_queued law rfl rfl fun _ _ _ is => by cases is; exact inside
  | own w => exact cachedLaw_queued law (own_body w).2 (by cases w <;> rfl) fun _ _ _ is => by cases w <;> cases is
  | done e rest u head queue =>
    refine law.of_cards rfl (fun x mem => ⟨x, head ▸ List.mem_cons_of_mem e (queue ▸ mem), rfl⟩) (fun _ _ entry => entry)
      fun m listed => law.sound listed
  | interface u queue =>
    refine law.of_cards rfl (fun x mem => ?_) (fun _ _ entry => entry) fun m listed => law.sound listed
    have listed : (x.body, x.reply) ∈ s.rmi.queue.map fun e => (e.body, e.reply) := queue ▸ List.mem_map_of_mem mem
    obtain ⟨y, there, same⟩ := List.mem_map.mp listed
    exact ⟨y, there, (Prod.mk.inj same).1⟩
  | device m _ keeps =>
    refine ⟨fun i r entry => ?_, law.stale, law.wanted, law.inside⟩
    obtain ⟨held, unwritten⟩ := law.equal i r entry
    exact ⟨keeps device wf law.inside r unwritten held, unwritten⟩

/-- An accepted card write makes the card's entry invalid and the granted fetches of its bucket stale (R115, R116). -/
theorem cachedLaw_accepted {n : Number} {body : WriteBody} {kind : CommandKind} {tag : Byte} (law : s.cachedLaw) (cache : s.cacheLaw)
    (card : body.card = some n) : (acceptCardWrite n body kind tag s).cachedLaw := by
  have bucket := WriteBody.bucket_of_card card
  have before {m : MissEntry} (listed : m ∈ (acceptCardWrite n body kind tag s).clu.missList) :
      ∃ e ∈ s.clu.missList, m = if e.granted && e.bucket == bucketOf n then { e with stale := true } else e := by
    obtain ⟨e, there, same⟩ := List.mem_map.mp listed
    exact ⟨e, (invalidate_missList n s.clu).1 ▸ there, same.symm⟩
  refine ⟨fun i r entry => ?_, fun m listed granted fresh x mem => ?_, fun m listed => ?_, fun x mem => ?_⟩
  · obtain ⟨old, other⟩ := (get_invalidate cache n i r).mp entry
    obtain ⟨held, unwritten⟩ := law.equal i r old
    refine ⟨held, fun x mem => ?_⟩
    rcases List.mem_append.mp mem with waits | new
    · exact unwritten x waits
    · rw [List.mem_singleton.mp new, card]
      exact fun same => other (Option.some.inj same).symm
  · obtain ⟨e, there, rfl⟩ := before listed
    split at granted <;> rename_i marks
    · rw [if_pos marks] at fresh
      cases fresh
    · rw [if_neg marks] at fresh ⊢
      rcases List.mem_append.mp mem with waits | new
      · exact law.stale e there granted fresh x waits
      · rw [List.mem_singleton.mp new, bucket]
        exact fun same => marks (by simp [granted, Option.some.inj same])
  · obtain ⟨e, there, rfl⟩ := before listed
    split <;> exact law.wanted e there
  · rcases List.mem_append.mp mem with waits | new
    · exact law.inside x waits
    · rw [List.mem_singleton.mp new]
      rintro target contents values rfl
      cases card

/-- A fetch granted is stale when a card write to its bucket waits (R109). -/
theorem cachedLaw_fetched {b : Bucket} (law : s.cachedLaw) : (grantFetch b s).cachedLaw := by
  refine law.of_cards rfl (fun e mem => ⟨e, mem, rfl⟩) (fun _ _ entry => entry) fun m listed => ?_
  obtain ⟨e, before, rfl⟩ := List.mem_map.mp listed
  split
  · rename_i same
    refine ⟨fun _ fresh x waits writes => ?_, (law.sound before).2⟩
    have none := List.any_eq_false.mp fresh x waits
    exact none (WriteBody.writesBucket_iff.mpr (same ▸ writes))
  · exact law.sound before

/-! ### The clause -/

/-- The law until a FULL reset is taken, with the cache's own law and the record memory's form. -/
structure State.Cached (s : State) : Prop where
  cache : s.cacheLaw
  wf : s.memoryWf
  law : s.hold ≠ .trunkFull → s.cachedLaw

theorem work_cached (device : p.device) (work : Work p g s h t) (cached : s.Cached) : t.Cached := by
  refine ⟨work_cacheLaw work cached.cache, work_wf work cached.wf, ?_⟩
  induction work with
  | refl | weaken | cleaned => exact cached.law
  | trans first _ ih later => exact later ⟨work_cacheLaw first cached.cache, work_wf first cached.wf, ih cached⟩
  | trunk move =>
    obtain ⟨u, k, rfl, rfl⟩ := trunkMove_frame move
    exact fun running => (cached.law running).of_blocks rfl rfl rfl
  | street move =>
    obtain ⟨u, st, rfl, rfl⟩ := streetMove_frame move
    exact fun running => (cached.law running).of_blocks rfl rfl rfl
  | desk move =>
    have kept := deskMove_cachedLaw move
    obtain ⟨u, v, rfl⟩ := deskMove_frame move
    exact fun running => kept (cached.law running)
  | cards move =>
    have kept := cardsMove_cachedLaw device move
    obtain ⟨u, b, rfl, rfl⟩ := cardsMove_frame move
    exact fun running => kept (cached.law running)
  | rows move =>
    obtain ⟨tk, ft, rm, free, off, moved, rfl, rfl⟩ := rowMove_frame move
    exact fun running => (cached.law running).of_blocks rfl rfl rfl
  | memory move =>
    have kept := memoryMove_cachedLaw device move cached.wf
    obtain ⟨u, m, k, rfl, rfl⟩ := memoryMove_frame move
    exact fun running => kept (cached.law running)
  | @params g s q =>
    obtain ⟨rows, same⟩ := applyRejoinLimit_frame s.tp.effective.rejoinLimit q.rejoinLimit { s with tp := s.tp.withEffective q }
    rw [same]
    exact fun running => (cached.law running).of_blocks rfl rfl rfl
  | accepted k owed n body card => exact fun running => cachedLaw_accepted (cached.law running) cached.cache card
  | fetched b => exact fun running => cachedLaw_fetched (cached.law running)
  | shut => exact fun running => absurd rfl running
  | cold =>
    exact fun _ => ⟨fun i r entry => by simp [State.cold, CardLookup.cold] at entry, fun m listed => (by cases listed),
      fun m listed => (by cases listed), fun e mem => (by cases mem)⟩
  | held hold straps free => exact fun running => (cached.law (free running)).of_blocks rfl rfl rfl
  | _ => exact fun running => (cached.law running).of_blocks rfl rfl rfl

/-- The last clause of O59 holds of a cache that keeps its own law. -/
theorem step_keeps_cachedLaw (faithful : ∀ c rest, s.pending = c :: rest → keepsBuckets c) (cached : s.Cached)
    (next : step s = .next t) : t.Cached := by
  unfold step at next
  split at next
  · cases next
    exact cached
  · rename_i c rest front
    refine work_cached (p := Premises.of c { s with pending := rest }) (faithful c rest front) (exec_work next)
      ⟨cached.cache.of_cache rfl rfl, cached.wf, fun running => (cached.law running).of_blocks rfl rfl rfl⟩

end Sys2Proof.Machine
end

