-- ==== Sys2Proof/Proofs/DoubledCard.lean ====
section
/-! The last clause of O59 leaves out that the cache holds no card twice (`step_keeps_cachedLaw` assumes it). From a cache with two valid entries for one card, each equal
to its record, an accepted CARD_DROP makes the first invalid alone; the other stays valid while the write of its card waits. -/

namespace Sys2Proof.Machine

/-- A card. -/
def twiceCard : CardRecord :=
  { number := 777, status := .active, account := 9, cls := 0, rights := 0xFF, expiry := none, start := none, home := none }

/-- The part in READY with the card in the record memory and twice in the cache, and a CARD_DROP of it waiting. -/
def twiceCached : State :=
  { State.reset with
    clu := { CardLookup.cold with entries := (CardLookup.cold.entries.set 0 (some twiceCard)).set 1 (some twiceCard), recency := [0, 1] }
    rmi := { State.reset.rmi with restoring := false }
    memory := Memory.writeBytes [] (slotAddress (bucketOf 777) 0) (slotOf twiceCard)
    pending := [.cardDrop 1 (bytesOf 4 777)] }

theorem twiceCached_entry {i : Fin 32} {r : CardRecord} (entry : twiceCached.clu.entries.get i = some r) : r = twiceCard := by
  change (((CardLookup.cold.entries.set 0 (some twiceCard)).set 1 (some twiceCard)).get i) = some r at entry
  rw [Table.get_set, Table.get_set] at entry
  split at entry
  · exact (Option.some.inj entry).symm
  · split at entry
    · exact (Option.some.inj entry).symm
    · simp [CardLookup.cold] at entry

theorem twiceCached_held : searchBucket (heldSlots twiceCached.memory (bucketOf 777)) 777 = .found twiceCard := by decide +kernel

theorem twiceCached_wf : twiceCached.memoryWf := by
  have held : twiceCached.memory.wf = true := by decide +kernel
  exact held

/-- Both entries equal the card's record, and no write waits. -/
theorem twiceCached_cachedLaw : twiceCached.cachedLaw where
  equal i r entry := by
    rw [twiceCached_entry entry]
    exact ⟨twiceCached_held, fun e waits => by cases waits⟩
  stale m listed := by cases listed
  wanted m listed := by cases listed
  inside e waits := by cases waits

/-- The first entry becomes invalid, and the card's write waits. -/
theorem twiceCached_step : ∃ t, step twiceCached = .next t ∧ t.hold = .running ∧ t.clu.entries.get 1 = some twiceCard ∧
    ∃ e ∈ t.rmi.queue, e.body.card = some 777 := by
  have found : cacheFind twiceCached.clu 777 = some 0 := by decide
  have serves : State.serves { twiceCached with pending := [] } := ⟨rfl, rfl, by decide⟩
  refine ⟨_, cardCommandsAccepted.2.1 1 777 { twiceCached with pending := [] } serves rfl (by decide) (by decide) (by decide),
    rfl, ?_, ?_⟩
  · simp only [State.awaiting, found]
    rfl
  · exact ⟨_, List.mem_append_right _ (List.mem_singleton.mpr rfl), rfl⟩

/-- Refutes O59: the clause on the valid entries assumes nothing that keeps one card from having two. -/
theorem not_stepKeepsTheCacheAndLists : ¬ Obligations.StepKeepsTheCacheAndLists := by
  rintro ⟨-, -, keepsEqual⟩
  obtain ⟨t, next, running, entry, e, waits, card⟩ := twiceCached_step
  have law := keepsEqual twiceCached t (fun c rest front => by cases front; trivial) twiceCached_wf
    (fun _ => twiceCached_cachedLaw) next (by simp [running])
  exact (law.equal 1 twiceCard entry).2 e waits card

end Sys2Proof.Machine
end
